-- ==== Sys2Proof/Word.lean ====
section
/-! DEFINITION. The register word of the host interface (10_state.md: every register is 32 bits wide). -/

namespace Sys2Proof

/-- A host register, a command word, or the data of a host access: 32 bits, bit 0 least significant (R9, R71). -/
abbrev Word := BitVec 32

end Sys2Proof
end

