-- ==== Sys2Proof/Syntax.lean ====
section
/-! DEFINITION. The commands: one constructor per row of spec/opcode_table.json (30_encoding.md R100 to R103). -/

namespace Sys2Proof

/-- A channel: A has index 0 and B has index 1 (00_scope.md R6, R14). -/
inductive Chan where
  | a
  | b
deriving DecidableEq, Repr, Inhabited

/-- A register bank, and the engine that runs the commands written to it (10_state.md R20, 00_scope.md R13). -/
inductive Bank where
  | global
  | chan (c : Chan)
deriving DecidableEq, Repr, Inhabited

/-- A command together with the bank it is written to. The word has no channel field (R100): the channel operand
of a channel command is the bank that was written (R20, log 3). SUB and IMM16 operands keep their bits (R101). -/
inductive Instr where
  /-- INIT, 0x01 in GCMD (R320). -/
  | init
  /-- TERM, 0x02 in GCMD (R321). -/
  | term
  /-- STANDBY, 0x03 in GCMD; SUB[0] is 1 to enter and 0 to leave (R322). -/
  | standby (enter : Bool)
  /-- SET_LDPC_MODE, 0x04 in GCMD; SUB[0] is 0 for single and 1 for dual (R323). -/
  | setLdpcMode (dual : Bool)
  /-- INTERP, 0x10; SUB is the table id (R146). -/
  | interp (c : Chan) (table : BitVec 3)
  /-- INTERP2, 0x11; SUB is the coarse table id and IMM16[2:0] the fine one (R147). -/
  | interp2 (c : Chan) (coarse fine : BitVec 3)
  /-- GET_RF_LEVEL, 0x12 (R148). -/
  | getRfLevel (c : Chan)
  /-- GET_CN, 0x13 (R149). -/
  | getCn (c : Chan)
  /-- CARRIER_OFFSET, 0x20; SUB[0] is 1 when the raw value is read from the device (R168). -/
  | carrierOffset (c : Chan) (dev : Bool)
  /-- SYMBOL_RATE, 0x21; SUB[0] as for CARRIER_OFFSET (R169). -/
  | symbolRate (c : Chan) (dev : Bool)
  /-- TIMING_OFFSET, 0x22; SUB[0] as for CARRIER_OFFSET (R170). -/
  | timingOffset (c : Chan) (dev : Bool)
  /-- ENC_SYMBOL_RATE, 0x23 (R171). -/
  | encSymbolRate (c : Chan)
  /-- SELECT_STANDARD, 0x30; SUB[0] is 1 when the device fields are written (R181). -/
  | selectStandard (c : Chan) (wr : Bool)
  /-- COMPUTE_TIMEOUTS, 0x31; SUB[1:0] is the algorithm code (R185). -/
  | computeTimeouts (c : Chan) (algo : BitVec 2)
  /-- SELECT_CLG, 0x32; SUB[0] is 1 when the device field is written (R189). -/
  | selectClg (c : Chan) (wr : Bool)
  /-- SEARCH, 0x40 (R200). -/
  | search (c : Chan)
  /-- ABORT, 0x41 (R324). -/
  | abort (c : Chan)
  /-- UNLOCK, 0x42 (R325). -/
  | unlock (c : Chan)
  /-- GET_SIGNAL_INFO, 0x50 (R290). -/
  | getSignalInfo (c : Chan)
  /-- GET_PER, 0x51 (R293). -/
  | getPer (c : Chan)
  /-- LDPC_MONITOR, 0x52 (R294). -/
  | ldpcMonitor (c : Chan)
deriving DecidableEq, Repr, Inhabited

end Sys2Proof
end

