-- ==== Sys2Proof/WellFormed.lean ====
section
/-! DEFINITION. Which commands have operands that name something (30_encoding.md R103). -/

namespace Sys2Proof

/-- R103: the SUB and IMM16 operands name a table or an algorithm. A command that fails this check is a BAD_OPERAND
of the word itself. INIT's check on MCLK depends on the state and is made at acceptance (Machine/Ops.lean). -/
def Instr.wellFormed : Instr → Bool
  | .interp _ t => t.toNat < 4
  | .interp2 _ coarse fine => coarse.toNat < 4 && fine.toNat < 4
  | .computeTimeouts _ algo => algo.toNat < 3
  | .init => true
  | .term => true
  | .standby _ => true
  | .setLdpcMode _ => true
  | .getRfLevel _ => true
  | .getCn _ => true
  | .carrierOffset _ _ => true
  | .symbolRate _ _ => true
  | .timingOffset _ _ => true
  | .encSymbolRate _ => true
  | .selectStandard _ _ => true
  | .selectClg _ _ => true
  | .search _ => true
  | .abort _ => true
  | .unlock _ => true
  | .getSignalInfo _ => true
  | .getPer _ => true
  | .ldpcMonitor _ => true

end Sys2Proof
end

