-- ==== Sys2Proof/Decode.lean ====
section
/-! DEFINITION. Decoding a command word for the bank it is written to (30_encoding.md R100 to R105 lines (1) and (2)),
and the encoder. -/

namespace Sys2Proof

/-- Why a word is not a command of the bank it is written to (R104, the first two lines of R105). -/
inductive DecodeError where
  /-- R105 line (1): the opcode is not in the bank's map. -/
  | illegalOpcode
  /-- R105 line (2): a reserved or must-be-0 bit is 1. -/
  | reservedField
deriving DecidableEq, Repr

/-- The OPCODE field, bits [7:0] (R100). -/
def opcodeOf (w : Word) : BitVec 8 := w.extractLsb' 0 8

/-- The SUB field, bits [10:8] (R100, R101). -/
def subOf (w : Word) : BitVec 3 := w.extractLsb' 8 3

/-- The RSV field, bits [15:11] (R100). -/
def rsvOf (w : Word) : BitVec 5 := w.extractLsb' 11 5

/-- The IMM16 field, bits [31:16] (R100, R101). -/
def immOf (w : Word) : BitVec 16 := w.extractLsb' 16 16

/-- RSV and IMM16 are 0, and no bit of SUB outside `subMask` is 1: the reserved-field check of R103 and R104 for every
command but INTERP2. -/
def plainFields (subMask : BitVec 3) (w : Word) : Bool :=
  rsvOf w == 0 && immOf w == 0 && (subOf w &&& ~~~subMask) == 0

/-- The reserved-field check of INTERP2, whose IMM16[2:0] is the fine table id (R103). -/
def interp2Fields (w : Word) : Bool :=
  rsvOf w == 0 && (immOf w).extractLsb' 3 13 == 0

/-- SUB[0] as a flag (R103). -/
def subFlag (w : Word) : Bool := (subOf w).getLsbD 0

/-- `i` when the reserved-field check holds (R105 line (2)). -/
def guarded (ok : Bool) (i : Instr) : Except DecodeError Instr :=
  if ok then .ok i else .error .reservedField

/-- The global opcodes of R102. -/
def decodeGlobal (w : Word) : Except DecodeError Instr :=
  match (opcodeOf w).toNat with
  | 0x01 => guarded (plainFields 0 w) .init
  | 0x02 => guarded (plainFields 0 w) .term
  | 0x03 => guarded (plainFields 1 w) (.standby (subFlag w))
  | 0x04 => guarded (plainFields 1 w) (.setLdpcMode (subFlag w))
  | _ => .error .illegalOpcode

/-- The channel opcodes of R102, for the channel whose CMD was written. -/
def decodeChan (c : Chan) (w : Word) : Except DecodeError Instr :=
  match (opcodeOf w).toNat with
  | 0x10 => guarded (plainFields 7 w) (.interp c (subOf w))
  | 0x11 => guarded (interp2Fields w) (.interp2 c (subOf w) ((immOf w).extractLsb' 0 3))
  | 0x12 => guarded (plainFields 0 w) (.getRfLevel c)
  | 0x13 => guarded (plainFields 0 w) (.getCn c)
  | 0x20 => guarded (plainFields 1 w) (.carrierOffset c (subFlag w))
  | 0x21 => guarded (plainFields 1 w) (.symbolRate c (subFlag w))
  | 0x22 => guarded (plainFields 1 w) (.timingOffset c (subFlag w))
  | 0x23 => guarded (plainFields 0 w) (.encSymbolRate c)
  | 0x30 => guarded (plainFields 1 w) (.selectStandard c (subFlag w))
  | 0x31 => guarded (plainFields 3 w) (.computeTimeouts c ((subOf w).extractLsb' 0 2))
  | 0x32 => guarded (plainFields 1 w) (.selectClg c (subFlag w))
  | 0x40 => guarded (plainFields 0 w) (.search c)
  | 0x41 => guarded (plainFields 0 w) (.abort c)
  | 0x42 => guarded (plainFields 0 w) (.unlock c)
  | 0x50 => guarded (plainFields 0 w) (.getSignalInfo c)
  | 0x51 => guarded (plainFields 0 w) (.getPer c)
  | 0x52 => guarded (plainFields 0 w) (.ldpcMonitor c)
  | _ => .error .illegalOpcode

/-- R107: a decoder needs only the word and the bank it was written to. -/
def decode : Bank → Word → Except DecodeError Instr
  | .global, w => decodeGlobal w
  | .chan c, w => decodeChan c w

/-- The bank a command is accepted in (R102). -/
def Instr.bank : Instr → Bank
  | .init => .global
  | .term => .global
  | .standby _ => .global
  | .setLdpcMode _ => .global
  | .interp c _ => .chan c
  | .interp2 c _ _ => .chan c
  | .getRfLevel c => .chan c
  | .getCn c => .chan c
  | .carrierOffset c _ => .chan c
  | .symbolRate c _ => .chan c
  | .timingOffset c _ => .chan c
  | .encSymbolRate c => .chan c
  | .selectStandard c _ => .chan c
  | .computeTimeouts c _ => .chan c
  | .selectClg c _ => .chan c
  | .search c => .chan c
  | .abort c => .chan c
  | .unlock c => .chan c
  | .getSignalInfo c => .chan c
  | .getPer c => .chan c
  | .ldpcMonitor c => .chan c

/-- The opcode of a command (R102). -/
def Instr.opcode : Instr → BitVec 8
  | .init => 0x01
  | .term => 0x02
  | .standby _ => 0x03
  | .setLdpcMode _ => 0x04
  | .interp _ _ => 0x10
  | .interp2 _ _ _ => 0x11
  | .getRfLevel _ => 0x12
  | .getCn _ => 0x13
  | .carrierOffset _ _ => 0x20
  | .symbolRate _ _ => 0x21
  | .timingOffset _ _ => 0x22
  | .encSymbolRate _ => 0x23
  | .selectStandard _ _ => 0x30
  | .computeTimeouts _ _ => 0x31
  | .selectClg _ _ => 0x32
  | .search _ => 0x40
  | .abort _ => 0x41
  | .unlock _ => 0x42
  | .getSignalInfo _ => 0x50
  | .getPer _ => 0x51
  | .ldpcMonitor _ => 0x52

/-- The SUB field of a command's word (R103). -/
def Instr.sub : Instr → BitVec 3
  | .standby enter => (BitVec.ofBool enter).setWidth 3
  | .setLdpcMode dual => (BitVec.ofBool dual).setWidth 3
  | .interp _ t => t
  | .interp2 _ coarse _ => coarse
  | .carrierOffset _ dev => (BitVec.ofBool dev).setWidth 3
  | .symbolRate _ dev => (BitVec.ofBool dev).setWidth 3
  | .timingOffset _ dev => (BitVec.ofBool dev).setWidth 3
  | .selectStandard _ wr => (BitVec.ofBool wr).setWidth 3
  | .computeTimeouts _ algo => algo.setWidth 3
  | .selectClg _ wr => (BitVec.ofBool wr).setWidth 3
  | .init => 0
  | .term => 0
  | .getRfLevel _ => 0
  | .getCn _ => 0
  | .encSymbolRate _ => 0
  | .search _ => 0
  | .abort _ => 0
  | .unlock _ => 0
  | .getSignalInfo _ => 0
  | .getPer _ => 0
  | .ldpcMonitor _ => 0

/-- The IMM16 field of a command's word (R103): the fine table id for INTERP2, else 0. -/
def Instr.imm : Instr → BitVec 16
  | .interp2 _ _ fine => fine.setWidth 16
  | .init => 0
  | .term => 0
  | .standby _ => 0
  | .setLdpcMode _ => 0
  | .interp _ _ => 0
  | .getRfLevel _ => 0
  | .getCn _ => 0
  | .carrierOffset _ _ => 0
  | .symbolRate _ _ => 0
  | .timingOffset _ _ => 0
  | .encSymbolRate _ => 0
  | .selectStandard _ _ => 0
  | .computeTimeouts _ _ => 0
  | .selectClg _ _ => 0
  | .search _ => 0
  | .abort _ => 0
  | .unlock _ => 0
  | .getSignalInfo _ => 0
  | .getPer _ => 0
  | .ldpcMonitor _ => 0

/-- The word of a command, written to the command register of `i.bank`: IMM16, RSV = 0, SUB, OPCODE (R100). -/
def encode (i : Instr) : Word := i.imm ++ (0 : BitVec 5) ++ i.sub ++ i.opcode

/-- The instruction the decoder reads from a table row's word: a word of a global row goes to GCMD, any other to CMD
of channel A (R102; the word names no channel, log 2). -/
def decodeTableWord (nbits w : Nat) : Option Instr :=
  let word := BitVec.ofNat 32 (w % 2 ^ nbits)
  match decode .global word with
  | .ok i => some i
  | .error _ =>
    match decode (.chan .a) word with
    | .ok i => some i
    | .error _ => none

end Sys2Proof
end

