-- ==== Sys2Proof/Machine/Arith.lean ====
section
/-! DEFINITION. The arithmetic of 00_scope.md R10 and R11: exact integers, and the named reductions and divisions. -/

namespace Sys2Proof.Machine

/-- zext_N(v): the unsigned value of the low N bits of v (R10). -/
def zext (n : Nat) (v : Int) : Int := v % 2 ^ n

/-- sext_N(v): the two's-complement value of the low N bits of v (R10). -/
def sext (n : Nat) (v : Int) : Int :=
  if v % 2 ^ n < 2 ^ (n - 1) then v % 2 ^ n else v % 2 ^ n - 2 ^ n

/-- wrap_32(v), as a register value (R10). -/
def wrap32 (v : Int) : Word := BitVec.ofInt 32 v

/-- sat(v, lo, hi) (R10). -/
def sat (v lo hi : Int) : Int := min (max v lo) hi

/-- floor_div(a, b) for b > 0: the greatest integer at most a/b (R11). -/
def floorDiv (a b : Int) : Int := a / b

/-- trunc_div(a, b) for b ≠ 0: a/b rounded toward zero (R11). -/
def truncDiv (a b : Int) : Int := Int.tdiv a b

/-- round_div(a, b) for b > 0: to nearest, halves toward +∞ (R11). -/
def roundDiv (a b : Int) : Int := floorDiv (2 * a + b) (2 * b)

/-- ceil(T / 10): the iterations of the poll loop (43_search_fsm.md R202, POLL_MS = 10). -/
def pollCount (t : Nat) : Nat := (t + 9) / 10

end Sys2Proof.Machine
end

