-- ==== Sys2Proof/Config.lean ====
section
/-! DEFINITION. What an implementation fixes and the source leaves open: the parameter record of 00_scope.md R7 with
its constraints, and the free values. Nothing in Lean can evaluate `Config.cfg` or a free value. The default values of
the records' fields only show that the constraints can be met together; no definition reads them. -/

namespace Sys2Proof

/-- The three hardware revision profiles (00_scope.md R2, 10_state.md R27). -/
inductive Profile where
  | p0
  | p1
  | p2
deriving DecidableEq, Repr, Inhabited

/-- The search algorithms (REQ_MODE.ALGO, 10_state.md R28). -/
inductive Algo where
  | blind
  | cold
  | warm
deriving DecidableEq, Repr, Inhabited

/-- The class a zig-zag parameter function is asked for (44_blind_zigzag.md R271). -/
inductive ZzClass where
  | s1
  | s2
deriving DecidableEq, Repr, Inhabited

/-- How the two tests of the signal-absent check combine (44_blind_zigzag.md R275). -/
inductive AbsentMode where
  | both
  | either
deriving DecidableEq, Repr, Inhabited

/-- One calibration point: a raw value of 16 bits and a physical value, a signed 32-bit integer (40_lookup.md R145). -/
structure CalPoint where
  raw : BitVec 16
  phys : BitVec 32
deriving DecidableEq, Repr, Inhabited

/-- The raw values are strictly monotonic, all increasing or all decreasing (R145). -/
def strictlyMonotonic (points : List CalPoint) : Bool :=
  decide (points.Pairwise fun p q => p.raw.toNat < q.raw.toNat) ||
    decide (points.Pairwise fun p q => q.raw.toNat < p.raw.toNat)

/-- A calibration table in the form R145 requires. A list of another form is not a configuration: it cannot be
built (I22). -/
structure CalTable where
  points : List CalPoint := [⟨0, 0⟩, ⟨1, 0⟩]
  two_points : 2 ≤ points.length := by decide
  monotonic : strictlyMonotonic points = true := by decide
deriving DecidableEq, Repr, Inhabited

/-- `low` covers weaker levels than `rf` (R7, the row of RF_LOW_TABLE): one of its levels is weaker than every level of
`rf`. R7 has the words only; this reading assumes the least they can say (log 9). -/
def coversWeaker (low rf : CalTable) : Bool :=
  low.points.any fun q => rf.points.all fun p => decide (q.phys.toInt < p.phys.toInt)

/-- The constants of one revision profile (R7, the PROF rows). -/
structure Prof where
  /-- CLG_LONG[m][b][pl]: modcode, symbol-rate bucket, pilots. -/
  clgLong : Nat → Fin 5 → Bool → BitVec 8
  /-- CLG_SHORT[q][b]: modulation, symbol-rate bucket. -/
  clgShort : Fin 4 → Fin 5 → BitVec 8
  clgS1 : BitVec 8
  agc2NosigTh : BitVec 16
  agc2LockTh : BitVec 16
  zzAgc2AbsentTh : BitVec 16
  tmgrefMax : BitVec 8 := 0
  tmgrefMin : BitVec 8 := 0
  tmgrefStep : BitVec 8 := 1
  /-- "about 50,000,000 to 55,000,000" in R7: not an exact bound, so none is assumed (log 9). -/
  coarseSrMax : BitVec 32
  s1FalseLockWa : Bool
  /-- Read by no rule (R7, N5); `Cfg.sw_search_const_cut20` has its value for the cut-2.0 profile. -/
  swSearchConst : BitVec 8 := 0x79
  tmgref_range : tmgrefMin ≤ tmgrefMax := by decide
  tmgref_step : 1 ≤ tmgrefStep := by decide
deriving Inhabited

/-- The parameters the source leaves open (R7, the CFG rows), with the constraints R7 states and no others (R8). Times
are in ms, frequencies in Hz, rates in baud (R15). -/
structure Cfg where
  profileOf : BitVec 8 → Profile
  prof : Profile → Prof := fun _ => default
  rfTable : CalTable := {}
  rfLowTable : CalTable := { points := [⟨0, 0⟩, ⟨1, -1⟩] }
  cnS1Table : CalTable
  cnS2Table : CalTable
  tmoDemodBlind : Fin 6 → BitVec 32 := fun _ => 0
  tmoFecBlind : Fin 6 → BitVec 32 := fun _ => 0
  tmoDemodCold : Fin 6 → BitVec 32 := fun _ => 0
  tmoFecCold : Fin 6 → BitVec 32 := fun _ => 0
  unreliableRate : BitVec 3 := 1
  agc1ZeroTh : BitVec 16
  iqNosigTh : BitVec 8
  srMin : BitVec 32 := 1
  srMax : BitVec 32
  rangeMin : BitVec 32
  rangeMax : BitVec 32
  srNarrowPct : Nat := 0
  /-- TUNER_BW_ACQ(sr, range, algo), a number of Hz that is not negative: the model's choice, R7 has no sign (log 9). -/
  tunerBwAcq : Int → Int → Algo → Nat
  tunerBwMargin : BitVec 32
  /-- RANGE_MARGIN(sr, rolloff code), a number of Hz that is not negative: the model's choice, R7 has no sign (log 9).
  Code 3 may have a margin of its own: nothing here ties it to code 0 (log 24). -/
  rangeMargin : Int → BitVec 2 → Nat := fun _ _ => 0
  agc2SweepStep : BitVec 32 := 1
  agc2SettleMs : BitVec 32
  coarseDwellMs : BitVec 32
  coarseFreqStep : Int → Nat := fun _ => 1
  tmgQualMin : BitVec 2
  faultSamples : BitVec 8 := 1
  zzStep : Int → ZzClass → Nat := fun _ _ => 1
  /-- ZZ_MAX_RANGE(sr, class), a number of Hz that is not negative: the model's choice, R7 has no sign (log 9). -/
  zzMaxRange : Int → ZzClass → Nat
  zzMaxSteps : Int → ZzClass → Nat := fun _ _ => 1
  /-- ZZ_TMO(sr, class), a number of ms that is not negative (log 9). -/
  zzTmo : Int → ZzClass → Nat
  flywheelTh : BitVec 4
  zzSanityHz : BitVec 32
  zzAbsentMode : AbsentMode
  cnSampleDelayMs : BitVec 32
  siginfoReset : Bool
  /-- LDPC_MODE_INIT: false is SINGLE, true is DUAL. -/
  ldpcModeInitDual : Bool
  searchReenablesModcodes : Bool
  /-- TMG_SCALE; R7 gives the value 10. -/
  tmgScale : Int := 10
  /-- NUM_MODCODES; R7 gives the value 28. -/
  numModcodes : Nat := 28
  rf_low_covers_weaker : coversWeaker rfLowTable rfTable = true := by decide
  /-- SW_SEARCH_CONST is 0x79 for the cut-2.0 profile; no rule says which of the three that is (log 9). -/
  sw_search_const_cut20 : ∃ p, (prof p).swSearchConst = 0x79 := by exact ⟨.p2, rfl⟩
  tmo_demod_blind_noninc : ∀ i j : Fin 6, i ≤ j → tmoDemodBlind j ≤ tmoDemodBlind i := by decide
  tmo_fec_blind_noninc : ∀ i j : Fin 6, i ≤ j → tmoFecBlind j ≤ tmoFecBlind i := by decide
  tmo_demod_cold_noninc : ∀ i j : Fin 6, i ≤ j → tmoDemodCold j ≤ tmoDemodCold i := by decide
  tmo_fec_cold_noninc : ∀ i j : Fin 6, i ≤ j → tmoFecCold j ≤ tmoFecCold i := by decide
  tmo_demod_blind_le_cold : ∀ i : Fin 6, tmoDemodBlind i ≤ tmoDemodCold i := by decide
  tmo_fec_blind_le_cold : ∀ i : Fin 6, tmoFecBlind i ≤ tmoFecCold i := by decide
  unreliable_rate_code : 1 ≤ unreliableRate ∧ unreliableRate ≤ 6 := by decide
  sr_min_pos : 1 ≤ srMin := by decide
  sr_narrow_pct : srNarrowPct ≤ 100 := by decide
  range_margin_scenario : ∃ ρ, rangeMargin 27500000 ρ < 1500000 := by decide
  agc2_sweep_step_pos : 1 ≤ agc2SweepStep := by decide
  coarse_freq_step_pos : ∀ sr, 1 ≤ coarseFreqStep sr := by intro _; decide
  fault_samples_pos : 1 ≤ faultSamples := by decide
  zz_step_pos : ∀ sr cls, 1 ≤ zzStep sr cls := by intro _ _; decide
  zz_max_steps_pos : ∀ sr cls, 1 ≤ zzMaxSteps sr cls := by intro _ _; decide
  zz_step_order : ∀ sr, zzStep sr .s1 ≤ zzStep sr .s2 := by intro _; decide
  zz_max_steps_order : ∀ sr, zzMaxSteps sr .s2 ≤ zzMaxSteps sr .s1 := by intro _; decide
  tmg_scale_value : tmgScale = 10 := by decide
  num_modcodes_value : numModcodes = 28 := by decide
deriving Inhabited

/-- What the environment answers to one bus transaction, and whether it fails it (R13, 20_memory.md R74, R79). The
value is any integer; the primitive reduces it to the width its rule gives (log 11). -/
structure Answer where
  fails : Bool
  value : Int
deriving DecidableEq, Repr, Inhabited

/-- One host access (20_memory.md R70): an address, a width in bytes, and the data of a write. -/
inductive HostAccess where
  | read (addr width : Nat)
  | write (addr width : Nat) (v : Word)
deriving DecidableEq, Repr, Inhabited

/-- The next thing to happen (R13): a host access, or a step of an engine with the environment's answer for it. -/
inductive Turn where
  | host (access : HostAccess)
  | engine (e : Bank) (ans : Answer)
deriving DecidableEq, Repr, Inhabited

/-- The parameters of this implementation: any record R7 allows (log 9). -/
opaque Config.cfg : Cfg

/-- A free value: the turn that comes when `State.turns` lists none (R13: any agent may be scheduled next, with every
oracle answer; log 1). -/
opaque Config.freeTurn : Nat → Turn

/-- A free value: what the host reads, at a tick, from a result register that the running command writes
(93_implementation_defined.md I20, 20_memory.md R80, 70_reset_and_hazards.md R374; log 22). -/
opaque Config.freeBusyRead : Nat → Word

/-- A free value: what EncSR gives with a master clock of 0, where R164 states no result (log 5). -/
opaque Config.freeEncSr : Int → BitVec 16

/-- A free value: what EncCar gives with a master clock of 0, where R165 states no result (log 5). -/
opaque Config.freeEncCar : Int → BitVec 16

end Sys2Proof
end

