-- ==== Sys2Proof/Machine/State.lean ====
section
/-! DEFINITION. The state of the machine as plain data: the register banks of 10_state.md, the hidden contexts of R31
to R33 with the engines' program points, and the model's own input and history fields. -/

namespace Sys2Proof.Machine

/-! ## Names of the device field space (20_memory.md R74 to R77) -/

/-- The per-channel device fields the block reads (R75). -/
inductive ReadField where
  | agc1Integ | powerI | powerQ | agc2Integ | demodLock | tmgLock | tmgLockQuality | fecLock | detectedStd
  | carFreq | sfr | tmgOffset | modcode | frameLen | pilots | rolloff | punctRate | spectrumInv | flywheel
  | noiseS1 | noiseS2 | berCnt | perErr | perTotal | ldpcPktErr | ldpcFrameErr | carOvf | tmgOvf
deriving DecidableEq, Repr

/-- The per-channel device fields the block writes (R76). -/
inductive WriteField where
  | dmdState | sfrInit | sfrLow | sfrUp | cfrInit | iqMode | rolloffCtrl | stdEnS1 | stdEnS2 | dssMode | prMask
  | carLoopGain | tmgRef | modcodeEn | cntReset | ldpcCntReset | berMode
deriving DecidableEq, Repr

/-- The global device fields the block writes (R77). -/
inductive GlobalField where
  | mclkCfg | ldpcMode | devStandby
deriving DecidableEq, Repr

/-- One primitive of an engine (00_scope.md R12): a bus transaction, or a Sleep. -/
inductive Prim where
  /-- DevRead of a field of channel `c` (R74). -/
  | devRead (c : Chan) (f : ReadField)
  /-- DevWrite of `v` to a field of channel `c` (R74). -/
  | devWrite (c : Chan) (f : WriteField) (v : Int)
  /-- DevRead of the global field CHIP_ID (R77). -/
  | readChipId
  /-- DevWrite of a global field (R77). -/
  | globalWrite (f : GlobalField) (v : Int)
  /-- SetFrequency on the tuner bound to channel `c` (60_exceptions.md R351, 46_lifecycle.md R328). -/
  | tunerSetFrequency (c : Chan) (hz : Int)
  /-- SetBandwidth on the tuner bound to channel `c`. -/
  | tunerSetBandwidth (c : Chan) (hz : Int)
  /-- GetFrequency of the tuner bound to channel `c`. -/
  | tunerGetFrequency (c : Chan)
  /-- The LNA presence probe (R351). -/
  | lnaProbe
  /-- The LNA gain read (R351). -/
  | lnaGetGain
  /-- Sleep for `ms` milliseconds: the one primitive that is no bus transaction (43_search_fsm.md R203). -/
  | sleep (ms : Nat)
deriving DecidableEq, Repr

/-- A primitive to come. Its operand is computed in the pure computation just before it (R13), so an operand that
reads a register is kept as the expression to evaluate then. -/
inductive Op where
  | prim (p : Prim)
  /-- DevWrite(f, EncSR(M, sr)). -/
  | encSr (c : Chan) (f : WriteField) (sr : Int)
  /-- DevWrite(f, EncSR(M, PROF[p].COARSE_SR_MAX)). -/
  | encSrMax (c : Chan) (f : WriteField)
  /-- DevWrite(CFR_INIT, EncCar(M, off)). -/
  | encCar (c : Chan) (off : Int)
  /-- DevWrite(MCLK_CFG, MCLK). -/
  | mclkCfg
deriving DecidableEq, Repr

/-- A transaction that went over the bus: who issued it, what it was (a write with the value delivered), the value a
read returned (0 for a write or a failure), and whether it succeeded (R78, R79). -/
structure BusEvent where
  engine : Bank
  prim : Prim
  value : Int
  ok : Bool
deriving DecidableEq, Repr

/-! ## Codes (10_state.md R25, R34; 60_exceptions.md R340) -/

/-- CMD_RESULT; codes 8 to 15 are never written (R340, I12). -/
inductive CmdResult where
  | ok | busError | rejectedBusy | illegalOpcode | reservedField | notInitialized | badOperand | inStandby
deriving DecidableEq, Repr

/-- STATUS.STATE; values 0x0F to 0x1F are never produced (R34, I11). -/
inductive SearchState where
  | idle | coarseAcquire | directLock | carrierZigzagSweep | blindCoarseSymbolRate | demodLocked
  | trackingOptimized | fecLocked | tracking | noSignal | noLock | rangeExceeded | noData | busError | badParameter
deriving DecidableEq, Repr

/-- STATUS.BLIND_PHASE (R25, 44_blind_zigzag.md R250). -/
inductive BlindPhase where
  | none | agc2Sweep | coarse | fine
deriving DecidableEq, Repr

/-! ## Locals of the running commands (R33) -/

/-- The request snapshot ch.req, taken at SEARCH accept (43_search_fsm.md R200). -/
structure Request where
  freq : Word
  sr : Word
  range : Word
  algo : BitVec 2
  std : BitVec 2
  iq : BitVec 2
  pr : BitVec 3
  berMode : Bool
deriving DecidableEq, Repr

/-- Which attempt of a SEARCH runs: the first, or a retry of the false-lock workaround (R217). -/
inductive Stage where
  | first
  | retryInverted
  | retryNormal
deriving DecidableEq, Repr

/-- The request of one attempt (R210). A retry's frequency and rate are those measured, which are unbounded integers. -/
structure Attempt where
  freq : Int
  sr : Int
  range : Int
  algo : Algo
  std : BitVec 2
  iq : BitVec 2
  pr : BitVec 3
  berMode : Bool
  stage : Stage
deriving DecidableEq, Repr

/-- What a readback found besides the three numbers (R211); the fields of RSL_PARAMS (R29). -/
structure Detected where
  std : BitVec 2
  modcode : BitVec 5
  pr : BitVec 3
  pilots : BitVec 1
  frame : BitVec 1
  rolloff : BitVec 2
  inversion : BitVec 1
deriving DecidableEq, Repr

/-- The record `res` of R211. -/
structure Readback where
  freq : Int
  sr : Int
  car : Int
  det : Detected
deriving DecidableEq, Repr

/-- Locals of the blind search: the fault run of R256, the timing reference of R250, the step `fs` of R253. -/
structure BlindLocals where
  faultRun : Nat
  kref : Int
  freqStep : Int
deriving DecidableEq, Repr

/-- Locals of the zig-zag sweep (44_blind_zigzag.md R270): LINEAR mode, false locks so far, step index. -/
structure ZigLocals where
  linear : Bool
  falseLocks : Nat
  k : Nat
deriving DecidableEq, Repr

/-- The places that wait for a lock with WaitFor (43_search_fsm.md R202). -/
inductive WaitSite where
  /-- R208. -/
  | direct (a : Attempt)
  /-- R270. -/
  | zigzag (a : Attempt) (z : ZigLocals)
  /-- R257, with the coarse estimate srC. -/
  | fine (a : Attempt) (bl : BlindLocals) (srC : Int)
  /-- R213 (no retry yet) and R214 (after `tries` retries), with the FEC timeout of R207. -/
  | relock (a : Attempt) (res : Readback) (fTmo : Nat) (tries : Nat)
  /-- R215. -/
  | fec (a : Attempt) (res : Readback) (fTmo : Nat)
deriving DecidableEq, Repr

/-- Where in the SEARCH body the engine is, between two straight lines of primitives. -/
inductive SearchPoint where
  /-- After the MODCODE_EN write of R201. -/
  | reenabled
  /-- After the AGC1 read of R205. -/
  | agc1
  /-- After the two power reads of R205. -/
  | power
  /-- After the last write of R206. -/
  | coarseDone (a : Attempt)
  /-- After the writes that start an acquisition; the lock wait of `site` comes next. -/
  | armed (site : WaitSite)
  /-- After one iteration of the poll loop of R202, `left` iterations before its end. -/
  | wait (site : WaitSite) (left : Nat)
  /-- After the TMG_LOCK read of R209. -/
  | tmgLock (a : Attempt)
  /-- After the DETECTED_STD read of R273. -/
  | zzStd (a : Attempt) (z : ZigLocals)
  /-- After the first FLYWHEEL read of R273. -/
  | zzFly (a : Attempt) (z : ZigLocals)
  /-- After the second FLYWHEEL read of R273. -/
  | zzFlyAgain (a : Attempt) (z : ZigLocals)
  /-- After the two reads of R275. -/
  | zzAbsent (a : Attempt) (z : ZigLocals)
  /-- After the AGC2 read of step `k` of the pre-sweep, `minA` before it (R251). -/
  | sweep (a : Attempt) (k : Nat) (minA : Int)
  /-- After the TMG_REF write of R250. -/
  | tmgRef (a : Attempt) (bl : BlindLocals)
  /-- After the reads of coarse step `k` (R253, R256). -/
  | coarseStep (a : Attempt) (bl : BlindLocals) (k : Nat)
  /-- After the CAR_FREQ read of a coarse step that met the three conditions (R253). -/
  | coarseCar (a : Attempt) (bl : BlindLocals) (srC fAct : Int)
  /-- After the first four reads of R211. -/
  | readStd (a : Attempt) (fTmo : Nat)
  /-- After the last read of R211. -/
  | readRest (a : Attempt) (fTmo : Nat) (std : BitVec 2) (cRaw sRaw tRaw : Int)
  /-- After the CNT_RESET write of R216. -/
  | fecCleared
deriving DecidableEq, Repr

/-- The values GET_SIGNAL_INFO has gathered (45_tracking.md R290). -/
structure InfoLocals where
  freq : Int
  sr : Int
  det : Detected
  err : Int
  total : Int
  rf : Int
deriving DecidableEq, Repr

/-- A program point of a running command, between two straight lines of primitives: what to do with the values read. -/
inductive Kont where
  /-- GET_RF_LEVEL after the AGC1 read (40_lookup.md R148). -/
  | rfAgc
  /-- GET_RF_LEVEL after the LNA gain read. -/
  | rfGain (rf : Int)
  /-- GET_CN after the DETECTED_STD read (R149). -/
  | cnStd
  /-- GET_CN after the 16 samples. -/
  | cnSamples (std : BitVec 2)
  /-- CARRIER_OFFSET after its device read (41_estimators.md R168). -/
  | carrierRead
  /-- SYMBOL_RATE after its device read (R169). -/
  | symbolRead
  /-- TIMING_OFFSET after its device read (R170). -/
  | timingRead
  /-- SELECT_STANDARD after its four writes (42_configuration.md R181). -/
  | stdWritten (res : Word)
  /-- SELECT_CLG after its write (R189). -/
  | clgWritten (g : BitVec 8)
  /-- GET_SIGNAL_INFO after the tuner frequency and CAR_FREQ reads (R290). -/
  | infoCar
  /-- GET_SIGNAL_INFO after the SFR read. -/
  | infoSfr (freq : Int)
  /-- GET_SIGNAL_INFO after the TMG_OFFSET and DETECTED_STD reads. -/
  | infoStd (freq srN : Int)
  /-- GET_SIGNAL_INFO after the AGC1 read. -/
  | infoAgc (freq srT : Int) (std : BitVec 2)
  /-- GET_SIGNAL_INFO after the LNA gain read. -/
  | infoGain (p : InfoLocals)
  /-- GET_SIGNAL_INFO after the DETECTED_STD read of CnMeasure. -/
  | infoCnStd (p : InfoLocals)
  /-- GET_SIGNAL_INFO after the 16 samples of CnMeasure. -/
  | infoCnSamples (p : InfoLocals) (std : BitVec 2)
  /-- GET_SIGNAL_INFO after the CNT_RESET write (R292). -/
  | infoReset (p : InfoLocals) (cn : Int)
  /-- GET_PER after its two reads (R293). -/
  | perRead
  /-- LDPC_MONITOR after the LDPC_CNT_RESET write (R294). -/
  | ldpcRead
  /-- LDPC_MONITOR after writing MODCODE_EN = 0. -/
  | ldpcDisabled
  /-- LDPC_MONITOR after writing MODCODE_EN = ALL_MODCODES. -/
  | ldpcEnabled
  /-- INIT after the CHIP_ID read (46_lifecycle.md R320). -/
  | initId
  /-- INIT after its last write. -/
  | initDone (chipId : BitVec 8)
  /-- TERM after its last write (R321). -/
  | termDone
  /-- STANDBY after its last write (R322). -/
  | standbyDone
  /-- SET_LDPC_MODE after its write (R323). -/
  | ldpcModeDone
  /-- UNLOCK after its write (R325). -/
  | unlockDone
  /-- SEARCH (43_search_fsm.md, 44_blind_zigzag.md). -/
  | search (p : SearchPoint)
deriving DecidableEq, Repr

/-- The engine's program point ch.pc (R31, R33). -/
inductive Point where
  /-- Accepted, no step of the command's rule taken yet (R105 line (9)). -/
  | start
  /-- The next step performs `now`; then `rest`; then the command goes on at `k` with the values read, oldest
  first (`got` holds those read so far). -/
  | before (now : Prim) (rest : List Op) (got : List Int) (k : Kont)
deriving DecidableEq, Repr

/-- A running command. -/
structure Run where
  instr : Instr
  point : Point
deriving DecidableEq, Repr

/-! ## Register banks -/

/-- What every engine has: the BUSY, CMD_RESULT and LAST_OPCODE fields of its status register (R23, R25), its running
command (R31 to R33), and its elapsed time, the sum of the Sleeps of the command last accepted (R203, R350). -/
structure Engine where
  busy : Bool := false
  cmdResult : CmdResult := .ok
  lastOpcode : BitVec 8 := 0
  run : Option Run := none
  elapsed : Nat := 0
deriving DecidableEq, Repr

/-- The global bank: GID (R22), GSTATUS (R23) and MCLK (R24). Every reset value is R370's. -/
structure Global where
  eng : Engine := {}
  chipId : BitVec 8 := 0
  profile : Profile := .p0
  initialized : Bool := false
  standby : Bool := false
  lnaPresent : Bool := false
  ldpcDual : Bool := false
  mclk : Word := 0
deriving DecidableEq, Repr

/-- One channel bank (R25, R26, R28 to R30) and its hidden context (R31). Reserved bits are not stored (R21). Every
reset value is R370's. -/
structure Channel where
  eng : Engine := {}
  state : SearchState := .idle
  locked : Bool := false
  aborted : Bool := false
  ldpcStopped : Bool := false
  blindPhase : BlindPhase := .none
  arg0 : Word := 0
  arg1 : Word := 0
  arg2 : Word := 0
  arg3 : Word := 0
  res0 : Word := 0
  res1 : Word := 0
  res2 : Word := 0
  res3 : Word := 0
  /-- CH_CFG.BER_MODE. -/
  berMode : Bool := false
  reqFreq : Word := 0
  reqSr : Word := 0
  reqRange : Word := 0
  /-- REQ_MODE[8:0]. -/
  reqMode : BitVec 9 := 0
  rslFreq : Word := 0
  rslSr : Word := 0
  rslOffset : Word := 0
  /-- RSL_PARAMS[14:0]. -/
  rslParams : BitVec 15 := 0
  tmFreq : Word := 0
  tmSr : Word := 0
  tmRf : Word := 0
  tmCn : Word := 0
  tmErr : Word := 0
  tmTotal : Word := 0
  /-- TM_PARAMS[14:0]. -/
  tmParams : BitVec 15 := 0
  ldpcStat : Word := 0
  /-- ch.abort. -/
  abortReq : Bool := false
  /-- ch.req. -/
  req : Request := ⟨0, 0, 0, 0, 0, 0, 0, false⟩
  /-- ch.ldpcStopped, the mirror of STATUS.LDPC_STOPPED. -/
  stoppedMirror : Bool := false
  /-- ch.modcodeMask. -/
  modcodeMask : Word := 0
deriving DecidableEq, Repr

/-- The machine. `glob`, `a` and `b` are the spec's state; the other fields are the model's own (log 1, log 10):
the history of the bus, the data of the last host read, the turns to come, and the counter of free turns. -/
structure State where
  glob : Global := {}
  a : Channel := {}
  b : Channel := {}
  /-- Bus transactions so far, newest first. -/
  bus : List BusEvent := []
  /-- What the last host read returned. -/
  hostData : Word := 0
  /-- The turns to come, next first. -/
  turns : List Turn := []
  /-- Turns taken so far. -/
  tick : Nat := 0
deriving DecidableEq, Repr

/-- The machine right after power-on reset (70_reset_and_hazards.md R370). -/
def State.reset : State := {}

/-! ## Outcomes -/

/-- Host accesses outside the interface contract (60_exceptions.md R343, I1). -/
inductive Fault where
  /-- Raised by the step of a host access whose width is not 4 bytes. Safe: the spec's model refuses the access and
  no state changes. -/
  | hostWidth
  /-- Raised by the step of a host access at an address that is not a multiple of 4. Safe, as above. -/
  | hostAlign
  /-- Raised by the step of a host access at an address the map of R72 does not list. Safe, as above. -/
  | hostUnmapped
deriving DecidableEq, Repr

/-- Refusals. No meaning of this model refuses. -/
inductive Refusal where
  /-- Would be raised by an arm of exec that has no meaning yet; there is none. Safe: the run stops. -/
  | notModelled (mnemonic : String)
deriving DecidableEq, Repr

/-- The outcome of a turn. -/
abbrev Result := Host.Outcome State Fault Refusal

/-- What a host access asks for (R70 to R73, R105). -/
inductive HostStep where
  /-- Outside the contract (R343). -/
  | fault (r : Fault)
  /-- An access with no command, and the state after it. -/
  | done (s : State)
  /-- A word written to the command register of `bank`. -/
  | command (bank : Bank) (w : Word)
deriving DecidableEq, Repr

/-! ## Access to the banks -/

/-- The bank of a channel. -/
def State.chan (s : State) : Chan → Channel
  | .a => s.a
  | .b => s.b

/-- `s` with the bank of channel `c` replaced. -/
def State.setChan (s : State) (c : Chan) (ch : Channel) : State :=
  match c with
  | .a => { s with a := ch }
  | .b => { s with b := ch }

/-- `s` with the bank of channel `c` changed by `f`. -/
def State.updChan (s : State) (c : Chan) (f : Channel → Channel) : State := s.setChan c (f (s.chan c))

/-- `s` with the global bank changed by `f`. -/
def State.updGlob (s : State) (f : Global → Global) : State := { s with glob := f s.glob }

/-- The engine of a bank. -/
def State.eng (s : State) : Bank → Engine
  | .global => s.glob.eng
  | .chan c => (s.chan c).eng

/-- `s` with the engine of a bank changed by `f`. -/
def State.updEng (s : State) (e : Bank) (f : Engine → Engine) : State :=
  match e with
  | .global => s.updGlob fun g => { g with eng := f g.eng }
  | .chan c => s.updChan c fun ch => { ch with eng := f ch.eng }

/-- The command the engine of a bank runs. -/
def State.running (s : State) (e : Bank) : Option Run := (s.eng e).run

/-- g.cmdOwner of 10_state.md R32, as a view: the engines that run a command (log 16). -/
def State.cmdOwners (s : State) : List Bank :=
  [Bank.global, .chan .a, .chan .b].filter fun e => (s.running e).isSome

/-- The turn that moves now: the next one listed, else the free one of this tick (log 1). -/
def State.now (s : State) : Turn :=
  match s.turns with
  | t :: _ => t
  | [] => Config.freeTurn s.tick

/-- `s` after its turn has been taken. -/
def State.advance (s : State) : State := { s with turns := s.turns.tail, tick := s.tick + 1 }

end Sys2Proof.Machine
end

