-- ==== Sys2Proof/Machine/Operands.lean ====
section
/-! DEFINITION. Operands of the commands: the field widths of the device space, the fields of the ARG and REQ registers,
the table and algorithm an operand names, and the request snapshot. -/

namespace Sys2Proof.Machine

/-- The width of a device field the block reads (20_memory.md R75). -/
def ReadField.width : ReadField → Nat
  | .agc1Integ => 16
  | .powerI => 8
  | .powerQ => 8
  | .agc2Integ => 16
  | .demodLock => 1
  | .tmgLock => 1
  | .tmgLockQuality => 2
  | .fecLock => 1
  | .detectedStd => 2
  | .carFreq => 24
  | .sfr => 32
  | .tmgOffset => 24
  | .modcode => 5
  | .frameLen => 1
  | .pilots => 1
  | .rolloff => 2
  | .punctRate => 3
  | .spectrumInv => 1
  | .flywheel => 4
  | .noiseS1 => 16
  | .noiseS2 => 16
  | .berCnt => 24
  | .perErr => 32
  | .perTotal => 32
  | .ldpcPktErr => 16
  | .ldpcFrameErr => 16
  | .carOvf => 1
  | .tmgOvf => 1

/-- The width of a device field the block writes (20_memory.md R76). -/
def WriteField.width : WriteField → Nat
  | .dmdState => 3
  | .sfrInit => 16
  | .sfrLow => 16
  | .sfrUp => 16
  | .cfrInit => 16
  | .iqMode => 2
  | .rolloffCtrl => 1
  | .stdEnS1 => 1
  | .stdEnS2 => 1
  | .dssMode => 1
  | .prMask => 6
  | .carLoopGain => 8
  | .tmgRef => 8
  | .modcodeEn => 32
  | .cntReset => 1
  | .ldpcCntReset => 1
  | .berMode => 1

/-- The width of a global device field the block writes (20_memory.md R77). -/
def GlobalField.width : GlobalField → Nat
  | .mclkCfg => 32
  | .ldpcMode => 1
  | .devStandby => 1

/-- A truth value as the integer 0 or 1 that a one-bit field carries. -/
def bit (v : Bool) : Int := if v then 1 else 0

/-- The integer of an unsigned register or field value (30_encoding.md R101: unsigned unless a rule says sext). -/
def uval {n : Nat} (v : BitVec n) : Int := (v.toNat : Int)

/-- The n-th value read in the straight line that has just ended, oldest first. -/
def nth (got : List Int) (n : Nat) : Int := got.getD n 0

/-- A read value as the bits of its field. -/
def bitsOf (w : Nat) (v : Int) : BitVec w := BitVec.ofInt w v

/-- The calibration table a table id names (40_lookup.md R150); ids 4 to 7 name none. -/
def tableOf (cfg : Cfg) (t : BitVec 3) : Option CalTable :=
  match t.toNat with
  | 0 => some cfg.rfTable
  | 1 => some cfg.rfLowTable
  | 2 => some cfg.cnS1Table
  | 3 => some cfg.cnS2Table
  | _ => none

/-- The algorithm an ALGO code names (10_state.md R28, 30_encoding.md R103); 3 is reserved. -/
def algoOf (v : BitVec 2) : Option Algo :=
  match v.toNat with
  | 0 => some .blind
  | 1 => some .cold
  | 2 => some .warm
  | _ => none

/-- STD of a word in REQ_MODE layout, bits [3:2] (R28, R181). -/
def modeStd (w : Word) : BitVec 2 := w.extractLsb' 2 2

/-- PR of a word in REQ_MODE layout, bits [8:6] (R28, R181). -/
def modePr (w : Word) : BitVec 3 := w.extractLsb' 6 3

/-- The fields of a word in RSL_PARAMS layout (10_state.md R29) that SELECT_CLG reads (R189). -/
def paramsStd (w : Word) : BitVec 2 := w.extractLsb' 0 2

/-- MODCODE of a word in RSL_PARAMS layout, bits [6:2]. -/
def paramsModcode (w : Word) : BitVec 5 := w.extractLsb' 2 5

/-- PILOTS of a word in RSL_PARAMS layout, bit [10]. -/
def paramsPilots (w : Word) : BitVec 1 := w.extractLsb' 10 1

/-- FRAME of a word in RSL_PARAMS layout, bit [11]. -/
def paramsFrame (w : Word) : BitVec 1 := w.extractLsb' 11 1

/-- The snapshot SEARCH takes of the request registers at acceptance (43_search_fsm.md R200). -/
def Channel.snapshot (ch : Channel) : Request :=
  { freq := ch.reqFreq, sr := ch.reqSr, range := ch.reqRange
    algo := ch.reqMode.extractLsb' 0 2, std := ch.reqMode.extractLsb' 2 2
    iq := ch.reqMode.extractLsb' 4 2, pr := ch.reqMode.extractLsb' 6 3
    berMode := ch.berMode }

/-- The first attempt's request, for the algorithm the snapshot's code names (R210). -/
def Request.attempt (r : Request) (algo : Algo) : Attempt :=
  { freq := uval r.freq, sr := uval r.sr, range := uval r.range, algo := algo
    std := r.std, iq := r.iq, pr := r.pr, berMode := r.berMode, stage := .first }

end Sys2Proof.Machine
end

