-- ==== Sys2Proof/Machine/Estimators.lean ====
section
/-! DEFINITION. The conversion functions of 41_estimators.md (R160 to R167), shared by every family. -/

namespace Sys2Proof.Machine

/-- CarrierOffset(M, r) in Hz for a 24-bit raw value (R160, R161). -/
def carrierOffset (m r : Int) : Int := floorDiv (m * sext 24 r) (2 ^ 24)

/-- SymbolRate(M, r) in baud for a 32-bit raw value (R162). -/
def symbolRate (m r : Int) : Int := floorDiv (m * r) (2 ^ 32)

/-- The raw timing offset after its decoding and the guard against 0 (R163). -/
def timingRaw (r : Int) : Int := if sext 24 r = 0 then 1 else sext 24 r

/-- TimingOffset(sr, r) for a 24-bit raw value (R163); 320 is TMG_DIV. -/
def timingOffset (cfg : Cfg) (sr r : Int) : Int :=
  truncDiv (truncDiv (sr * cfg.tmgScale) (truncDiv (2 ^ 24) (timingRaw r))) 320

/-- EncSR(M, sr) for M ≠ 0 (R164). -/
def encSrAt (m sr : Int) : Int := sat (roundDiv (sr * 2 ^ 16) m) 0 (2 ^ 16 - 1)

/-- EncCar(M, off) for M ≠ 0 (R165). -/
def encCarAt (m off : Int) : Int := zext 16 (sat (roundDiv (off * 2 ^ 16) m) (-2 ^ 15) (2 ^ 15 - 1))

/-- EncSR(M, sr). R164 states no result for M = 0: there it is a free 16-bit value (log 5). -/
def encSr (m sr : Int) : Int := if m = 0 then uval (Config.freeEncSr sr) else encSrAt m sr

/-- EncCar(M, off). R165 states no result for M = 0: there it is a free 16-bit value (log 5). -/
def encCar (m off : Int) : Int := if m = 0 then uval (Config.freeEncCar off) else encCarAt m off

/-- ROLLOFF_PCT(ρ) (R167); the reserved code 3 counts as 0.35 (20_memory.md R75). -/
def rolloffPct (ro : BitVec 2) : Int :=
  match ro.toNat with
  | 1 => 25
  | 2 => 20
  | _ => 35

/-- CarrierWidth(sr, ρ) in Hz (R167). -/
def carrierWidth (sr : Int) (ro : BitVec 2) : Int := sr + floorDiv (sr * rolloffPct ro) 100

/-- M: the value of the MCLK register (41_estimators.md, opening). -/
def State.mclk (s : State) : Int := uval s.glob.mclk

/-- PROF[p] for the profile GID holds (10_state.md R27). -/
def State.prof (cfg : Cfg) (s : State) : Prof := cfg.prof s.glob.profile

end Sys2Proof.Machine
end

