-- ==== Sys2Proof/Machine/Flags.lean ====
section
/-! DEFINITION. The codes and the assembled status registers: STATE (10_state.md R34), CMD_RESULT (60_exceptions.md
R340), BLIND_PHASE, GID (R22), GSTATUS (R23), STATUS (R25), and the flag updates of R36. -/

namespace Sys2Proof.Machine

/-- The 4-bit code of a CMD_RESULT (R340). -/
def CmdResult.code : CmdResult → BitVec 4
  | .ok => 0
  | .busError => 1
  | .rejectedBusy => 2
  | .illegalOpcode => 3
  | .reservedField => 4
  | .notInitialized => 5
  | .badOperand => 6
  | .inStandby => 7

/-- The 5-bit value of STATUS.STATE (R34). -/
def SearchState.code : SearchState → BitVec 5
  | .idle => 0x00
  | .coarseAcquire => 0x01
  | .directLock => 0x02
  | .carrierZigzagSweep => 0x03
  | .blindCoarseSymbolRate => 0x04
  | .demodLocked => 0x05
  | .trackingOptimized => 0x06
  | .fecLocked => 0x07
  | .tracking => 0x08
  | .noSignal => 0x09
  | .noLock => 0x0A
  | .rangeExceeded => 0x0B
  | .noData => 0x0C
  | .busError => 0x0D
  | .badParameter => 0x0E

/-- The states held only while a SEARCH runs (R34, kind transient). -/
def SearchState.transient : SearchState → Bool
  | .coarseAcquire => true
  | .directLock => true
  | .carrierZigzagSweep => true
  | .blindCoarseSymbolRate => true
  | .demodLocked => true
  | .trackingOptimized => true
  | .fecLocked => true
  | .idle => false
  | .tracking => false
  | .noSignal => false
  | .noLock => false
  | .rangeExceeded => false
  | .noData => false
  | .busError => false
  | .badParameter => false

/-- The 2-bit value of STATUS.BLIND_PHASE (R25). -/
def BlindPhase.code : BlindPhase → BitVec 2
  | .none => 0
  | .agc2Sweep => 1
  | .coarse => 2
  | .fine => 3

/-- The 2-bit value of GID.PROFILE (R22, R27). -/
def profileCode : Profile → BitVec 2
  | .p0 => 0
  | .p1 => 1
  | .p2 => 2

/-- The word a read of GID returns (R22). -/
def gidWord (g : Global) : Word :=
  (0 : BitVec 12) ++ BitVec.ofBool g.ldpcDual ++ BitVec.ofBool g.lnaPresent ++ BitVec.ofBool g.standby ++
    BitVec.ofBool g.initialized ++ (0 : BitVec 6) ++ profileCode g.profile ++ g.chipId

/-- The word a read of GSTATUS returns (R23). -/
def gstatusWord (e : Engine) : Word :=
  (0 : BitVec 8) ++ e.lastOpcode ++ e.cmdResult.code ++ (0 : BitVec 3) ++ BitVec.ofBool e.busy ++ (0 : BitVec 8)

/-- The word a read of STATUS returns (R25). -/
def statusWord (ch : Channel) : Word :=
  (0 : BitVec 6) ++ ch.blindPhase.code ++ ch.eng.lastOpcode ++ ch.eng.cmdResult.code ++ BitVec.ofBool ch.ldpcStopped ++
    BitVec.ofBool ch.aborted ++ BitVec.ofBool ch.locked ++ BitVec.ofBool ch.eng.busy ++ (0 : BitVec 3) ++ ch.state.code

/-- RSL_PARAMS[14:0] and TM_PARAMS[14:0] from a readback (R29, R30). -/
def Detected.params (d : Detected) : BitVec 15 :=
  d.inversion ++ d.rolloff ++ d.frame ++ d.pilots ++ d.pr ++ d.modcode ++ d.std

/-- The register part of `finish(S)` (43_search_fsm.md R219): STATE, LOCKED, BLIND_PHASE. -/
def Channel.finished (st : SearchState) (ch : Channel) : Channel :=
  { ch with state := st, locked := if st = .tracking then true else ch.locked, blindPhase := .none }

/-- STATE <- IDLE; LOCKED <- 0; BLIND_PHASE <- 0: the acceptance actions of TERM, STANDBY enter and UNLOCK
(46_lifecycle.md R321, R322, R325). -/
def Channel.parked (ch : Channel) : Channel := { ch with state := .idle, locked := false, blindPhase := .none }

/-- The acceptance actions of INIT on one channel (R320; log 6). -/
def Channel.initAccepted (ch : Channel) : Channel := { ch.parked with aborted := false, abortReq := false }

/-- STATUS.LDPC_STOPPED, its mirror ch.ldpcStopped and ch.modcodeMask after a MODCODE_EN write of `mask`
(45_tracking.md R294, 43_search_fsm.md R201). -/
def Channel.modcodesWritten (stopped : Bool) (mask : Word) (ch : Channel) : Channel :=
  { ch with ldpcStopped := stopped, stoppedMirror := stopped, modcodeMask := mask }

end Sys2Proof.Machine
end

