-- ==== Sys2Proof/Machine/Ops.lean ====
section
/-! DEFINITION. The shared operations: acceptance and rejection (30_encoding.md R105), completion (R106), which stands
in for taking an exception and returning from it (60_exceptions.md R346, R347), the bus transaction with its failure
(20_memory.md R78, R79; 60_exceptions.md R341), the Sleep with its abort point (43_search_fsm.md R203, R221), and the
engine step built from them (00_scope.md R13). -/

namespace Sys2Proof.Machine

/-! ## Acceptance (R105) -/

/-- The commands of R105 line (5). -/
def gatedByChannels : Instr → Bool
  | .init => true
  | .term => true
  | .standby enter => enter
  | .setLdpcMode _ => true
  | _ => false

/-- R105 line (8): a bad operand of the word (R103), or INIT with MCLK below 2^17 (46_lifecycle.md R320). -/
def badOperand (i : Instr) (s : State) : Bool :=
  !i.wellFormed || (i == .init && decide (s.glob.mclk.toNat < 2 ^ 17))

/-- R105 line (7): the command is a SEARCH. -/
def isSearch : Instr → Bool
  | .search _ => true
  | _ => false

/-- Lines (4) to (8) of R105: the code a command is rejected with, or none (line (9)). -/
def rejection (i : Instr) (s : State) : Option CmdResult :=
  if (s.eng i.bank).busy then some .rejectedBusy
  else if gatedByChannels i && (s.a.eng.busy || s.b.eng.busy) then some .rejectedBusy
  else if !s.glob.initialized && !(i == .init) then some .notInitialized
  else if isSearch i && s.glob.standby then some .inStandby
  else if badOperand i s then some .badOperand
  else none

/-- A reject: CMD_RESULT and LAST_OPCODE of the bank's engine, and nothing else (R105). -/
def reject (e : Bank) (opcode : BitVec 8) (code : CmdResult) (s : State) : State :=
  s.updEng e fun g => { g with cmdResult := code, lastOpcode := opcode }

/-- The code a word is rejected with at lines (1) and (2) of R105. -/
def decodeResult : DecodeError → CmdResult
  | .illegalOpcode => .illegalOpcode
  | .reservedField => .reservedField

/-- R105 line (9): BUSY, LAST_OPCODE, and the engine starts the command's rule. Its elapsed time starts at 0 (R203). -/
def accept (i : Instr) (s : State) : State :=
  s.updEng i.bank fun g => { g with busy := true, lastOpcode := i.opcode, run := some ⟨i, .start⟩, elapsed := 0 }

/-! ## Completion (R106) -/

/-- `complete(code)`: CMD_RESULT, then BUSY (R106), and the engine is idle (R347). LAST_OPCODE is the completed
command's again if a rejection overwrote it (R105, log 7). -/
def complete (i : Instr) (code : CmdResult) (s : State) : State :=
  s.updEng i.bank fun g => { g with cmdResult := code, lastOpcode := i.opcode, busy := false, run := none }

/-! ## Flows: what the pure computation of a command's rule comes to -/

/-- The end of a pure computation (R13): a straight line of primitives and the point after it, the command's end, or
no such program point. -/
inductive Flow where
  /-- Go on with `first`, then `rest`, then at `k`. -/
  | go (s : State) (first : Op) (rest : List Op) (k : Kont)
  /-- `complete(code)`. -/
  | done (s : State) (code : CmdResult)
  /-- The point is none of this command's: no run from reset has such a state, and the engine does not move
  (log 21). -/
  | stray
deriving DecidableEq, Repr

/-- A command's rule, in the parts the shared operations need. -/
structure Program where
  /-- Acceptance actions (46_lifecycle.md, opening). -/
  onAccept : State → State
  /-- The rule's pure computation up to its first primitive. -/
  entry : State → Flow
  /-- The pure computation at a program point, given the values read on the way to it. -/
  resume : Kont → List Int → State → Flow
  /-- Register writes that come with completing in BUS_ERROR (R341; 43_search_fsm.md R223). -/
  onBusError : State → State
  /-- Whether a Sleep taken now is an abort point with the abort flag set (R203). -/
  aborting : State → Bool
  /-- Register writes of the abort (R221). -/
  onAbort : State → State

/-- The rule of a command with no acceptance action, no abort point, and no register written on a BusError. -/
def plainProgram (entry : State → Flow) (resume : Kont → List Int → State → Flow) : Program :=
  { onAccept := id, entry := entry, resume := resume, onBusError := id, aborting := fun _ => false, onAbort := id }

/-! ## Primitives (R12) -/

/-- The primitive of an operation, its operand computed now (R13). -/
def resolve (cfg : Cfg) (s : State) : Op → Prim
  | .prim p => p
  | .encSr c f sr => .devWrite c f (encSr s.mclk sr)
  | .encSrMax c f => .devWrite c f (encSr s.mclk (uval (s.prof cfg).coarseSrMax))
  | .encCar c off => .devWrite c .cfrInit (encCar s.mclk off)
  | .mclkCfg => .globalWrite .mclkCfg s.mclk

/-- The primitive as it goes over the bus: DevWrite delivers zext_w(v) (R74). -/
def Prim.delivered : Prim → Prim
  | .devWrite c f v => .devWrite c f (zext f.width v)
  | .globalWrite f v => .globalWrite f (zext f.width v)
  | .devRead c f => .devRead c f
  | .readChipId => .readChipId
  | .tunerSetFrequency c hz => .tunerSetFrequency c hz
  | .tunerSetBandwidth c hz => .tunerSetBandwidth c hz
  | .tunerGetFrequency c => .tunerGetFrequency c
  | .lnaProbe => .lnaProbe
  | .lnaGetGain => .lnaGetGain
  | .sleep ms => .sleep ms

/-- The value a primitive returns for an environment answer, if it returns one: a field's value within its width (R74),
a frequency, presence as one bit, a gain in [-128, 127] (60_exceptions.md R351; log 11). -/
def Prim.value (v : Int) : Prim → Option Int
  | .devRead _ f => some (zext f.width v)
  | .readChipId => some (zext 8 v)
  | .tunerGetFrequency _ => some v
  | .lnaProbe => some (zext 1 v)
  | .lnaGetGain => some (sext 8 v)
  | .devWrite _ _ _ => none
  | .globalWrite _ _ => none
  | .tunerSetFrequency _ _ => none
  | .tunerSetBandwidth _ _ => none
  | .sleep _ => none

/-- Whether the transaction raises BusError: the environment chooses (R79), but Lna.Probe raises nothing (R351). -/
def raises (p : Prim) (ans : Answer) : Bool := ans.fails && !(p == .lnaProbe)

/-- `s` with a transaction recorded. -/
def logged (e : Bank) (p : Prim) (v : Int) (ok : Bool) (s : State) : State :=
  { s with bus := ⟨e, p.delivered, v, ok⟩ :: s.bus }

/-- `s` with `ms` more elapsed time on engine `e` (R203, R350). -/
def slept (e : Bank) (ms : Nat) (s : State) : State := s.updEng e fun g => { g with elapsed := g.elapsed + ms }

/-- `s` with the engine of `i` at a program point. -/
def atPoint (i : Instr) (p : Point) (s : State) : State := s.updEng i.bank fun g => { g with run := some ⟨i, p⟩ }

/-! ## The engine step (R13) -/

/-- The state a flow leaves, or none for a stray point. -/
def settle (cfg : Cfg) (i : Instr) : Flow → Option State
  | .go s first rest k => some (atPoint i (.before (resolve cfg s first) rest [] k) s)
  | .done s code => some (complete i code s)
  | .stray => none

/-- After a primitive: the next one of the straight line, or the pure computation at its end. -/
def proceed (cfg : Cfg) (p : Program) (i : Instr) (rest : List Op) (got : List Int) (k : Kont) (s : State) :
    Option State :=
  match rest with
  | op :: ops => some (atPoint i (.before (resolve cfg s op) ops got k) s)
  | [] => settle cfg i (p.resume k got s)

/-- A bus transaction: it completes or fails within this step (R78). A failure ends the command in BUS_ERROR with no
further transaction and no retry (R341). -/
def transact (cfg : Cfg) (p : Program) (i : Instr) (ans : Answer) (q : Prim) (rest : List Op) (got : List Int)
    (k : Kont) (s : State) : Option State :=
  if raises q ans then some (complete i .busError (p.onBusError (logged i.bank q 0 false s)))
  else
    match q.value ans.value with
    | some v => proceed cfg p i rest (got ++ [v]) k (logged i.bank q v true s)
    | none => proceed cfg p i rest got k (logged i.bank q 0 true s)

/-- One primitive and the pure computation after it (R13). -/
def perform (cfg : Cfg) (p : Program) (i : Instr) (ans : Answer) (now : Prim) (rest : List Op) (got : List Int)
    (k : Kont) (s : State) : Option State :=
  match now with
  | .sleep ms =>
    if p.aborting s then some (complete i .ok (p.onAbort s))
    else proceed cfg p i rest got k (slept i.bank ms s)
  | q => transact cfg p i ans q rest got k s

/-- One step of the engine that runs `i`, at a program point of `i` (R13). The first step takes in the pure computation
before the first primitive (log 4). -/
def engineStep (cfg : Cfg) (p : Program) (i : Instr) (ans : Answer) (point : Point) (s : State) : Option State :=
  match point with
  | .start =>
    match p.entry s with
    | .go s1 first rest k => perform cfg p i ans (resolve cfg s1 first) rest [] k s1
    | .done s1 code => some (complete i code s1)
    | .stray => none
  | .before now rest got k => perform cfg p i ans now rest got k s

/-! ## A command's part in a turn -/

/-- A host turn: the command is accepted with its acceptance actions, or rejected (R105). -/
def hostTurn (i : Instr) (p : Program) (s : State) : State :=
  match rejection i s with
  | some code => reject i.bank i.opcode code s
  | none => p.onAccept (accept i s)

/-- An engine turn: one step of the command if that engine runs it; no other command moves. -/
def engineTurn (cfg : Cfg) (i : Instr) (p : Program) (e : Bank) (ans : Answer) (s : State) : State :=
  match s.running e with
  | some r => if e = i.bank ∧ r.instr = i then (engineStep cfg p i ans r.point s).getD s else s
  | none => s

/-- What the command `i` with rule `p` does in the turn that moves now: acceptance on a host turn, one engine step on
a turn of its engine (R105, R13). -/
def runCommand (cfg : Cfg) (i : Instr) (p : Program) (s : State) : Result :=
  match s.now with
  | .host _ => .next (hostTurn i p s)
  | .engine e ans => .next (engineTurn cfg i p e ans s)

end Sys2Proof.Machine
end

