-- ==== Sys2Proof/Machine/ConfigLayer.lean ====
section
/-! DEFINITION. The device configuration layer (42_configuration.md): R180 to R191, and SELECT_STANDARD,
COMPUTE_TIMEOUTS, SELECT_CLG. -/

namespace Sys2Proof.Machine

/-! ## Standard and puncture-rate selection -/

/-- What SelectStandard returns (R180). -/
structure StdSelection where
  enS1 : Bool
  enS2 : Bool
  dss : Bool
  mask : BitVec 6
deriving DecidableEq, Repr

/-- PrMask (R180): all six rates for 0, one rate for codes 1 to 6. -/
def prMask (pr : BitVec 3) : BitVec 6 := if pr = 0 then 0x3F else (1 : BitVec 6) <<< (pr.toNat - 1)

/-- The AUTO mask of R180: every rate but the unreliable one. -/
def autoMask (cfg : Cfg) : BitVec 6 := 0x3F &&& ~~~((1 : BitVec 6) <<< (cfg.unreliableRate.toNat - 1))

/-- SelectStandard(std, pr) (R180). -/
def selectStandard (cfg : Cfg) (std : BitVec 2) (pr : BitVec 3) : StdSelection :=
  match std.toNat with
  | 0 => { enS1 := true, enS2 := true, dss := false, mask := autoMask cfg }
  | 1 => { enS1 := true, enS2 := false, dss := false, mask := prMask pr }
  | 2 => { enS1 := true, enS2 := false, dss := true, mask := prMask pr }
  | _ => { enS1 := false, enS2 := true, dss := false, mask := prMask pr }

/-- The writes of WriteStandard after the first (R182). -/
def writeStandardRest (c : Chan) (sel : StdSelection) : List Op :=
  [.prim (.devWrite c .stdEnS2 (bit sel.enS2)), .prim (.devWrite c .dssMode (bit sel.dss)),
    .prim (.devWrite c .prMask (uval sel.mask))]

/-- The first write of WriteStandard (R182). -/
def writeStandardFirst (c : Chan) (sel : StdSelection) : Op := .prim (.devWrite c .stdEnS1 (bit sel.enS1))

/-- RES0 of SELECT_STANDARD: enS1 | enS2 << 1 | dss << 2 | mask << 8 (R181). -/
def stdWord (sel : StdSelection) : Word :=
  (0 : BitVec 18) ++ sel.mask ++ (0 : BitVec 5) ++ BitVec.ofBool sel.dss ++ BitVec.ofBool sel.enS2 ++
    BitVec.ofBool sel.enS1

/-- R181. -/
def selectStandardProgram (cfg : Cfg) (c : Chan) (wr : Bool) : Program :=
  plainProgram
    (fun s =>
      let arg := (s.chan c).arg0
      let sel := selectStandard cfg (modeStd arg) (modePr arg)
      if modePr arg = 7 then .done s .badOperand
      else if wr then .go s (writeStandardFirst c sel) (writeStandardRest c sel) (.stdWritten (stdWord sel))
      else .done (s.updChan c fun ch => { ch with res0 := stdWord sel }) .ok)
    (fun k _ s =>
      match k with
      | .stdWritten res => .done (s.updChan c fun ch => { ch with res0 := res }) .ok
      | _ => .stray)

/-- SELECT_STANDARD (R181). -/
def execSelectStandard (c : Chan) (wr : Bool) (s : State) : Result :=
  runCommand Config.cfg (.selectStandard c wr) (selectStandardProgram Config.cfg c wr) s

/-! ## Lock timeouts -/

/-- Tier(sr) (R183). -/
def tier (sr : Int) : Fin 6 :=
  if sr ≤ 1000000 then 0
  else if sr ≤ 2000000 then 1
  else if sr ≤ 5000000 then 2
  else if sr ≤ 10000000 then 3
  else if sr ≤ 20000000 then 4
  else 5

/-- The demodulator timeout of ComputeLockTimeouts, in ms (R184); WARM_DIV is 2. -/
def demodTimeout (cfg : Cfg) (sr : Int) : Algo → Nat
  | .blind => (cfg.tmoDemodBlind (tier sr)).toNat
  | .cold => (cfg.tmoDemodCold (tier sr)).toNat
  | .warm => (cfg.tmoDemodCold (tier sr)).toNat / 2

/-- The FEC timeout of ComputeLockTimeouts, in ms (R184). -/
def fecTimeout (cfg : Cfg) (sr : Int) : Algo → Nat
  | .blind => (cfg.tmoFecBlind (tier sr)).toNat
  | .cold => (cfg.tmoFecCold (tier sr)).toNat
  | .warm => (cfg.tmoFecCold (tier sr)).toNat

/-- R185. -/
def computeTimeoutsProgram (cfg : Cfg) (c : Chan) (algo : BitVec 2) : Program :=
  plainProgram
    (fun s =>
      match algoOf algo with
      | some al => .done (s.updChan c fun ch =>
          { ch with res0 := wrap32 (demodTimeout cfg (uval ch.arg0) al), res1 := wrap32 (fecTimeout cfg (uval ch.arg0) al) })
          .ok
      | none => .stray)
    (fun _ _ _ => .stray)

/-- COMPUTE_TIMEOUTS (R185). -/
def execComputeTimeouts (c : Chan) (algo : BitVec 2) (s : State) : Result :=
  runCommand Config.cfg (.computeTimeouts c algo) (computeTimeoutsProgram Config.cfg c algo) s

/-! ## Carrier-loop gain -/

/-- ClgBucket(sr) (R186). -/
def clgBucket (sr : Int) : Fin 5 :=
  if sr ≤ 3000000 then 0
  else if sr ≤ 7000000 then 1
  else if sr ≤ 15000000 then 2
  else if sr ≤ 25000000 then 3
  else 4

/-- MODULATION_OF(m) (R188). -/
def modulationOf (m : Nat) : Fin 4 :=
  if 1 ≤ m ∧ m ≤ 11 then 0
  else if 12 ≤ m ∧ m ≤ 17 then 1
  else if 18 ≤ m ∧ m ≤ 23 then 2
  else 3

/-- The class index for long frames: out-of-range modcodes take the last entry (R187). -/
def longClass (cfg : Cfg) (modcode : Nat) : Nat :=
  if 1 ≤ modcode ∧ modcode ≤ cfg.numModcodes then modcode else cfg.numModcodes

/-- SelectCarrierLoopGain(sr, std, modcode, frame, pilots) for a profile (R187). -/
def carrierLoopGain (cfg : Cfg) (p : Prof) (sr : Int) (std : BitVec 2) (modcode : BitVec 5) (frame pilots : BitVec 1) :
    BitVec 8 :=
  if std = 3 then
    if frame = 0 then p.clgLong (longClass cfg modcode.toNat) (clgBucket sr) (pilots == 1)
    else p.clgShort (modulationOf modcode.toNat) (clgBucket sr)
  else p.clgS1

/-- R189. -/
def selectClgProgram (cfg : Cfg) (c : Chan) (wr : Bool) : Program :=
  plainProgram
    (fun s =>
      let ps := (s.chan c).arg1
      let g := carrierLoopGain cfg (s.prof cfg) (uval (s.chan c).arg0) (paramsStd ps) (paramsModcode ps) (paramsFrame ps)
        (paramsPilots ps)
      if wr then .go s (.prim (.devWrite c .carLoopGain (uval g))) [] (.clgWritten g)
      else .done (s.updChan c fun ch => { ch with res0 := g.setWidth 32 }) .ok)
    (fun k _ s =>
      match k with
      | .clgWritten g => .done (s.updChan c fun ch => { ch with res0 := g.setWidth 32 }) .ok
      | _ => .stray)

/-- SELECT_CLG (R189). -/
def execSelectClg (c : Chan) (wr : Bool) (s : State) : Result :=
  runCommand Config.cfg (.selectClg c wr) (selectClgProgram Config.cfg c wr) s

/-! ## Request validation -/

/-- ValidRequest(req) (R190). -/
def validRequest (cfg : Cfg) (r : Request) : Bool :=
  (algoOf r.algo).isSome && r.iq != 3 && r.pr != 7 &&
    decide (cfg.rangeMin.toNat ≤ r.range.toNat) && decide (r.range.toNat ≤ cfg.rangeMax.toNat) &&
    (algoOf r.algo == some .blind ||
      (decide (cfg.srMin.toNat ≤ r.sr.toNat) && decide (r.sr.toNat ≤ cfg.srMax.toNat)))

/-- ALL_MODCODES: bits 1 to NUM_MODCODES (45_tracking.md R294). -/
def allModcodes (cfg : Cfg) : Int := 2 ^ (cfg.numModcodes + 1) - 2

end Sys2Proof.Machine
end

