-- ==== Sys2Proof/Machine/EstimatorCommands.lean ====
section
/-! DEFINITION. The estimator commands (41_estimators.md R168 to R171): CARRIER_OFFSET, SYMBOL_RATE, TIMING_OFFSET,
ENC_SYMBOL_RATE. -/

namespace Sys2Proof.Machine

/-- A command whose raw value `r` comes from an operand register (`.arg`) or from one device read (`.dev`), and whose
result is RES0 (R168 to R170). -/
def decodeProgram (c : Chan) (dev : Bool) (field : ReadField) (arg : Channel → Int) (k : Kont)
    (result : State → Int → Int) : Program :=
  plainProgram
    (fun s =>
      if dev then .go s (.prim (.devRead c field)) [] k
      else .done (s.updChan c fun ch => { ch with res0 := wrap32 (result s (arg ch)) }) .ok)
    (fun k' got s =>
      if k' = k then .done (s.updChan c fun ch => { ch with res0 := wrap32 (result s (nth got 0)) }) .ok else .stray)

/-- R168. -/
def carrierOffsetProgram (c : Chan) (dev : Bool) : Program :=
  decodeProgram c dev .carFreq (fun ch => zext 24 (uval ch.arg0)) .carrierRead fun s r => carrierOffset s.mclk r

/-- CARRIER_OFFSET (R168). -/
def execCarrierOffset (c : Chan) (dev : Bool) (s : State) : Result :=
  runCommand Config.cfg (.carrierOffset c dev) (carrierOffsetProgram c dev) s

/-- R169. -/
def symbolRateProgram (c : Chan) (dev : Bool) : Program :=
  decodeProgram c dev .sfr (fun ch => uval ch.arg0) .symbolRead fun s r => symbolRate s.mclk r

/-- SYMBOL_RATE (R169). -/
def execSymbolRate (c : Chan) (dev : Bool) (s : State) : Result :=
  runCommand Config.cfg (.symbolRate c dev) (symbolRateProgram c dev) s

/-- R170. -/
def timingOffsetProgram (cfg : Cfg) (c : Chan) (dev : Bool) : Program :=
  decodeProgram c dev .tmgOffset (fun ch => zext 24 (uval ch.arg1)) .timingRead fun s r =>
    timingOffset cfg (uval (s.chan c).arg0) r

/-- TIMING_OFFSET (R170). -/
def execTimingOffset (c : Chan) (dev : Bool) (s : State) : Result :=
  runCommand Config.cfg (.timingOffset c dev) (timingOffsetProgram Config.cfg c dev) s

/-- R171. -/
def encSymbolRateProgram (c : Chan) : Program :=
  plainProgram
    (fun s => .done (s.updChan c fun ch =>
      { ch with res0 := wrap32 (encSr s.mclk (uval ch.arg0)), res1 := wrap32 (encCar s.mclk ch.arg1.toInt) }) .ok)
    (fun _ _ _ => .stray)

/-- ENC_SYMBOL_RATE (R171). -/
def execEncSymbolRate (c : Chan) (s : State) : Result :=
  runCommand Config.cfg (.encSymbolRate c) (encSymbolRateProgram c) s

end Sys2Proof.Machine
end

