-- ==== Sys2Proof/Machine/Lifecycle.lean ====
section
/-! DEFINITION. Lifecycle, abort and unlock (46_lifecycle.md R320 to R328): INIT, TERM, STANDBY, SET_LDPC_MODE, ABORT,
UNLOCK. DMD_STATE 0 is IDLE (20_memory.md R76). -/

namespace Sys2Proof.Machine

/-- `f` on both channels. -/
def State.updBoth (s : State) (f : Channel → Channel) : State := (s.updChan .a f).updChan .b f

/-- DevWrite_c(DMD_STATE, IDLE). -/
def parkOp (c : Chan) : Op := .prim (.devWrite c .dmdState 0)

/-! ## INIT -/

/-- The writes of INIT after MCLK_CFG (R320). -/
def initOps (cfg : Cfg) : List Op :=
  [.prim (.globalWrite .devStandby 0), .prim (.globalWrite .ldpcMode (bit cfg.ldpcModeInitDual)), .prim .lnaProbe,
    parkOp .a, .prim (.devWrite .a .modcodeEn (allModcodes cfg)),
    parkOp .b, .prim (.devWrite .b .modcodeEn (allModcodes cfg))]

/-- The final step of INIT (R320). -/
def initWritten (cfg : Cfg) (chipId : BitVec 8) (lna : Bool) (s : State) : State :=
  (s.updGlob fun g =>
      { g with chipId := chipId, profile := cfg.profileOf chipId, lnaPresent := lna, ldpcDual := cfg.ldpcModeInitDual
               standby := false, initialized := true }).updBoth
    (Channel.modcodesWritten false (wrap32 (allModcodes cfg)))

/-- R320. -/
def initProgram (cfg : Cfg) : Program :=
  { plainProgram (fun s => .go s (.prim .readChipId) [] .initId)
      (fun k got s =>
        match k with
        | .initId => .go s .mclkCfg (initOps cfg) (.initDone (bitsOf 8 (nth got 0)))
        | .initDone chipId => .done (initWritten cfg chipId (nth got 0 == 1) s) .ok
        | _ => .stray) with
    onAccept := fun s => s.updBoth Channel.initAccepted }

/-- INIT (R320). -/
def execInit (s : State) : Result := runCommand Config.cfg .init (initProgram Config.cfg) s

/-! ## TERM -/

/-- R321. -/
def termProgram : Program :=
  { plainProgram (fun s => .go s (parkOp .a) [parkOp .b] .termDone)
      (fun k _ s =>
        match k with
        | .termDone => .done (s.updGlob fun g => { g with initialized := false }) .ok
        | _ => .stray) with
    onAccept := fun s => s.updBoth Channel.parked }

/-- TERM (R321). -/
def execTerm (s : State) : Result := runCommand Config.cfg .term termProgram s

/-! ## STANDBY -/

/-- R322. -/
def standbyProgram (enter : Bool) : Program :=
  { plainProgram
      (fun s =>
        if enter then .go s (parkOp .a) [parkOp .b, .prim (.globalWrite .devStandby 1)] .standbyDone
        else .go s (.prim (.globalWrite .devStandby 0)) [] .standbyDone)
      (fun k _ s =>
        match k with
        | .standbyDone => .done (s.updGlob fun g => { g with standby := enter }) .ok
        | _ => .stray) with
    onAccept := fun s => if enter then s.updBoth Channel.parked else s }

/-- STANDBY (R322). -/
def execStandby (enter : Bool) (s : State) : Result :=
  runCommand Config.cfg (.standby enter) (standbyProgram enter) s

/-! ## SET_LDPC_MODE -/

/-- R323. -/
def setLdpcModeProgram (dual : Bool) : Program :=
  plainProgram
    (fun s => .go s (.prim (.globalWrite .ldpcMode (bit dual))) [] .ldpcModeDone)
    (fun k _ s =>
      match k with
      | .ldpcModeDone => .done (s.updGlob fun g => { g with ldpcDual := dual }) .ok
      | _ => .stray)

/-- SET_LDPC_MODE (R323). -/
def execSetLdpcMode (dual : Bool) (s : State) : Result :=
  runCommand Config.cfg (.setLdpcMode dual) (setLdpcModeProgram dual) s

/-! ## ABORT -/

/-- The whole effect of ABORT (R324). -/
def abortRequested (c : Chan) (s : State) : State :=
  if (s.chan c).eng.busy then s.updChan c fun ch => { ch with abortReq := true } else s

/-- ABORT (R324): handled in the host step that writes it, at line (3) of 30_encoding.md R105. No engine runs it. -/
def execAbort (c : Chan) (s : State) : Result :=
  match s.now with
  | .host _ => .next (abortRequested c s)
  | .engine _ _ => .next s

/-! ## UNLOCK -/

/-- R325. -/
def unlockProgram (c : Chan) : Program :=
  { plainProgram (fun s => .go s (parkOp c) [] .unlockDone)
      (fun k _ s =>
        match k with
        | .unlockDone => .done s .ok
        | _ => .stray) with
    onAccept := fun s => s.updChan c Channel.parked }

/-- UNLOCK (R325). -/
def execUnlock (c : Chan) (s : State) : Result := runCommand Config.cfg (.unlock c) (unlockProgram c) s

end Sys2Proof.Machine
end

