-- ==== Sys2Proof/Machine/Lookup.lean ====
section
/-! DEFINITION. The lookup and interpolation engine (40_lookup.md): R141 to R145, and INTERP, INTERP2, GET_RF_LEVEL,
GET_CN. -/

namespace Sys2Proof.Machine

/-! ## The interpolation function -/

/-- T[k].raw as an integer (R145). -/
def rawAt (t : CalTable) (k : Nat) : Int := uval (t.points.getD k ⟨0, 0⟩).raw

/-- T[k].phys, a signed 32-bit integer (R145). -/
def physAt (t : CalTable) (k : Nat) : Int := (t.points.getD k ⟨0, 0⟩).phys.toInt

/-- N - 1, the index of the weak end (R145, R141). -/
def lastIndex (t : CalTable) : Nat := t.points.length - 1

/-- `inc` of R141: the raw values increase. -/
def increasing (t : CalTable) : Bool := decide (rawAt t 0 < rawAt t (lastIndex t))

/-- x is beyond the strong end of T (R141). -/
def beyondStrong (t : CalTable) (x : Int) : Bool :=
  if increasing t then decide (x < rawAt t 0) else decide (rawAt t 0 < x)

/-- x is beyond the weak end of T (R141). -/
def beyondWeak (t : CalTable) (x : Int) : Bool :=
  if increasing t then decide (rawAt t (lastIndex t) < x) else decide (x < rawAt t (lastIndex t))

/-- between(a, x, b) of R142. -/
def between (a x b : Int) : Bool := (decide (a ≤ x) && decide (x ≤ b)) || (decide (b ≤ x) && decide (x ≤ a))

/-- The binary search of R142 from the interval [imin, imax]; `fuel` bounds the iterations, and imax - imin iterations
always suffice. -/
def bracket (t : CalTable) (x : Int) : Nat → Nat → Nat → Nat × Nat
  | 0, imin, imax => (imin, imax)
  | fuel + 1, imin, imax =>
    if imax - imin ≤ 1 then (imin, imax)
    else if between (rawAt t imin) x (rawAt t ((imin + imax) / 2)) then bracket t x fuel imin ((imin + imax) / 2)
    else bracket t x fuel ((imin + imax) / 2) imax

/-- The linear interpolation of R143 on the interval [imin, imax]. -/
def lerp (t : CalTable) (x : Int) (imin imax : Nat) : Int :=
  truncDiv ((x - rawAt t imin) * (physAt t imax - physAt t imin)) (rawAt t imax - rawAt t imin) + physAt t imin

/-- Interp(T, x) (R141 to R143). -/
def interp (t : CalTable) (x : Int) : Int :=
  if beyondStrong t x then physAt t 0
  else if beyondWeak t x then physAt t (lastIndex t)
  else lerp t x (bracket t x (lastIndex t) 0 (lastIndex t)).1 (bracket t x (lastIndex t) 0 (lastIndex t)).2

/-- Interp2(C, F, x) (R144). -/
def interp2 (coarse fine : CalTable) (x : Int) : Int :=
  if beyondWeak coarse x then interp fine x else interp coarse x

/-! ## INTERP and INTERP2 -/

/-- R146. -/
def interpProgram (cfg : Cfg) (c : Chan) (table : BitVec 3) : Program :=
  plainProgram
    (fun s =>
      match tableOf cfg table with
      | some t => .done (s.updChan c fun ch => { ch with res0 := wrap32 (interp t ch.arg0.toInt) }) .ok
      | none => .stray)
    (fun _ _ _ => .stray)

/-- INTERP (R146). -/
def execInterp (c : Chan) (table : BitVec 3) (s : State) : Result :=
  runCommand Config.cfg (.interp c table) (interpProgram Config.cfg c table) s

/-- R147. -/
def interp2Program (cfg : Cfg) (c : Chan) (coarse fine : BitVec 3) : Program :=
  plainProgram
    (fun s =>
      match tableOf cfg coarse, tableOf cfg fine with
      | some tc, some tf => .done (s.updChan c fun ch => { ch with res0 := wrap32 (interp2 tc tf ch.arg0.toInt) }) .ok
      | _, _ => .stray)
    (fun _ _ _ => .stray)

/-- INTERP2 (R147). -/
def execInterp2 (c : Chan) (coarse fine : BitVec 3) (s : State) : Result :=
  runCommand Config.cfg (.interp2 c coarse fine) (interp2Program Config.cfg c coarse fine) s

/-! ## GET_RF_LEVEL -/

/-- The RF level of an AGC1 reading, before the LNA gain (R148). -/
def rfLevel (cfg : Cfg) (agc1 : Int) : Int := interp2 cfg.rfTable cfg.rfLowTable agc1

/-- R148. -/
def getRfLevelProgram (cfg : Cfg) (c : Chan) : Program :=
  plainProgram
    (fun s => .go s (.prim (.devRead c .agc1Integ)) [] .rfAgc)
    (fun k got s =>
      match k with
      | .rfAgc =>
        if s.glob.lnaPresent then .go s (.prim .lnaGetGain) [] (.rfGain (rfLevel cfg (nth got 0)))
        else .done (s.updChan c fun ch => { ch with res0 := wrap32 (rfLevel cfg (nth got 0)) }) .ok
      | .rfGain rf => .done (s.updChan c fun ch => { ch with res0 := wrap32 (rf + nth got 0) }) .ok
      | _ => .stray)

/-- GET_RF_LEVEL (R148). -/
def execGetRfLevel (c : Chan) (s : State) : Result :=
  runCommand Config.cfg (.getRfLevel c) (getRfLevelProgram Config.cfg c) s

/-! ## GET_CN -/

/-- The noise field CnMeasure samples for a detected standard (R149). -/
def noiseField (std : BitVec 2) : ReadField := if std = 3 then .noiseS2 else .noiseS1

/-- The table CnMeasure interpolates on for a detected standard (R149). -/
def cnTable (cfg : Cfg) (std : BitVec 2) : CalTable := if std = 3 then cfg.cnS2Table else cfg.cnS1Table

/-- The primitives of CnMeasure after its first sample: a Sleep after every sample, and 15 more samples; CN_AVG_N is 16
(R149). -/
def cnOps (cfg : Cfg) (c : Chan) (std : BitVec 2) : List Op :=
  .prim (.sleep cfg.cnSampleDelayMs.toNat) ::
    (List.replicate 15 [Op.prim (.devRead c (noiseField std)), .prim (.sleep cfg.cnSampleDelayMs.toNat)]).flatten

/-- The C/N of the 16 samples read (R149). -/
def cnValue (cfg : Cfg) (std : BitVec 2) (samples : List Int) : Int :=
  interp (cnTable cfg std) (floorDiv samples.sum 16)

/-- R149. -/
def getCnProgram (cfg : Cfg) (c : Chan) : Program :=
  plainProgram
    (fun s =>
      if (s.chan c).locked then .go s (.prim (.devRead c .detectedStd)) [] .cnStd
      else .done (s.updChan c fun ch => { ch with res0 := 0 }) .ok)
    (fun k got s =>
      match k with
      | .cnStd =>
        .go s (.prim (.devRead c (noiseField (bitsOf 2 (nth got 0))))) (cnOps cfg c (bitsOf 2 (nth got 0)))
          (.cnSamples (bitsOf 2 (nth got 0)))
      | .cnSamples std => .done (s.updChan c fun ch => { ch with res0 := wrap32 (cnValue cfg std got) }) .ok
      | _ => .stray)

/-- GET_CN (R149). -/
def execGetCn (c : Chan) (s : State) : Result :=
  runCommand Config.cfg (.getCn c) (getCnProgram Config.cfg c) s

end Sys2Proof.Machine
end

