-- ==== Sys2Proof/Machine/Telemetry.lean ====
section
/-! DEFINITION. Tracking and telemetry (45_tracking.md R290 to R294): GET_SIGNAL_INFO, GET_PER, LDPC_MONITOR. -/

namespace Sys2Proof.Machine

/-- PER_ERR_CEIL, 2^23 (00_scope.md R6). -/
def perErrCeil : Int := 8388608

/-- PER_TOT_CEIL, 2^24 (00_scope.md R6). -/
def perTotCeil : Int := 16777216

/-! ## GET_SIGNAL_INFO -/

/-- The reads after DETECTED_STD: the parameters (R290; also R211), whose first read depends on the standard. -/
def paramFirst (c : Chan) (std : BitVec 2) : Op :=
  if std = 3 then .prim (.devRead c .modcode) else .prim (.devRead c .punctRate)

/-- The parameter reads after the first, in the order of R290 and R211. -/
def paramRest (c : Chan) (std : BitVec 2) : List Op :=
  (if std = 3 then [.prim (.devRead c .frameLen), .prim (.devRead c .pilots)] else []) ++
    [.prim (.devRead c .rolloff), .prim (.devRead c .spectrumInv)]

/-- The parameters from the values those reads returned. Every standard but 3 takes its PR from PUNCT_RATE, as the code
of R211 and R290 has it; R29 speaks of the S1-class standards (log 23). -/
def detectedFrom (std : BitVec 2) (got : List Int) : Detected :=
  if std = 3 then
    { std := std, modcode := bitsOf 5 (nth got 0), pr := 0, frame := bitsOf 1 (nth got 1), pilots := bitsOf 1 (nth got 2)
      rolloff := bitsOf 2 (nth got 3), inversion := bitsOf 1 (nth got 4) }
  else
    { std := std, modcode := 0, pr := bitsOf 3 (nth got 0), frame := 0, pilots := 0
      rolloff := bitsOf 2 (nth got 1), inversion := bitsOf 1 (nth got 2) }

/-- The counter reads and the AGC1 read that follow (R290, R148). -/
def counterOps (c : Chan) (std : BitVec 2) : List Op :=
  (if std = 3 then [.prim (.devRead c .perErr), .prim (.devRead c .perTotal)] else [.prim (.devRead c .berCnt)]) ++
    [.prim (.devRead c .agc1Integ)]

/-- What has been gathered after the AGC1 read (R290). -/
def infoFrom (cfg : Cfg) (freq srT : Int) (std : BitVec 2) (got : List Int) : InfoLocals :=
  if std = 3 then
    { freq := freq, sr := srT, det := detectedFrom std got, err := min (nth got 5) perErrCeil
      total := min (nth got 6) perTotCeil, rf := rfLevel cfg (nth got 7) }
  else
    { freq := freq, sr := srT, det := detectedFrom std got, err := nth got 3, total := 0, rf := rfLevel cfg (nth got 4) }

/-- The TM registers of the final step (R290). -/
def infoWritten (p : InfoLocals) (cn : Int) (ch : Channel) : Channel :=
  { ch with tmFreq := wrap32 p.freq, tmSr := wrap32 p.sr, tmParams := p.det.params, tmErr := wrap32 p.err
            tmTotal := wrap32 p.total, tmRf := wrap32 p.rf, tmCn := wrap32 cn }

/-- The sentinels of R291. -/
def infoSentinels (ch : Channel) : Channel :=
  { ch with tmFreq := 0, tmSr := 0, tmParams := 0, tmErr := wrap32 perErrCeil, tmTotal := wrap32 perTotCeil
            tmRf := 0, tmCn := 0 }

/-- After CnMeasure: the conditional counter reset (R292), then the final step. -/
def infoFinish (cfg : Cfg) (c : Chan) (p : InfoLocals) (cn : Int) (s : State) : Flow :=
  if cfg.siginfoReset then .go s (.prim (.devWrite c .cntReset 1)) [] (.infoReset p cn)
  else .done (s.updChan c (infoWritten p cn)) .ok

/-- CnMeasure inside GET_SIGNAL_INFO (R290, 40_lookup.md R149). -/
def infoMeasure (cfg : Cfg) (c : Chan) (p : InfoLocals) (s : State) : Flow :=
  if (s.chan c).locked then .go s (.prim (.devRead c .detectedStd)) [] (.infoCnStd p)
  else infoFinish cfg c p 0 s

/-- The pure computations of GET_SIGNAL_INFO between its straight lines (R290). -/
def infoResume (cfg : Cfg) (c : Chan) (k : Kont) (got : List Int) (s : State) : Flow :=
  match k with
  | .infoCar =>
    .go s (.prim (.devRead c .sfr)) [] (.infoSfr (nth got 0 + carrierOffset s.mclk (nth got 1)))
  | .infoSfr freq =>
    .go s (.prim (.devRead c .tmgOffset)) [.prim (.devRead c .detectedStd)]
      (.infoStd freq (symbolRate s.mclk (nth got 0)))
  | .infoStd freq srN =>
    .go s (paramFirst c (bitsOf 2 (nth got 1)))
      (paramRest c (bitsOf 2 (nth got 1)) ++ counterOps c (bitsOf 2 (nth got 1)))
      (.infoAgc freq (srN + timingOffset cfg srN (nth got 0)) (bitsOf 2 (nth got 1)))
  | .infoAgc freq srT std =>
    if s.glob.lnaPresent then .go s (.prim .lnaGetGain) [] (.infoGain (infoFrom cfg freq srT std got))
    else infoMeasure cfg c (infoFrom cfg freq srT std got) s
  | .infoGain p => infoMeasure cfg c { p with rf := p.rf + nth got 0 } s
  | .infoCnStd p =>
    .go s (.prim (.devRead c (noiseField (bitsOf 2 (nth got 0))))) (cnOps cfg c (bitsOf 2 (nth got 0)))
      (.infoCnSamples p (bitsOf 2 (nth got 0)))
  | .infoCnSamples p std => infoFinish cfg c p (cnValue cfg std got) s
  | .infoReset p cn => .done (s.updChan c (infoWritten p cn)) .ok
  | _ => .stray

/-- R290, R291. -/
def getSignalInfoProgram (cfg : Cfg) (c : Chan) : Program :=
  plainProgram
    (fun s =>
      if (s.chan c).locked then .go s (.prim (.tunerGetFrequency c)) [.prim (.devRead c .carFreq)] .infoCar
      else .done (s.updChan c infoSentinels) .ok)
    (infoResume cfg c)

/-- GET_SIGNAL_INFO (R290 to R292). -/
def execGetSignalInfo (c : Chan) (s : State) : Result :=
  runCommand Config.cfg (.getSignalInfo c) (getSignalInfoProgram Config.cfg c) s

/-! ## GET_PER -/

/-- The registers GET_PER writes (R293). -/
def perWritten (e t : Int) (ch : Channel) : Channel :=
  { ch with res0 := wrap32 e, res1 := wrap32 t, tmErr := wrap32 e, tmTotal := wrap32 t }

/-- R293. -/
def getPerProgram (c : Chan) : Program :=
  plainProgram
    (fun s =>
      if (s.chan c).locked then .go s (.prim (.devRead c .perErr)) [.prim (.devRead c .perTotal)] .perRead
      else .done (s.updChan c (perWritten perErrCeil perTotCeil)) .ok)
    (fun k got s =>
      match k with
      | .perRead =>
        .done (s.updChan c (perWritten (min (nth got 0) perErrCeil) (min (nth got 1) perTotCeil))) .ok
      | _ => .stray)

/-- GET_PER (R293). -/
def execGetPer (c : Chan) (s : State) : Result :=
  runCommand Config.cfg (.getPer c) (getPerProgram c) s

/-! ## LDPC_MONITOR -/

/-- A bad window: more than 200 packet errors or more than 5 frame errors (R294; LDPC_PKT_TH, LDPC_FRM_TH of R6). -/
def ldpcBad (pe fe : Int) : Bool := decide (200 < pe) || decide (5 < fe)

/-- LDPC_STAT <- pe | fe << 16 (R294). -/
def ldpcStatWord (pe fe : Int) : Word := bitsOf 16 fe ++ bitsOf 16 pe

/-- R294. -/
def ldpcMonitorProgram (cfg : Cfg) (c : Chan) : Program :=
  plainProgram
    (fun s => .go s (.prim (.devRead c .ldpcPktErr))
      [.prim (.devRead c .ldpcFrameErr), .prim (.devWrite c .ldpcCntReset 1)] .ldpcRead)
    (fun k got s =>
      match k with
      | .ldpcRead =>
        let s1 := s.updChan c fun ch => { ch with ldpcStat := ldpcStatWord (nth got 0) (nth got 1) }
        if ldpcBad (nth got 0) (nth got 1) then .go s1 (.prim (.devWrite c .modcodeEn 0)) [] .ldpcDisabled
        else if (s.chan c).stoppedMirror then
          .go s1 (.prim (.devWrite c .modcodeEn (allModcodes cfg))) [] .ldpcEnabled
        else .done (s1.updChan c fun ch => { ch with res0 := 0 }) .ok
      | .ldpcDisabled => .done (s.updChan c fun ch => { ch.modcodesWritten true 0 with res0 := 1 }) .ok
      | .ldpcEnabled =>
        .done (s.updChan c fun ch => { ch.modcodesWritten false (wrap32 (allModcodes cfg)) with res0 := 0 }) .ok
      | _ => .stray)

/-- LDPC_MONITOR (R294, R295). -/
def execLdpcMonitor (c : Chan) (s : State) : Result :=
  runCommand Config.cfg (.ldpcMonitor c) (ldpcMonitorProgram Config.cfg c) s

end Sys2Proof.Machine
end

