-- ==== Sys2Proof/Machine/Attempt.lean ====
section
/-! DEFINITION. The parts of a SEARCH attempt that every phase uses (43_search_fsm.md): ending a search (R219) and an
attempt (R210, R217), the poll loop (R202), the coarse programming (R206), and the start of the readback (R211).
DMD_STATE codes (20_memory.md R76): 1 ACQ_COLD, 2 ACQ_WARM, 3 ACQ_BLIND_WIDE. -/

namespace Sys2Proof.Machine

/-- STATUS.STATE of channel `c` set to `st`. -/
def enter (c : Chan) (st : SearchState) (s : State) : State := s.updChan c fun ch => { ch with state := st }

/-- STATUS.BLIND_PHASE of channel `c` set to `ph` (44_blind_zigzag.md R250). -/
def enterPhase (c : Chan) (ph : BlindPhase) (s : State) : State := s.updChan c fun ch => { ch with blindPhase := ph }

/-- finish(S) for an S other than BUS_ERROR, which the bus operation handles (R219, R223). -/
def finish (c : Chan) (st : SearchState) (s : State) : Flow := .done (s.updChan c (Channel.finished st)) .ok

/-- A DevWrite to a field of channel `c`. -/
def wr (c : Chan) (f : WriteField) (v : Int) : Op := .prim (.devWrite c f v)

/-- A DevRead of a field of channel `c`. -/
def rd (c : Chan) (f : ReadField) : Op := .prim (.devRead c f)

/-! ## R206: coarse programming -/

/-- PROVISIONAL_SR, 1,000,000 baud (00_scope.md R6). -/
def provisionalSr : Int := 1000000

/-- COARSE_SR_MIN, 850,000 baud (R6). -/
def coarseSrMin : Int := 850000

/-- w of R206: the half width of the narrow symbol-rate window. -/
def narrowWindow (cfg : Cfg) (a : Attempt) : Int := floorDiv (a.sr * cfg.srNarrowPct) 100

/-- The symbol-rate window writes of R206. -/
def windowOps (cfg : Cfg) (c : Chan) (a : Attempt) : List Op :=
  match a.algo with
  | .blind => [.encSr c .sfrInit provisionalSr, .encSr c .sfrLow coarseSrMin, .encSrMax c .sfrUp]
  | .cold => [.encSr c .sfrInit a.sr, .encSr c .sfrLow (a.sr - narrowWindow cfg a), .encSr c .sfrUp (a.sr + narrowWindow cfg a)]
  | .warm => [.encSr c .sfrInit a.sr, .encSr c .sfrLow (a.sr - narrowWindow cfg a), .encSr c .sfrUp (a.sr + narrowWindow cfg a)]

/-- The primitives of R206 after the tuner frequency. -/
def coarseOps (cfg : Cfg) (c : Chan) (a : Attempt) : List Op :=
  .prim (.tunerSetBandwidth c (cfg.tunerBwAcq a.sr a.range a.algo)) :: windowOps cfg c a ++
    wr c .iqMode (uval a.iq) :: writeStandardFirst c (selectStandard cfg a.std a.pr) ::
      writeStandardRest c (selectStandard cfg a.std a.pr) ++
        [.encCar c 0, wr c .rolloffCtrl 0, wr c .berMode (bit a.berMode)]

/-- An attempt starts with R206. -/
def beginAttempt (cfg : Cfg) (c : Chan) (a : Attempt) (s : State) : Flow :=
  .go (enter c .coarseAcquire s) (.prim (.tunerSetFrequency c a.freq)) (coarseOps cfg c a) (.search (.coarseDone a))

/-- An attempt ends in `out`, not TRACKING (R210): the first attempt ends the search in `out`; the retry with inverted
IQ is followed by the one with normal IQ; after that the search ends in NO_DATA (R217). -/
def endAttempt (cfg : Cfg) (c : Chan) (a : Attempt) (out : SearchState) (s : State) : Flow :=
  match a.stage with
  | .first => finish c out s
  | .retryInverted => beginAttempt cfg c { a with iq := 1, stage := .retryNormal } s
  | .retryNormal => finish c .noData s

/-! ## R202: the poll loop -/

/-- One iteration of WaitFor(F, T) at `site`, `left` more to come (R202). -/
def pollOnce (c : Chan) (f : ReadField) (site : WaitSite) (left : Nat) (s : State) : Flow :=
  .go s (rd c f) [.prim (.sleep 10)] (.search (.wait site left))

/-- WaitFor(F, T): `timedOut` at once when T gives no iteration (R202). -/
def waitFor (c : Chan) (f : ReadField) (t : Nat) (site : WaitSite) (timedOut : State → Flow) (s : State) : Flow :=
  match pollCount t with
  | 0 => timedOut s
  | n + 1 => pollOnce c f site n s

/-- The field a site polls (R208, R213 to R215, R257, R270). -/
def WaitSite.field : WaitSite → ReadField
  | .direct _ => .demodLock
  | .zigzag _ _ => .demodLock
  | .fine _ _ _ => .demodLock
  | .relock _ _ _ _ => .demodLock
  | .fec _ _ _ => .fecLock

/-- The class of the zig-zag parameters (R271). -/
def zzClass (a : Attempt) : ZzClass := if a.std = 3 then .s2 else .s1

/-- The timeout a site waits for, in ms (R208, R213, R215, R257, R270). -/
def WaitSite.timeout (cfg : Cfg) : WaitSite → Nat
  | .direct a => demodTimeout cfg a.sr a.algo
  | .zigzag a _ => cfg.zzTmo a.sr (zzClass a)
  | .fine _ _ srC => demodTimeout cfg srC .blind
  | .relock _ res _ _ => demodTimeout cfg res.sr .warm
  | .fec _ _ fTmo => fTmo

/-! ## R211: the readback -/

/-- The demodulator has locked: the readback starts, with the FEC timeout of R207. -/
def beginReadback (c : Chan) (a : Attempt) (fTmo : Nat) (s : State) : Flow :=
  .go (enter c .demodLocked s) (rd c .detectedStd) [rd c .carFreq, rd c .sfr, rd c .tmgOffset]
    (.search (.readStd a fTmo))

end Sys2Proof.Machine
end

