-- ==== Sys2Proof/Machine/Blind.lean ====
section
/-! DEFINITION. The blind search (44_blind_zigzag.md R250 to R258). -/

namespace Sys2Proof.Machine

/-- Z(k): 0, +1, -1, +2, -2, … (44_blind_zigzag.md, opening). -/
def zigzagIndex (k : Nat) : Int := if k % 2 = 1 then ((k + 1) / 2 : Nat) else -((k / 2 : Nat) : Int)

/-! ## R251: the AGC2 pre-sweep -/

/-- h of R251. -/
def halfRange (a : Attempt) : Int := floorDiv a.range 2

/-- The k-th frequency of the pre-sweep (R251). -/
def sweepFreq (cfg : Cfg) (a : Attempt) (k : Nat) : Int := a.freq - halfRange a + k * uval cfg.agc2SweepStep

/-- What follows the tuner call in a step of the pre-sweep (R251). -/
def sweepRest (cfg : Cfg) (c : Chan) : List Op := [.prim (.sleep cfg.agc2SettleMs.toNat), rd c .agc2Integ]

/-- The pre-sweep starts (R251). -/
def beginBlind (cfg : Cfg) (c : Chan) (a : Attempt) (s : State) : Flow :=
  .go (enterPhase c .agc2Sweep (enter c .blindCoarseSymbolRate s)) (.encSr c .sfrInit provisionalSr)
    (wr c .dmdState 3 :: .prim (.tunerSetFrequency c (sweepFreq cfg a 0)) :: sweepRest cfg c)
    (.search (.sweep a 0 65536))

/-! ## R250, R252, R255: the timing-reference loop -/

/-- The head of the loop of R250: the next timing reference, or the end of the attempt in NO_LOCK (R255). -/
def timingReference (cfg : Cfg) (c : Chan) (a : Attempt) (bl : BlindLocals) (s : State) : Flow :=
  if uval (s.prof cfg).tmgrefMin ≤ bl.kref then .go s (wr c .tmgRef bl.kref) [] (.search (.tmgRef a bl))
  else endAttempt cfg c a .noLock s

/-- A timing reference has failed: one decrement, and the head of the loop (R250, R252). -/
def nextReference (cfg : Cfg) (c : Chan) (a : Attempt) (bl : BlindLocals) (s : State) : Flow :=
  timingReference cfg c a { bl with kref := bl.kref - uval (s.prof cfg).tmgrefStep } s

/-- After the AGC2 read of step `k` (R251): the next step, NO_SIGNAL, or the timing-reference loop. -/
def sweepNext (cfg : Cfg) (c : Chan) (a : Attempt) (k : Nat) (minA : Int) (s : State) : Flow :=
  if ((k + 1 : Nat) : Int) * uval cfg.agc2SweepStep ≤ 2 * halfRange a then
    .go s (.prim (.tunerSetFrequency c (sweepFreq cfg a (k + 1)))) (sweepRest cfg c) (.search (.sweep a (k + 1) minA))
  else if uval (s.prof cfg).agc2NosigTh < minA then endAttempt cfg c a .noSignal s
  else timingReference cfg c a { faultRun := 0, kref := uval (s.prof cfg).tmgrefMax, freqStep := 0 } s

/-! ## R253, R254, R256: the coarse search -/

/-- What follows the tuner call in a coarse step (R253, R256). -/
def coarseRest (cfg : Cfg) (c : Chan) : List Op :=
  [.prim (.tunerGetFrequency c), .encSr c .sfrInit provisionalSr, .encSr c .sfrLow coarseSrMin, .encSrMax c .sfrUp,
    wr c .dmdState 3, .prim (.sleep cfg.coarseDwellMs.toNat), rd c .tmgLockQuality, rd c .agc2Integ, rd c .sfr,
    rd c .carOvf, rd c .tmgOvf]

/-- Coarse step `k` (R253). -/
def coarseStep (cfg : Cfg) (c : Chan) (a : Attempt) (bl : BlindLocals) (k : Nat) (s : State) : Flow :=
  .go s (.prim (.tunerSetFrequency c (a.freq + zigzagIndex k * bl.freqStep))) (coarseRest cfg c)
    (.search (.coarseStep a bl k))

/-- CoarseSR starts (R250, R253). -/
def beginCoarse (cfg : Cfg) (c : Chan) (a : Attempt) (bl : BlindLocals) (s : State) : Flow :=
  coarseStep cfg c a { bl with freqStep := cfg.coarseFreqStep (uval (s.prof cfg).coarseSrMax) } 0
    (enterPhase c .coarse s)

/-- faultRun after a sample (R256). -/
def faultRunAfter (run : Nat) (co tov : Int) : Nat := if co = 1 ∧ tov = 1 then run + 1 else 0

/-- The three conditions of R253. -/
def coarseFound (cfg : Cfg) (p : Prof) (quality agc2 srC : Int) : Bool :=
  decide (uval cfg.tmgQualMin ≤ quality) && decide (agc2 < uval p.agc2LockTh) && decide (coarseSrMin ≤ srC) &&
    decide (srC ≤ uval p.coarseSrMax)

/-- After the reads of coarse step `k` (R253, R256); `got` is the tuner frequency, the quality, AGC2, SFR and the two
overflow bits. COARSE_MAX_STEPS is 10. -/
def coarseNext (cfg : Cfg) (c : Chan) (a : Attempt) (bl : BlindLocals) (k : Nat) (got : List Int) (s : State) : Flow :=
  let bl1 := { bl with faultRun := faultRunAfter bl.faultRun (nth got 4) (nth got 5) }
  let srC := symbolRate s.mclk (nth got 3)
  if cfg.faultSamples.toNat ≤ bl1.faultRun then endAttempt cfg c a .noLock s
  else if coarseFound cfg (s.prof cfg) (nth got 1) (nth got 2) srC then
    .go s (rd c .carFreq) [] (.search (.coarseCar a bl1 srC (nth got 0)))
  else if k + 1 < 10 then coarseStep cfg c a bl1 (k + 1) s
  else nextReference cfg c a bl1 s

/-! ## R257: the fine search -/

/-- FineSR(srC, fC) up to its lock wait (R257). -/
def beginFine (c : Chan) (a : Attempt) (bl : BlindLocals) (srC fC : Int) (s : State) : Flow :=
  .go (enterPhase c .fine s) (.prim (.tunerSetFrequency c fC))
    [.encSr c .sfrInit srC, .encSr c .sfrLow (srC - floorDiv (srC * 37) 100),
      .encSr c .sfrUp (srC + floorDiv (srC * 40) 100), .encCar c 0, wr c .dmdState 1]
    (.search (.armed (.fine a bl srC)))

/-- The end of the lock wait of R257: DEMOD_LOCKED with the FEC timeout of srC (43_search_fsm.md R207), or the next
timing reference. -/
def fineDone (cfg : Cfg) (c : Chan) (a : Attempt) (bl : BlindLocals) (srC : Int) (ok : Bool) (s : State) : Flow :=
  if ok then beginReadback c a (fecTimeout cfg srC .blind) s else nextReference cfg c a bl s

end Sys2Proof.Machine
end

