-- ==== Sys2Proof/Machine/Zigzag.lean ====
section
/-! DEFINITION. The carrier zig-zag sweep (44_blind_zigzag.md R270 to R276). -/

namespace Sys2Proof.Machine

/-- The offset of trial `z.k` (R272). -/
def zzOffset (cfg : Cfg) (a : Attempt) (z : ZigLocals) : Int :=
  if z.linear then -(cfg.zzMaxRange a.sr (zzClass a) : Int) + z.k * cfg.zzStep a.sr (zzClass a)
  else zigzagIndex z.k * cfg.zzStep a.sr (zzClass a)

/-- The head of the loop of R270: one trial, or the end of the attempt in NO_LOCK. -/
def zzTrial (cfg : Cfg) (c : Chan) (a : Attempt) (z : ZigLocals) (s : State) : Flow :=
  if cfg.zzMaxSteps a.sr (zzClass a) ≤ z.k then endAttempt cfg c a .noLock s
  else if (cfg.zzMaxRange a.sr (zzClass a) : Int) < |zzOffset cfg a z| then endAttempt cfg c a .noLock s
  else .go s (.encCar c (zzOffset cfg a z)) [wr c .dmdState 2] (.search (.armed (.zigzag a z)))

/-- The sweep starts (43_search_fsm.md R209, R270). -/
def beginZigzag (cfg : Cfg) (c : Chan) (a : Attempt) (s : State) : Flow :=
  zzTrial cfg c a { linear := false, falseLocks := 0, k := 0 } (enter c .carrierZigzagSweep s)

/-- The sweep has found a confirmed lock (R270, R273). -/
def zzLock (cfg : Cfg) (c : Chan) (a : Attempt) (s : State) : Flow :=
  beginReadback c a (fecTimeout cfg a.sr a.algo) s

/-- The end of a trial's lock wait (R270): the false-lock check (R273), or the signal-absent check (R275). -/
def zzDone (c : Chan) (a : Attempt) (z : ZigLocals) (ok : Bool) (s : State) : Flow :=
  if ok then .go s (rd c .detectedStd) [] (.search (.zzStd a z))
  else .go s (rd c .agc2Integ) [rd c .carFreq] (.search (.zzAbsent a z))

/-- A false lock: the sweep restarts in LINEAR mode, or fails when the budget is spent (R274; ZZ_FALSE_LOCK_MAX is 2). -/
def zzFalseLock (cfg : Cfg) (c : Chan) (a : Attempt) (z : ZigLocals) (s : State) : Flow :=
  if z.falseLocks = 2 then endAttempt cfg c a .noLock s
  else zzTrial cfg c a { linear := true, falseLocks := z.falseLocks + 1, k := 0 } s

/-- FLYWHEEL >= FLYWHEEL_TH (R273). -/
def flywheelGood (cfg : Cfg) (v : Int) : Bool := decide (uval cfg.flywheelTh ≤ v)

/-- signalAbsent() on the AGC2 level and the carrier offset (R275). -/
def signalAbsent (cfg : Cfg) (p : Prof) (agc2 car : Int) : Bool :=
  match cfg.zzAbsentMode with
  | .both => decide (uval p.zzAgc2AbsentTh ≤ agc2) && decide (uval cfg.zzSanityHz < |car|)
  | .either => decide (uval p.zzAgc2AbsentTh ≤ agc2) || decide (uval cfg.zzSanityHz < |car|)

/-- After the two reads of R275: the sweep fails, or the next trial (R270). -/
def zzAbsentNext (cfg : Cfg) (c : Chan) (a : Attempt) (z : ZigLocals) (got : List Int) (s : State) : Flow :=
  if signalAbsent cfg (s.prof cfg) (nth got 0) (carrierOffset s.mclk (nth got 1)) then endAttempt cfg c a .noLock s
  else zzTrial cfg c a { z with k := z.k + 1 } s

end Sys2Proof.Machine
end

