-- ==== Sys2Proof/Machine/Search.lean ====
section
/-! DEFINITION. SEARCH (43_search_fsm.md R200 to R224). -/

namespace Sys2Proof.Machine

/-! ## R217, R216, R215: FEC -/

/-- The signature of the false-lock workaround (R217). -/
def workaroundApplies (cfg : Cfg) (c : Chan) (res : Readback) (s : State) : Bool :=
  (s.prof cfg).s1FalseLockWa && (res.det.std == 1 || res.det.std == 2) && (s.chan c).req.iq == 0

/-- The request of the first workaround retry (R217); the second differs only in its IQ mode and stage. -/
def retryRequest (r : Request) (res : Readback) : Attempt :=
  { r.attempt .warm with freq := res.freq, sr := res.sr, iq := 2, stage := .retryInverted }

/-- The end of the FEC poll (R215): success (R216), or NO_DATA with the workaround (R217). -/
def fecDone (cfg : Cfg) (c : Chan) (a : Attempt) (res : Readback) (ok : Bool) (s : State) : Flow :=
  if ok then .go (enter c .fecLocked s) (wr c .cntReset 1) [] (.search .fecCleared)
  else
    match a.stage with
    | .first =>
      if workaroundApplies cfg c res s then beginAttempt cfg c (retryRequest (s.chan c).req res) s
      else finish c .noData s
    | .retryInverted => endAttempt cfg c a .noData s
    | .retryNormal => endAttempt cfg c a .noData s

/-- The FEC lock poll (R215). -/
def beginFec (cfg : Cfg) (c : Chan) (a : Attempt) (res : Readback) (fTmo : Nat) (s : State) : Flow :=
  waitFor c .fecLock fTmo (.fec a res fTmo) (fecDone cfg c a res false) s

/-! ## R213, R214: tracking optimization and relock -/

/-- TRACKING_OPTIMIZED up to its lock wait (R213). -/
def optimize (cfg : Cfg) (c : Chan) (a : Attempt) (res : Readback) (fTmo : Nat) (s : State) : Flow :=
  .go (enter c .trackingOptimized s)
    (wr c .carLoopGain (uval (carrierLoopGain cfg (s.prof cfg) res.sr res.det.std res.det.modcode res.det.frame
      res.det.pilots)))
    [.prim (.tunerSetBandwidth c (carrierWidth res.sr res.det.rolloff + uval cfg.tunerBwMargin))]
    (.search (.armed (.relock a res fTmo 0)))

/-- The end of a lock wait of R213 or R214; RELOCK_RETRIES is 2. -/
def relockDone (cfg : Cfg) (c : Chan) (a : Attempt) (res : Readback) (fTmo tries : Nat) (ok : Bool) (s : State) : Flow :=
  if ok then beginFec cfg c a res fTmo s
  else if tries < 2 then
    .go s (.encCar c res.car) [wr c .dmdState 2] (.search (.armed (.relock a res fTmo (tries + 1))))
  else endAttempt cfg c a .noLock s

/-! ## R211, R212: readback and range check -/

/-- The record `res` of R211 from the raw values and the last straight line of reads. -/
def readbackOf (cfg : Cfg) (m : Int) (std : BitVec 2) (cRaw sRaw tRaw : Int) (got : List Int) : Readback :=
  { freq := nth got (if std = 3 then 5 else 3) + carrierOffset m cRaw
    sr := symbolRate m sRaw + timingOffset cfg (symbolRate m sRaw) tRaw
    car := carrierOffset m cRaw
    det := detectedFrom std got }

/-- The RSL registers of R211. -/
def resultWritten (res : Readback) (ch : Channel) : Channel :=
  { ch with rslFreq := wrap32 res.freq, rslSr := wrap32 res.sr, rslOffset := wrap32 res.car, rslParams := res.det.params }

/-- The range check fails for the original request `o` (R212). RANGE_MARGIN is given the raw ROLLOFF code, so code 3,
which R75 treats as 0.35, need not have the margin of code 0 (log 24). -/
def outOfRange (cfg : Cfg) (o : Request) (res : Readback) : Bool :=
  decide (floorDiv (uval o.range) 2 + cfg.rangeMargin res.sr res.det.rolloff < |res.freq - uval o.freq|)

/-- After the last read of R211: the RSL registers, and the range check (R212). -/
def readbackDone (cfg : Cfg) (c : Chan) (a : Attempt) (fTmo : Nat) (res : Readback) (s : State) : Flow :=
  if outOfRange cfg (s.chan c).req res then endAttempt cfg c a .rangeExceeded (s.updChan c (resultWritten res))
  else optimize cfg c a res fTmo (s.updChan c (resultWritten res))

/-! ## R207 to R209: the branch by algorithm, direct lock -/

/-- DIRECT_LOCK up to its lock wait (R208). -/
def beginDirect (c : Chan) (a : Attempt) (s : State) : Flow :=
  .go (enter c .directLock s) (wr c .dmdState (if a.algo = .cold then 1 else 2)) [] (.search (.armed (.direct a)))

/-- The branch of R207. -/
def branchByAlgo (cfg : Cfg) (c : Chan) (a : Attempt) (s : State) : Flow :=
  match a.algo with
  | .blind => beginBlind cfg c a s
  | .cold => beginDirect c a s
  | .warm => beginDirect c a s

/-- The end of the lock wait of R208, with the cold-start timeout of R209; ZZ_SR_LIMIT is 10,000,000. -/
def directDone (cfg : Cfg) (c : Chan) (a : Attempt) (ok : Bool) (s : State) : Flow :=
  if ok then beginReadback c a (fecTimeout cfg a.sr a.algo) s
  else if a.algo = .cold then
    if 10000000 ≤ a.sr then endAttempt cfg c a .noLock s else .go s (rd c .tmgLock) [] (.search (.tmgLock a))
  else endAttempt cfg c a .noLock s

/-! ## Lock waits -/

/-- A lock wait at `site` has ended. -/
def waitDone (cfg : Cfg) (c : Chan) (site : WaitSite) (ok : Bool) (s : State) : Flow :=
  match site with
  | .direct a => directDone cfg c a ok s
  | .zigzag a z => zzDone c a z ok s
  | .fine a bl srC => fineDone cfg c a bl srC ok s
  | .relock a res fTmo tries => relockDone cfg c a res fTmo tries ok s
  | .fec a res _ => fecDone cfg c a res ok s

/-- After an iteration of the poll loop (R202): the read value decides, then the iterations left. -/
def waitNext (cfg : Cfg) (c : Chan) (site : WaitSite) (left : Nat) (v : Int) (s : State) : Flow :=
  if v = 1 then waitDone cfg c site true s
  else
    match left with
    | 0 => waitDone cfg c site false s
    | n + 1 => pollOnce c site.field site n s

/-! ## R204, R201, R205: before the first attempt -/

/-- The pre-check starts (R205). -/
def precheck (c : Chan) (s : State) : Flow := .go s (rd c .agc1Integ) [] (.search .agc1)

/-- The first attempt (R210). -/
def firstAttempt (cfg : Cfg) (c : Chan) (s : State) : Flow :=
  match algoOf (s.chan c).req.algo with
  | some algo => beginAttempt cfg c ((s.chan c).req.attempt algo) s
  | none => .stray

/-- The SEARCH body up to its first primitive (R204, R201, R205). Where R201 applies its write of MODCODE_EN comes before
the pre-check, so a search that then ends in NO_SIGNAL there has made four transactions, not R218 (d)'s three (log 25). -/
def searchEntry (cfg : Cfg) (c : Chan) (s : State) : Flow :=
  if !validRequest cfg (s.chan c).req then finish c .badParameter s
  else if cfg.searchReenablesModcodes && (s.chan c).stoppedMirror then
    .go s (wr c .modcodeEn (allModcodes cfg)) [] (.search .reenabled)
  else precheck c s

/-- After the AGC1 read (R205). -/
def agc1Next (cfg : Cfg) (c : Chan) (agc1 : Int) (s : State) : Flow :=
  if agc1 ≤ uval cfg.agc1ZeroTh then .go s (rd c .powerI) [rd c .powerQ] (.search .power)
  else firstAttempt cfg c s

/-- After the power reads (R205). -/
def powerNext (cfg : Cfg) (c : Chan) (pi pq : Int) (s : State) : Flow :=
  if pi < uval cfg.iqNosigTh ∧ pq < uval cfg.iqNosigTh then finish c .noSignal s else firstAttempt cfg c s

/-! ## The body -/

/-- The pure computations of SEARCH between its straight lines (R220). -/
def searchResume (cfg : Cfg) (c : Chan) (p : SearchPoint) (got : List Int) (s : State) : Flow :=
  match p with
  | .reenabled => precheck c (s.updChan c (Channel.modcodesWritten false (wrap32 (allModcodes cfg))))
  | .agc1 => agc1Next cfg c (nth got 0) s
  | .power => powerNext cfg c (nth got 0) (nth got 1) s
  | .coarseDone a => branchByAlgo cfg c a s
  | .armed site => waitFor c site.field (site.timeout cfg) site (waitDone cfg c site false) s
  | .wait site left => waitNext cfg c site left (nth got 0) s
  | .tmgLock a => if nth got 0 = 0 then endAttempt cfg c a .noLock s else beginZigzag cfg c a s
  | .zzStd a z => if nth got 0 = 3 then .go s (rd c .flywheel) [] (.search (.zzFly a z)) else zzLock cfg c a s
  | .zzFly a z =>
    if flywheelGood cfg (nth got 0) then zzLock cfg c a s
    else .go s (.prim (.sleep (cfg.zzTmo a.sr (zzClass a)))) [rd c .flywheel] (.search (.zzFlyAgain a z))
  | .zzFlyAgain a z => if flywheelGood cfg (nth got 0) then zzLock cfg c a s else zzFalseLock cfg c a z s
  | .zzAbsent a z => zzAbsentNext cfg c a z got s
  | .sweep a k minA => sweepNext cfg c a k (min minA (nth got 0)) s
  | .tmgRef a bl => beginCoarse cfg c a bl s
  | .coarseStep a bl k => coarseNext cfg c a bl k got s
  | .coarseCar a bl srC fAct => beginFine c a bl srC (fAct + carrierOffset s.mclk (nth got 0)) s
  | .readStd a fTmo =>
    .go s (paramFirst c (bitsOf 2 (nth got 0)))
      (paramRest c (bitsOf 2 (nth got 0)) ++ [.prim (.tunerGetFrequency c)])
      (.search (.readRest a fTmo (bitsOf 2 (nth got 0)) (nth got 1) (nth got 2) (nth got 3)))
  | .readRest a fTmo std cRaw sRaw tRaw => readbackDone cfg c a fTmo (readbackOf cfg s.mclk std cRaw sRaw tRaw got) s
  | .fecCleared => finish c .tracking s

/-- The acceptance actions of SEARCH on its channel (R200). -/
def searchAccepted (ch : Channel) : Channel :=
  { ch with req := ch.snapshot, locked := false, aborted := false, blindPhase := .none, state := .idle
            abortReq := false, rslFreq := 0, rslSr := 0, rslOffset := 0, rslParams := 0 }

/-- STATUS.ABORTED <- 1 and the register part of finish(NO_LOCK) (R221). -/
def searchAborted (ch : Channel) : Channel := { ch.finished .noLock with aborted := true }

/-- R200, R220, R221, R223. -/
def searchProgram (cfg : Cfg) (c : Chan) : Program :=
  { onAccept := fun s => s.updChan c searchAccepted
    entry := searchEntry cfg c
    resume := fun k got s =>
      match k with
      | .search p => searchResume cfg c p got s
      | _ => .stray
    onBusError := fun s => s.updChan c (Channel.finished .busError)
    aborting := fun s => (s.chan c).abortReq
    onAbort := fun s => s.updChan c searchAborted }

/-- SEARCH (R200). -/
def execSearch (c : Chan) (s : State) : Result := runCommand Config.cfg (.search c) (searchProgram Config.cfg c) s

end Sys2Proof.Machine
end

