-- ==== Sys2Proof/Machine/Dispatch.lean ====
section
/-! DEFINITION. One arm per command (30_encoding.md R102). -/

namespace Sys2Proof.Machine

def exec (i : Instr) (s : State) : Host.Outcome State Fault Refusal :=
  match i with
  | .init => Sys2Proof.Machine.execInit s
  | .term => Sys2Proof.Machine.execTerm s
  | .standby enter => Sys2Proof.Machine.execStandby enter s
  | .setLdpcMode dual => Sys2Proof.Machine.execSetLdpcMode dual s
  | .interp c table => Sys2Proof.Machine.execInterp c table s
  | .interp2 c coarse fine => Sys2Proof.Machine.execInterp2 c coarse fine s
  | .getRfLevel c => Sys2Proof.Machine.execGetRfLevel c s
  | .getCn c => Sys2Proof.Machine.execGetCn c s
  | .carrierOffset c dev => Sys2Proof.Machine.execCarrierOffset c dev s
  | .symbolRate c dev => Sys2Proof.Machine.execSymbolRate c dev s
  | .timingOffset c dev => Sys2Proof.Machine.execTimingOffset c dev s
  | .encSymbolRate c => Sys2Proof.Machine.execEncSymbolRate c s
  | .selectStandard c wr => Sys2Proof.Machine.execSelectStandard c wr s
  | .computeTimeouts c algo => Sys2Proof.Machine.execComputeTimeouts c algo s
  | .selectClg c wr => Sys2Proof.Machine.execSelectClg c wr s
  | .search c => Sys2Proof.Machine.execSearch c s
  | .abort c => Sys2Proof.Machine.execAbort c s
  | .unlock c => Sys2Proof.Machine.execUnlock c s
  | .getSignalInfo c => Sys2Proof.Machine.execGetSignalInfo c s
  | .getPer c => Sys2Proof.Machine.execGetPer c s
  | .ldpcMonitor c => Sys2Proof.Machine.execLdpcMonitor c s

end Sys2Proof.Machine
end

