-- ==== Sys2Proof/Machine/HostBus.lean ====
section
/-! DEFINITION. The host register space (20_memory.md R70 to R73): the address map, reads and writes of registers, the
classification of a host access, and the placing of a command word for the next step. -/

namespace Sys2Proof.Machine

/-- The registers of a channel bank (R72). -/
inductive ChanReg where
  | cmd | status | arg0 | arg1 | arg2 | arg3 | res0 | res1 | res2 | res3 | chCfg | reqFreq | reqSr | reqRange | reqMode
  | rslFreq | rslSr | rslOffset | rslParams | tmFreq | tmSr | tmRf | tmCn | tmErr | tmTotal | tmParams | ldpcStat
deriving DecidableEq, Repr

/-- A host register (R72). -/
inductive Reg where
  | gid | gcmd | gstatus | mclk
  | chan (c : Chan) (r : ChanReg)
deriving DecidableEq, Repr

/-- The channel register at an offset from the bank's base (R72). -/
def chanRegAt (offset : Nat) : Option ChanReg :=
  match offset with
  | 0x00 => some .cmd
  | 0x04 => some .status
  | 0x08 => some .arg0
  | 0x0C => some .arg1
  | 0x10 => some .arg2
  | 0x14 => some .arg3
  | 0x18 => some .res0
  | 0x1C => some .res1
  | 0x20 => some .res2
  | 0x24 => some .res3
  | 0x28 => some .chCfg
  | 0x30 => some .reqFreq
  | 0x34 => some .reqSr
  | 0x38 => some .reqRange
  | 0x3C => some .reqMode
  | 0x40 => some .rslFreq
  | 0x44 => some .rslSr
  | 0x48 => some .rslOffset
  | 0x4C => some .rslParams
  | 0x50 => some .tmFreq
  | 0x54 => some .tmSr
  | 0x58 => some .tmRf
  | 0x5C => some .tmCn
  | 0x60 => some .tmErr
  | 0x64 => some .tmTotal
  | 0x68 => some .tmParams
  | 0x6C => some .ldpcStat
  | _ => none

/-- The global register at an address below 0x100 (R72). -/
def globalRegAt (addr : Nat) : Option Reg :=
  match addr with
  | 0x000 => some .gid
  | 0x004 => some .gcmd
  | 0x008 => some .gstatus
  | 0x00C => some .mclk
  | _ => none

/-- The base address of a channel bank (R72). -/
def chanBase : Chan → Nat
  | .a => 0x100
  | .b => 0x200

/-- The register at a byte address; none for every address the map does not list (R72). -/
def regAt (addr : Nat) : Option Reg :=
  if addr < 0x100 then globalRegAt addr
  else if addr < 0x200 then (chanRegAt (addr - 0x100)).map (.chan .a)
  else (chanRegAt (addr - 0x200)).map (.chan .b)

/-- What a read of a channel register returns (10_state.md R21, R25 to R30); reserved bits and CMD read 0. -/
def readChan (ch : Channel) : ChanReg → Word
  | .cmd => 0
  | .status => statusWord ch
  | .arg0 => ch.arg0
  | .arg1 => ch.arg1
  | .arg2 => ch.arg2
  | .arg3 => ch.arg3
  | .res0 => ch.res0
  | .res1 => ch.res1
  | .res2 => ch.res2
  | .res3 => ch.res3
  | .chCfg => (BitVec.ofBool ch.berMode).setWidth 32
  | .reqFreq => ch.reqFreq
  | .reqSr => ch.reqSr
  | .reqRange => ch.reqRange
  | .reqMode => ch.reqMode.setWidth 32
  | .rslFreq => ch.rslFreq
  | .rslSr => ch.rslSr
  | .rslOffset => ch.rslOffset
  | .rslParams => ch.rslParams.setWidth 32
  | .tmFreq => ch.tmFreq
  | .tmSr => ch.tmSr
  | .tmRf => ch.tmRf
  | .tmCn => ch.tmCn
  | .tmErr => ch.tmErr
  | .tmTotal => ch.tmTotal
  | .tmParams => ch.tmParams.setWidth 32
  | .ldpcStat => ch.ldpcStat

/-- The RES, RSL and TM registers a command writes (70_reset_and_hazards.md R374; each command's rule). -/
def resultRegs : Instr → List ChanReg
  | .init => []
  | .term => []
  | .standby _ => []
  | .setLdpcMode _ => []
  | .interp _ _ => [.res0]
  | .interp2 _ _ _ => [.res0]
  | .getRfLevel _ => [.res0]
  | .getCn _ => [.res0]
  | .carrierOffset _ _ => [.res0]
  | .symbolRate _ _ => [.res0]
  | .timingOffset _ _ => [.res0]
  | .encSymbolRate _ => [.res0, .res1]
  | .selectStandard _ _ => [.res0]
  | .computeTimeouts _ _ => [.res0, .res1]
  | .selectClg _ _ => [.res0]
  | .search _ => [.rslFreq, .rslSr, .rslOffset, .rslParams]
  | .abort _ => []
  | .unlock _ => []
  | .getSignalInfo _ => [.tmFreq, .tmSr, .tmRf, .tmCn, .tmErr, .tmTotal, .tmParams]
  | .getPer _ => [.res0, .res1, .tmErr, .tmTotal]
  | .ldpcMonitor _ => [.res0]

/-- The attempt a lock wait belongs to. -/
def WaitSite.attempt : WaitSite → Attempt
  | .direct a => a
  | .zigzag a _ => a
  | .fine a _ _ => a
  | .relock a _ _ _ => a
  | .fec a _ _ => a

/-- The attempt a program point of a SEARCH belongs to, if the point keeps one. -/
def SearchPoint.attempt : SearchPoint → Option Attempt
  | .reenabled => none
  | .agc1 => none
  | .power => none
  | .coarseDone a => some a
  | .armed site => some site.attempt
  | .wait site _ => some site.attempt
  | .tmgLock a => some a
  | .zzStd a _ => some a
  | .zzFly a _ => some a
  | .zzFlyAgain a _ => some a
  | .zzAbsent a _ => some a
  | .sweep a _ _ => some a
  | .tmgRef a _ => some a
  | .coarseStep a _ _ => some a
  | .coarseCar a _ _ _ => some a
  | .readStd a _ => some a
  | .readRest a _ _ _ _ _ => some a
  | .fecCleared => none

/-- Whether the SEARCH at `p` on `ch` has written its RSL registers: STATE is past DEMOD_LOCKED, or a retry of the
workaround runs, which follows a readback (43_search_fsm.md R211, R213, R217). Before that they read 0, as R200 and R374
say. -/
def rslWritten (ch : Channel) : Point → Bool
  | .before _ _ _ (.search p) =>
    ch.state == .trackingOptimized || ch.state == .fecLocked || p.attempt.any fun a => a.stage != .first
  | _ => false

/-- Whether a channel register is open: BUSY is 1 and the running command writes it, so that a read may return the old
value, the new one or a mix (20_memory.md R80, R374, 93_implementation_defined.md I20). A register the command does not
write keeps its value. -/
def openWhileBusy (ch : Channel) (r : ChanReg) : Bool :=
  match ch.eng.run with
  | none => false
  | some ⟨i, p⟩ => ch.eng.busy && (resultRegs i).contains r && (!isSearch i || rslWritten ch p)

/-- A word as a channel register returns it: the reserved bits of RSL_PARAMS and TM_PARAMS read 0 (R21, R29, R30). -/
def withoutReserved (v : Word) : ChanReg → Word
  | .rslParams => (v.setWidth 15).setWidth 32
  | .tmParams => (v.setWidth 15).setWidth 32
  | _ => v

/-- What a host read of a register returns (R21 to R30, R73); GCMD reads 0. An open register returns a free value, the
one of this tick: no bound ties it to the old value or to the new one, which the command may not have computed yet
(I20, log 22). -/
def readReg (s : State) : Reg → Word
  | .gid => gidWord s.glob
  | .gcmd => 0
  | .gstatus => gstatusWord s.glob.eng
  | .mclk => s.glob.mclk
  | .chan c r =>
    if openWhileBusy (s.chan c) r then withoutReserved (Config.freeBusyRead s.tick) r else readChan (s.chan c) r

/-- A channel bank after a host write to one of its registers other than CMD: RW registers take the value with reserved
bits dropped, RO registers ignore it (R21, R73). -/
def writeChan (v : Word) (ch : Channel) : ChanReg → Channel
  | .arg0 => { ch with arg0 := v }
  | .arg1 => { ch with arg1 := v }
  | .arg2 => { ch with arg2 := v }
  | .arg3 => { ch with arg3 := v }
  | .chCfg => { ch with berMode := v.getLsbD 0 }
  | .reqFreq => { ch with reqFreq := v }
  | .reqSr => { ch with reqSr := v }
  | .reqRange => { ch with reqRange := v }
  | .reqMode => { ch with reqMode := v.setWidth 9 }
  | .cmd => ch
  | .status => ch
  | .res0 => ch
  | .res1 => ch
  | .res2 => ch
  | .res3 => ch
  | .rslFreq => ch
  | .rslSr => ch
  | .rslOffset => ch
  | .rslParams => ch
  | .tmFreq => ch
  | .tmSr => ch
  | .tmRf => ch
  | .tmCn => ch
  | .tmErr => ch
  | .tmTotal => ch
  | .tmParams => ch
  | .ldpcStat => ch

/-- A host write to a register that is no command register (R73); MCLK ignores writes while INITIALIZED is 1 (R24). -/
def writeReg (s : State) (v : Word) : Reg → State
  | .mclk => if s.glob.initialized then s else s.updGlob fun g => { g with mclk := v }
  | .chan c r => s.updChan c fun ch => writeChan v ch r
  | .gid => s
  | .gcmd => s
  | .gstatus => s

/-- Why an access is outside the interface contract, if it is (R70, 60_exceptions.md R343; log 12). -/
def accessFault (addr width : Nat) : Option Fault :=
  if width ≠ 4 then some .hostWidth
  else if addr % 4 ≠ 0 then some .hostAlign
  else if (regAt addr).isNone then some .hostUnmapped
  else none

/-- A host read within the contract returns the register's value and has no side effect (R73). -/
def hostRead (addr : Nat) (s : State) : HostStep :=
  match regAt addr with
  | some r => .done { s with hostData := readReg s r }
  | none => .fault .hostUnmapped

/-- A host write within the contract: to a command register it is a command word (R100), else it stores (R73). -/
def hostWrite (addr : Nat) (v : Word) (s : State) : HostStep :=
  match regAt addr with
  | some .gcmd => .command .global v
  | some (.chan c .cmd) => .command (.chan c) v
  | some r => .done (writeReg s v r)
  | none => .fault .hostUnmapped

/-- A host access (R70, R73). -/
def hostAccess (s : State) : HostAccess → HostStep
  | .read addr width =>
    match accessFault addr width with
    | some f => .fault f
    | none => hostRead addr s
  | .write addr width v =>
    match accessFault addr width with
    | some f => .fault f
    | none => hostWrite addr v s

/-- The byte the host bus carries at address `a`: bits [8k+7:8k] of the register at `a - k`, k = a mod 4
(20_memory.md R71). -/
def hostByte (s : State) (a : Nat) : Option (BitVec 8) :=
  (regAt (a - a % 4)).map fun r => (readReg s r).extractLsb' (8 * (a % 4)) 8

/-- The address of the command register a table row's word is written to: GCMD for the opcodes of the global map, CMD of
channel A for the others (30_encoding.md R102, log 2). -/
def commandAddress (word : Word) : Nat :=
  match decode .global word with
  | .ok _ => 0x004
  | .error _ => 0x100

/-- `s` with the host about to write a command word (R100): the next turn is that write, and nothing else changes. -/
def placeCommand (s : State) (word : Word) : State :=
  { s with turns := .host (.write (commandAddress word) 4 word) :: s.turns }

end Sys2Proof.Machine
end

