-- ==== Sys2Proof/Machine/Step.lean ====
section
/-! DEFINITION. One step of the machine: the agent whose turn it is moves (00_scope.md R13). -/

namespace Sys2Proof.Machine

/-- A word written to the command register of a bank: decoded once, in this step (30_encoding.md R105). -/
def commandWord (bank : Bank) (w : Word) (s : State) : Result :=
  match decode bank w with
  | .ok i => exec i s
  | .error e => .next (reject bank (opcodeOf w) (decodeResult e) s)

/-- The turn that moves now. -/
def takeTurn (s : State) : Result :=
  match s.now with
  | .host access =>
    match hostAccess s access with
    | .fault r => .fault r
    | .done s1 => .next s1
    | .command bank w => commandWord bank w s
  | .engine e _ =>
    match s.running e with
    | some r => exec r.instr s
    | none => .next s

/-- One step: the turn that moves now, and then the next turn's turn. -/
def step (s : State) : Host.Outcome State Fault Refusal :=
  match takeTurn s with
  | .next s1 => .next s1.advance
  | .fault r => .fault r
  | .refused r => .refused r

/-- `s` with the host about to write the command whose bits are `w` to its command register (log 2). -/
def State.withFetchWord (s : State) (nbits w : Nat) : State := placeCommand s (BitVec.ofNat 32 (w % 2 ^ nbits))

end Sys2Proof.Machine
end

