-- ==== Sys2Proof/Safety.lean ====
section
/-! DEFINITION. The terms claims about the machine are made in: several steps, the rule each engine follows, and the
invariant that ties BUSY, STATE, LOCKED, BLIND_PHASE and the LDPC flags to the running commands (10_state.md R25, R31,
R34, R36; 43_search_fsm.md R219, R224). -/

namespace Sys2Proof.Machine

/-- `n` steps, stopping at the first fault or refusal. -/
def steps : Nat → State → Result
  | 0, s => .next s
  | n + 1, s =>
    match step s with
    | .next t => steps n t
    | .fault r => .fault r
    | .refused r => .refused r

/-- The rule an engine follows for a command (30_encoding.md R102). No engine runs ABORT (46_lifecycle.md R324). -/
def ruleOf (cfg : Cfg) : Instr → Program
  | .init => initProgram cfg
  | .term => termProgram
  | .standby enter => standbyProgram enter
  | .setLdpcMode dual => setLdpcModeProgram dual
  | .interp c t => interpProgram cfg c t
  | .interp2 c coarse fine => interp2Program cfg c coarse fine
  | .getRfLevel c => getRfLevelProgram cfg c
  | .getCn c => getCnProgram cfg c
  | .carrierOffset c dev => carrierOffsetProgram c dev
  | .symbolRate c dev => symbolRateProgram c dev
  | .timingOffset c dev => timingOffsetProgram cfg c dev
  | .encSymbolRate c => encSymbolRateProgram c
  | .selectStandard c wr => selectStandardProgram cfg c wr
  | .computeTimeouts c algo => computeTimeoutsProgram cfg c algo
  | .selectClg c wr => selectClgProgram cfg c wr
  | .search c => searchProgram cfg c
  | .abort _ => plainProgram (fun _ => .stray) (fun _ _ _ => .stray)
  | .unlock c => unlockProgram c
  | .getSignalInfo c => getSignalInfoProgram cfg c
  | .getPer c => getPerProgram c
  | .ldpcMonitor c => ldpcMonitorProgram cfg c

/-- Whether a command is ABORT, the one command that never makes its engine busy (R324). -/
def isAbort : Instr → Bool
  | .abort _ => true
  | _ => false

/-! ## Describing one step of a command -/

/-- The turn that moves is a step of the engine that runs `i`, at the program point `p`, with the environment's answer
`ans`. -/
def Runs (s : State) (i : Instr) (p : Point) (ans : Answer) : Prop :=
  s.now = .engine i.bank ans ∧ s.running i.bank = some ⟨i, p⟩

/-- An engine after completion (30_encoding.md R106, 60_exceptions.md R346). -/
def ended (opcode : BitVec 8) (code : CmdResult) (g : Engine) : Engine :=
  { g with busy := false, cmdResult := code, lastOpcode := opcode, run := none }

/-- An engine that goes on with `i` at the program point `p`. -/
def standing (i : Instr) (p : Point) (g : Engine) : Engine := { g with run := some ⟨i, p⟩ }

/-- An engine that has accepted `i` (R105 line (9)). -/
def started (i : Instr) (g : Engine) : Engine :=
  { g with busy := true, lastOpcode := i.opcode, run := some ⟨i, .start⟩, elapsed := 0 }

/-- `s` with the registers of channel `c` changed by `f`, its engine by `g`, and the transactions `events` made, newest
first. Everything else is as in `s`: the other channel, the global bank, the model's own fields. -/
def chanAfter (c : Chan) (f : Channel → Channel) (g : Engine → Engine) (events : List BusEvent) (s : State) : State :=
  { s.updChan c (fun ch => { f ch with eng := g ch.eng }) with bus := events ++ s.bus }

/-- `s` with the global registers changed by `f`, the global engine by `g`, and the transactions `events` made, newest
first. Everything else is as in `s`. -/
def globAfter (f : Global → Global) (g : Engine → Engine) (events : List BusEvent) (s : State) : State :=
  { s.updGlob (fun gl => { f gl with eng := g gl.eng }) with bus := events ++ s.bus }

/-- `s` after the step in which the attempt `a` of channel `c`'s SEARCH ends in `out`, not TRACKING, with the registers
changed by `f`, `ms` slept and the transactions `events` made in that step (43_search_fsm.md R210, R217, R219). The first
attempt ends the search in `out`; the retry with inverted IQ is followed by the one with normal IQ, whose COARSE_ACQUIRE
starts at the tuner; and that one's end is the search's, in NO_DATA. -/
def attemptEnded (c : Chan) (a : Attempt) (out : SearchState) (f : Channel → Channel) (ms : Nat)
    (events : List BusEvent) (s : State) : State :=
  let ends := fun st : SearchState =>
    chanAfter c (fun ch => { f ch with state := st, blindPhase := .none })
      (fun g => { ended 0x40 .ok g with elapsed := g.elapsed + ms }) events s
  let normal : Attempt := { a with iq := 1, stage := .retryNormal }
  match a.stage with
  | .first => ends out
  | .retryInverted =>
    chanAfter c (fun ch => { f ch with state := .coarseAcquire })
      (fun g =>
        { standing (.search c) (.before (.tunerSetFrequency c a.freq) (coarseOps Config.cfg c normal) []
            (.search (.coarseDone normal))) g with elapsed := g.elapsed + ms }) events s
  | .retryNormal => ends .noData

/-- A transaction of channel `c`'s engine that went through. -/
def chanDid (c : Chan) (p : Prim) (v : Int) : BusEvent := ⟨.chan c, p, v, true⟩

/-- A transaction of the global engine that went through. -/
def globDid (p : Prim) (v : Int) : BusEvent := ⟨.global, p, v, true⟩

/-- The step from `s` to `t` is the host write that accepts `i`: the word decodes to `i` in the bank whose command
register it is written to (20_memory.md R72), that bank's engine is not busy, and in `t` it runs `i` from its start
(30_encoding.md R105 line (9)). -/
def Accepts (s t : State) (i : Instr) : Prop :=
  ∃ addr w bank, (addr, bank) ∈ [(0x004, Bank.global), (0x100, .chan .a), (0x200, .chan .b)] ∧
    s.now = .host (.write addr 4 w) ∧ decode bank w = .ok i ∧ (s.eng bank).busy = false ∧
    (t.eng bank).busy = true ∧ t.running bank = some ⟨i, .start⟩

/-! ## Program points -/

/-- The program points of each command: a running command stands only at its own. -/
def ownsPoint : Instr → Kont → Bool
  | .getRfLevel _, .rfAgc => true
  | .getRfLevel _, .rfGain _ => true
  | .getCn _, .cnStd => true
  | .getCn _, .cnSamples _ => true
  | .carrierOffset _ _, .carrierRead => true
  | .symbolRate _ _, .symbolRead => true
  | .timingOffset _ _, .timingRead => true
  | .selectStandard _ _, .stdWritten _ => true
  | .selectClg _ _, .clgWritten _ => true
  | .getSignalInfo _, .infoCar => true
  | .getSignalInfo _, .infoSfr _ => true
  | .getSignalInfo _, .infoStd _ _ => true
  | .getSignalInfo _, .infoAgc _ _ _ => true
  | .getSignalInfo _, .infoGain _ => true
  | .getSignalInfo _, .infoCnStd _ => true
  | .getSignalInfo _, .infoCnSamples _ _ => true
  | .getSignalInfo _, .infoReset _ _ => true
  | .getPer _, .perRead => true
  | .ldpcMonitor _, .ldpcRead => true
  | .ldpcMonitor _, .ldpcDisabled => true
  | .ldpcMonitor _, .ldpcEnabled => true
  | .init, .initId => true
  | .init, .initDone _ => true
  | .term, .termDone => true
  | .standby _, .standbyDone => true
  | .setLdpcMode _, .ldpcModeDone => true
  | .unlock _, .unlockDone => true
  | .search _, .search _ => true
  | _, _ => false

/-- STATUS.STATE while a lock wait of `site` runs (43_search_fsm.md R208, R213 to R215; 44_blind_zigzag.md R250, R270). -/
def WaitSite.state : WaitSite → SearchState
  | .direct _ => .directLock
  | .zigzag _ _ => .carrierZigzagSweep
  | .fine _ _ _ => .blindCoarseSymbolRate
  | .relock _ _ _ _ => .trackingOptimized
  | .fec _ _ _ => .trackingOptimized

/-- STATUS.STATE on the way to each program point of a SEARCH: STATE names where the channel is (10_state.md R34). -/
def SearchPoint.state : SearchPoint → SearchState
  | .reenabled => .idle
  | .agc1 => .idle
  | .power => .idle
  | .coarseDone _ => .coarseAcquire
  | .armed site => site.state
  | .wait site _ => site.state
  | .tmgLock _ => .directLock
  | .zzStd _ _ => .carrierZigzagSweep
  | .zzFly _ _ => .carrierZigzagSweep
  | .zzFlyAgain _ _ => .carrierZigzagSweep
  | .zzAbsent _ _ => .carrierZigzagSweep
  | .sweep _ _ _ => .blindCoarseSymbolRate
  | .tmgRef _ _ => .blindCoarseSymbolRate
  | .coarseStep _ _ _ => .blindCoarseSymbolRate
  | .coarseCar _ _ _ _ => .blindCoarseSymbolRate
  | .readStd _ _ => .demodLocked
  | .readRest _ _ _ _ _ _ => .demodLocked
  | .fecCleared => .fecLocked

/-- An attempt is the first one, or a warm retry (43_search_fsm.md R217). -/
def Attempt.firstOrWarm (a : Attempt) : Bool := a.stage == .first || a.algo == .warm

/-- The first attempt of a search with algorithm `algo`. -/
def Attempt.firstOf (algo : Algo) (a : Attempt) : Bool := a.stage == .first && a.algo == algo

/-- The locals a lock wait of `site` can have: the zig-zag sweep belongs to a first COLD attempt with at most two false
locks (R209, 44_blind_zigzag.md R274), the fine search to a first BLIND attempt (R207). -/
def WaitSite.fits : WaitSite → Bool
  | .direct a => a.firstOrWarm && a.algo != .blind
  | .zigzag a z => a.firstOf .cold && z.falseLocks ≤ 2
  | .fine a _ _ => a.firstOf .blind
  | .relock a _ _ _ => a.firstOrWarm
  | .fec a _ _ => a.firstOrWarm

/-- The locals a program point of a SEARCH can have. -/
def SearchPoint.fits : SearchPoint → Bool
  | .reenabled => true
  | .agc1 => true
  | .power => true
  | .coarseDone a => a.firstOrWarm
  | .armed site => site.fits
  | .wait site _ => site.fits
  | .tmgLock a => a.firstOf .cold
  | .zzStd a z => a.firstOf .cold && z.falseLocks ≤ 2
  | .zzFly a z => a.firstOf .cold && z.falseLocks ≤ 2
  | .zzFlyAgain a z => a.firstOf .cold && z.falseLocks ≤ 2
  | .zzAbsent a z => a.firstOf .cold && z.falseLocks ≤ 2
  | .sweep a _ _ => a.firstOf .blind
  | .tmgRef a _ => a.firstOf .blind
  | .coarseStep a _ _ => a.firstOf .blind
  | .coarseCar a _ _ _ => a.firstOf .blind
  | .readStd a _ => a.firstOrWarm
  | .readRest a _ _ _ _ _ => a.firstOrWarm
  | .fecCleared => true

/-! ## The invariant -/

/-- The program point of a running command is one of its own. -/
def pointOk (i : Instr) : Point → Prop
  | .start => True
  | .before _ _ _ k => ownsPoint i k = true

/-- An engine is busy exactly while it runs a command (10_state.md R36), and that command is well formed, is no ABORT,
and belongs to the engine's bank (R20). -/
def EngineInv (e : Bank) (g : Engine) : Prop :=
  match g.run with
  | none => g.busy = false
  | some r =>
    g.busy = true ∧ r.instr.bank = e ∧ r.instr.wellFormed = true ∧ isAbort r.instr = false ∧ pointOk r.instr r.point

/-- A channel whose engine runs a SEARCH at `p`: STATE names the program point, the request's algorithm is one of the
three once validated (R204), and the point's locals fit it. -/
def SearchInv (ch : Channel) : Point → Prop
  | .start => ch.state = .idle ∧ ch.blindPhase = .none
  | .before _ _ _ (.search p) => ch.state = p.state ∧ (algoOf ch.req.algo).isSome ∧ p.fits = true
  | .before _ _ _ _ => False

/-- What holds of a channel bank: LOCKED is 1 exactly in TRACKING (R219), ch.ldpcStopped mirrors STATUS.LDPC_STOPPED
(R31), stopped means that MODCODE_EN was last written with 0 (R294), ABORTED is 0 while a SEARCH runs (R36), and outside
a SEARCH the state is no transient one (R34) and the blind phase is 0 (R25). -/
def ChannelInv (ch : Channel) : Prop :=
  (ch.locked = true ↔ ch.state = .tracking) ∧ ch.stoppedMirror = ch.ldpcStopped ∧
    (ch.ldpcStopped = true → ch.modcodeMask = 0) ∧
    match ch.eng.run with
    | some ⟨.search _, p⟩ => ch.aborted = false ∧ SearchInv ch p
    | _ => ch.state.transient = false ∧ ch.blindPhase = .none

/-- The invariant of the machine. -/
def Inv (s : State) : Prop :=
  EngineInv .global s.glob.eng ∧ EngineInv (.chan .a) s.a.eng ∧ EngineInv (.chan .b) s.b.eng ∧ ChannelInv s.a ∧
    ChannelInv s.b

/-! ## The transition table -/

/-- The edges of STATE that a running SEARCH takes of itself (43_search_fsm.md R224), with the two that end an attempt of
the workaround loop of R217: back to COARSE_ACQUIRE, or to NO_DATA. -/
def searchEdge : SearchState → SearchState → Bool
  | .idle, .badParameter => true
  | .idle, .noSignal => true
  | .idle, .coarseAcquire => true
  | .coarseAcquire, .blindCoarseSymbolRate => true
  | .coarseAcquire, .directLock => true
  | .blindCoarseSymbolRate, .noSignal => true
  | .blindCoarseSymbolRate, .noLock => true
  | .blindCoarseSymbolRate, .demodLocked => true
  | .directLock, .demodLocked => true
  | .directLock, .noLock => true
  | .directLock, .carrierZigzagSweep => true
  | .directLock, .coarseAcquire => true
  | .directLock, .noData => true
  | .carrierZigzagSweep, .demodLocked => true
  | .carrierZigzagSweep, .noLock => true
  | .demodLocked, .rangeExceeded => true
  | .demodLocked, .trackingOptimized => true
  | .demodLocked, .coarseAcquire => true
  | .demodLocked, .noData => true
  | .trackingOptimized, .noLock => true
  | .trackingOptimized, .fecLocked => true
  | .trackingOptimized, .coarseAcquire => true
  | .trackingOptimized, .noData => true
  | .fecLocked, .tracking => true
  | _, _ => false

end Sys2Proof.Machine
end

