-- ==== Sys2Proof/Certificates/Slice0/Obligations.lean ====
section
/-! DEFINITION. The statements for the provers. Each docstring names the rules of spec/ the statement formalises. -/

open Sys2Proof Sys2Proof.Machine

/-! ## Encoding (30_encoding.md) -/

/-- R100 to R103: a command's word, read for the command's bank, is that command, with every operand at every value its
field admits. -/
def Obligations.DecodeEncodeRoundTrip : Prop := ∀ i : Instr, decode i.bank (encode i) = .ok i

/-- R100, R104, R107: a word that decodes has one meaning, and every bit of it is the command's: encoding the command
gives the word back. -/
def Obligations.EncodeDecodeRoundTrip : Prop :=
  ∀ (bank : Bank) (w : Word) (i : Instr), decode bank w = .ok i → i.bank = bank ∧ encode i = w

/-- R102, R103, R104: which words are illegal in each bank, and which words of a mapped opcode have a reserved field.
A row is an opcode, the SUB bits that must be 0, and the IMM16 bits that must be 0. -/
def Obligations.IllegalAndReservedWords : Prop :=
  ∀ w : Word,
    (decode .global w = .error .illegalOpcode ↔ (w.extractLsb' 0 8).toNat ∉ [0x01, 0x02, 0x03, 0x04]) ∧
    (∀ c, decode (.chan c) w = .error .illegalOpcode ↔
      (w.extractLsb' 0 8).toNat ∉
        [0x10, 0x11, 0x12, 0x13, 0x20, 0x21, 0x22, 0x23, 0x30, 0x31, 0x32, 0x40, 0x41, 0x42, 0x50, 0x51, 0x52]) ∧
    (∀ row ∈ ([(0x01, 0b111, 0xFFFF), (0x02, 0b111, 0xFFFF), (0x03, 0b110, 0xFFFF), (0x04, 0b110, 0xFFFF)] :
        List (BitVec 8 × BitVec 3 × BitVec 16)),
      w.extractLsb' 0 8 = row.1 →
        (decode .global w = .error .reservedField ↔
          w.extractLsb' 11 5 ≠ 0 ∨ w.extractLsb' 8 3 &&& row.2.1 ≠ 0 ∨ w.extractLsb' 16 16 &&& row.2.2 ≠ 0)) ∧
    (∀ c, ∀ row ∈ ([(0x10, 0b000, 0xFFFF), (0x11, 0b000, 0xFFF8), (0x12, 0b111, 0xFFFF), (0x13, 0b111, 0xFFFF),
        (0x20, 0b110, 0xFFFF), (0x21, 0b110, 0xFFFF), (0x22, 0b110, 0xFFFF), (0x23, 0b111, 0xFFFF),
        (0x30, 0b110, 0xFFFF), (0x31, 0b100, 0xFFFF), (0x32, 0b110, 0xFFFF), (0x40, 0b111, 0xFFFF),
        (0x41, 0b111, 0xFFFF), (0x42, 0b111, 0xFFFF), (0x50, 0b111, 0xFFFF), (0x51, 0b111, 0xFFFF),
        (0x52, 0b111, 0xFFFF)] : List (BitVec 8 × BitVec 3 × BitVec 16)),
      w.extractLsb' 0 8 = row.1 →
        (decode (.chan c) w = .error .reservedField ↔
          w.extractLsb' 11 5 ≠ 0 ∨ w.extractLsb' 8 3 &&& row.2.1 ≠ 0 ∨ w.extractLsb' 16 16 &&& row.2.2 ≠ 0))

/-- R110: the ten encoding examples, decoded for the bank they name and encoded back. -/
def Obligations.EncodingExamples : Prop :=
  ∀ ex ∈ ([(Instr.init, 0x00000001), (.standby true, 0x00000103), (.setLdpcMode true, 0x00000104),
      (.interp .a 3, 0x00000310), (.interp2 .a 0 1, 0x00010011), (.carrierOffset .a true, 0x00000120),
      (.computeTimeouts .b 2, 0x00000231), (.selectClg .a true, 0x00000132), (.search .a, 0x00000040),
      (.ldpcMonitor .b, 0x00000052)] : List (Instr × Word)),
    encode ex.1 = ex.2 ∧ decode ex.1.bank ex.2 = .ok ex.1

/-! ## A step runs the decoded command (00_scope.md R13, 30_encoding.md R105) -/

/-- R72, R84, R105: the step of a host write of a command word to a command register is the meaning of the command it
decodes to, at that state, and then the next turn's turn. -/
def Obligations.StepRunsWrittenCommand : Prop :=
  ∀ (s : State) (addr : Nat) (bank : Bank) (w : Word) (i : Instr),
    (addr, bank) ∈ [(0x004, Bank.global), (0x100, .chan .a), (0x200, .chan .b)] →
    s.now = .host (.write addr 4 w) → decode bank w = .ok i →
      step s = match exec i s with
        | .next t => .next { t with turns := t.turns.tail, tick := t.tick + 1 }
        | .fault r => .fault r
        | .refused r => .refused r

/-- R13: the step of an engine's turn is the meaning of the command the engine runs, and nothing if it runs none; then
the next turn's turn. -/
def Obligations.StepRunsEngine : Prop :=
  ∀ (s : State) (e : Bank) (ans : Answer), s.now = .engine e ans →
    (∀ r, s.running e = some r →
      step s = match exec r.instr s with
        | .next t => .next { t with turns := t.turns.tail, tick := t.tick + 1 }
        | .fault x => .fault x
        | .refused x => .refused x) ∧
    (s.running e = none → step s = .next { s with turns := s.turns.tail, tick := s.tick + 1 })

/-- R105 lines (1) and (2): a word that is no command of the bank it is written to is rejected; CMD_RESULT and
LAST_OPCODE of that bank's engine are written and nothing else changes. That this also holds of a malformed ABORT word,
whose reject writes LAST_OPCODE 0x41 although R25 excepts ABORT, is the model's choice (log 8). -/
def Obligations.UndecodableWordRejected : Prop :=
  ∀ (s : State) (addr : Nat) (bank : Bank) (w : Word) (err : DecodeError),
    (addr, bank) ∈ [(0x004, Bank.global), (0x100, .chan .a), (0x200, .chan .b)] →
    s.now = .host (.write addr 4 w) → decode bank w = .error err →
      step s = .next (s.updEng bank fun g =>
        { g with
          cmdResult := match err with
            | .illegalOpcode => .illegalOpcode
            | .reservedField => .reservedField
          lastOpcode := w.extractLsb' 0 8 }).advance

/-- R12, R13, R78, R74 to R77: one step of a command inside a straight line of primitives: its transaction goes over the
bus and completes, the value it returns is kept, and the engine stands before the next primitive, whose operand is computed
now (log 14); nothing else changes. A read keeps the environment's answer within its field's width, and a write delivers
its value within its field's width; the widths are listed field by field. That a tuner frequency has no width and that the
LNA's presence is one bit are readings of R351 (log 11). -/
def Obligations.StraightLineStep : Prop :=
  ∀ (s : State) (i : Instr) (q : Prim) (op : Op) (ops : List Op) (got : List Int) (k : Kont) (v : Int),
    let readWidth : ReadField → Nat := fun f =>
      match f with
      | .agc1Integ | .agc2Integ | .noiseS1 | .noiseS2 | .ldpcPktErr | .ldpcFrameErr => 16
      | .powerI | .powerQ => 8
      | .demodLock | .tmgLock | .fecLock | .frameLen | .pilots | .spectrumInv | .carOvf | .tmgOvf => 1
      | .tmgLockQuality | .detectedStd | .rolloff => 2
      | .carFreq | .tmgOffset | .berCnt => 24
      | .sfr | .perErr | .perTotal => 32
      | .modcode => 5
      | .punctRate => 3
      | .flywheel => 4
    let writeWidth : WriteField → Nat := fun f =>
      match f with
      | .dmdState => 3
      | .sfrInit | .sfrLow | .sfrUp | .cfrInit => 16
      | .iqMode => 2
      | .rolloffCtrl | .stdEnS1 | .stdEnS2 | .dssMode | .cntReset | .ldpcCntReset | .berMode => 1
      | .prMask => 6
      | .carLoopGain | .tmgRef => 8
      | .modcodeEn => 32
    let globalWidth : GlobalField → Nat := fun f =>
      match f with
      | .mclkCfg => 32
      | .ldpcMode | .devStandby => 1
    let kept : Option Int :=
      match q with
      | .devRead _ f => some (v % 2 ^ readWidth f)
      | .readChipId => some (v % 2 ^ 8)
      | .tunerGetFrequency _ => some v
      | .lnaProbe => some (v % 2)
      | .lnaGetGain => some (if v % 256 < 128 then v % 256 else v % 256 - 256)
      | _ => none
    let delivered : Prim :=
      match q with
      | .devWrite c f x => .devWrite c f (x % 2 ^ writeWidth f)
      | .globalWrite f x => .globalWrite f (x % 2 ^ globalWidth f)
      | _ => q
    (∀ c, i ≠ .abort c) → (∀ ms, q ≠ .sleep ms) → Runs s i (.before q (op :: ops) got k) ⟨false, v⟩ →
    exec i s = .next
      { s.updEng i.bank (standing i (.before
            (match op with
              | .prim p => p
              | .encSr c f sr => .devWrite c f (encSr s.glob.mclk.toNat sr)
              | .encSrMax c f => .devWrite c f
                  (encSr s.glob.mclk.toNat (Config.cfg.prof s.glob.profile).coarseSrMax.toNat)
              | .encCar c off => .devWrite c .cfrInit (encCar s.glob.mclk.toNat off)
              | .mclkCfg => .globalWrite .mclkCfg s.glob.mclk.toNat)
            ops (got ++ kept.toList) k)) with
        bus := ⟨i.bank, delivered, kept.getD 0, true⟩ :: s.bus }

/-! ## Acceptance (30_encoding.md R105) -/

/-- R105 lines (4) to (8): on a host turn a command other than ABORT is rejected with the code of the first line that
matches; the reject writes CMD_RESULT and LAST_OPCODE of the bank's engine and nothing else. -/
def Obligations.RejectionOrder : Prop :=
  ∀ (i : Instr) (s : State) (acc : HostAccess), s.now = .host acc → (∀ c, i ≠ .abort c) →
    let rejected := fun code : CmdResult =>
      exec i s = .next (s.updEng i.bank fun g => { g with cmdResult := code, lastOpcode := i.opcode })
    let busy := (s.eng i.bank).busy = true ∨
      ((i = .init ∨ i = .term ∨ i = .standby true ∨ ∃ d, i = .setLdpcMode d) ∧
        (s.a.eng.busy = true ∨ s.b.eng.busy = true))
    let uninitialized := s.glob.initialized = false ∧ i ≠ .init
    let inStandby := s.glob.standby = true ∧ ∃ c, i = .search c
    let badOperand := (∃ c t, i = .interp c t ∧ 4 ≤ t.toNat) ∨
      (∃ c t u, i = .interp2 c t u ∧ (4 ≤ t.toNat ∨ 4 ≤ u.toNat)) ∨ (∃ c, i = .computeTimeouts c 3) ∨
      (i = .init ∧ s.glob.mclk.toNat < 2 ^ 17)
    (busy → rejected .rejectedBusy) ∧
      (¬busy → uninitialized → rejected .notInitialized) ∧
      (¬busy → ¬uninitialized → inStandby → rejected .inStandby) ∧
      (¬busy → ¬uninitialized → ¬inStandby → badOperand → rejected .badOperand)

/-- R105 line (9): a command with no acceptance action, accepted: BUSY, LAST_OPCODE, the engine at the command's start,
its elapsed time 0 (log 10), and nothing else. -/
def Obligations.PlainCommandAccepted : Prop :=
  ∀ (i : Instr) (s : State) (acc : HostAccess), s.now = .host acc →
    (∀ c, i ≠ .abort c ∧ i ≠ .search c ∧ i ≠ .unlock c) → i ≠ .init → i ≠ .term → i ≠ .standby true →
    (s.eng i.bank).busy = false →
    ((∃ d, i = .setLdpcMode d) → s.a.eng.busy = false ∧ s.b.eng.busy = false) →
    s.glob.initialized = true → i.wellFormed = true →
      exec i s = .next (s.updEng i.bank (started i))

/-- R200: SEARCH accepted: the snapshot of the request, the cleared flags and result registers, and nothing else.
The elapsed time is the model's own field (log 10). -/
def Obligations.SearchAccepted : Prop :=
  ∀ (s : State) (c : Chan) (acc : HostAccess), s.now = .host acc → (s.chan c).eng.busy = false →
    s.glob.initialized = true → s.glob.standby = false →
      exec (.search c) s = .next (chanAfter c
        (fun ch => { ch with
          req := { freq := ch.reqFreq, sr := ch.reqSr, range := ch.reqRange, algo := ch.reqMode.extractLsb' 0 2
                   std := ch.reqMode.extractLsb' 2 2, iq := ch.reqMode.extractLsb' 4 2
                   pr := ch.reqMode.extractLsb' 6 3, berMode := ch.berMode }
          locked := false, aborted := false, blindPhase := .none, state := .idle, abortReq := false
          rslFreq := 0, rslSr := 0, rslOffset := 0, rslParams := 0 })
        (started (.search c)) [] s)

/-- R320, R321, R322, R325: INIT, TERM, STANDBY enter and UNLOCK accepted: their acceptance actions on both channels, or
on the one UNLOCK was written to, and nothing else (INIT clears ABORTED as R320 says, log 6).
The elapsed time is the model's own field (log 10). -/
def Obligations.LifecycleAccepted : Prop :=
  ∀ (s : State) (acc : HostAccess), s.now = .host acc →
    let park := fun ch : Channel => { ch with state := .idle, locked := false, blindPhase := .none }
    (s.glob.eng.busy = false → s.a.eng.busy = false → s.b.eng.busy = false →
      (2 ^ 17 ≤ s.glob.mclk.toNat →
        exec .init s = .next
          { s with
            glob := { s.glob with eng := started .init s.glob.eng }
            a := { park s.a with aborted := false, abortReq := false }
            b := { park s.b with aborted := false, abortReq := false } }) ∧
      (s.glob.initialized = true →
        exec .term s = .next
            { s with glob := { s.glob with eng := started .term s.glob.eng }, a := park s.a, b := park s.b } ∧
          exec (.standby true) s = .next
            { s with glob := { s.glob with eng := started (.standby true) s.glob.eng }, a := park s.a, b := park s.b })) ∧
    ∀ c, (s.chan c).eng.busy = false → s.glob.initialized = true →
      exec (.unlock c) s = .next (chanAfter c park (started (.unlock c)) [] s)

/-- R324: ABORT, in the host step that writes it: ch.abort of a busy channel is set, and nothing else changes, whatever
INITIALIZED and STANDBY are. -/
def Obligations.AbortSetsFlag : Prop :=
  ∀ (s : State) (c : Chan) (acc : HostAccess), s.now = .host acc →
    ((s.chan c).eng.busy = true → exec (.abort c) s = .next (s.updChan c fun ch => { ch with abortReq := true })) ∧
    ((s.chan c).eng.busy = false → exec (.abort c) s = .next s)

/-! ## Lookup (40_lookup.md) -/

/-- R141: the two clamps, `beyondWeak`, and that the two conditions exclude each other. -/
def Obligations.InterpClamps : Prop :=
  ∀ (t : CalTable) (x : Int),
    let n := t.points.length
    let inc := rawAt t 0 < rawAt t (n - 1)
    let strong := (inc ∧ x < rawAt t 0) ∨ (¬inc ∧ rawAt t 0 < x)
    let weak := (inc ∧ rawAt t (n - 1) < x) ∨ (¬inc ∧ x < rawAt t (n - 1))
    (strong → interp t x = physAt t 0) ∧ (weak → interp t x = physAt t (n - 1)) ∧ (beyondWeak t x = true ↔ weak) ∧
      ¬(strong ∧ weak)

/-- R142, R143: between the two ends the binary search ends on two neighbouring points with x between them, and the
result is the line through them, its product exact and its division truncated toward zero; any other interval of
neighbouring points with x between them gives the same result. -/
def Obligations.BracketFindsInterval : Prop :=
  ∀ (t : CalTable) (x : Int), between (rawAt t 0) x (rawAt t (t.points.length - 1)) = true →
    let iv := bracket t x (t.points.length - 1) 0 (t.points.length - 1)
    let line := fun imin imax : Nat =>
      ((x - rawAt t imin) * (physAt t imax - physAt t imin)).tdiv (rawAt t imax - rawAt t imin) + physAt t imin
    iv.2 = iv.1 + 1 ∧ iv.2 < t.points.length ∧ between (rawAt t iv.1) x (rawAt t iv.2) = true ∧
      interp t x = line iv.1 iv.2 ∧
      ∀ k, k + 1 < t.points.length → between (rawAt t k) x (rawAt t (k + 1)) = true → interp t x = line k (k + 1)

/-- R151: the table's points are reproduced; between two consecutive points the result moves the way phys moves; and no
result is outside the table's physical range. -/
def Obligations.InterpProperties : Prop :=
  ∀ t : CalTable,
    (∀ k < t.points.length, interp t (rawAt t k) = physAt t k) ∧
    (∀ k x y, k + 1 < t.points.length → between (rawAt t k) x y = true → between x y (rawAt t (k + 1)) = true →
      between (rawAt t k) x (rawAt t (k + 1)) = true → between (rawAt t k) y (rawAt t (k + 1)) = true →
      (physAt t k ≤ physAt t (k + 1) → interp t x ≤ interp t y) ∧
        (physAt t (k + 1) ≤ physAt t k → interp t y ≤ interp t x)) ∧
    ∀ x, (∃ i < t.points.length, physAt t i ≤ interp t x) ∧ ∃ j < t.points.length, interp t x ≤ physAt t j

/-- R146, R147, R144, R150: INTERP and INTERP2 complete in one step, with RES0 written from the tables their ids name and
nothing else, and no transaction. The ids 0 to 3 name RF_TABLE, RF_LOW_TABLE, CN_S1_TABLE and CN_S2_TABLE.
LAST_OPCODE at completion is as R105's last sentence has it (log 7). -/
def Obligations.InterpCompletes : Prop :=
  ∀ (s : State) (c : Chan) (ans : Answer) (k l : BitVec 3) (t u : CalTable),
    let tables : List (BitVec 3 × CalTable) :=
      [(0, Config.cfg.rfTable), (1, Config.cfg.rfLowTable), (2, Config.cfg.cnS1Table), (3, Config.cfg.cnS2Table)]
    (k, t) ∈ tables → (l, u) ∈ tables →
    (Runs s (.interp c k) .start ans →
      exec (.interp c k) s = .next (chanAfter c
        (fun ch => { ch with res0 := wrap32 (interp t ch.arg0.toInt) }) (ended 0x10 .ok) [] s)) ∧
    (Runs s (.interp2 c k l) .start ans →
      exec (.interp2 c k l) s = .next (chanAfter c
        (fun ch => { ch with
          res0 := wrap32 (if beyondWeak t ch.arg0.toInt then interp u ch.arg0.toInt else interp t ch.arg0.toInt) })
        (ended 0x11 .ok) [] s))

/-- R148: GET_RF_LEVEL: the AGC1 read and the two-tier lookup; with an LNA its gain is read next and added.
LAST_OPCODE at completion is as R105's last sentence has it (log 7). -/
def Obligations.GetRfLevelCompletes : Prop :=
  ∀ (s : State) (c : Chan) (v : Int),
    (Runs s (.getRfLevel c) .start ⟨false, v⟩ →
      (s.glob.lnaPresent = false →
        exec (.getRfLevel c) s = .next (chanAfter c
          (fun ch => { ch with res0 := wrap32 (interp2 Config.cfg.rfTable Config.cfg.rfLowTable (v % 2 ^ 16)) })
          (ended 0x12 .ok) [chanDid c (.devRead c .agc1Integ) (v % 2 ^ 16)] s)) ∧
      (s.glob.lnaPresent = true →
        exec (.getRfLevel c) s = .next (chanAfter c id
          (standing (.getRfLevel c) (.before .lnaGetGain [] []
            (.rfGain (interp2 Config.cfg.rfTable Config.cfg.rfLowTable (v % 2 ^ 16)))))
          [chanDid c (.devRead c .agc1Integ) (v % 2 ^ 16)] s))) ∧
    ∀ rf : Int, Runs s (.getRfLevel c) (.before .lnaGetGain [] [] (.rfGain rf)) ⟨false, v⟩ →
      exec (.getRfLevel c) s = .next (chanAfter c
        (fun ch => { ch with res0 := wrap32 (rf + (if v % 256 < 128 then v % 256 else v % 256 - 256)) })
        (ended 0x12 .ok) [chanDid c .lnaGetGain (if v % 256 < 128 then v % 256 else v % 256 - 256)] s)

/-- R149: GET_CN: 0 and no transaction when not locked; else, after the Sleep that follows the last of the samples, the
interpolation of their floored mean, whatever ch.abort holds (R203).
LAST_OPCODE at completion is as R105's last sentence has it (log 7). The elapsed time is the model's own field (log 10). -/
def Obligations.GetCnCompletes : Prop :=
  ∀ (s : State) (c : Chan) (ans : Answer),
    ((s.chan c).locked = false → Runs s (.getCn c) .start ans →
      exec (.getCn c) s = .next (chanAfter c (fun ch => { ch with res0 := 0 }) (ended 0x13 .ok) [] s)) ∧
    ∀ (d : Nat) (samples : List Int) (std : BitVec 2),
      Runs s (.getCn c) (.before (.sleep d) [] samples (.cnSamples std)) ans →
      exec (.getCn c) s = .next (chanAfter c
        (fun ch => { ch with
          res0 := wrap32 (interp (if std = 3 then Config.cfg.cnS2Table else Config.cfg.cnS1Table) (samples.sum / 16)) })
        (fun g => { ended 0x13 .ok g with elapsed := g.elapsed + d }) [] s)

/-- R149, R13, R203: a locked GET_CN takes 33 steps of its engine: the read of DETECTED_STD, then sixteen samples of the
standard's noise field, each followed by a Sleep of CN_SAMPLE_DELAY_MS; 17 reads, 16 Sleeps, and the C/N in RES0.
LAST_OPCODE at completion is as R105's last sentence has it (log 7). The elapsed time is the model's own field (log 10). -/
def Obligations.GetCnRuns : Prop :=
  ∀ (s : State) (c : Chan) (v : Int) (samples : List Int) (rest : List Turn), samples.length = 16 →
    (s.chan c).locked = true → s.running (.chan c) = some ⟨.getCn c, .start⟩ →
    s.turns = .engine (.chan c) ⟨false, v⟩ ::
      samples.flatMap (fun x => [.engine (.chan c) ⟨false, x⟩, .engine (.chan c) ⟨false, 0⟩]) ++ rest →
    let std := BitVec.ofInt 2 v
    let field : ReadField := if std = 3 then .noiseS2 else .noiseS1
    let table := if std = 3 then Config.cfg.cnS2Table else Config.cfg.cnS1Table
    steps 33 s = .next
      { chanAfter c
          (fun ch => { ch with res0 := wrap32 (interp table ((samples.map (· % 2 ^ 16)).sum / 16)) })
          (fun g => { ended 0x13 .ok g with elapsed := g.elapsed + 16 * Config.cfg.cnSampleDelayMs.toNat })
          ((samples.map fun x => chanDid c (.devRead c field) (x % 2 ^ 16)).reverse ++
            [chanDid c (.devRead c .detectedStd) (v % 4)]) s with
        turns := rest, tick := s.tick + 33 }

/-! ## Estimators (41_estimators.md) -/

/-- R160: two's-complement decoding of a 24-bit raw value, with its four boundary values. -/
def Obligations.TwosComplementDecoding : Prop :=
  (∀ r : Nat, r < 2 ^ 24 → sext 24 r = if r < 2 ^ 23 then (r : Int) else r - 2 ^ 24) ∧
    sext 24 0 = 0 ∧ sext 24 0x7FFFFF = 8388607 ∧ sext 24 0x800000 = -8388608 ∧ sext 24 0xFFFFFF = -1

/-- R161 to R163 and R168 to R170 with SRC = `.arg`: RES0 from the operand registers, in one step, with no transaction
and nothing else changed.
LAST_OPCODE at completion is as R105's last sentence has it (log 7). -/
def Obligations.EstimatorsFromArguments : Prop :=
  ∀ (s : State) (c : Chan) (ans : Answer),
    let m : Int := s.glob.mclk.toNat
    let signed := fun r : Int => if r < 2 ^ 23 then r else r - 2 ^ 24
    let raw := fun v : Word => ((v.toNat % 2 ^ 24 : Nat) : Int)
    (Runs s (.carrierOffset c false) .start ans →
      exec (.carrierOffset c false) s = .next (chanAfter c
        (fun ch => { ch with res0 := BitVec.ofInt 32 (m * signed (raw ch.arg0) / 2 ^ 24) }) (ended 0x20 .ok) [] s)) ∧
    (Runs s (.symbolRate c false) .start ans →
      exec (.symbolRate c false) s = .next (chanAfter c
        (fun ch => { ch with res0 := BitVec.ofInt 32 (m * ch.arg0.toNat / 2 ^ 32) }) (ended 0x21 .ok) [] s)) ∧
    (Runs s (.timingOffset c false) .start ans →
      exec (.timingOffset c false) s = .next (chanAfter c
        (fun ch =>
          let t := if signed (raw ch.arg1) = 0 then 1 else signed (raw ch.arg1)
          { ch with res0 := BitVec.ofInt 32 ((((ch.arg0.toNat : Int) * 10).tdiv ((2 ^ 24 : Int).tdiv t)).tdiv 320) })
        (ended 0x22 .ok) [] s))

/-- R161 to R163 and R168 to R170 with SRC = `.dev`: RES0 from one device read, in one step, with that transaction and
nothing else changed.
LAST_OPCODE at completion is as R105's last sentence has it (log 7). -/
def Obligations.EstimatorsFromDevice : Prop :=
  ∀ (s : State) (c : Chan) (v : Int),
    let m : Int := s.glob.mclk.toNat
    let signed := fun r : Int => if r < 2 ^ 23 then r else r - 2 ^ 24
    (Runs s (.carrierOffset c true) .start ⟨false, v⟩ →
      exec (.carrierOffset c true) s = .next (chanAfter c
        (fun ch => { ch with res0 := BitVec.ofInt 32 (m * signed (v % 2 ^ 24) / 2 ^ 24) }) (ended 0x20 .ok)
        [chanDid c (.devRead c .carFreq) (v % 2 ^ 24)] s)) ∧
    (Runs s (.symbolRate c true) .start ⟨false, v⟩ →
      exec (.symbolRate c true) s = .next (chanAfter c
        (fun ch => { ch with res0 := BitVec.ofInt 32 (m * (v % 2 ^ 32) / 2 ^ 32) }) (ended 0x21 .ok)
        [chanDid c (.devRead c .sfr) (v % 2 ^ 32)] s)) ∧
    (Runs s (.timingOffset c true) .start ⟨false, v⟩ →
      exec (.timingOffset c true) s = .next (chanAfter c
        (fun ch =>
          let t := if signed (v % 2 ^ 24) = 0 then 1 else signed (v % 2 ^ 24)
          { ch with res0 := BitVec.ofInt 32 ((((ch.arg0.toNat : Int) * 10).tdiv ((2 ^ 24 : Int).tdiv t)).tdiv 320) })
        (ended 0x22 .ok) [chanDid c (.devRead c .tmgOffset) (v % 2 ^ 24)] s))

/-- R164, R165, R171: ENC_SYMBOL_RATE with a nonzero master clock: RES0 and RES1, rounded to nearest and saturated. With
a master clock of 0 the spec states no result: the two registers hold free values, and the command completes in the same
way (log 5).
LAST_OPCODE at completion is as R105's last sentence has it (log 7). -/
def Obligations.EncSymbolRateCompletes : Prop :=
  ∀ (s : State) (c : Chan) (ans : Answer), Runs s (.encSymbolRate c) .start ans →
    let m : Int := s.glob.mclk.toNat
    (s.glob.mclk ≠ 0 →
      exec (.encSymbolRate c) s = .next (chanAfter c
        (fun ch => { ch with
          res0 := BitVec.ofInt 32 (min ((2 * ((ch.arg0.toNat : Int) * 2 ^ 16) + m) / (2 * m)) (2 ^ 16 - 1))
          res1 := BitVec.ofInt 32
            ((min (max ((2 * (ch.arg1.toInt * 2 ^ 16) + m) / (2 * m)) (-2 ^ 15)) (2 ^ 15 - 1)) % 2 ^ 16) })
        (ended 0x23 .ok) [] s)) ∧
    (s.glob.mclk = 0 → ∃ x y : BitVec 16,
      exec (.encSymbolRate c) s = .next (chanAfter c
        (fun ch => { ch with res0 := x.setWidth 32, res1 := y.setWidth 32 }) (ended 0x23 .ok) [] s))

/-- R166: the round-trip bounds (a) and (b); abs(d) < M / 2^16 is written abs(d) * 2^16 < M. -/
def Obligations.SymbolRateRoundTrip : Prop :=
  ∀ m : Int, 2 ^ 17 ≤ m →
    (∀ sr : Nat, roundDiv ((sr : Int) * 2 ^ 16) m ≤ 2 ^ 16 - 1 →
      |symbolRate m (encSr m sr * 2 ^ 16) - sr| * 2 ^ 16 < m) ∧
    ∀ r : BitVec 32, roundDiv (symbolRate m r.toNat * 2 ^ 16) m ≤ 2 ^ 16 - 1 →
      |encSr m (symbolRate m r.toNat) * 2 ^ 16 - (r.toNat : Int)| < 2 ^ 16

/-- R161 to R163, R170: where the results lie, and the antisymmetry of the timing offset. For an odd M the carrier offset
of 0x800000 is floor(-M/2), half a hertz below the bound R161 names, so the lower bound is stated as -(M+1)/2. The
antisymmetry holds at every raw value but 0 and 2^23, which is its own negative in 24 bits (log 20). -/
def Obligations.EstimatorProperties : Prop :=
  ∀ m : Int, 0 < m →
    (∀ r : BitVec 24, -(m + 1) ≤ 2 * carrierOffset m r.toNat ∧ 2 * carrierOffset m r.toNat < m) ∧
    (∀ r : BitVec 32, 0 ≤ symbolRate m r.toNat ∧ symbolRate m r.toNat < m) ∧
    ∀ (sr : Int) (r : Nat), 0 < r → r < 2 ^ 24 → r ≠ 2 ^ 23 →
      timingOffset Config.cfg sr ((2 ^ 24 - r : Nat) : Int) = -timingOffset Config.cfg sr r

/-! ## Configuration (42_configuration.md) -/

/-- R180, R181: SELECT_STANDARD without WR completes in one step: RES0 is the selection, PR = 7 completes with
BAD_OPERAND and writes nothing, with or without WR.
LAST_OPCODE at completion is as R105's last sentence has it (log 7). -/
def Obligations.SelectStandardCompletes : Prop :=
  ∀ (s : State) (c : Chan) (ans : Answer),
    let arg := (s.chan c).arg0
    let pr := arg.extractLsb' 6 3
    let prMask : BitVec 6 := if pr = 0 then 0x3F else (1 : BitVec 6) <<< (pr.toNat - 1)
    let auto : BitVec 6 := 0x3F &&& ~~~((1 : BitVec 6) <<< (Config.cfg.unreliableRate.toNat - 1))
    (∀ wr, pr = 7 → Runs s (.selectStandard c wr) .start ans →
      exec (.selectStandard c wr) s = .next (chanAfter c id (ended 0x30 .badOperand) [] s)) ∧
    (pr ≠ 7 → Runs s (.selectStandard c false) .start ans →
      let res : Word := match (arg.extractLsb' 2 2).toNat with
        | 0 => 0x3 ||| (auto.setWidth 32 <<< 8)
        | 1 => 0x1 ||| (prMask.setWidth 32 <<< 8)
        | 2 => 0x5 ||| (prMask.setWidth 32 <<< 8)
        | _ => 0x2 ||| (prMask.setWidth 32 <<< 8)
      exec (.selectStandard c false) s = .next (chanAfter c (fun ch => { ch with res0 := res }) (ended 0x30 .ok) [] s))

/-- R180 to R182: SELECT_STANDARD with WR takes four steps of its engine: the writes of STD_EN_S1, STD_EN_S2, DSS_MODE and
PR_MASK in that order, and then RES0, for each of the four standards: AUTO enables both decoders and masks the
unreliable rate out whatever PR is, the others mask by PR.
LAST_OPCODE at completion is as R105's last sentence has it (log 7). -/
def Obligations.SelectStandardWrites : Prop :=
  ∀ (s : State) (c : Chan) (v1 v2 v3 v4 : Int) (rest : List Turn),
    s.running (.chan c) = some ⟨.selectStandard c true, .start⟩ →
    s.turns = .engine (.chan c) ⟨false, v1⟩ :: .engine (.chan c) ⟨false, v2⟩ :: .engine (.chan c) ⟨false, v3⟩ ::
      .engine (.chan c) ⟨false, v4⟩ :: rest →
    let pr := (s.chan c).arg0.extractLsb' 6 3
    let std := (s.chan c).arg0.extractLsb' 2 2
    let mask : BitVec 6 :=
      if std = 0 then 0x3F &&& ~~~((1 : BitVec 6) <<< (Config.cfg.unreliableRate.toNat - 1))
      else if pr = 0 then 0x3F
      else (1 : BitVec 6) <<< (pr.toNat - 1)
    pr ≠ 7 → ∀ s1 s2 dss : BitVec 1,
      (std, s1, s2, dss) ∈ [(0, 1, 1, 0), (1, 1, 0, 0), (2, 1, 0, 1), (3, 0, 1, 0)] →
      steps 4 s = .next
        { chanAfter c
            (fun ch => { ch with
              res0 := s1.setWidth 32 ||| (s2.setWidth 32 <<< 1) ||| (dss.setWidth 32 <<< 2) ||| (mask.setWidth 32 <<< 8) })
            (ended 0x30 .ok)
            [chanDid c (.devWrite c .prMask mask.toNat) 0, chanDid c (.devWrite c .dssMode dss.toNat) 0,
              chanDid c (.devWrite c .stdEnS2 s2.toNat) 0, chanDid c (.devWrite c .stdEnS1 s1.toNat) 0] s with
          turns := rest, tick := s.tick + 4 }

/-- R183, R186, R188: the symbol-rate tiers, the loop-gain buckets, and the modulation of a modcode. -/
def Obligations.TiersAndBuckets : Prop :=
  (∀ sr : Int,
    ((tier sr = 0 ↔ sr ≤ 1000000) ∧ (tier sr = 1 ↔ 1000000 < sr ∧ sr ≤ 2000000) ∧
      (tier sr = 2 ↔ 2000000 < sr ∧ sr ≤ 5000000) ∧ (tier sr = 3 ↔ 5000000 < sr ∧ sr ≤ 10000000) ∧
      (tier sr = 4 ↔ 10000000 < sr ∧ sr ≤ 20000000) ∧ (tier sr = 5 ↔ 20000000 < sr)) ∧
    (clgBucket sr = 0 ↔ sr ≤ 3000000) ∧ (clgBucket sr = 1 ↔ 3000000 < sr ∧ sr ≤ 7000000) ∧
      (clgBucket sr = 2 ↔ 7000000 < sr ∧ sr ≤ 15000000) ∧ (clgBucket sr = 3 ↔ 15000000 < sr ∧ sr ≤ 25000000) ∧
      (clgBucket sr = 4 ↔ 25000000 < sr)) ∧
    ∀ m : Nat, (modulationOf m = 0 ↔ 1 ≤ m ∧ m ≤ 11) ∧ (modulationOf m = 1 ↔ 12 ≤ m ∧ m ≤ 17) ∧
      (modulationOf m = 2 ↔ 18 ≤ m ∧ m ≤ 23) ∧ (modulationOf m = 3 ↔ m = 0 ∨ 24 ≤ m)

/-- R191: the timeout properties (a), (b) and (c), for every parameter record that meets R7. -/
def Obligations.TimeoutProperties : Prop :=
  ∀ cfg : Cfg,
    (∀ (algo : Algo) (x y : Int), x ≤ y → demodTimeout cfg y algo ≤ demodTimeout cfg x algo) ∧
    (∀ x : Int, demodTimeout cfg x .warm ≤ demodTimeout cfg x .cold) ∧
    ∀ x : Int, demodTimeout cfg x .blind ≤ demodTimeout cfg x .cold

/-- R184, R185: COMPUTE_TIMEOUTS completes in one step with the timeouts of the tables, WARM halving the cold demodulator
timeout and keeping the cold FEC timeout, with no transaction and nothing else changed.
LAST_OPCODE at completion is as R105's last sentence has it (log 7). -/
def Obligations.ComputeTimeoutsCompletes : Prop :=
  ∀ (s : State) (c : Chan) (ans : Answer) (algo : BitVec 2), algo ≠ 3 → Runs s (.computeTimeouts c algo) .start ans →
    let t := tier (s.chan c).arg0.toNat
    let demod : Nat := match algo.toNat with
      | 0 => (Config.cfg.tmoDemodBlind t).toNat
      | 1 => (Config.cfg.tmoDemodCold t).toNat
      | _ => (Config.cfg.tmoDemodCold t).toNat / 2
    let fec : Word := if algo = 0 then Config.cfg.tmoFecBlind t else Config.cfg.tmoFecCold t
    exec (.computeTimeouts c algo) s = .next (chanAfter c
      (fun ch => { ch with res0 := BitVec.ofNat 32 demod, res1 := fec }) (ended 0x31 .ok) [] s)

/-- R187, R189: SELECT_CLG completes in one step with the gain byte of the profile's tables, with WR after writing
CAR_LOOP_GAIN; an out-of-range modcode takes entry NUM_MODCODES = 28.
LAST_OPCODE at completion is as R105's last sentence has it (log 7). -/
def Obligations.SelectClgCompletes : Prop :=
  ∀ (s : State) (c : Chan) (v : Int),
    let arg := (s.chan c).arg1
    let p := Config.cfg.prof s.glob.profile
    let b := clgBucket (s.chan c).arg0.toNat
    let mc := (arg.extractLsb' 2 5).toNat
    let g : BitVec 8 :=
      if arg.extractLsb' 0 2 = 3 then
        if arg.getLsbD 11 then p.clgShort (modulationOf mc) b
        else p.clgLong (if 1 ≤ mc ∧ mc ≤ 28 then mc else 28) b (arg.getLsbD 10)
      else p.clgS1
    (∀ ans, Runs s (.selectClg c false) .start ans →
      exec (.selectClg c false) s = .next (chanAfter c
        (fun ch => { ch with res0 := g.setWidth 32 }) (ended 0x32 .ok) [] s)) ∧
    (Runs s (.selectClg c true) .start ⟨false, v⟩ →
      exec (.selectClg c true) s = .next (chanAfter c
        (fun ch => { ch with res0 := g.setWidth 32 }) (ended 0x32 .ok)
        [chanDid c (.devWrite c .carLoopGain g.toNat) 0] s))

/-- R190: exactly which requests are valid. -/
def Obligations.ValidRequestExactly : Prop :=
  ∀ (cfg : Cfg) (r : Request),
    validRequest cfg r = true ↔
      (r.algo ≠ 3 ∧ r.iq ≠ 3 ∧ r.pr ≠ 7) ∧ (cfg.rangeMin ≤ r.range ∧ r.range ≤ cfg.rangeMax) ∧
        ((r.algo = 1 ∨ r.algo = 2) → cfg.srMin ≤ r.sr ∧ r.sr ≤ cfg.srMax)

/-! ## SEARCH (43_search_fsm.md, 44_blind_zigzag.md) -/

/-- R180, R201, R204, R205, R206, R210, R219, R342: the first step, the early ends, and the first attempt's start. A SEARCH
whose snapshot is not valid ends in BAD_PARAMETER with CMD_RESULT OK at its first step, with no transaction. The first
step of a valid one writes MODCODE_EN, when SEARCH_REENABLES_MODCODES is 1 and the channel was stopped, with
ch.modcodeMask, ch.ldpcStopped and LDPC_STOPPED following and AGC1 read next (the write comes before the three reads of
the pre-check, log 25); and else it reads AGC1. In the pre-check AGC1 at or below its threshold has POWER_I and POWER_Q
read next, and AGC1 above it enters COARSE_ACQUIRE with the tuner set to REQ_FREQ next; at the read of POWER_Q the search
ends in NO_SIGNAL when I and Q are both below theirs, and else enters COARSE_ACQUIRE in the same way. The tuner call is
followed by the writes of R206, spelled out for every attempt.
LAST_OPCODE at completion is as R105's last sentence has it (log 7). -/
def Obligations.SearchEarlyEnds : Prop :=
  ∀ (s : State) (c : Chan) (v : Int),
    let enters := fun (algo : Algo) (ev : BusEvent) =>
      chanAfter c (fun ch => { ch with state := .coarseAcquire })
        (standing (.search c) (.before (.tunerSetFrequency c (s.chan c).req.freq.toNat)
          (coarseOps Config.cfg c ((s.chan c).req.attempt algo)) []
          (.search (.coarseDone ((s.chan c).req.attempt algo))))) [ev] s
    let agc1Read := fun algo : Algo =>
      if v % 2 ^ 16 ≤ Config.cfg.agc1ZeroTh.toNat then
        chanAfter c id
          (standing (.search c) (.before (.devRead c .powerI) [.prim (.devRead c .powerQ)] [] (.search .power)))
          [chanDid c (.devRead c .agc1Integ) (v % 2 ^ 16)] s
      else enters algo (chanDid c (.devRead c .agc1Integ) (v % 2 ^ 16))
    (∀ ans, Runs s (.search c) .start ans → validRequest Config.cfg (s.chan c).req = false →
      exec (.search c) s = .next (chanAfter c
        (fun ch => { ch with state := .badParameter, blindPhase := .none }) (ended 0x40 .ok) [] s)) ∧
    (∀ algo : Algo, algoOf (s.chan c).req.algo = some algo → Runs s (.search c) .start ⟨false, v⟩ →
      exec (.search c) s = .next
        (if validRequest Config.cfg (s.chan c).req = false then
          chanAfter c (fun ch => { ch with state := .badParameter, blindPhase := .none }) (ended 0x40 .ok) [] s
        else if Config.cfg.searchReenablesModcodes = true ∧ (s.chan c).stoppedMirror = true then
          chanAfter c (fun ch => { ch with modcodeMask := 0x1FFFFFFE, ldpcStopped := false, stoppedMirror := false })
            (standing (.search c) (.before (.devRead c .agc1Integ) [] [] (.search .agc1)))
            [chanDid c (.devWrite c .modcodeEn 0x1FFFFFFE) 0] s
        else agc1Read algo)) ∧
    (∀ algo : Algo, algoOf (s.chan c).req.algo = some algo →
      Runs s (.search c) (.before (.devRead c .agc1Integ) [] [] (.search .agc1)) ⟨false, v⟩ →
      exec (.search c) s = .next (agc1Read algo)) ∧
    (∀ (pi : Int) (algo : Algo), algoOf (s.chan c).req.algo = some algo →
      Runs s (.search c) (.before (.devRead c .powerQ) [] [pi] (.search .power)) ⟨false, v⟩ →
      exec (.search c) s = .next
        (if pi < Config.cfg.iqNosigTh.toNat ∧ v % 2 ^ 8 < Config.cfg.iqNosigTh.toNat then
          chanAfter c (fun ch => { ch with state := .noSignal, blindPhase := .none }) (ended 0x40 .ok)
            [chanDid c (.devRead c .powerQ) (v % 2 ^ 8)] s
        else enters algo (chanDid c (.devRead c .powerQ) (v % 2 ^ 8)))) ∧
    ∀ a : Attempt,
      let w := a.sr * Config.cfg.srNarrowPct / 100
      let mask : BitVec 6 :=
        if a.std = 0 then 0x3F &&& ~~~((1 : BitVec 6) <<< (Config.cfg.unreliableRate.toNat - 1))
        else if a.pr = 0 then 0x3F
        else (1 : BitVec 6) <<< (a.pr.toNat - 1)
      coarseOps Config.cfg c a =
        [.prim (.tunerSetBandwidth c (Config.cfg.tunerBwAcq a.sr a.range a.algo))] ++
          (if a.algo = .blind then [.encSr c .sfrInit 1000000, .encSr c .sfrLow 850000, .encSrMax c .sfrUp]
          else [.encSr c .sfrInit a.sr, .encSr c .sfrLow (a.sr - w), .encSr c .sfrUp (a.sr + w)]) ++
          [.prim (.devWrite c .iqMode a.iq.toNat), .prim (.devWrite c .stdEnS1 (if a.std = 3 then 0 else 1)),
            .prim (.devWrite c .stdEnS2 (if a.std = 0 ∨ a.std = 3 then 1 else 0)),
            .prim (.devWrite c .dssMode (if a.std = 2 then 1 else 0)), .prim (.devWrite c .prMask mask.toNat),
            .encCar c 0, .prim (.devWrite c .rolloffCtrl 0),
            .prim (.devWrite c .berMode (if a.berMode then 1 else 0))]

/-- R207, R250 to R257, R219: the blind search. The last write of R206 is followed by the start of the pre-sweep. After the
AGC2 read of a pre-sweep step: the next frequency while the grid lasts, then NO_SIGNAL if the least reading is above
AGC2_NOSIG_TH, else the first timing reference. The write of a timing reference starts a coarse search, whose steps are
spelled out. After the last read of a coarse step: NO_LOCK once FAULT_SAMPLES samples in a row had both overflow bits,
else the read of CAR_FREQ when the three conditions hold, else the next of ten coarse steps at the zig-zag frequency,
else the next timing reference, and NO_LOCK when none is left. The read of CAR_FREQ starts a fine search, whose writes
are spelled out, and its lock wait: at any iteration a lock goes to DEMOD_LOCKED with the FEC timeout of srC, and the
wait's end without one to the next timing reference.
LAST_OPCODE at completion is as R105's last sentence has it (log 7). The elapsed time is the model's own field (log 10). -/
def Obligations.BlindSearchSteps : Prop :=
  ∀ (s : State) (c : Chan) (a : Attempt) (v : Int), a.stage = .first →
    let cfg := Config.cfg
    let p := cfg.prof s.glob.profile
    let m : Int := s.glob.mclk.toNat
    let ends := fun (st : SearchState) (ev : BusEvent) =>
      chanAfter c (fun ch => { ch with state := st, blindPhase := .none }) (ended 0x40 .ok) [ev] s
    let stands := fun (now : Prim) (rest : List Op) (k : SearchPoint) (ev : BusEvent) =>
      chanAfter c id (standing (.search c) (.before now rest [] (.search k))) [ev] s
    let coarse : List Op :=
      [.prim (.tunerGetFrequency c), .encSr c .sfrInit 1000000, .encSr c .sfrLow 850000, .encSrMax c .sfrUp,
        .prim (.devWrite c .dmdState 3), .prim (.sleep cfg.coarseDwellMs.toNat), .prim (.devRead c .tmgLockQuality),
        .prim (.devRead c .agc2Integ), .prim (.devRead c .sfr), .prim (.devRead c .carOvf), .prim (.devRead c .tmgOvf)]
    (a.algo = .blind → ∀ b : BitVec 1,
      Runs s (.search c) (.before (.devWrite c .berMode b.toNat) [] [] (.search (.coarseDone a))) ⟨false, v⟩ →
      exec (.search c) s = .next (chanAfter c
        (fun ch => { ch with state := .blindCoarseSymbolRate, blindPhase := .agc2Sweep })
        (standing (.search c) (.before (.devWrite c .sfrInit (encSr m 1000000))
          [.prim (.devWrite c .dmdState 3), .prim (.tunerSetFrequency c (a.freq - a.range / 2)),
            .prim (.sleep cfg.agc2SettleMs.toNat), .prim (.devRead c .agc2Integ)] [] (.search (.sweep a 0 65536))))
        [chanDid c (.devWrite c .berMode b.toNat) 0] s)) ∧
    (∀ (k : Nat) (minA : Int),
      Runs s (.search c) (.before (.devRead c .agc2Integ) [] [] (.search (.sweep a k minA))) ⟨false, v⟩ →
      let low := min minA (v % 2 ^ 16)
      let did := chanDid c (.devRead c .agc2Integ) (v % 2 ^ 16)
      let grid : Int := cfg.agc2SweepStep.toNat
      let h : Int := a.range / 2
      exec (.search c) s = .next
        (if ((k + 1 : Nat) : Int) * grid ≤ 2 * h then
          stands (.tunerSetFrequency c (a.freq - h + ((k + 1 : Nat) : Int) * grid))
            [.prim (.sleep cfg.agc2SettleMs.toNat), .prim (.devRead c .agc2Integ)] (.sweep a (k + 1) low) did
        else if p.agc2NosigTh.toNat < low then ends .noSignal did
        else stands (.devWrite c .tmgRef p.tmgrefMax.toNat) [] (.tmgRef a ⟨0, p.tmgrefMax.toNat, 0⟩) did)) ∧
    (∀ (bl : BlindLocals) (kref : Int),
      Runs s (.search c) (.before (.devWrite c .tmgRef kref) [] [] (.search (.tmgRef a bl))) ⟨false, v⟩ →
      exec (.search c) s = .next (chanAfter c (fun ch => { ch with blindPhase := .coarse })
        (standing (.search c) (.before (.tunerSetFrequency c a.freq) coarse []
          (.search (.coarseStep a { bl with freqStep := cfg.coarseFreqStep p.coarseSrMax.toNat } 0))))
        [chanDid c (.devWrite c .tmgRef (kref % 2 ^ 8)) 0] s)) ∧
    (∀ (bl : BlindLocals) (k : Nat) (f quality agc2 sfr co : Int),
      Runs s (.search c)
        (.before (.devRead c .tmgOvf) [] [f, quality, agc2, sfr, co] (.search (.coarseStep a bl k))) ⟨false, v⟩ →
      let run := if co = 1 ∧ v % 2 = 1 then bl.faultRun + 1 else 0
      let srC := symbolRate m sfr
      let did := chanDid c (.devRead c .tmgOvf) (v % 2)
      let kref := bl.kref - p.tmgrefStep.toNat
      exec (.search c) s = .next
        (if cfg.faultSamples.toNat ≤ run then ends .noLock did
        else if cfg.tmgQualMin.toNat ≤ quality ∧ agc2 < p.agc2LockTh.toNat ∧ 850000 ≤ srC ∧
            srC ≤ p.coarseSrMax.toNat then
          stands (.devRead c .carFreq) [] (.coarseCar a { bl with faultRun := run } srC f) did
        else if k + 1 < 10 then
          stands (.tunerSetFrequency c
              (a.freq + (if k % 2 = 0 then ((k / 2 + 1 : Nat) : Int) else -(((k + 1) / 2 : Nat) : Int)) * bl.freqStep))
            coarse (.coarseStep a { bl with faultRun := run } (k + 1)) did
        else if p.tmgrefMin.toNat ≤ kref then
          stands (.devWrite c .tmgRef kref) [] (.tmgRef a { bl with faultRun := run, kref := kref }) did
        else ends .noLock did)) ∧
    (∀ (bl : BlindLocals) (srC f : Int),
      Runs s (.search c) (.before (.devRead c .carFreq) [] [] (.search (.coarseCar a bl srC f))) ⟨false, v⟩ →
      exec (.search c) s = .next (chanAfter c (fun ch => { ch with blindPhase := .fine })
        (standing (.search c) (.before (.tunerSetFrequency c (f + carrierOffset m (v % 2 ^ 24)))
          [.encSr c .sfrInit srC, .encSr c .sfrLow (srC - srC * 37 / 100), .encSr c .sfrUp (srC + srC * 40 / 100),
            .encCar c 0, .prim (.devWrite c .dmdState 1)] [] (.search (.armed (.fine a bl srC)))))
        [chanDid c (.devRead c .carFreq) (v % 2 ^ 24)] s)) ∧
    ∀ (bl : BlindLocals) (srC : Int),
      let kref := bl.kref - p.tmgrefStep.toNat
      let next := fun (elapsed : Nat) (evs : List BusEvent) =>
        if p.tmgrefMin.toNat ≤ kref then
          chanAfter c id (fun g =>
            { standing (.search c) (.before (.devWrite c .tmgRef kref) [] [] (.search (.tmgRef a { bl with kref := kref }))) g
              with elapsed := g.elapsed + elapsed }) evs s
        else
          chanAfter c (fun ch => { ch with state := .noLock, blindPhase := .none })
            (fun g => { ended 0x40 .ok g with elapsed := g.elapsed + elapsed }) evs s
      let n := ((cfg.tmoDemodBlind (tier srC)).toNat + 9) / 10
      let did := chanDid c (.devWrite c .dmdState 1) 0
      (Runs s (.search c) (.before (.devWrite c .dmdState 1) [] [] (.search (.armed (.fine a bl srC)))) ⟨false, v⟩ →
        exec (.search c) s = .next
          (if n = 0 then next 0 [did]
          else stands (.devRead c .demodLock) [.prim (.sleep 10)] (.wait (.fine a bl srC) (n - 1)) did)) ∧
      ∀ (lock : BitVec 1) (left : Nat), (s.chan c).abortReq = false →
        Runs s (.search c) (.before (.sleep 10) [] [lock.toNat] (.search (.wait (.fine a bl srC) left))) ⟨false, v⟩ →
        exec (.search c) s = .next
          (if lock = 1 then
            chanAfter c (fun ch => { ch with state := .demodLocked }) (fun g =>
              { standing (.search c) (.before (.devRead c .detectedStd)
                  [.prim (.devRead c .carFreq), .prim (.devRead c .sfr), .prim (.devRead c .tmgOffset)] []
                  (.search (.readStd a (cfg.tmoFecBlind (tier srC)).toNat))) g
                with elapsed := g.elapsed + 10 }) [] s
          else if left = 0 then next 10 []
          else chanAfter c id (fun g =>
            { standing (.search c) (.before (.devRead c .demodLock) [.prim (.sleep 10)] []
                (.search (.wait (.fine a bl srC) (left - 1)))) g with elapsed := g.elapsed + 10 }) [] s)

/-- R209, R270, R272 to R275, R219: the carrier zig-zag sweep. The read of TMG_LOCK starts it, or ends the search in NO_LOCK
without timing lock. The last write of a trial starts its lock wait, of ceil(ZZ_TMO / 10) iterations. A trial whose wait
reads a lock, at any iteration, has DETECTED_STD read next, and one whose wait ends without one AGC2_INTEG and CAR_FREQ.
After the read of DETECTED_STD: a lock of another standard than DVBS2 counts, and one of DVBS2 has FLYWHEEL
read. After the first FLYWHEEL read: a good value locks, and a bad one is read again after a Sleep of ZZ_TMO. After the
second: a good value locks, and a bad one is a false lock, which restarts the sweep in LINEAR mode from the low end, and
the third one ends the search in NO_LOCK. After the two reads of a trial without lock: NO_LOCK when the signal is absent
or the trials are spent, else the next trial at the next offset.
LAST_OPCODE at completion is as R105's last sentence has it (log 7). The elapsed time is the model's own field (log 10). -/
def Obligations.ZigzagSweepSteps : Prop :=
  ∀ (s : State) (c : Chan) (a : Attempt) (z : ZigLocals) (v : Int), a.stage = .first →
    let cfg := Config.cfg
    let cls : ZzClass := if a.std = 3 then .s2 else .s1
    let reach : Int := cfg.zzMaxRange a.sr cls
    let ends := fun ev : BusEvent =>
      chanAfter c (fun ch => { ch with state := .noLock, blindPhase := .none }) (ended 0x40 .ok) [ev] s
    let stands := fun (now : Prim) (rest : List Op) (k : SearchPoint) (ev : BusEvent) =>
      chanAfter c id (standing (.search c) (.before now rest [] (.search k))) [ev] s
    let tries := fun (z' : ZigLocals) (off : Int) (ev : BusEvent) =>
      stands (.devWrite c .cfrInit (encCar s.mclk off)) [.prim (.devWrite c .dmdState 2)] (.armed (.zigzag a z')) ev
    let locks := fun ev : BusEvent =>
      chanAfter c (fun ch => { ch with state := .demodLocked })
        (standing (.search c) (.before (.devRead c .detectedStd)
          [.prim (.devRead c .carFreq), .prim (.devRead c .sfr), .prim (.devRead c .tmgOffset)] []
          (.search (.readStd a (if a.algo = .blind then cfg.tmoFecBlind (tier a.sr)
            else cfg.tmoFecCold (tier a.sr)).toNat)))) [ev] s
    (Runs s (.search c) (.before (.devRead c .tmgLock) [] [] (.search (.tmgLock a))) ⟨false, v⟩ →
      let did := chanDid c (.devRead c .tmgLock) (v % 2)
      exec (.search c) s = .next
        (if v % 2 = 0 then ends did
        else
          chanAfter c (fun ch => { ch with state := .carrierZigzagSweep })
            (standing (.search c) (.before (.devWrite c .cfrInit (encCar s.mclk 0)) [.prim (.devWrite c .dmdState 2)] []
              (.search (.armed (.zigzag a ⟨false, 0, 0⟩))))) [did] s)) ∧
    (Runs s (.search c) (.before (.devWrite c .dmdState 2) [] [] (.search (.armed (.zigzag a z)))) ⟨false, v⟩ →
      let n := (cfg.zzTmo a.sr cls + 9) / 10
      let did := chanDid c (.devWrite c .dmdState 2) 0
      exec (.search c) s = .next
        (if n = 0 then stands (.devRead c .agc2Integ) [.prim (.devRead c .carFreq)] (.zzAbsent a z) did
        else stands (.devRead c .demodLock) [.prim (.sleep 10)] (.wait (.zigzag a z) (n - 1)) did)) ∧
    (∀ (lock : BitVec 1) (left : Nat), (s.chan c).abortReq = false →
      Runs s (.search c) (.before (.sleep 10) [] [lock.toNat] (.search (.wait (.zigzag a z) left))) ⟨false, v⟩ →
      exec (.search c) s = .next (chanAfter c id (fun g =>
        { standing (.search c)
            (if lock = 1 then .before (.devRead c .detectedStd) [] [] (.search (.zzStd a z))
            else if left = 0 then
              .before (.devRead c .agc2Integ) [.prim (.devRead c .carFreq)] [] (.search (.zzAbsent a z))
            else .before (.devRead c .demodLock) [.prim (.sleep 10)] [] (.search (.wait (.zigzag a z) (left - 1)))) g
          with elapsed := g.elapsed + 10 }) [] s)) ∧
    (Runs s (.search c) (.before (.devRead c .detectedStd) [] [] (.search (.zzStd a z))) ⟨false, v⟩ →
      let did := chanDid c (.devRead c .detectedStd) (v % 2 ^ 2)
      exec (.search c) s = .next
        (if v % 2 ^ 2 = 3 then stands (.devRead c .flywheel) [] (.zzFly a z) did else locks did)) ∧
    (Runs s (.search c) (.before (.devRead c .flywheel) [] [] (.search (.zzFly a z))) ⟨false, v⟩ →
      let did := chanDid c (.devRead c .flywheel) (v % 2 ^ 4)
      exec (.search c) s = .next
        (if cfg.flywheelTh.toNat ≤ v % 2 ^ 4 then locks did
        else stands (.sleep (cfg.zzTmo a.sr cls)) [.prim (.devRead c .flywheel)] (.zzFlyAgain a z) did)) ∧
    (Runs s (.search c) (.before (.devRead c .flywheel) [] [] (.search (.zzFlyAgain a z))) ⟨false, v⟩ →
      let did := chanDid c (.devRead c .flywheel) (v % 2 ^ 4)
      exec (.search c) s = .next
        (if cfg.flywheelTh.toNat ≤ v % 2 ^ 4 then locks did
        else if z.falseLocks = 2 then ends did
        else tries ⟨true, z.falseLocks + 1, 0⟩ (-reach) did)) ∧
    ∀ agc2 : Int, Runs s (.search c) (.before (.devRead c .carFreq) [] [agc2] (.search (.zzAbsent a z))) ⟨false, v⟩ →
      let strong := (cfg.prof s.glob.profile).zzAgc2AbsentTh.toNat ≤ agc2
      let far := cfg.zzSanityHz.toNat < |carrierOffset s.mclk (v % 2 ^ 24)|
      let n := z.k + 1
      let off : Int :=
        if z.linear then -reach + n * cfg.zzStep a.sr cls
        else (if n % 2 = 1 then (((n + 1) / 2 : Nat) : Int) else -((n / 2 : Nat) : Int)) * cfg.zzStep a.sr cls
      let did := chanDid c (.devRead c .carFreq) (v % 2 ^ 24)
      exec (.search c) s = .next
        (if (strong ∧ far) ∨ (cfg.zzAbsentMode = .either ∧ (strong ∨ far)) then ends did
        else if cfg.zzMaxSteps a.sr cls ≤ n ∨ reach < |off| then ends did
        else tries { z with k := n } off did)

/-- R29, R167, R187, R211, R212, R213, R217: the readback. After the read of TMG_OFFSET come the parameter reads of the
detected standard: MODCODE, FRAME_LEN and PILOTS for DVBS2, PUNCT_RATE for any other, then ROLLOFF, SPECTRUM_INV and the
tuner's frequency. The step of that last read writes the RSL registers, RSL_PARAMS in the layout spelled out. For
DETECTED_STD 0 its PR field is PUNCT_RATE, as R211's code has it, where R29 has 0 (log 23). An attempt whose carrier is
outside the range ends in RANGE_EXCEEDED there, a first attempt and a retry of the workaround alike; one inside goes to
TRACKING_OPTIMIZED, with the write of CAR_LOOP_GAIN next, and after it the tuner bandwidth of R167's percentages.
RANGE_MARGIN is given the rolloff code as it was read (log 24).
LAST_OPCODE at completion is as R105's last sentence has it (log 7). -/
def Obligations.SearchRangeCheck : Prop :=
  ∀ (s : State) (c : Chan) (f : Int) (a : Attempt) (fTmo : Nat) (std : BitVec 2) (cRaw sRaw tRaw : Int),
    let cfg := Config.cfg
    let p := cfg.prof s.glob.profile
    let m : Int := s.glob.mclk.toNat
    let signed := fun r : Int => if r < 2 ^ 23 then r else r - 2 ^ 24
    (Runs s (.search c) (.before (.devRead c .tmgOffset) [] [std.toNat, cRaw, sRaw] (.search (.readStd a fTmo))) ⟨false, f⟩ →
      exec (.search c) s = .next (chanAfter c id
        (standing (.search c)
          (if std = 3 then
            .before (.devRead c .modcode) [.prim (.devRead c .frameLen), .prim (.devRead c .pilots),
              .prim (.devRead c .rolloff), .prim (.devRead c .spectrumInv), .prim (.tunerGetFrequency c)] []
              (.search (.readRest a fTmo std cRaw sRaw (f % 2 ^ 24)))
          else
            .before (.devRead c .punctRate) [.prim (.devRead c .rolloff), .prim (.devRead c .spectrumInv),
              .prim (.tunerGetFrequency c)] [] (.search (.readRest a fTmo std cRaw sRaw (f % 2 ^ 24)))))
        [chanDid c (.devRead c .tmgOffset) (f % 2 ^ 24)] s)) ∧
    ∀ (mc : BitVec 5) (pr : BitVec 3) (pl fr inv : BitVec 1) (ro : BitVec 2),
      (std ≠ 3 → mc = 0 ∧ pl = 0 ∧ fr = 0) → (std = 3 → pr = 0) →
      let got : List Int :=
        if std = 3 then [mc.toNat, fr.toNat, pl.toNat, ro.toNat, inv.toNat] else [pr.toNat, ro.toNat, inv.toNat]
      Runs s (.search c) (.before (.tunerGetFrequency c) [] got (.search (.readRest a fTmo std cRaw sRaw tRaw))) ⟨false, f⟩ →
      let car := m * signed (cRaw % 2 ^ 24) / 2 ^ 24
      let srN := m * sRaw / 2 ^ 32
      let raw := signed (tRaw % 2 ^ 24)
      let res : Readback :=
        { freq := f + car, car := car, det := ⟨std, mc, pr, pl, fr, ro, inv⟩
          sr := srN + ((srN * 10).tdiv ((2 ^ 24 : Int).tdiv (if raw = 0 then 1 else raw))).tdiv 320 }
      let rsl := fun ch : Channel =>
        { ch with
          rslFreq := wrap32 res.freq, rslSr := wrap32 res.sr, rslOffset := wrap32 car
          rslParams := std.setWidth 15 ||| (mc.setWidth 15 <<< 2) ||| (pr.setWidth 15 <<< 7) ||| (pl.setWidth 15 <<< 10) |||
            (fr.setWidth 15 <<< 11) ||| (ro.setWidth 15 <<< 12) ||| (inv.setWidth 15 <<< 14) }
      let o := (s.chan c).req
      let limit : Int := (o.range.toNat : Int) / 2 + cfg.rangeMargin res.sr ro
      let b := clgBucket res.sr
      let n := mc.toNat
      let gain : BitVec 8 :=
        if std = 3 then
          if fr = 1 then p.clgShort (modulationOf n) b
          else p.clgLong (if 1 ≤ n ∧ n ≤ 28 then n else 28) b (decide (pl = 1))
        else p.clgS1
      let percent : Int := if ro = 1 then 25 else if ro = 2 then 20 else 35
      let did := chanDid c (.tunerGetFrequency c) f
      exec (.search c) s = .next
        (if limit < |res.freq - o.freq.toNat| then attemptEnded c a .rangeExceeded rsl 0 [did] s
        else
          chanAfter c (fun ch => { rsl ch with state := .trackingOptimized })
            (standing (.search c) (.before (.devWrite c .carLoopGain gain.toNat)
              [.prim (.tunerSetBandwidth c (res.sr + res.sr * percent / 100 + cfg.tunerBwMargin.toNat))] []
              (.search (.armed (.relock a res fTmo 0)))))
            [did] s)

/-- R202, R213 to R217, R219: the ends of a SEARCH after its readback, for a first attempt and for the retries of the
false-lock workaround. The tuner bandwidth of TRACKING_OPTIMIZED, and each re-triggering after it, starts a lock wait of
half the cold timeout of the measured rate. Without lock it re-seeds CFR_INIT and waits again, at most twice, and then
the attempt ends in NO_LOCK. A lock, at any iteration, starts the FEC wait. The FEC lock enters FEC_LOCKED with the write
of CNT_RESET next; the end of the FEC wait without lock ends the attempt in NO_DATA, but for a first attempt with the
signature of the workaround, which is followed by a warm attempt at the measured carrier and rate with IQ inverted. The
end of that one in any outcome but TRACKING is followed by one with IQ normal, and that one's end is NO_DATA
(`attemptEnded`). The step that writes CNT_RESET ends the search in TRACKING with LOCKED = 1.
LAST_OPCODE at completion is as R105's last sentence has it (log 7). The elapsed time is the model's own field (log 10). -/
def Obligations.SearchCompletes : Prop :=
  ∀ (s : State) (c : Chan) (v : Int) (a : Attempt) (res : Readback) (fTmo : Nat),
    let cfg := Config.cfg
    let polls := fun (field : ReadField) (site : WaitSite) (left ms : Nat) (evs : List BusEvent) =>
      chanAfter c id (fun g =>
        { standing (.search c) (.before (.devRead c field) [.prim (.sleep 10)] [] (.search (.wait site left))) g
          with elapsed := g.elapsed + ms }) evs s
    let unlocked := fun (tries ms : Nat) (evs : List BusEvent) =>
      if tries < 2 then
        chanAfter c id (fun g =>
          { standing (.search c) (.before (.devWrite c .cfrInit (encCar s.mclk res.car)) [.prim (.devWrite c .dmdState 2)] []
              (.search (.armed (.relock a res fTmo (tries + 1))))) g with elapsed := g.elapsed + ms }) evs s
      else attemptEnded c a .noLock id ms evs s
    let o := (s.chan c).req
    let inverted : Attempt :=
      { freq := res.freq, sr := res.sr, range := o.range.toNat, algo := .warm, std := o.std, iq := 2, pr := o.pr
        berMode := o.berMode, stage := .retryInverted }
    let noData :=
      if a.stage = .first ∧ (cfg.prof s.glob.profile).s1FalseLockWa = true ∧ (res.det.std = 1 ∨ res.det.std = 2) ∧
          o.iq = 0 then
        chanAfter c (fun ch => { ch with state := .coarseAcquire }) (fun g =>
          { standing (.search c) (.before (.tunerSetFrequency c res.freq) (coarseOps cfg c inverted) []
              (.search (.coarseDone inverted))) g with elapsed := g.elapsed + 10 }) [] s
      else attemptEnded c a .noData id 10 [] s
    let waits := ((cfg.tmoDemodCold (tier res.sr)).toNat / 2 + 9) / 10
    let fecWaits := (fTmo + 9) / 10
    (∀ (q : Prim) (tries : Nat), ((∃ hz, q = .tunerSetBandwidth c hz) ∨ q = .devWrite c .dmdState 2) →
      Runs s (.search c) (.before q [] [] (.search (.armed (.relock a res fTmo tries)))) ⟨false, v⟩ →
      exec (.search c) s = .next
        (if waits = 0 then unlocked tries 0 [chanDid c q 0]
        else polls .demodLock (.relock a res fTmo tries) (waits - 1) 0 [chanDid c q 0])) ∧
    (∀ (lock : BitVec 1) (tries left : Nat), (s.chan c).abortReq = false →
      Runs s (.search c) (.before (.sleep 10) [] [lock.toNat] (.search (.wait (.relock a res fTmo tries) left))) ⟨false, v⟩ →
      exec (.search c) s = .next
        (if lock = 1 then if fecWaits = 0 then noData else polls .fecLock (.fec a res fTmo) (fecWaits - 1) 10 []
        else if left = 0 then unlocked tries 10 []
        else polls .demodLock (.relock a res fTmo tries) (left - 1) 10 [])) ∧
    (∀ (lock : BitVec 1) (left : Nat), (s.chan c).abortReq = false →
      Runs s (.search c) (.before (.sleep 10) [] [lock.toNat] (.search (.wait (.fec a res fTmo) left))) ⟨false, v⟩ →
      exec (.search c) s = .next
        (if lock = 1 then
          chanAfter c (fun ch => { ch with state := .fecLocked }) (fun g =>
            { standing (.search c) (.before (.devWrite c .cntReset 1) [] [] (.search .fecCleared)) g
              with elapsed := g.elapsed + 10 }) [] s
        else if left = 0 then noData
        else polls .fecLock (.fec a res fTmo) (left - 1) 10 [])) ∧
    (Runs s (.search c) (.before (.devWrite c .cntReset 1) [] [] (.search .fecCleared)) ⟨false, v⟩ →
      exec (.search c) s = .next (chanAfter c
        (fun ch => { ch with state := .tracking, locked := true, blindPhase := .none }) (ended 0x40 .ok)
        [chanDid c (.devWrite c .cntReset 1) 0] s))

/-- R203, R221: a Sleep of a SEARCH reached with ch.abort = 1 is not slept: the search ends in NO_LOCK with ABORTED = 1;
with ch.abort = 0 the Sleep adds its milliseconds to the elapsed time and makes no transaction.
LAST_OPCODE at completion is as R105's last sentence has it (log 7). The elapsed time is the model's own field (log 10). -/
def Obligations.SearchAbortPoint : Prop :=
  ∀ (s : State) (c : Chan) (ans : Answer) (ms : Nat) (rest : List Op) (got : List Int) (p : SearchPoint),
    Runs s (.search c) (.before (.sleep ms) rest got (.search p)) ans →
    ((s.chan c).abortReq = true →
      exec (.search c) s = .next (chanAfter c
        (fun ch => { ch with state := .noLock, aborted := true, blindPhase := .none }) (ended 0x40 .ok) [] s)) ∧
    ∀ (q : Prim) (more : List Op), (s.chan c).abortReq = false → rest = .prim q :: more →
      exec (.search c) s = .next (chanAfter c id
        (fun g => { standing (.search c) (.before q more got (.search p)) g with elapsed := g.elapsed + ms }) [] s)

/-- R202, R207, R208, R209, R217: DIRECT_LOCK. After the last write of R206 a COLD or WARM attempt enters DIRECT_LOCK, with
the write of DMD_STATE next, ACQ_COLD or ACQ_WARM. That write starts the lock wait, of ceil(T / 10) iterations for the
attempt's timeout T, the cold one or half of it; with T = 0 the wait ends there without lock. A wait whose next `n`
iterations all read 0 makes `n` reads and takes 10 ms for each, and then stands at the iteration after; the iteration
whose read is 1 ends the wait after its own Sleep of 10 ms, in DEMOD_LOCKED. The wait's end without lock ends the attempt
in NO_LOCK, but for a COLD one below 10,000,000 baud, which has TMG_LOCK read next; a retry of the workaround that ends so
is followed as R217 says. Shown with no abort requested.
LAST_OPCODE at completion is as R105's last sentence has it (log 7). The elapsed time is the model's own field (log 10). -/
def Obligations.LockWaitPolls : Prop :=
  let at_ := fun (c : Chan) (a : Attempt) (k : Nat) =>
    Point.before (.devRead c .demodLock) [.prim (.sleep 10)] [] (.search (.wait (.direct a) k))
  let unlocked := fun (c : Chan) (a : Attempt) (ms : Nat) (evs : List BusEvent) (s : State) =>
    if a.algo = .cold ∧ a.sr < 10000000 then
      chanAfter c id (fun g =>
        { standing (.search c) (.before (.devRead c .tmgLock) [] [] (.search (.tmgLock a))) g
          with elapsed := g.elapsed + ms }) evs s
    else attemptEnded c a .noLock id ms evs s
  (∀ (s : State) (c : Chan) (v : Int) (a : Attempt) (ber : BitVec 1), a.algo ≠ .blind →
    Runs s (.search c) (.before (.devWrite c .berMode ber.toNat) [] [] (.search (.coarseDone a))) ⟨false, v⟩ →
    exec (.search c) s = .next (chanAfter c (fun ch => { ch with state := .directLock })
      (standing (.search c) (.before (.devWrite c .dmdState (if a.algo = .cold then 1 else 2)) [] []
        (.search (.armed (.direct a)))))
      [chanDid c (.devWrite c .berMode ber.toNat) 0] s)) ∧
  (∀ (s : State) (c : Chan) (v : Int) (a : Attempt) (dmd : BitVec 2), a.algo ≠ .blind →
    Runs s (.search c) (.before (.devWrite c .dmdState dmd.toNat) [] [] (.search (.armed (.direct a)))) ⟨false, v⟩ →
    let cold := (Config.cfg.tmoDemodCold (tier a.sr)).toNat
    let n := ((if a.algo = .cold then cold else cold / 2) + 9) / 10
    let did := chanDid c (.devWrite c .dmdState dmd.toNat) 0
    exec (.search c) s = .next
      (if n = 0 then unlocked c a 0 [did] s else chanAfter c id (standing (.search c) (at_ c a (n - 1))) [did] s)) ∧
  (∀ (s : State) (c : Chan) (ans : Answer) (a : Attempt) (left : Nat), (s.chan c).abortReq = false →
    Runs s (.search c) (.before (.sleep 10) [] [1] (.search (.wait (.direct a) left))) ans →
    exec (.search c) s = .next (chanAfter c (fun ch => { ch with state := .demodLocked })
      (fun g => { standing (.search c) (.before (.devRead c .detectedStd)
          [.prim (.devRead c .carFreq), .prim (.devRead c .sfr), .prim (.devRead c .tmgOffset)] []
          (.search (.readStd a (if a.algo = .blind then Config.cfg.tmoFecBlind (tier a.sr)
            else Config.cfg.tmoFecCold (tier a.sr)).toNat))) g with elapsed := g.elapsed + 10 }) [] s)) ∧
  (∀ (s : State) (c : Chan) (ans : Answer) (a : Attempt), (s.chan c).abortReq = false →
    Runs s (.search c) (.before (.sleep 10) [] [0] (.search (.wait (.direct a) 0))) ans →
    exec (.search c) s = .next (unlocked c a 10 [] s)) ∧
  ∀ (n left : Nat) (s : State) (c : Chan) (a : Attempt) (vs : List Int) (rest : List Turn),
    (s.chan c).abortReq = false → s.running (.chan c) = some ⟨.search c, at_ c a (n + left)⟩ →
    vs.length = n → (∀ v ∈ vs, v % 2 = 0) →
    s.turns = vs.flatMap (fun v => [.engine (.chan c) ⟨false, v⟩, .engine (.chan c) ⟨false, 0⟩]) ++ rest →
    steps (2 * n) s = .next
      { chanAfter c id
          (fun g => { standing (.search c) (at_ c a left) g with elapsed := g.elapsed + 10 * n })
          (List.replicate n (chanDid c (.devRead c .demodLock) 0)) s with
        turns := rest, tick := s.tick + 2 * n }

/-- R224, R217, R221, R223: every change of STATE that any step makes, from every state of the invariant: an edge of the
running search (an attempt of the workaround loop may also end in COARSE_ACQUIRE or NO_DATA), an abort, a bus error, or
the last two rows of R224: the host write that accepts SEARCH, UNLOCK, STANDBY enter, INIT or TERM while the channel's
engine is idle, to IDLE. -/
def Obligations.SearchTransitions : Prop :=
  ∀ (s t : State) (c : Chan), Inv s → step s = .next t → (t.chan c).state ≠ (s.chan c).state →
    let x := (s.chan c).state
    let y := (t.chan c).state
    let searching := ∃ p ans, Runs s (.search c) p ans
    (searching ∧ searchEdge x y = true) ∨
      (searching ∧ y = .noLock ∧ (s.chan c).abortReq = true ∧ (t.chan c).aborted = true) ∨
      (searching ∧ y = .busError ∧ (t.chan c).eng.cmdResult = .busError) ∨
      (y = .idle ∧ x.transient = false ∧ (s.chan c).eng.busy = false ∧
        ∃ i, i ∈ [.search c, .unlock c, .standby true, .init, .term] ∧ Accepts s t i)

/-- R36: LOCKED becomes 1 only on the running search's FEC_LOCKED → TRACKING, and becomes 0 only in the host write that
accepts SEARCH or UNLOCK of its channel, STANDBY enter, INIT or TERM: the word is written to that command's own command
register, and the engine there, not busy before, runs the command. -/
def Obligations.LockedWrites : Prop :=
  ∀ (s t : State) (c : Chan), Inv s → step s = .next t → (t.chan c).locked ≠ (s.chan c).locked →
    ((t.chan c).locked = true ∧ (s.chan c).state = .fecLocked ∧ (t.chan c).state = .tracking ∧
      (t.chan c).eng.busy = false ∧ ∃ p ans, Runs s (.search c) p ans) ∨
    ((t.chan c).locked = false ∧ (t.chan c).state = .idle ∧ (s.chan c).eng.busy = false ∧
      ∃ i, i ∈ [.search c, .unlock c, .standby true, .init, .term] ∧ Accepts s t i)

/-- R218 (a), R222: every running SEARCH ends: there is a number of its engine's steps after which it has ended, for
every answer of the environment, from every state of the invariant. -/
def Obligations.SearchTerminates : Prop :=
  ∀ (s : State) (c : Chan) (p : Point), Inv s → s.running (.chan c) = some ⟨.search c, p⟩ →
    ∃ n, ∀ anss : List Answer, anss.length = n →
      ∃ t, steps n { s with turns := anss.map (.engine (.chan c)) } = .next t ∧ t.running (.chan c) = none

/-! ## Errors (60_exceptions.md) -/

/-- R341, R223, R79: a bus transaction that fails ends the command in that step with BUS_ERROR, whatever command it is and
wherever it stands, at its first transaction too; no further transaction is made, no register the command would have
written later is written, and a SEARCH also ends in STATE = BUS_ERROR. The LNA probe does not fail (R351). The first
transactions are listed with the condition each is made on; of a SEARCH the first step either ends in BAD_PARAMETER or
fails in its write of MODCODE_EN (R201) or its read of AGC1_INTEG (R205).
LAST_OPCODE at completion is as R105's last sentence has it (log 7). -/
def Obligations.BusErrorEndsCommand : Prop :=
  ∀ (s : State) (v : Int),
    let failed := fun (i : Instr) (q : Prim) =>
      { s.updEng i.bank (ended i.opcode .busError) with bus := ⟨i.bank, q.delivered, 0, false⟩ :: s.bus }
    let searchFailed := fun (c : Chan) (q : Prim) =>
      chanAfter c (fun ch => { ch with state := .busError, blindPhase := .none }) (ended 0x40 .busError)
        [⟨.chan c, q.delivered, 0, false⟩] s
    (∀ (i : Instr) (q : Prim) (rest : List Op) (got : List Int) (k : Kont),
      (∀ c, i ≠ .abort c) → (∀ ms, q ≠ .sleep ms) → q ≠ .lnaProbe → Runs s i (.before q rest got k) ⟨true, v⟩ →
      ((∀ c, i ≠ .search c) → exec i s = .next (failed i q)) ∧
      ∀ c, i = .search c → exec i s = .next (searchFailed c q)) ∧
    (∀ (i : Instr) (c : Chan) (dual : Bool) (q : Prim) (made : Bool), Runs s i .start ⟨true, v⟩ →
      let ch := s.chan c
      let gain := carrierLoopGain Config.cfg (Config.cfg.prof s.glob.profile) ch.arg0.toNat (paramsStd ch.arg1)
        (paramsModcode ch.arg1) (paramsFrame ch.arg1) (paramsPilots ch.arg1)
      (i, q, made) ∈ ([(.init, .readChipId, true), (.term, .devWrite .a .dmdState 0, true),
        (.standby true, .devWrite .a .dmdState 0, true), (.standby false, .globalWrite .devStandby 0, true),
        (.setLdpcMode dual, .globalWrite .ldpcMode (if dual then 1 else 0), true),
        (.getRfLevel c, .devRead c .agc1Integ, true), (.getCn c, .devRead c .detectedStd, ch.locked),
        (.carrierOffset c true, .devRead c .carFreq, true), (.symbolRate c true, .devRead c .sfr, true),
        (.timingOffset c true, .devRead c .tmgOffset, true),
        (.selectStandard c true, .devWrite c .stdEnS1 (if ch.arg0.extractLsb' 2 2 = 3 then 0 else 1),
          ch.arg0.extractLsb' 6 3 != 7),
        (.selectClg c true, .devWrite c .carLoopGain gain.toNat, true), (.unlock c, .devWrite c .dmdState 0, true),
        (.getSignalInfo c, .tunerGetFrequency c, ch.locked), (.getPer c, .devRead c .perErr, ch.locked),
        (.ldpcMonitor c, .devRead c .ldpcPktErr, true)] : List (Instr × Prim × Bool)) →
      made = true → exec i s = .next (failed i q)) ∧
    ∀ c, Runs s (.search c) .start ⟨true, v⟩ →
      exec (.search c) s = .next
        (if validRequest Config.cfg (s.chan c).req = false then
          chanAfter c (fun ch => { ch with state := .badParameter, blindPhase := .none }) (ended 0x40 .ok) [] s
        else if Config.cfg.searchReenablesModcodes = true ∧ (s.chan c).stoppedMirror = true then
          searchFailed c (.devWrite c .modcodeEn 0x1FFFFFFE)
        else searchFailed c (.devRead c .agc1Integ))

/-! ## Telemetry (45_tracking.md) -/

/-- R291: GET_SIGNAL_INFO while not locked: the sentinels, with no transaction.
LAST_OPCODE at completion is as R105's last sentence has it (log 7). -/
def Obligations.SignalInfoUnlocked : Prop :=
  ∀ (s : State) (c : Chan) (ans : Answer), (s.chan c).locked = false → Runs s (.getSignalInfo c) .start ans →
    exec (.getSignalInfo c) s = .next (chanAfter c
      (fun ch => { ch with tmFreq := 0, tmSr := 0, tmParams := 0, tmErr := 0x00800000, tmTotal := 0x01000000
                           tmRf := 0, tmCn := 0 })
      (ended 0x50 .ok) [] s)

/-- R148, R149, R290, R292, R296: a locked GET_SIGNAL_INFO, step by step. It asks the tuner for its frequency first, and
then reads CAR_FREQ, SFR, TMG_OFFSET and DETECTED_STD: the frequency is the tuner's plus the carrier offset, the rate the
nominal one plus the timing offset. Next come the parameter and counter reads of the standard, up to AGC1: DVBS2 has the
packet counters, each clamped to its ceiling, and any other standard BER_CNT with a total of 0. The RF level is the
two-tier lookup of AGC1, plus the gain where an LNA is present; then the C/N is measured. The final step writes all TM
registers at once, TM_PARAMS in the layout spelled out: after the write of CNT_RESET when SIGINFO_RESET is 1, and after the last Sleep of the C/N measurement
when it is 0. For DETECTED_STD 0 the PR field is PUNCT_RATE as R290's code has it, where R29 has 0 (log 23).
LAST_OPCODE at completion is as R105's last sentence has it (log 7). The elapsed time is the model's own field (log 10). -/
def Obligations.SignalInfoCompletes : Prop :=
  ∀ (s : State) (c : Chan) (v : Int) (p : InfoLocals),
    let cfg := Config.cfg
    let m : Int := s.glob.mclk.toNat
    let signed := fun r : Int => if r < 2 ^ 23 then r else r - 2 ^ 24
    let runs := fun (now : Prim) (got : List Int) (k : Kont) =>
      Runs s (.getSignalInfo c) (.before now [] got k) ⟨false, v⟩
    let stands := fun (now : Prim) (rest : List Op) (got : List Int) (k : Kont) (ev : BusEvent) =>
      chanAfter c id (standing (.getSignalInfo c) (.before now rest got k)) [ev] s
    let onwards := fun (q : InfoLocals) (ev : BusEvent) =>
      if s.glob.lnaPresent then stands .lnaGetGain [] [] (.infoGain q) ev
      else stands (.devRead c .detectedStd) [] [] (.infoCnStd q) ev
    let rf : Int := interp2 cfg.rfTable cfg.rfLowTable (v % 2 ^ 16)
    let d := p.det
    let params : BitVec 15 :=
      d.std.setWidth 15 ||| (d.modcode.setWidth 15 <<< 2) ||| (d.pr.setWidth 15 <<< 7) ||| (d.pilots.setWidth 15 <<< 10) |||
        (d.frame.setWidth 15 <<< 11) ||| (d.rolloff.setWidth 15 <<< 12) ||| (d.inversion.setWidth 15 <<< 14)
    let tm := fun (cn : Int) (ch : Channel) =>
      { ch with tmFreq := wrap32 p.freq, tmSr := wrap32 p.sr, tmParams := params, tmErr := wrap32 p.err
                tmTotal := wrap32 p.total, tmRf := wrap32 p.rf, tmCn := wrap32 cn }
    ((s.chan c).locked = true → Runs s (.getSignalInfo c) .start ⟨false, v⟩ →
      exec (.getSignalInfo c) s = .next
        (stands (.devRead c .carFreq) [] [v] .infoCar (chanDid c (.tunerGetFrequency c) v))) ∧
    (∀ f, runs (.devRead c .carFreq) [f] .infoCar →
      exec (.getSignalInfo c) s = .next
        (stands (.devRead c .sfr) [] [] (.infoSfr (f + m * signed (v % 2 ^ 24) / 2 ^ 24))
          (chanDid c (.devRead c .carFreq) (v % 2 ^ 24)))) ∧
    (∀ f, runs (.devRead c .sfr) [] (.infoSfr f) →
      exec (.getSignalInfo c) s = .next
        (stands (.devRead c .tmgOffset) [.prim (.devRead c .detectedStd)] [] (.infoStd f (m * (v % 2 ^ 32) / 2 ^ 32))
          (chanDid c (.devRead c .sfr) (v % 2 ^ 32)))) ∧
    (∀ f srN t, runs (.devRead c .detectedStd) [t] (.infoStd f srN) →
      let raw := signed (t % 2 ^ 24)
      let srT := srN + ((srN * 10).tdiv ((2 ^ 24 : Int).tdiv (if raw = 0 then 1 else raw))).tdiv 320
      let std := BitVec.ofInt 2 (v % 2 ^ 2)
      let did := chanDid c (.devRead c .detectedStd) (v % 2 ^ 2)
      exec (.getSignalInfo c) s = .next
        (if std = 3 then
          stands (.devRead c .modcode)
            [.prim (.devRead c .frameLen), .prim (.devRead c .pilots), .prim (.devRead c .rolloff),
              .prim (.devRead c .spectrumInv), .prim (.devRead c .perErr), .prim (.devRead c .perTotal),
              .prim (.devRead c .agc1Integ)] [] (.infoAgc f srT std) did
        else
          stands (.devRead c .punctRate)
            [.prim (.devRead c .rolloff), .prim (.devRead c .spectrumInv), .prim (.devRead c .berCnt),
              .prim (.devRead c .agc1Integ)] [] (.infoAgc f srT std) did)) ∧
    (∀ (f srT : Int) (mc : BitVec 5) (fr pl inv : BitVec 1) (ro : BitVec 2) (e t : BitVec 32),
      (s.chan c).locked = true →
      runs (.devRead c .agc1Integ) [mc.toNat, fr.toNat, pl.toNat, ro.toNat, inv.toNat, e.toNat, t.toNat]
        (.infoAgc f srT 3) →
      exec (.getSignalInfo c) s = .next
        (onwards ⟨f, srT, ⟨3, mc, 0, pl, fr, ro, inv⟩, min e.toNat (2 ^ 23), min t.toNat (2 ^ 24), rf⟩
          (chanDid c (.devRead c .agc1Integ) (v % 2 ^ 16)))) ∧
    (∀ (f srT : Int) (std : BitVec 2) (pr : BitVec 3) (inv : BitVec 1) (ro : BitVec 2) (e : BitVec 24),
      (s.chan c).locked = true → std ≠ 3 →
      runs (.devRead c .agc1Integ) [pr.toNat, ro.toNat, inv.toNat, e.toNat] (.infoAgc f srT std) →
      exec (.getSignalInfo c) s = .next
        (onwards ⟨f, srT, ⟨std, 0, pr, 0, 0, ro, inv⟩, e.toNat, 0, rf⟩
          (chanDid c (.devRead c .agc1Integ) (v % 2 ^ 16)))) ∧
    ((s.chan c).locked = true → runs .lnaGetGain [] (.infoGain p) →
      let gain := if v % 256 < 128 then v % 256 else v % 256 - 256
      exec (.getSignalInfo c) s = .next
        (stands (.devRead c .detectedStd) [] [] (.infoCnStd { p with rf := p.rf + gain }) (chanDid c .lnaGetGain gain))) ∧
    (runs (.devRead c .detectedStd) [] (.infoCnStd p) →
      let std := BitVec.ofInt 2 (v % 2 ^ 2)
      let sample : Prim := .devRead c (if std = 3 then .noiseS2 else .noiseS1)
      let wait : Op := .prim (.sleep cfg.cnSampleDelayMs.toNat)
      exec (.getSignalInfo c) s = .next
        (stands sample (wait :: (List.replicate 15 [.prim sample, wait]).flatten) [] (.infoCnSamples p std)
          (chanDid c (.devRead c .detectedStd) (v % 2 ^ 2)))) ∧
    (∀ cn, runs (.devWrite c .cntReset 1) [] (.infoReset p cn) →
      exec (.getSignalInfo c) s = .next (chanAfter c (tm cn) (ended 0x50 .ok)
        [chanDid c (.devWrite c .cntReset 1) 0] s)) ∧
    ∀ (ms : Nat) (samples : List Int) (std : BitVec 2),
      runs (.sleep ms) samples (.infoCnSamples p std) →
      let cn := interp (if std = 3 then cfg.cnS2Table else cfg.cnS1Table) (samples.sum / 16)
      exec (.getSignalInfo c) s = .next
        (if cfg.siginfoReset then
          chanAfter c id
            (fun g => { standing (.getSignalInfo c) (.before (.devWrite c .cntReset 1) [] [] (.infoReset p cn)) g with
                        elapsed := g.elapsed + ms }) [] s
        else
          chanAfter c (tm cn) (fun g => { ended 0x50 .ok g with elapsed := g.elapsed + ms }) [] s)

/-- R293, R296 (a): GET_PER: the sentinels with no transaction when not locked; else the two counters, each clamped to
its ceiling, written to RES0, RES1, TM_ERR and TM_TOTAL.
LAST_OPCODE at completion is as R105's last sentence has it (log 7). -/
def Obligations.GetPerCompletes : Prop :=
  ∀ (s : State) (c : Chan),
    (∀ ans, (s.chan c).locked = false → Runs s (.getPer c) .start ans →
      exec (.getPer c) s = .next (chanAfter c
        (fun ch => { ch with res0 := 0x00800000, res1 := 0x01000000, tmErr := 0x00800000, tmTotal := 0x01000000 })
        (ended 0x51 .ok) [] s)) ∧
    (∀ e v : Int, Runs s (.getPer c) (.before (.devRead c .perTotal) [] [e] .perRead) ⟨false, v⟩ →
      exec (.getPer c) s = .next (chanAfter c
        (fun ch => { ch with
          res0 := BitVec.ofInt 32 (min e (2 ^ 23)), res1 := BitVec.ofInt 32 (min (v % 2 ^ 32) (2 ^ 24))
          tmErr := BitVec.ofInt 32 (min e (2 ^ 23)), tmTotal := BitVec.ofInt 32 (min (v % 2 ^ 32) (2 ^ 24)) })
        (ended 0x51 .ok) [chanDid c (.devRead c .perTotal) (v % 2 ^ 32)] s)) ∧
    ∀ (v w : Int) (rest : List Turn), (s.chan c).locked = true → s.running (.chan c) = some ⟨.getPer c, .start⟩ →
      s.turns = .engine (.chan c) ⟨false, v⟩ :: .engine (.chan c) ⟨false, w⟩ :: rest →
      let e : Word := BitVec.ofInt 32 (min (v % 2 ^ 32) (2 ^ 23))
      let t : Word := BitVec.ofInt 32 (min (w % 2 ^ 32) (2 ^ 24))
      steps 2 s = .next
        { chanAfter c (fun ch => { ch with res0 := e, res1 := t, tmErr := e, tmTotal := t }) (ended 0x51 .ok)
            [chanDid c (.devRead c .perTotal) (w % 2 ^ 32), chanDid c (.devRead c .perErr) (v % 2 ^ 32)] s with
          turns := rest, tick := s.tick + 2 }

/-- R294, R296 (c): LDPC_MONITOR reads LDPC_PKT_ERR first, then LDPC_FRAME_ERR. After its two reads `pe` and `fe`: the
counter reset, LDPC_STAT, and the window's verdict; a bad window writes MODCODE_EN = 0 next, a good one writes
ALL_MODCODES next if the channel was stopped, and completes with RES0 = 0 if it was not. The step that writes MODCODE_EN
sets or clears LDPC_STOPPED and completes.
LAST_OPCODE at completion is as R105's last sentence has it (log 7). -/
def Obligations.LdpcMonitorCompletes : Prop :=
  ∀ (s : State) (c : Chan) (v : Int) (pe fe : BitVec 16),
    let all : Int := 0x1FFFFFFE
    let bad := 200 < pe.toNat ∨ 5 < fe.toNat
    let stat := fun ch : Channel => { ch with ldpcStat := fe ++ pe }
    let reset := chanDid c (.devWrite c .ldpcCntReset 1) 0
    (Runs s (.ldpcMonitor c) .start ⟨false, v⟩ →
      exec (.ldpcMonitor c) s = .next (chanAfter c id
        (standing (.ldpcMonitor c)
          (.before (.devRead c .ldpcFrameErr) [.prim (.devWrite c .ldpcCntReset 1)] [v % 2 ^ 16] .ldpcRead))
        [chanDid c (.devRead c .ldpcPktErr) (v % 2 ^ 16)] s)) ∧
    (Runs s (.ldpcMonitor c) (.before (.devWrite c .ldpcCntReset 1) [] [pe.toNat, fe.toNat] .ldpcRead) ⟨false, v⟩ →
      (bad → exec (.ldpcMonitor c) s = .next (chanAfter c stat
        (standing (.ldpcMonitor c) (.before (.devWrite c .modcodeEn 0) [] [] .ldpcDisabled)) [reset] s)) ∧
      (¬bad → (s.chan c).stoppedMirror = true → exec (.ldpcMonitor c) s = .next (chanAfter c stat
        (standing (.ldpcMonitor c) (.before (.devWrite c .modcodeEn all) [] [] .ldpcEnabled)) [reset] s)) ∧
      (¬bad → (s.chan c).stoppedMirror = false → exec (.ldpcMonitor c) s = .next (chanAfter c
        (fun ch => { stat ch with res0 := 0 }) (ended 0x52 .ok) [reset] s))) ∧
    (Runs s (.ldpcMonitor c) (.before (.devWrite c .modcodeEn 0) [] [] .ldpcDisabled) ⟨false, v⟩ →
      exec (.ldpcMonitor c) s = .next (chanAfter c
        (fun ch => { ch with ldpcStopped := true, stoppedMirror := true, modcodeMask := 0, res0 := 1 })
        (ended 0x52 .ok) [chanDid c (.devWrite c .modcodeEn 0) 0] s)) ∧
    (Runs s (.ldpcMonitor c) (.before (.devWrite c .modcodeEn all) [] [] .ldpcEnabled) ⟨false, v⟩ →
      exec (.ldpcMonitor c) s = .next (chanAfter c
        (fun ch => { ch with ldpcStopped := false, stoppedMirror := false, modcodeMask := 0x1FFFFFFE, res0 := 0 })
        (ended 0x52 .ok) [chanDid c (.devWrite c .modcodeEn all) 0] s))

/-! ## Lifecycle (46_lifecycle.md) -/

/-- R320, R326 (a), R77: an accepted INIT takes nine steps of the global engine: the nine transactions in order, and in
the last of them the GID fields and both channels' LDPC state; every other register keeps its value.
LAST_OPCODE at completion is as R105's last sentence has it (log 7). -/
def Obligations.InitRuns : Prop :=
  ∀ (s : State) (id : BitVec 8) (v1 v2 v3 v4 v5 v6 v7 : Int) (lna : Bool) (rest : List Turn) (fails : Bool),
    let turn := fun v : Int => Turn.engine .global ⟨false, v⟩
    let all : Int := 0x1FFFFFFE
    let cleared := fun ch : Channel =>
      { ch with ldpcStopped := false, stoppedMirror := false, modcodeMask := 0x1FFFFFFE }
    s.running .global = some ⟨.init, .start⟩ →
    s.turns = turn id.toNat :: turn v1 :: turn v2 :: turn v3 ::
      .engine .global ⟨fails, if lna then 1 else 0⟩ :: turn v4 :: turn v5 :: turn v6 :: turn v7 :: rest →
    steps 9 s = .next
      { s with
        glob := { s.glob with
          eng := ended 0x01 .ok s.glob.eng, chipId := id, profile := Config.cfg.profileOf id, lnaPresent := lna
          ldpcDual := Config.cfg.ldpcModeInitDual, standby := false, initialized := true }
        a := cleared s.a, b := cleared s.b
        bus := [globDid (.devWrite .b .modcodeEn all) 0, globDid (.devWrite .b .dmdState 0) 0,
            globDid (.devWrite .a .modcodeEn all) 0, globDid (.devWrite .a .dmdState 0) 0,
            globDid .lnaProbe (if lna then 1 else 0),
            globDid (.globalWrite .ldpcMode (if Config.cfg.ldpcModeInitDual then 1 else 0)) 0,
            globDid (.globalWrite .devStandby 0) 0, globDid (.globalWrite .mclkCfg s.glob.mclk.toNat) 0,
            globDid .readChipId id.toNat] ++ s.bus
        turns := rest, tick := s.tick + 9 }

/-- R320 to R323, R325: the last step of INIT, TERM, STANDBY, SET_LDPC_MODE and UNLOCK: its transaction, the registers the
rule writes there, and completion with OK; nothing else changes. Also the first step of TERM and of STANDBY enter.
LAST_OPCODE at completion is as R105's last sentence has it (log 7). -/
def Obligations.LifecycleCompletes : Prop :=
  ∀ (s : State) (v : Int) (c : Chan) (dual : Bool) (id : BitVec 8) (lna : Int),
    let all : Int := 0x1FFFFFFE
    let cleared := fun ch : Channel =>
      { ch with ldpcStopped := false, stoppedMirror := false, modcodeMask := 0x1FFFFFFE }
    (∀ got, Runs s .init (.before (.devWrite .b .modcodeEn all) [] (lna :: got) (.initDone id)) ⟨false, v⟩ →
      exec .init s = .next
        { s with
          glob := { s.glob with
            eng := ended 0x01 .ok s.glob.eng, chipId := id, profile := Config.cfg.profileOf id
            lnaPresent := decide (lna = 1), ldpcDual := Config.cfg.ldpcModeInitDual, standby := false
            initialized := true }
          a := cleared s.a, b := cleared s.b
          bus := globDid (.devWrite .b .modcodeEn all) 0 :: s.bus }) ∧
    (Runs s .term (.before (.devWrite .b .dmdState 0) [] [] .termDone) ⟨false, v⟩ →
      exec .term s = .next (globAfter (fun g => { g with initialized := false }) (ended 0x02 .ok)
        [globDid (.devWrite .b .dmdState 0) 0] s)) ∧
    (Runs s (.standby true) (.before (.globalWrite .devStandby 1) [] [] .standbyDone) ⟨false, v⟩ →
      exec (.standby true) s = .next (globAfter (fun g => { g with standby := true }) (ended 0x03 .ok)
        [globDid (.globalWrite .devStandby 1) 0] s)) ∧
    (Runs s (.standby false) .start ⟨false, v⟩ →
      exec (.standby false) s = .next (globAfter (fun g => { g with standby := false }) (ended 0x03 .ok)
        [globDid (.globalWrite .devStandby 0) 0] s)) ∧
    (Runs s (.setLdpcMode dual) .start ⟨false, v⟩ →
      exec (.setLdpcMode dual) s = .next (globAfter (fun g => { g with ldpcDual := dual }) (ended 0x04 .ok)
        [globDid (.globalWrite .ldpcMode (if dual then 1 else 0)) 0] s)) ∧
    (Runs s (.unlock c) .start ⟨false, v⟩ →
      exec (.unlock c) s = .next (chanAfter c (fun ch => ch) (ended 0x42 .ok) [chanDid c (.devWrite c .dmdState 0) 0] s)) ∧
    (Runs s .term .start ⟨false, v⟩ →
      exec .term s = .next (globAfter (fun g => g)
        (standing .term (.before (.devWrite .b .dmdState 0) [] [] .termDone)) [globDid (.devWrite .a .dmdState 0) 0] s)) ∧
    (Runs s (.standby true) .start ⟨false, v⟩ →
      exec (.standby true) s = .next (globAfter (fun g => g)
        (standing (.standby true)
          (.before (.devWrite .b .dmdState 0) [.prim (.globalWrite .devStandby 1)] [] .standbyDone))
        [globDid (.devWrite .a .dmdState 0) 0] s))

/-! ## The two channels, and registers only the host writes (10_state.md, 60_exceptions.md) -/

/-- R352, R20: a command of one channel leaves the other channel's bank, the global bank and the last host read as they
are, whatever it does.
The last read's data is the model's own field (log 10). -/
def Obligations.ChannelCommandFrame : Prop :=
  ∀ (i : Instr) (s t : State) (c d : Chan), i.bank = .chan c → d ≠ c → exec i s = .next t →
    t.chan d = s.chan d ∧ t.glob = s.glob ∧ t.hostData = s.hostData ∧ t.turns = s.turns ∧ t.tick = s.tick

/-- R352: what a command of one channel does to its own channel does not depend on the other channel, on the bus history
or on anything else but its own bank, the global bank, and the turn. -/
def Obligations.ChannelNoninterference : Prop :=
  ∀ (i : Instr) (s s' t t' : State) (c : Chan), i.bank = .chan c → s.chan c = s'.chan c → s.glob = s'.glob →
    s.now = s'.now → exec i s = .next t → exec i s' = .next t' → t.chan c = t'.chan c

/-- R26, R28, R35: no engine's turn changes an operand register: ARG0 to ARG3, CH_CFG and the REQ registers are the
host's. -/
def Obligations.OperandRegistersAreTheHosts : Prop :=
  ∀ (s t : State) (e : Bank) (ans : Answer) (c : Chan), s.now = .engine e ans → step s = .next t →
    (t.chan c).arg0 = (s.chan c).arg0 ∧ (t.chan c).arg1 = (s.chan c).arg1 ∧ (t.chan c).arg2 = (s.chan c).arg2 ∧
      (t.chan c).arg3 = (s.chan c).arg3 ∧ (t.chan c).berMode = (s.chan c).berMode ∧
      (t.chan c).reqFreq = (s.chan c).reqFreq ∧ (t.chan c).reqSr = (s.chan c).reqSr ∧
      (t.chan c).reqRange = (s.chan c).reqRange ∧ (t.chan c).reqMode = (s.chan c).reqMode

/-- R24, R372: while INITIALIZED is 1 no step changes MCLK, whoever takes it. -/
def Obligations.MclkLockedWhileInitialized : Prop :=
  ∀ s t : State, s.glob.initialized = true → step s = .next t → t.glob.mclk = s.glob.mclk

/-! ## Host accesses (20_memory.md) -/

/-- R73, R21, R72, R374, R22, R25, R34, R340: a host read of any register of the map returns its value and changes
nothing else: STATUS, GSTATUS and GID are assembled from their fields with reserved bits 0, the codes of the fields are
listed, and the command registers read 0. The map is listed whole, the channel registers by their offset in either bank.
A register is open while BUSY is 1 and the running command writes it, in a SEARCH from the readback that writes it on: the
read then returns the free value of this tick with the reserved bits 0, the model's form of I20's any value (log 22). The
last read's data is the model's own field (log 10). -/
def Obligations.HostReads : Prop :=
  (∀ (s : State) (v : Word),
    let bit := fun b : Bool => ((BitVec.ofBool b).setWidth 32 : Word)
    let returned := { s with hostData := v, turns := s.turns.tail, tick := s.tick + 1 }
    (∀ addr : Nat, s.now = .host (.read addr 4) →
      (addr, v) ∈
        ([(0x000, s.glob.chipId.setWidth 32 ||| ((profileCode s.glob.profile).setWidth 32 <<< 8) |||
            (bit s.glob.initialized <<< 16) ||| (bit s.glob.standby <<< 17) ||| (bit s.glob.lnaPresent <<< 18) |||
            (bit s.glob.ldpcDual <<< 19)),
          (0x004, 0),
          (0x008, (bit s.glob.eng.busy <<< 8) ||| (s.glob.eng.cmdResult.code.setWidth 32 <<< 12) |||
            (s.glob.eng.lastOpcode.setWidth 32 <<< 16)),
          (0x00C, s.glob.mclk)] : List (Nat × Word)) →
      step s = .next returned) ∧
    ∀ (c : Chan) (offset : Nat), s.now = .host (.read ((match c with | .a => 0x100 | .b => 0x200) + offset) 4) →
      let ch := s.chan c
      let writes : Instr → List Nat := fun i =>
        match i with
        | .interp _ _ | .interp2 _ _ _ | .getRfLevel _ | .getCn _ | .carrierOffset _ _ | .symbolRate _ _
        | .timingOffset _ _ | .selectStandard _ _ | .selectClg _ _ | .ldpcMonitor _ => [0x18]
        | .encSymbolRate _ | .computeTimeouts _ _ => [0x18, 0x1C]
        | .getPer _ => [0x18, 0x1C, 0x60, 0x64]
        | .getSignalInfo _ => [0x50, 0x54, 0x58, 0x5C, 0x60, 0x64, 0x68]
        | .search _ => [0x40, 0x44, 0x48, 0x4C]
        | _ => []
      let isOpen := ch.eng.busy = true ∧ ∃ i p, ch.eng.run = some ⟨i, p⟩ ∧ offset ∈ writes i ∧
        ((∃ d, i = .search d) → ∃ now rest got at_, p = .before now rest got (.search at_) ∧
          (ch.state = .trackingOptimized ∨ ch.state = .fecLocked ∨ ∃ a, at_.attempt = some a ∧ a.stage ≠ .first))
      ((offset, v) ∈
        ([(0x00, 0),
          (0x04, ch.state.code.setWidth 32 ||| (bit ch.eng.busy <<< 8) ||| (bit ch.locked <<< 9) |||
            (bit ch.aborted <<< 10) ||| (bit ch.ldpcStopped <<< 11) ||| (ch.eng.cmdResult.code.setWidth 32 <<< 12) |||
            (ch.eng.lastOpcode.setWidth 32 <<< 16) ||| (ch.blindPhase.code.setWidth 32 <<< 24)),
          (0x08, ch.arg0), (0x0C, ch.arg1), (0x10, ch.arg2), (0x14, ch.arg3),
          (0x18, ch.res0), (0x1C, ch.res1), (0x20, ch.res2), (0x24, ch.res3), (0x28, bit ch.berMode),
          (0x30, ch.reqFreq), (0x34, ch.reqSr), (0x38, ch.reqRange), (0x3C, ch.reqMode.setWidth 32),
          (0x40, ch.rslFreq), (0x44, ch.rslSr), (0x48, ch.rslOffset), (0x4C, ch.rslParams.setWidth 32),
          (0x50, ch.tmFreq), (0x54, ch.tmSr), (0x58, ch.tmRf), (0x5C, ch.tmCn), (0x60, ch.tmErr), (0x64, ch.tmTotal),
          (0x68, ch.tmParams.setWidth 32), (0x6C, ch.ldpcStat)] : List (Nat × Word)) →
        ¬isOpen → step s = .next returned) ∧
      (isOpen → v = (if offset = 0x4C ∨ offset = 0x68 then Config.freeBusyRead s.tick &&& 0x7FFF
          else Config.freeBusyRead s.tick) → step s = .next returned)) ∧
  (∀ x ∈ ([(.idle, 0x00), (.coarseAcquire, 0x01), (.directLock, 0x02), (.carrierZigzagSweep, 0x03),
      (.blindCoarseSymbolRate, 0x04), (.demodLocked, 0x05), (.trackingOptimized, 0x06), (.fecLocked, 0x07),
      (.tracking, 0x08), (.noSignal, 0x09), (.noLock, 0x0A), (.rangeExceeded, 0x0B), (.noData, 0x0C),
      (.busError, 0x0D), (.badParameter, 0x0E)] : List (SearchState × BitVec 5)), x.1.code = x.2) ∧
  (∀ x ∈ ([(.ok, 0), (.busError, 1), (.rejectedBusy, 2), (.illegalOpcode, 3), (.reservedField, 4),
      (.notInitialized, 5), (.badOperand, 6), (.inStandby, 7)] : List (CmdResult × BitVec 4)), x.1.code = x.2) ∧
  (∀ x ∈ ([(.none, 0), (.agc2Sweep, 1), (.coarse, 2), (.fine, 3)] : List (BlindPhase × BitVec 2)), x.1.code = x.2) ∧
  ∀ x ∈ ([(.p0, 0), (.p1, 1), (.p2, 2)] : List (Profile × BitVec 2)), profileCode x.1 = x.2

/-- R73, R21, R24: a host write to an operand register of either bank stores the value, with reserved bits dropped, and
changes nothing else; a write to a read-only register, and to MCLK while INITIALIZED is 1, changes nothing. The writable
and the read-only registers are listed whole, the channel registers by their offset in either bank. -/
def Obligations.HostWrites : Prop :=
  ∀ (s : State) (v : Word),
    let passed := fun t : State => { t with turns := s.turns.tail, tick := s.tick + 1 }
    (∀ (c : Chan) (offset : Nat),
      s.now = .host (.write ((match c with | .a => 0x100 | .b => 0x200) + offset) 4 v) →
      (∀ f : Channel → Channel,
        ((offset = 0x08 ∧ f = fun ch => { ch with arg0 := v }) ∨ (offset = 0x0C ∧ f = fun ch => { ch with arg1 := v }) ∨
          (offset = 0x10 ∧ f = fun ch => { ch with arg2 := v }) ∨ (offset = 0x14 ∧ f = fun ch => { ch with arg3 := v }) ∨
          (offset = 0x28 ∧ f = fun ch => { ch with berMode := v.getLsbD 0 }) ∨
          (offset = 0x30 ∧ f = fun ch => { ch with reqFreq := v }) ∨
          (offset = 0x34 ∧ f = fun ch => { ch with reqSr := v }) ∨
          (offset = 0x38 ∧ f = fun ch => { ch with reqRange := v }) ∨
          (offset = 0x3C ∧ f = fun ch => { ch with reqMode := v.extractLsb' 0 9 })) →
        step s = .next (passed (s.updChan c f))) ∧
      (offset ∈ [0x04, 0x18, 0x1C, 0x20, 0x24, 0x40, 0x44, 0x48, 0x4C, 0x50, 0x54, 0x58, 0x5C, 0x60, 0x64, 0x68, 0x6C] →
        step s = .next (passed s))) ∧
    ∀ addr : Nat, s.now = .host (.write addr 4 v) →
      (addr = 0x000 ∨ addr = 0x008 ∨ (addr = 0x00C ∧ s.glob.initialized = true) → step s = .next (passed s)) ∧
      (addr = 0x00C → s.glob.initialized = false →
        step s = .next (passed { s with glob := { s.glob with mclk := v } }))

/-- R70, R343: a host access is a fault exactly when its width is not 4, its address is no multiple of 4, or its address
is not in the map of R72; and nothing but such an access faults. -/
def Obligations.HostFaults : Prop :=
  let mapped := fun addr : Nat =>
    addr ∈ [0x000, 0x004, 0x008, 0x00C] ∨
      ∃ base offset, base ∈ [0x100, 0x200] ∧ addr = base + offset ∧ offset % 4 = 0 ∧
        (offset ≤ 0x28 ∨ (0x30 ≤ offset ∧ offset ≤ 0x6C))
  (∀ (s : State) (addr width : Nat) (v : Word),
    s.now = .host (.read addr width) ∨ s.now = .host (.write addr width v) →
      ((∃ r, step s = .fault r) ↔ width ≠ 4 ∨ addr % 4 ≠ 0 ∨ ¬mapped addr)) ∧
    ∀ (s : State) (e : Bank) (ans : Answer), s.now = .engine e ans → ∃ t, step s = .next t

/-! ## Reset and the invariant (70_reset_and_hazards.md, 10_state.md) -/

/-- R370: the state after power-on reset, piece by piece as the rule's table lists it. Two clauses are the model's own: that
the bus history is empty is its choice of that field's reset value (log 10), and `cmdOwners` is its view of g.cmdOwner
(log 16). -/
def Obligations.ResetState : Prop :=
  let s := State.reset
  gidWord s.glob = 0 ∧ s.glob.chipId = 0 ∧ s.glob.profile = .p0 ∧ s.glob.initialized = false ∧ s.glob.standby = false ∧
    s.glob.lnaPresent = false ∧ s.glob.ldpcDual = false ∧ gstatusWord s.glob.eng = 0 ∧ s.glob.mclk = 0 ∧
    s.glob.eng.run = none ∧ s.bus = [] ∧ s.cmdOwners = [] ∧
    ∀ c, statusWord (s.chan c) = 0 ∧ (s.chan c).state = .idle ∧ (s.chan c).eng.cmdResult = .ok ∧
      (∀ r, readChan (s.chan c) r = 0) ∧ (s.chan c).abortReq = false ∧ (s.chan c).stoppedMirror = false ∧
      (s.chan c).req = ⟨0, 0, 0, 0, 0, 0, 0, false⟩ ∧ (s.chan c).modcodeMask = 0 ∧ (s.chan c).eng.run = none

/-- R25, R31, R34, R36, R219: the machine's invariant holds after reset. -/
def Obligations.ResetKeepsInvariant : Prop := Inv State.reset

/-- R25, R31, R34, R36, R219: every step keeps the invariant, from every state that has it: an engine is busy exactly
while it runs a command of its bank, STATE names the program point of a running search and is no transient state outside
one, LOCKED is 1 exactly in TRACKING, BLIND_PHASE is 0 outside a search, and ch.ldpcStopped mirrors LDPC_STOPPED. -/
def Obligations.StepKeepsInvariant : Prop := ∀ s t : State, Inv s → step s = .next t → Inv t
end

