-- ==== Sys2Proof/Laws/State.lean ====
section
/-! SUPPORT. The small lemmas of the state's updates: what each leaves in each part of the state. -/

namespace Sys2Proof.Machine

/-! ## Replacing a channel bank -/

@[simp] theorem State.setChan_glob (s : State) (c : Chan) (ch : Channel) : (s.setChan c ch).glob = s.glob := by cases c <;> rfl
@[simp] theorem State.setChan_bus (s : State) (c : Chan) (ch : Channel) : (s.setChan c ch).bus = s.bus := by cases c <;> rfl
@[simp] theorem State.setChan_hostData (s : State) (c : Chan) (ch : Channel) : (s.setChan c ch).hostData = s.hostData := by cases c <;> rfl
@[simp] theorem State.setChan_turns (s : State) (c : Chan) (ch : Channel) : (s.setChan c ch).turns = s.turns := by cases c <;> rfl
@[simp] theorem State.setChan_tick (s : State) (c : Chan) (ch : Channel) : (s.setChan c ch).tick = s.tick := by cases c <;> rfl
@[simp] theorem State.setChan_chan (s : State) (c : Chan) (ch : Channel) : (s.setChan c ch).chan c = ch := by cases c <;> rfl
theorem State.setChan_chan_other (s : State) {c d : Chan} (ch : Channel) (h : d ≠ c) : (s.setChan c ch).chan d = s.chan d := by
  cases c <;> cases d <;> first | rfl | exact absurd rfl h
@[simp] theorem State.setChan_self (s : State) (c : Chan) : s.setChan c (s.chan c) = s := by cases c <;> rfl
@[simp] theorem State.setChan_a_a (s : State) (ch : Channel) : (s.setChan .a ch).a = ch := rfl
@[simp] theorem State.setChan_a_b (s : State) (ch : Channel) : (s.setChan .a ch).b = s.b := rfl
@[simp] theorem State.setChan_b_a (s : State) (ch : Channel) : (s.setChan .b ch).a = s.a := rfl
@[simp] theorem State.setChan_b_b (s : State) (ch : Channel) : (s.setChan .b ch).b = ch := rfl
@[simp] theorem State.chan_a (s : State) : s.chan .a = s.a := rfl
@[simp] theorem State.chan_b (s : State) : s.chan .b = s.b := rfl

/-! ## Changing a channel bank -/

@[simp] theorem State.updChan_glob (s : State) (c : Chan) (f : Channel → Channel) : (s.updChan c f).glob = s.glob := by simp [State.updChan]
@[simp] theorem State.updChan_bus (s : State) (c : Chan) (f : Channel → Channel) : (s.updChan c f).bus = s.bus := by simp [State.updChan]
@[simp] theorem State.updChan_hostData (s : State) (c : Chan) (f : Channel → Channel) : (s.updChan c f).hostData = s.hostData := by simp [State.updChan]
@[simp] theorem State.updChan_turns (s : State) (c : Chan) (f : Channel → Channel) : (s.updChan c f).turns = s.turns := by simp [State.updChan]
@[simp] theorem State.updChan_tick (s : State) (c : Chan) (f : Channel → Channel) : (s.updChan c f).tick = s.tick := by simp [State.updChan]
@[simp] theorem State.updChan_chan (s : State) (c : Chan) (f : Channel → Channel) : (s.updChan c f).chan c = f (s.chan c) := by
  simp [State.updChan]
theorem State.updChan_chan_other (s : State) {c d : Chan} (f : Channel → Channel) (h : d ≠ c) :
    (s.updChan c f).chan d = s.chan d := State.setChan_chan_other s _ h
@[simp] theorem State.updChan_a_a (s : State) (f : Channel → Channel) : (s.updChan .a f).a = f s.a := rfl
@[simp] theorem State.updChan_a_b (s : State) (f : Channel → Channel) : (s.updChan .a f).b = s.b := rfl
@[simp] theorem State.updChan_b_a (s : State) (f : Channel → Channel) : (s.updChan .b f).a = s.a := rfl
@[simp] theorem State.updChan_b_b (s : State) (f : Channel → Channel) : (s.updChan .b f).b = f s.b := rfl
@[simp] theorem State.updChan_updChan (s : State) (c : Chan) (f g : Channel → Channel) :
    (s.updChan c f).updChan c g = s.updChan c fun ch => g (f ch) := by cases c <;> rfl

/-! ## Changing the global bank -/

@[simp] theorem State.updGlob_a (s : State) (f : Global → Global) : (s.updGlob f).a = s.a := rfl
@[simp] theorem State.updGlob_b (s : State) (f : Global → Global) : (s.updGlob f).b = s.b := rfl
@[simp] theorem State.updGlob_bus (s : State) (f : Global → Global) : (s.updGlob f).bus = s.bus := rfl
@[simp] theorem State.updGlob_hostData (s : State) (f : Global → Global) : (s.updGlob f).hostData = s.hostData := rfl
@[simp] theorem State.updGlob_turns (s : State) (f : Global → Global) : (s.updGlob f).turns = s.turns := rfl
@[simp] theorem State.updGlob_tick (s : State) (f : Global → Global) : (s.updGlob f).tick = s.tick := rfl
@[simp] theorem State.updGlob_glob (s : State) (f : Global → Global) : (s.updGlob f).glob = f s.glob := rfl
@[simp] theorem State.updGlob_chan (s : State) (f : Global → Global) (c : Chan) : (s.updGlob f).chan c = s.chan c := by
  cases c <;> rfl

/-! ## Changing an engine -/

@[simp] theorem State.updEng_bus (s : State) (e : Bank) (f : Engine → Engine) : (s.updEng e f).bus = s.bus := by
  cases e <;> simp [State.updEng]
@[simp] theorem State.updEng_hostData (s : State) (e : Bank) (f : Engine → Engine) : (s.updEng e f).hostData = s.hostData := by
  cases e <;> simp [State.updEng]
@[simp] theorem State.updEng_turns (s : State) (e : Bank) (f : Engine → Engine) : (s.updEng e f).turns = s.turns := by
  cases e <;> simp [State.updEng]
@[simp] theorem State.updEng_tick (s : State) (e : Bank) (f : Engine → Engine) : (s.updEng e f).tick = s.tick := by
  cases e <;> simp [State.updEng]
@[simp] theorem State.updEng_eng (s : State) (e : Bank) (f : Engine → Engine) : (s.updEng e f).eng e = f (s.eng e) := by
  cases e <;> simp [State.updEng, State.eng]
theorem State.updEng_eng_other (s : State) {e d : Bank} (f : Engine → Engine) (h : d ≠ e) :
    (s.updEng e f).eng d = s.eng d := by
  cases e with
  | global => cases d with
    | global => exact absurd rfl h
    | chan c => simp [State.updEng, State.eng]
  | chan c => cases d with
    | global => simp [State.updEng, State.eng]
    | chan d =>
      have hd : d ≠ c := fun hc => h (hc ▸ rfl)
      simp [State.updEng, State.eng, State.updChan_chan_other s _ hd]
@[simp] theorem State.updEng_global_glob (s : State) (f : Engine → Engine) :
    (s.updEng .global f).glob = { s.glob with eng := f s.glob.eng } := rfl
@[simp] theorem State.updEng_global_chan (s : State) (f : Engine → Engine) (c : Chan) :
    (s.updEng .global f).chan c = s.chan c := by simp [State.updEng]
@[simp] theorem State.updEng_global_a (s : State) (f : Engine → Engine) : (s.updEng .global f).a = s.a := rfl
@[simp] theorem State.updEng_global_b (s : State) (f : Engine → Engine) : (s.updEng .global f).b = s.b := rfl
@[simp] theorem State.updEng_chan_glob (s : State) (c : Chan) (f : Engine → Engine) : (s.updEng (.chan c) f).glob = s.glob := by
  simp [State.updEng]
@[simp] theorem State.updEng_chan_chan (s : State) (c : Chan) (f : Engine → Engine) :
    (s.updEng (.chan c) f).chan c = { s.chan c with eng := f (s.chan c).eng } := by simp [State.updEng]
theorem State.updEng_chan_chan_other (s : State) {c d : Chan} (f : Engine → Engine) (h : d ≠ c) :
    (s.updEng (.chan c) f).chan d = s.chan d := by simp [State.updEng, State.updChan_chan_other s _ h]
@[simp] theorem State.eng_global (s : State) : s.eng .global = s.glob.eng := rfl
@[simp] theorem State.eng_chan (s : State) (c : Chan) : s.eng (.chan c) = (s.chan c).eng := rfl

/-! ## The turn -/

@[simp] theorem State.advance_glob (s : State) : s.advance.glob = s.glob := rfl
@[simp] theorem State.advance_a (s : State) : s.advance.a = s.a := rfl
@[simp] theorem State.advance_b (s : State) : s.advance.b = s.b := rfl
@[simp] theorem State.advance_bus (s : State) : s.advance.bus = s.bus := rfl
@[simp] theorem State.advance_hostData (s : State) : s.advance.hostData = s.hostData := rfl
@[simp] theorem State.advance_turns (s : State) : s.advance.turns = s.turns.tail := rfl
@[simp] theorem State.advance_tick (s : State) : s.advance.tick = s.tick + 1 := rfl
@[simp] theorem State.advance_chan (s : State) (c : Chan) : s.advance.chan c = s.chan c := by cases c <;> rfl
@[simp] theorem State.advance_eng (s : State) (e : Bank) : s.advance.eng e = s.eng e := by cases e <;> simp
theorem State.now_cons (s : State) {t : Turn} {ts : List Turn} (h : s.turns = t :: ts) : s.now = t := by
  simp [State.now, h]
theorem State.now_nil (s : State) (h : s.turns = []) : s.now = Config.freeTurn s.tick := by simp [State.now, h]

/-! ## Recording a transaction, sleeping, standing at a program point -/

@[simp] theorem logged_glob (e : Bank) (p : Prim) (v : Int) (ok : Bool) (s : State) : (logged e p v ok s).glob = s.glob := rfl
@[simp] theorem logged_a (e : Bank) (p : Prim) (v : Int) (ok : Bool) (s : State) : (logged e p v ok s).a = s.a := rfl
@[simp] theorem logged_b (e : Bank) (p : Prim) (v : Int) (ok : Bool) (s : State) : (logged e p v ok s).b = s.b := rfl
@[simp] theorem logged_hostData (e : Bank) (p : Prim) (v : Int) (ok : Bool) (s : State) : (logged e p v ok s).hostData = s.hostData := rfl
@[simp] theorem logged_turns (e : Bank) (p : Prim) (v : Int) (ok : Bool) (s : State) : (logged e p v ok s).turns = s.turns := rfl
@[simp] theorem logged_tick (e : Bank) (p : Prim) (v : Int) (ok : Bool) (s : State) : (logged e p v ok s).tick = s.tick := rfl
@[simp] theorem logged_bus (e : Bank) (p : Prim) (v : Int) (ok : Bool) (s : State) :
    (logged e p v ok s).bus = ⟨e, p.delivered, v, ok⟩ :: s.bus := rfl
@[simp] theorem logged_chan (e : Bank) (p : Prim) (v : Int) (ok : Bool) (s : State) (c : Chan) :
    (logged e p v ok s).chan c = s.chan c := by cases c <;> rfl
@[simp] theorem logged_eng (e : Bank) (p : Prim) (v : Int) (ok : Bool) (s : State) (d : Bank) :
    (logged e p v ok s).eng d = s.eng d := by cases d <;> simp
@[simp] theorem slept_eng (e : Bank) (ms : Nat) (s : State) :
    (slept e ms s).eng e = { s.eng e with elapsed := (s.eng e).elapsed + ms } := by simp [slept]
@[simp] theorem slept_bus (e : Bank) (ms : Nat) (s : State) : (slept e ms s).bus = s.bus := by simp [slept]
@[simp] theorem atPoint_eng (i : Instr) (p : Point) (s : State) :
    (atPoint i p s).eng i.bank = { s.eng i.bank with run := some ⟨i, p⟩ } := by simp [atPoint]
@[simp] theorem atPoint_bus (i : Instr) (p : Point) (s : State) : (atPoint i p s).bus = s.bus := by simp [atPoint]

/-! ## Accepting, rejecting, completing -/

@[simp] theorem accept_eng (i : Instr) (s : State) :
    (accept i s).eng i.bank =
      { s.eng i.bank with busy := true, lastOpcode := i.opcode, run := some ⟨i, .start⟩, elapsed := 0 } := by simp [accept]
@[simp] theorem reject_eng (e : Bank) (opcode : BitVec 8) (code : CmdResult) (s : State) :
    (reject e opcode code s).eng e = { s.eng e with cmdResult := code, lastOpcode := opcode } := by simp [reject]
@[simp] theorem complete_eng (i : Instr) (code : CmdResult) (s : State) :
    (complete i code s).eng i.bank =
      { s.eng i.bank with cmdResult := code, lastOpcode := i.opcode, busy := false, run := none } := by simp [complete]
@[simp] theorem accept_bus (i : Instr) (s : State) : (accept i s).bus = s.bus := by simp [accept]
@[simp] theorem reject_bus (e : Bank) (opcode : BitVec 8) (code : CmdResult) (s : State) :
    (reject e opcode code s).bus = s.bus := by simp [reject]
@[simp] theorem complete_bus (i : Instr) (code : CmdResult) (s : State) : (complete i code s).bus = s.bus := by
  simp [complete]

end Sys2Proof.Machine
end

