-- ==== Sys2Proof/Laws/Ops.lean ====
section
/-! SUPPORT. One lemma for each shared operation, saying once everything it can do. -/

namespace Sys2Proof.Machine

/-! ## A command's meaning is its rule -/

/-- Every command but ABORT runs its rule through `runCommand`. -/
theorem exec_eq_runCommand {i : Instr} (h : isAbort i = false) (s : State) :
    exec i s = runCommand Config.cfg i (ruleOf Config.cfg i) s := by
  cases i <;> first | rfl | simp [isAbort] at h

/-- ABORT on a host turn sets the abort flag of a busy channel, and does nothing else. -/
theorem exec_abort_host {s : State} {access : HostAccess} (c : Chan) (h : s.now = .host access) :
    exec (.abort c) s = .next (abortRequested c s) := by simp [exec, execAbort, h]

/-- ABORT does nothing on an engine's turn. -/
theorem exec_abort_engine {s : State} {e : Bank} {ans : Answer} (c : Chan) (h : s.now = .engine e ans) :
    exec (.abort c) s = .next s := by simp [exec, execAbort, h]

theorem runCommand_host {s : State} {access : HostAccess} (cfg : Cfg) (i : Instr) (p : Program)
    (h : s.now = .host access) : runCommand cfg i p s = .next (hostTurn i p s) := by simp [runCommand, h]

theorem runCommand_engine {s : State} {e : Bank} {ans : Answer} (cfg : Cfg) (i : Instr) (p : Program)
    (h : s.now = .engine e ans) : runCommand cfg i p s = .next (engineTurn cfg i p e ans s) := by simp [runCommand, h]

/-- No meaning of this model faults or refuses. -/
theorem exec_next (i : Instr) (s : State) : ∃ t, exec i s = .next t := by
  cases hi : isAbort i with
  | true =>
    cases i <;> simp [isAbort] at hi
    rename_i c
    cases hn : s.now with
    | host access => exact ⟨_, exec_abort_host c hn⟩
    | engine e ans => exact ⟨_, exec_abort_engine c hn⟩
  | false =>
    rw [exec_eq_runCommand hi]
    cases hn : s.now with
    | host access => exact ⟨_, runCommand_host _ _ _ hn⟩
    | engine e ans => exact ⟨_, runCommand_engine _ _ _ hn⟩

/-! ## Acceptance -/

/-- A host turn rejects with the first matching line of R105, or accepts. -/
theorem hostTurn_cases (i : Instr) (p : Program) (s : State) :
    (∃ code, rejection i s = some code ∧ hostTurn i p s = reject i.bank i.opcode code s) ∨
      (rejection i s = none ∧ hostTurn i p s = p.onAccept (accept i s)) := by
  unfold hostTurn
  cases h : rejection i s with
  | some code => exact .inl ⟨code, rfl, rfl⟩
  | none => exact .inr ⟨rfl, rfl⟩

/-- What lines (4) to (8) of R105 leave true of an accepted command. -/
theorem rejection_none {i : Instr} {s : State} (h : rejection i s = none) :
    (s.eng i.bank).busy = false ∧ (gatedByChannels i = true → s.a.eng.busy = false ∧ s.b.eng.busy = false) ∧
      (s.glob.initialized = true ∨ i = .init) ∧ ¬(isSearch i = true ∧ s.glob.standby = true) ∧
      badOperand i s = false := by
  unfold rejection at h
  split at h; · cases h
  split at h; · cases h
  split at h; · cases h
  split at h; · cases h
  split at h; · cases h
  rename_i h1 h2 h3 h4 h5
  refine ⟨by simpa using h1, fun hg => ?_, ?_, by simpa using h4, by simpa using h5⟩
  · simp only [hg, Bool.true_and, Bool.or_eq_true, not_or, Bool.not_eq_true] at h2
    exact h2
  · cases hi : s.glob.initialized with
    | true => exact .inl rfl
    | false =>
      right
      simpa [hi] using h3

/-! ## The engine step -/

/-- An engine's turn moves nothing but the command that engine runs. -/
theorem engineTurn_cases {cfg : Cfg} {i : Instr} {p : Program} {e : Bank} {ans : Answer} {s t : State}
    (h : engineTurn cfg i p e ans s = t) :
    t = s ∨ ∃ point, s.running e = some ⟨i, point⟩ ∧ e = i.bank ∧ engineStep cfg p i ans point s = some t := by
  unfold engineTurn at h
  split at h
  · rename_i r hr
    split at h
    · rename_i hi
      obtain ⟨he, hi⟩ := hi
      cases hs : engineStep cfg p i ans r.point s with
      | none => simp [hs] at h; exact .inl h.symm
      | some u =>
        simp only [hs, Option.getD_some] at h
        refine .inr ⟨r.point, ?_, he, by rw [hs, h]⟩
        rw [hr, ← hi]
    · exact .inl h.symm
  · exact .inl h.symm

/-- The engine that runs `i` at `point` takes one step of it. -/
theorem engineTurn_running {cfg : Cfg} {i : Instr} {p : Program} {ans : Answer} {s t : State} {point : Point}
    (hr : s.running i.bank = some ⟨i, point⟩) (ht : engineStep cfg p i ans point s = some t) :
    engineTurn cfg i p i.bank ans s = t := by simp [engineTurn, hr, ht]

/-- A running command's meaning on its engine's turn is one engine step of its rule. -/
theorem exec_running {i : Instr} {s t : State} {ans : Answer} {point : Point} (hi : isAbort i = false)
    (hn : s.now = .engine i.bank ans) (hr : s.running i.bank = some ⟨i, point⟩)
    (ht : engineStep Config.cfg (ruleOf Config.cfg i) i ans point s = some t) : exec i s = .next t := by
  rw [exec_eq_runCommand hi, runCommand_engine _ _ _ hn, engineTurn_running hr ht]

/-- What a flow leaves: the next program point, or the command's end. -/
theorem settle_cases {cfg : Cfg} {i : Instr} {fl : Flow} {t : State} (h : settle cfg i fl = some t) :
    (∃ s first rest k, fl = .go s first rest k ∧ t = atPoint i (.before (resolve cfg s first) rest [] k) s) ∨
      ∃ s code, fl = .done s code ∧ t = complete i code s := by
  cases fl with
  | go s first rest k => exact .inl ⟨s, first, rest, k, rfl, by simpa [settle] using h.symm⟩
  | done s code => exact .inr ⟨s, code, rfl, by simpa [settle] using h.symm⟩
  | stray => simp [settle] at h

/-- After a primitive the engine is before the next one of the straight line, or its pure computation follows. -/
theorem proceed_cases {cfg : Cfg} {p : Program} {i : Instr} {rest : List Op} {got : List Int} {k : Kont} {s t : State}
    (h : proceed cfg p i rest got k s = some t) :
    (∃ op ops, rest = op :: ops ∧ t = atPoint i (.before (resolve cfg s op) ops got k) s) ∨
      (rest = [] ∧ settle cfg i (p.resume k got s) = some t) := by
  cases rest with
  | cons op ops => exact .inl ⟨op, ops, rfl, by simpa [proceed] using h.symm⟩
  | nil => exact .inr ⟨rfl, h⟩

/-- The state after a primitive that went through: a transaction recorded, or a Sleep counted. -/
def Moved (i : Instr) (s u : State) : Prop :=
  (∃ q v ok, u = logged i.bank q v ok s) ∨ ∃ ms, u = slept i.bank ms s

/-- One primitive: a Sleep that is an abort point, a transaction that fails, or one that goes through. -/
theorem perform_cases {cfg : Cfg} {p : Program} {i : Instr} {ans : Answer} {now : Prim} {rest : List Op}
    {got : List Int} {k : Kont} {s t : State} (h : perform cfg p i ans now rest got k s = some t) :
    ((∃ ms, now = .sleep ms) ∧ p.aborting s = true ∧ t = complete i .ok (p.onAbort s)) ∨
      ((∀ ms, now ≠ .sleep ms) ∧ raises now ans = true ∧
        t = complete i .busError (p.onBusError (logged i.bank now 0 false s))) ∨
      ∃ u got', Moved i s u ∧ (p.aborting s = false ∨ ∀ ms, now ≠ .sleep ms) ∧
        proceed cfg p i rest got' k u = some t := by
  have key : ∀ q : Prim, (∀ ms, q ≠ .sleep ms) → transact cfg p i ans q rest got k s = some t →
      ((∀ ms, q ≠ .sleep ms) ∧ raises q ans = true ∧
        t = complete i .busError (p.onBusError (logged i.bank q 0 false s))) ∨
      ∃ u got', Moved i s u ∧ (p.aborting s = false ∨ ∀ ms, q ≠ .sleep ms) ∧ proceed cfg p i rest got' k u = some t := by
    intro q hq h
    unfold transact at h
    split at h
    · rename_i hr
      exact .inl ⟨hq, hr, by simpa using h.symm⟩
    · split at h
      · rename_i v hv
        exact .inr ⟨_, _, .inl ⟨q, v, true, rfl⟩, .inr hq, h⟩
      · exact .inr ⟨_, _, .inl ⟨q, 0, true, rfl⟩, .inr hq, h⟩
  unfold perform at h
  split at h
  · rename_i ms
    split at h
    · rename_i ha
      exact .inl ⟨⟨ms, rfl⟩, ha, by simpa using h.symm⟩
    · rename_i ha
      exact .inr (.inr ⟨_, _, .inr ⟨ms, rfl⟩, .inl (by simpa using ha), h⟩)
  · rename_i hq
    exact .inr (key _ (fun ms e => hq ms e) h)

/-- One engine step: from the command's start its entry comes first (log 4). -/
theorem engineStep_cases {cfg : Cfg} {p : Program} {i : Instr} {ans : Answer} {point : Point} {s t : State}
    (h : engineStep cfg p i ans point s = some t) :
    (∃ s1 code, point = .start ∧ p.entry s = .done s1 code ∧ t = complete i code s1) ∨
      (∃ s1 first rest k, point = .start ∧ p.entry s = .go s1 first rest k ∧
        perform cfg p i ans (resolve cfg s1 first) rest [] k s1 = some t) ∨
      ∃ now rest got k, point = .before now rest got k ∧ perform cfg p i ans now rest got k s = some t := by
  cases point with
  | start =>
    simp only [engineStep] at h
    split at h
    · rename_i s1 first rest k he
      exact .inr (.inl ⟨s1, first, rest, k, rfl, he, h⟩)
    · rename_i s1 code he
      exact .inl ⟨s1, code, rfl, he, by simpa using h.symm⟩
    · cases h
  | before now rest got k => exact .inr (.inr ⟨now, rest, got, k, rfl, h⟩)

/-! ## Host accesses -/

/-- The three command registers, each at its address (20_memory.md R72). -/
theorem regAt_command {addr : Nat} {bank : Bank}
    (h : (regAt addr = some .gcmd ∧ bank = .global) ∨ ∃ c, regAt addr = some (.chan c .cmd) ∧ bank = .chan c) :
    (addr, bank) ∈ [(0x004, Bank.global), (0x100, .chan .a), (0x200, .chan .b)] := by
  have key : ∀ a, chanRegAt a = some .cmd → a = 0 := by
    intro a ha
    unfold chanRegAt at ha
    split at ha <;> first | rfl | cases ha
  rcases h with ⟨h, rfl⟩ | ⟨c, h, rfl⟩ <;> unfold regAt at h <;> split at h
  · unfold globalRegAt at h
    split at h <;> first | (cases h; done) | simp
  · split at h <;> simp at h
  · unfold globalRegAt at h
    split at h <;> cases h
  · split at h <;> simp only [Option.map_eq_some_iff, Reg.chan.injEq] at h <;>
      obtain ⟨r, hr, rfl, rfl⟩ := h <;> have := key _ hr <;> simp <;> omega

/-- A host access outside the contract faults; a read records the register's value; a write goes to a command register,
each at its own address, or stores. -/
theorem hostAccess_cases (s : State) (acc : HostAccess) :
    (∃ f, hostAccess s acc = .fault f) ∨
      (∃ addr r, regAt addr = some r ∧ hostAccess s acc = .done { s with hostData := readReg s r }) ∨
      (∃ addr bank w, (addr, bank) ∈ [(0x004, Bank.global), (0x100, .chan .a), (0x200, .chan .b)] ∧
        acc = .write addr 4 w ∧ hostAccess s acc = .command bank w) ∨
      ∃ r v, hostAccess s acc = .done (writeReg s v r) := by
  cases acc with
  | read addr width =>
    simp only [hostAccess]
    cases hf : accessFault addr width with
    | some f => exact .inl ⟨f, rfl⟩
    | none =>
      simp only [hostRead]
      cases hr : regAt addr with
      | none => exact .inl ⟨_, rfl⟩
      | some r => exact .inr (.inl ⟨addr, r, hr, rfl⟩)
  | write addr width v =>
    simp only [hostAccess]
    cases hf : accessFault addr width with
    | some f => exact .inl ⟨f, rfl⟩
    | none =>
      have hw : width = 4 := by
        by_contra hw
        simp [accessFault, hw] at hf
      subst hw
      simp only [hostWrite]
      split
      · rename_i hr
        exact .inr (.inr (.inl ⟨addr, .global, v, regAt_command (.inl ⟨hr, rfl⟩), rfl, rfl⟩))
      · rename_i c hr
        exact .inr (.inr (.inl ⟨addr, .chan c, v, regAt_command (.inr ⟨c, hr, rfl⟩), rfl, rfl⟩))
      · rename_i r _ _ _
        exact .inr (.inr (.inr ⟨r, v, rfl⟩))
      · exact .inl ⟨_, rfl⟩

/-! ## The step -/

/-- A turn that does not fault: a host read, a host write that stores, a word that is no command, a command's
acceptance, an engine's step, or the turn of an idle engine. -/
theorem takeTurn_cases {s t : State} (h : takeTurn s = .next t) :
    (∃ acc addr r, s.now = .host acc ∧ regAt addr = some r ∧ t = { s with hostData := readReg s r }) ∨
      (∃ acc r v, s.now = .host acc ∧ t = writeReg s v r) ∨
      (∃ acc bank w err, s.now = .host acc ∧ decode bank w = .error err ∧
        t = reject bank (opcodeOf w) (decodeResult err) s) ∨
      (∃ addr bank w i, (addr, bank) ∈ [(0x004, Bank.global), (0x100, .chan .a), (0x200, .chan .b)] ∧
        s.now = .host (.write addr 4 w) ∧ decode bank w = .ok i ∧ exec i s = .next t) ∨
      (∃ e ans r, s.now = .engine e ans ∧ s.running e = some r ∧ exec r.instr s = .next t) ∨
      ∃ e ans, s.now = .engine e ans ∧ s.running e = none ∧ t = s := by
  unfold takeTurn at h
  split at h
  · rename_i acc hn
    rcases hostAccess_cases s acc with ⟨f, hf⟩ | ⟨addr, r, hr, hd⟩ | ⟨addr, bank, w, ha, rfl, hc⟩ | ⟨r, v, hd⟩
    · simp [hf] at h
    · simp only [hd, Host.Outcome.next.injEq] at h
      exact .inl ⟨acc, addr, r, hn, hr, h.symm⟩
    · simp only [hc, commandWord] at h
      split at h
      · rename_i i hi
        exact .inr (.inr (.inr (.inl ⟨addr, bank, w, i, ha, hn, hi, h⟩)))
      · rename_i err he
        simp only [Host.Outcome.next.injEq] at h
        exact .inr (.inr (.inl ⟨_, bank, w, err, hn, he, h.symm⟩))
    · simp only [hd, Host.Outcome.next.injEq] at h
      exact .inr (.inl ⟨acc, r, v, hn, h.symm⟩)
  · rename_i e ans hn
    split at h
    · rename_i r hr
      exact .inr (.inr (.inr (.inr (.inl ⟨e, ans, r, hn, hr, h⟩))))
    · rename_i hr
      simp only [Host.Outcome.next.injEq] at h
      exact .inr (.inr (.inr (.inr (.inr ⟨e, ans, hn, hr, h.symm⟩))))

/-- A step that answers a next state: its turn, and then the next turn's turn. -/
theorem step_cases {s t : State} (h : step s = .next t) : ∃ u, takeTurn s = .next u ∧ t = u.advance := by
  unfold step at h
  split at h
  · rename_i u hu
    exact ⟨u, hu, by simpa using h.symm⟩
  · cases h
  · cases h

end Sys2Proof.Machine
end

