-- ==== Sys2Proof/Laws/Commands.lean ====
section
/-! SUPPORT. What the pure computations of the commands other than SEARCH and ABORT can do: they stand at program points
of their own, and STATE, LOCKED, ABORTED, BLIND_PHASE and the request snapshot stay as they are (10_state.md R36). -/

namespace Sys2Proof.Machine

/-- `t` is `s` up to the registers that the computations of the commands other than SEARCH write. -/
structure Quiet (s t : State) : Prop where
  eng : ∀ e, t.eng e = s.eng e
  bus : t.bus = s.bus
  mclk : t.glob.mclk = s.glob.mclk
  state : ∀ c, (t.chan c).state = (s.chan c).state
  blindPhase : ∀ c, (t.chan c).blindPhase = (s.chan c).blindPhase
  locked : ∀ c, (t.chan c).locked = (s.chan c).locked
  aborted : ∀ c, (t.chan c).aborted = (s.chan c).aborted
  abortReq : ∀ c, (t.chan c).abortReq = (s.chan c).abortReq
  req : ∀ c, (t.chan c).req = (s.chan c).req
  mirror : ∀ c, (s.chan c).stoppedMirror = (s.chan c).ldpcStopped → (t.chan c).stoppedMirror = (t.chan c).ldpcStopped
  mask : ∀ c, ((s.chan c).ldpcStopped = true → (s.chan c).modcodeMask = 0) →
    (t.chan c).ldpcStopped = true → (t.chan c).modcodeMask = 0

theorem Quiet.refl (s : State) : Quiet s s :=
  ⟨fun _ => rfl, rfl, rfl, fun _ => rfl, fun _ => rfl, fun _ => rfl, fun _ => rfl, fun _ => rfl, fun _ => rfl,
    fun _ => id, fun _ => id⟩

theorem Quiet.trans {s t u : State} (h : Quiet s t) (k : Quiet t u) : Quiet s u :=
  ⟨fun e => (k.eng e).trans (h.eng e), k.bus.trans h.bus, k.mclk.trans h.mclk, fun c => (k.state c).trans (h.state c),
    fun c => (k.blindPhase c).trans (h.blindPhase c), fun c => (k.locked c).trans (h.locked c),
    fun c => (k.aborted c).trans (h.aborted c), fun c => (k.abortReq c).trans (h.abortReq c),
    fun c => (k.req c).trans (h.req c), fun c x => k.mirror c (h.mirror c x), fun c x => k.mask c (h.mask c x)⟩

/-- A function on a channel bank that writes none of the registers `Quiet` names. -/
structure QuietChan (f : Channel → Channel) : Prop where
  eng : ∀ ch, (f ch).eng = ch.eng
  state : ∀ ch, (f ch).state = ch.state
  blindPhase : ∀ ch, (f ch).blindPhase = ch.blindPhase
  locked : ∀ ch, (f ch).locked = ch.locked
  aborted : ∀ ch, (f ch).aborted = ch.aborted
  abortReq : ∀ ch, (f ch).abortReq = ch.abortReq
  req : ∀ ch, (f ch).req = ch.req
  mirror : ∀ ch, ch.stoppedMirror = ch.ldpcStopped → (f ch).stoppedMirror = (f ch).ldpcStopped
  mask : ∀ ch, (ch.ldpcStopped = true → ch.modcodeMask = 0) → (f ch).ldpcStopped = true → (f ch).modcodeMask = 0

theorem quiet_updChan (s : State) (c : Chan) {f : Channel → Channel} (h : QuietChan f) : Quiet s (s.updChan c f) := by
  have key : ∀ {α : Type} (g : Channel → α), (∀ ch, g (f ch) = g ch) → ∀ d, g ((s.updChan c f).chan d) = g (s.chan d) := by
    intro α g hg d
    by_cases hd : d = c
    · subst hd
      simp [hg]
    · rw [State.updChan_chan_other s f hd]
  refine ⟨fun e => ?_, by simp, by simp, key _ h.state, key _ h.blindPhase, key _ h.locked, key _ h.aborted,
    key _ h.abortReq, key _ h.req, fun d x => ?_, fun d x => ?_⟩
  · cases e with
    | global => simp
    | chan d => exact key (·.eng) h.eng d
  · by_cases hd : d = c
    · subst hd
      simpa using h.mirror _ x
    · rw [State.updChan_chan_other s f hd]
      exact x
  · by_cases hd : d = c
    · subst hd
      simpa using h.mask _ x
    · rw [State.updChan_chan_other s f hd]
      exact x

theorem quiet_updGlob (s : State) {f : Global → Global} (he : ∀ g, (f g).eng = g.eng) (hm : ∀ g, (f g).mclk = g.mclk) :
    Quiet s (s.updGlob f) := by
  refine ⟨fun e => ?_, rfl, hm _, fun c => ?_, fun c => ?_, fun c => ?_, fun c => ?_, fun c => ?_, fun c => ?_,
    fun c x => ?_, fun c x => ?_⟩
  · cases e with
    | global => exact he _
    | chan c => simp
  iterate 6 simp
  · simpa using x
  · exact fun hx => by simpa using x (by simpa using hx)

theorem quietChan_modcodesWritten_on (mask : Word) : QuietChan (Channel.modcodesWritten false mask) := by
  constructor <;> simp [Channel.modcodesWritten]

/-- A flow of the command `i` from `s`: on to one of its own program points, or to its end. -/
def QuietFlow (i : Instr) (s : State) : Flow → Prop
  | .go t _ _ k => Quiet s t ∧ ownsPoint i k = true
  | .done t _ => Quiet s t
  | .stray => True

/-- A computation that ends the command after a write of quiet registers of one channel. -/
theorem quietFlow_done (i : Instr) (s : State) (c : Chan) {f : Channel → Channel} (code : CmdResult) (h : QuietChan f) :
    QuietFlow i s (.done (s.updChan c f) code) := quiet_updChan s c h

theorem quietFlow_go (i : Instr) (s : State) (first : Op) (rest : List Op) {k : Kont} (h : ownsPoint i k = true) :
    QuietFlow i s (.go s first rest k) := ⟨Quiet.refl s, h⟩

/-- The entry of every command but SEARCH. -/
theorem entry_quiet (cfg : Cfg) {i : Instr} (h : isSearch i = false) (s : State) :
    QuietFlow i s ((ruleOf cfg i).entry s) := by
  cases i with
  | search c => simp [isSearch] at h
  | abort c => trivial
  | init => exact quietFlow_go _ _ _ _ rfl
  | term => exact quietFlow_go _ _ _ _ rfl
  | standby enter => cases enter <;> exact quietFlow_go _ _ _ _ rfl
  | setLdpcMode dual => exact quietFlow_go _ _ _ _ rfl
  | unlock c => exact quietFlow_go _ _ _ _ rfl
  | ldpcMonitor c => exact quietFlow_go _ _ _ _ rfl
  | getRfLevel c => exact quietFlow_go _ _ _ _ rfl
  | interp c t =>
    simp only [ruleOf, interpProgram, plainProgram]
    split
    · exact quietFlow_done _ _ _ _ (by constructor <;> simp)
    · trivial
  | interp2 c t u =>
    simp only [ruleOf, interp2Program, plainProgram]
    split
    · exact quietFlow_done _ _ _ _ (by constructor <;> simp)
    · trivial
  | getCn c =>
    simp only [ruleOf, getCnProgram, plainProgram]
    split
    · exact quietFlow_go _ _ _ _ rfl
    · exact quietFlow_done _ _ _ _ (by constructor <;> simp)
  | carrierOffset c dev =>
    simp only [ruleOf, carrierOffsetProgram, decodeProgram, plainProgram]
    split
    · exact quietFlow_go _ _ _ _ rfl
    · exact quietFlow_done _ _ _ _ (by constructor <;> simp)
  | symbolRate c dev =>
    simp only [ruleOf, symbolRateProgram, decodeProgram, plainProgram]
    split
    · exact quietFlow_go _ _ _ _ rfl
    · exact quietFlow_done _ _ _ _ (by constructor <;> simp)
  | timingOffset c dev =>
    simp only [ruleOf, timingOffsetProgram, decodeProgram, plainProgram]
    split
    · exact quietFlow_go _ _ _ _ rfl
    · exact quietFlow_done _ _ _ _ (by constructor <;> simp)
  | encSymbolRate c => exact quietFlow_done _ _ _ _ (by constructor <;> simp)
  | selectStandard c wr =>
    simp only [ruleOf, selectStandardProgram, plainProgram]
    split
    · exact Quiet.refl s
    split
    · exact quietFlow_go _ _ _ _ rfl
    · exact quietFlow_done _ _ _ _ (by constructor <;> simp)
  | computeTimeouts c algo =>
    simp only [ruleOf, computeTimeoutsProgram, plainProgram]
    split
    · exact quietFlow_done _ _ _ _ (by constructor <;> simp)
    · trivial
  | selectClg c wr =>
    simp only [ruleOf, selectClgProgram, plainProgram]
    split
    · exact quietFlow_go _ _ _ _ rfl
    · exact quietFlow_done _ _ _ _ (by constructor <;> simp)
  | getSignalInfo c =>
    simp only [ruleOf, getSignalInfoProgram, plainProgram]
    split
    · exact quietFlow_go _ _ _ _ rfl
    · exact quietFlow_done _ _ _ _ (by constructor <;> simp [infoSentinels])
  | getPer c =>
    simp only [ruleOf, getPerProgram, plainProgram]
    split
    · exact quietFlow_go _ _ _ _ rfl
    · exact quietFlow_done _ _ _ _ (by constructor <;> simp [perWritten])

theorem infoFinish_quiet (cfg : Cfg) (c : Chan) (p : InfoLocals) (cn : Int) (s : State) :
    QuietFlow (.getSignalInfo c) s (infoFinish cfg c p cn s) := by
  unfold infoFinish
  split
  · exact quietFlow_go _ _ _ _ rfl
  · exact quietFlow_done _ _ _ _ (by constructor <;> simp [infoWritten])

theorem infoMeasure_quiet (cfg : Cfg) (c : Chan) (p : InfoLocals) (s : State) :
    QuietFlow (.getSignalInfo c) s (infoMeasure cfg c p s) := by
  unfold infoMeasure
  split
  · exact quietFlow_go _ _ _ _ rfl
  · exact infoFinish_quiet cfg c p 0 s

/-- The computations of GET_SIGNAL_INFO between its transactions. -/
theorem infoResume_quiet (cfg : Cfg) (c : Chan) (k : Kont) (got : List Int) (s : State) :
    QuietFlow (.getSignalInfo c) s (infoResume cfg c k got s) := by
  unfold infoResume
  split
  · exact quietFlow_go _ _ _ _ rfl
  · exact quietFlow_go _ _ _ _ rfl
  · exact quietFlow_go _ _ _ _ rfl
  · split
    · exact quietFlow_go _ _ _ _ rfl
    · exact infoMeasure_quiet cfg c _ s
  · exact infoMeasure_quiet cfg c _ s
  · exact quietFlow_go _ _ _ _ rfl
  · exact infoFinish_quiet cfg c _ _ s
  · exact quietFlow_done _ _ _ _ (by constructor <;> simp [infoWritten])
  · trivial

/-- The final step of INIT. -/
theorem initWritten_quiet (cfg : Cfg) (id : BitVec 8) (lna : Bool) (s : State) : Quiet s (initWritten cfg id lna s) := by
  unfold initWritten State.updBoth
  refine Quiet.trans (Quiet.trans (quiet_updGlob s ?_ ?_) (quiet_updChan _ .a ?_)) (quiet_updChan _ .b ?_)
  · exact fun _ => rfl
  · exact fun _ => rfl
  · exact quietChan_modcodesWritten_on _
  · exact quietChan_modcodesWritten_on _

/-- Every later computation of every command but SEARCH. -/
theorem resume_quiet (cfg : Cfg) {i : Instr} (h : isSearch i = false) (k : Kont) (got : List Int) (s : State) :
    QuietFlow i s ((ruleOf cfg i).resume k got s) := by
  cases i with
  | search c => simp [isSearch] at h
  | abort c => trivial
  | init =>
    simp only [ruleOf, initProgram, plainProgram]
    split
    · exact quietFlow_go _ _ _ _ rfl
    · exact initWritten_quiet cfg _ _ s
    · trivial
  | term =>
    simp only [ruleOf, termProgram, plainProgram]
    split
    · exact quiet_updGlob s (fun _ => rfl) fun _ => rfl
    · trivial
  | standby enter =>
    simp only [ruleOf, standbyProgram, plainProgram]
    split
    · exact quiet_updGlob s (fun _ => rfl) fun _ => rfl
    · trivial
  | setLdpcMode dual =>
    simp only [ruleOf, setLdpcModeProgram, plainProgram]
    split
    · exact quiet_updGlob s (fun _ => rfl) fun _ => rfl
    · trivial
  | unlock c =>
    simp only [ruleOf, unlockProgram, plainProgram]
    split
    · exact Quiet.refl s
    · trivial
  | ldpcMonitor c =>
    simp only [ruleOf, ldpcMonitorProgram, plainProgram]
    split
    · split
      · exact ⟨quiet_updChan s c (by constructor <;> simp), rfl⟩
      split
      · exact ⟨quiet_updChan s c (by constructor <;> simp), rfl⟩
      · exact (quiet_updChan s c (by constructor <;> simp)).trans (quiet_updChan _ c (by constructor <;> simp))
    · exact quietFlow_done _ _ _ _ (by constructor <;> simp [Channel.modcodesWritten])
    · exact quietFlow_done _ _ _ _ (by constructor <;> simp [Channel.modcodesWritten])
    · trivial
  | getRfLevel c =>
    simp only [ruleOf, getRfLevelProgram, plainProgram]
    split
    · split
      · exact quietFlow_go _ _ _ _ rfl
      · exact quietFlow_done _ _ _ _ (by constructor <;> simp)
    · exact quietFlow_done _ _ _ _ (by constructor <;> simp)
    · trivial
  | interp c t => trivial
  | interp2 c t u => trivial
  | getCn c =>
    simp only [ruleOf, getCnProgram, plainProgram]
    split
    · exact quietFlow_go _ _ _ _ rfl
    · exact quietFlow_done _ _ _ _ (by constructor <;> simp)
    · trivial
  | carrierOffset c dev =>
    simp only [ruleOf, carrierOffsetProgram, decodeProgram, plainProgram]
    split
    · exact quietFlow_done _ _ _ _ (by constructor <;> simp)
    · trivial
  | symbolRate c dev =>
    simp only [ruleOf, symbolRateProgram, decodeProgram, plainProgram]
    split
    · exact quietFlow_done _ _ _ _ (by constructor <;> simp)
    · trivial
  | timingOffset c dev =>
    simp only [ruleOf, timingOffsetProgram, decodeProgram, plainProgram]
    split
    · exact quietFlow_done _ _ _ _ (by constructor <;> simp)
    · trivial
  | encSymbolRate c => trivial
  | selectStandard c wr =>
    simp only [ruleOf, selectStandardProgram, plainProgram]
    split
    · exact quietFlow_done _ _ _ _ (by constructor <;> simp)
    · trivial
  | computeTimeouts c algo => trivial
  | selectClg c wr =>
    simp only [ruleOf, selectClgProgram, plainProgram]
    split
    · exact quietFlow_done _ _ _ _ (by constructor <;> simp)
    · trivial
  | getSignalInfo c => exact infoResume_quiet cfg c k got s
  | getPer c =>
    simp only [ruleOf, getPerProgram, plainProgram]
    split
    · exact quietFlow_done _ _ _ _ (by constructor <;> simp [perWritten])
    · trivial

/-- A command other than SEARCH has no abort point and writes no register on a BusError (43_search_fsm.md R203,
60_exceptions.md R341). -/
theorem ruleOf_plain (cfg : Cfg) {i : Instr} (h : isSearch i = false) (s : State) :
    (ruleOf cfg i).aborting s = false ∧ (ruleOf cfg i).onBusError s = s ∧ (ruleOf cfg i).onAbort s = s := by
  cases i <;> first | exact ⟨rfl, rfl, rfl⟩ | simp [isSearch] at h

end Sys2Proof.Machine
end

