-- ==== Sys2Proof/Laws/Decode.lean ====
section
/-! SUPPORT. The fields of an encoded command: what the decoder reads back from `encode i` (30_encoding.md R100). -/

namespace Sys2Proof

/-- The OPCODE field of a command's word. -/
@[simp] theorem opcodeOf_encode (i : Instr) : opcodeOf (encode i) = i.opcode := by
  apply BitVec.eq_of_getLsbD_eq
  intro k hk
  simp only [opcodeOf, encode, BitVec.getLsbD_extractLsb', BitVec.getLsbD_append, hk, Nat.zero_add, decide_true,
    Bool.true_and, if_true]

/-- The SUB field of a command's word. -/
@[simp] theorem subOf_encode (i : Instr) : subOf (encode i) = i.sub := by
  apply BitVec.eq_of_getLsbD_eq
  intro k hk
  simp only [subOf, encode, BitVec.getLsbD_extractLsb', BitVec.getLsbD_append, hk, decide_true, Bool.true_and,
    show ¬ 8 + k < 8 by omega, show 8 + k - 8 = k by omega, if_true, if_false]

/-- The RSV field of a command's word is 0. -/
@[simp] theorem rsvOf_encode (i : Instr) : rsvOf (encode i) = 0 := by
  apply BitVec.eq_of_getLsbD_eq
  intro k hk
  simp only [rsvOf, encode, BitVec.getLsbD_extractLsb', BitVec.getLsbD_append, hk, decide_true, Bool.true_and,
    show ¬ 11 + k < 8 by omega, show ¬ 11 + k - 8 < 3 by omega, show 11 + k - 8 - 3 < 5 by omega, if_true, if_false]
  simp

/-- The IMM16 field of a command's word. -/
@[simp] theorem immOf_encode (i : Instr) : immOf (encode i) = i.imm := by
  apply BitVec.eq_of_getLsbD_eq
  intro k hk
  simp only [immOf, encode, BitVec.getLsbD_extractLsb', BitVec.getLsbD_append, hk, decide_true, Bool.true_and,
    show ¬ 16 + k < 8 by omega, show ¬ 16 + k - 8 < 3 by omega, show ¬ 16 + k - 8 - 3 < 5 by omega,
    show 16 + k - 8 - 3 - 5 = k by omega, if_false]

/-- SUB[0] of a field that holds one flag. -/
@[simp] theorem getLsbD_ofBool_setWidth (b : Bool) : ((BitVec.ofBool b).setWidth 3).getLsbD 0 = b := by cases b <;> rfl

end Sys2Proof
end

