-- ==== Sys2Proof/Laws/Invariant.lean ====
section
/-! SUPPORT. The small lemmas of the invariant: what it reads, and which changes keep it. -/

namespace Sys2Proof.Machine

/-- The program point of a running SEARCH. -/
def searchRun : Option Run → Option Point
  | some ⟨.search _, p⟩ => some p
  | _ => none

/-- The channel invariant, its last part by the running SEARCH if there is one. -/
theorem channelInv_iff (ch : Channel) : ChannelInv ch ↔
    ((ch.locked = true ↔ ch.state = .tracking) ∧ ch.stoppedMirror = ch.ldpcStopped ∧
    (ch.ldpcStopped = true → ch.modcodeMask = 0)) ∧
    (match searchRun ch.eng.run with | some p => ch.aborted = false ∧ SearchInv ch p | none => ch.state.transient = false ∧ ch.blindPhase = .none) := by
  unfold ChannelInv searchRun
  rcases ch.eng.run with _ | ⟨i, p⟩
  · simp [and_assoc]
  · cases i <;> simp [and_assoc]

/-- A channel keeps the invariant when the registers it reads and its running SEARCH stay as they are. -/
theorem channelInv_same {ch ch' : Channel} (h : ChannelInv ch) (hst : ch'.state = ch.state) (hb : ch'.blindPhase = ch.blindPhase)
    (hl : ch'.locked = ch.locked) (ha : ch'.aborted = ch.aborted) (hr : ch'.req = ch.req)
    (hm : ch.stoppedMirror = ch.ldpcStopped → ch'.stoppedMirror = ch'.ldpcStopped)
    (hk : (ch.ldpcStopped = true → ch.modcodeMask = 0) → ch'.ldpcStopped = true → ch'.modcodeMask = 0)
    (hs : searchRun ch'.eng.run = searchRun ch.eng.run) : ChannelInv ch' := by
  rw [channelInv_iff] at *
  obtain ⟨⟨h1, h2, h3⟩, h4⟩ := h
  rw [hs, hl, hst, hb, ha]
  refine ⟨⟨h1, hm h2, hk h3⟩, ?_⟩
  revert h4
  cases searchRun ch.eng.run with
  | none => exact id
  | some p =>
    cases p with
    | start => simp [SearchInv, hst, hb]
    | before now rest got k => cases k <;> simp [SearchInv, hst, hr]

/-- The invariant, engine by engine and channel by channel. -/
theorem inv_iff (s : State) : Inv s ↔ (∀ e, EngineInv e (s.eng e)) ∧ ∀ c, ChannelInv (s.chan c) := by
  constructor
  · rintro ⟨h1, h2, h3, h4, h5⟩
    refine ⟨fun e => ?_, fun c => ?_⟩
    · rcases e with _ | c
      · exact h1
      · cases c
        · exact h2
        · exact h3
    · cases c
      · exact h4
      · exact h5
  · rintro ⟨h, k⟩
    exact ⟨h .global, h (.chan .a), h (.chan .b), k .a, k .b⟩

theorem inv_advance {s : State} (h : Inv s) : Inv s.advance := h

/-- The invariant is kept when no channel changes what its invariant reads, and every engine keeps its own. -/
theorem inv_of {s t : State} (h : Inv s)
    (he : ∀ e, EngineInv e (t.eng e))
    (hst : ∀ c, (t.chan c).state = (s.chan c).state) (hb : ∀ c, (t.chan c).blindPhase = (s.chan c).blindPhase)
    (hl : ∀ c, (t.chan c).locked = (s.chan c).locked) (ha : ∀ c, (t.chan c).aborted = (s.chan c).aborted)
    (hr : ∀ c, (t.chan c).req = (s.chan c).req)
    (hm : ∀ c, (s.chan c).stoppedMirror = (s.chan c).ldpcStopped → (t.chan c).stoppedMirror = (t.chan c).ldpcStopped)
    (hk : ∀ c, ((s.chan c).ldpcStopped = true → (s.chan c).modcodeMask = 0) → (t.chan c).ldpcStopped = true → (t.chan c).modcodeMask = 0)
    (hs : ∀ c, searchRun (t.chan c).eng.run = searchRun (s.chan c).eng.run) : Inv t := by
  rw [inv_iff] at *
  exact ⟨he, fun c => channelInv_same (h.2 c) (hst c) (hb c) (hl c) (ha c) (hr c) (hm c) (hk c) (hs c)⟩

/-- A quiet change keeps the invariant. -/
theorem inv_quiet {s t : State} (h : Inv s) (q : Quiet s t) : Inv t := by
  refine inv_of h (fun e => ?_) q.state q.blindPhase q.locked q.aborted q.req q.mirror q.mask (fun c => ?_)
  · rw [q.eng]; exact ((inv_iff s).1 h).1 e
  · have := q.eng (.chan c); simp at this; rw [this]

/-- Changing an engine changes nothing else of a channel. -/
theorem chan_updEng (s : State) (e : Bank) (f : Engine → Engine) (c : Chan) :
    (s.updEng e f).chan c = { s.chan c with eng := (s.updEng e f).eng (.chan c) } := by
  cases e with
  | global => simp
  | chan d =>
    by_cases h : c = d
    · subst h; simp
    · simp [State.updEng_chan_chan_other s f h]

/-- Changing an engine keeps the invariant when its own is kept and its running SEARCH stays at its point. -/
theorem inv_updEng {s : State} {e : Bank} {f : Engine → Engine} (h : Inv s) (he : EngineInv e (f (s.eng e)))
    (hs : searchRun (f (s.eng e)).run = searchRun (s.eng e).run) : Inv (s.updEng e f) := by
  refine inv_of h (fun d => ?_) ?_ ?_ ?_ ?_ ?_ (fun c => ?_) (fun c => ?_) (fun c => ?_)
  · by_cases hd : d = e
    · subst hd; simpa using he
    · rw [State.updEng_eng_other s f hd]; exact ((inv_iff s).1 h).1 d
  iterate 5 (intro c; rw [chan_updEng])
  · rw [chan_updEng]; exact id
  · rw [chan_updEng]; exact id
  · rw [chan_updEng]
    by_cases hd : Bank.chan c = e
    · subst hd; simpa using hs
    · simp only [State.updEng_eng_other s f hd, State.eng_chan]

/-- A primitive that went through keeps the invariant. -/
theorem inv_moved {i : Instr} {s t : State} (h : Inv s) (m : Moved i s t) : Inv t := by
  rcases m with ⟨q, v, ok, rfl⟩ | ⟨ms, rfl⟩
  · exact h
  · refine inv_updEng h ?_ rfl
    exact ((inv_iff s).1 h).1 i.bank

/-- A primitive that went through leaves every engine at its program point. -/
theorem running_moved {i : Instr} {s t : State} (m : Moved i s t) (e : Bank) : (t.eng e).run = (s.eng e).run := by
  rcases m with ⟨q, v, ok, rfl⟩ | ⟨ms, rfl⟩
  · simp
  · by_cases h : e = i.bank
    · subst h; simp
    · unfold slept; rw [State.updEng_eng_other s _ h]

/-- A primitive that went through changes a channel in its engine's elapsed time at most. -/
theorem moved_chan {i : Instr} {s t : State} (m : Moved i s t) (c : Chan) : ∃ g : Engine, g.run = (s.chan c).eng.run ∧ t.chan c = { s.chan c with eng := g } := by
  rcases m with ⟨q, v, ok, rfl⟩ | ⟨ms, rfl⟩
  · exact ⟨_, rfl, by simp⟩
  · refine ⟨_, ?_, chan_updEng s i.bank _ c⟩
    have := running_moved (i := i) (s := s) (.inr ⟨ms, rfl⟩) (.chan c)
    exact this

end Sys2Proof.Machine
end

