-- ==== Sys2Proof/Laws/Lookup.lean ====
section
/-! SUPPORT. The calibration tables as functions of the index (40_lookup.md R142, R145). -/

namespace Sys2Proof.Machine

theorem between_iff (a x b : Int) : between a x b = true ↔ (a ≤ x ∧ x ≤ b) ∨ (b ≤ x ∧ x ≤ a) := by simp [between]

/-- The raw values rise strictly, or fall strictly (R145). -/
theorem rawAt_strict (t : CalTable) :
    (∀ i j, i < j → j < t.points.length → rawAt t i < rawAt t j) ∨
      ∀ i j, i < j → j < t.points.length → rawAt t j < rawAt t i := by
  have at_ : ∀ k, ∀ h : k < t.points.length, rawAt t k = (t.points[k].raw.toNat : Int) := by
    intro k h
    simp [rawAt, uval, List.getD_eq_getElem?_getD, h]
  have h := t.monotonic
  simp only [strictlyMonotonic, Bool.or_eq_true, decide_eq_true_eq] at h
  refine h.imp (fun h i j hij hj => ?_) fun h i j hij hj => ?_
  all_goals
    have := List.pairwise_iff_getElem.1 h i j (by omega) hj hij
    rw [at_ i (by omega), at_ j hj]
    omega

/-- The interpolation on an interval is exact at its left end. -/
theorem lerp_left (t : CalTable) (i j : Nat) : lerp t (rawAt t i) i j = physAt t i := by simp [lerp, truncDiv]

/-- The interpolation on an interval is exact at its right end. -/
theorem lerp_right (t : CalTable) {i j : Nat} (h : rawAt t j ≠ rawAt t i) : lerp t (rawAt t j) i j = physAt t j := by
  have hne : rawAt t j - rawAt t i ≠ 0 := by omega
  rw [lerp, truncDiv, Int.mul_tdiv_cancel_left _ hne]
  omega

end Sys2Proof.Machine
end

