-- ==== Sys2Proof/Laws/PerInstr.lean ====
section
/-! SUPPORT. One statement about each command as syntax, proved command by command: its word is assembled of its four
fields, and no other bit of it is 1 (30_encoding.md R100 to R103). -/

namespace Sys2Proof.Laws

/-- The fields of the command's word read back as the command's opcode, SUB and IMM16, RSV reads 0, and the opcode is
one of the map of the command's bank: global opcodes are below 0x10, channel opcodes are not. -/
def EncodedFields.Statement (i : Instr) : Prop :=
  (opcodeOf (encode i) = i.opcode ∧ subOf (encode i) = i.sub ∧ rsvOf (encode i) = 0 ∧ immOf (encode i) = i.imm) ∧
    (i.bank = .global ↔ i.opcode.toNat < 0x10)

/-- The part of the statement that is the same for every command. -/
theorem EncodedFields.of_bank {i : Instr} (h : i.bank = .global ↔ i.opcode.toNat < 0x10) : EncodedFields.Statement i :=
  ⟨⟨opcodeOf_encode i, subOf_encode i, rsvOf_encode i, immOf_encode i⟩, h⟩

theorem EncodedFields.init : EncodedFields.Statement .init :=
  EncodedFields.of_bank (by simp [Instr.bank, Instr.opcode])

theorem EncodedFields.term : EncodedFields.Statement .term :=
  EncodedFields.of_bank (by simp [Instr.bank, Instr.opcode])

theorem EncodedFields.standby (enter : Bool) : EncodedFields.Statement (.standby enter) :=
  EncodedFields.of_bank (by simp [Instr.bank, Instr.opcode])

theorem EncodedFields.setLdpcMode (dual : Bool) : EncodedFields.Statement (.setLdpcMode dual) :=
  EncodedFields.of_bank (by simp [Instr.bank, Instr.opcode])

theorem EncodedFields.interp (c : Chan) (t : BitVec 3) : EncodedFields.Statement (.interp c t) :=
  EncodedFields.of_bank (by simp [Instr.bank, Instr.opcode])

theorem EncodedFields.interp2 (c : Chan) (t u : BitVec 3) : EncodedFields.Statement (.interp2 c t u) :=
  EncodedFields.of_bank (by simp [Instr.bank, Instr.opcode])

theorem EncodedFields.getRfLevel (c : Chan) : EncodedFields.Statement (.getRfLevel c) :=
  EncodedFields.of_bank (by simp [Instr.bank, Instr.opcode])

theorem EncodedFields.getCn (c : Chan) : EncodedFields.Statement (.getCn c) :=
  EncodedFields.of_bank (by simp [Instr.bank, Instr.opcode])

theorem EncodedFields.carrierOffset (c : Chan) (dev : Bool) : EncodedFields.Statement (.carrierOffset c dev) :=
  EncodedFields.of_bank (by simp [Instr.bank, Instr.opcode])

theorem EncodedFields.symbolRate (c : Chan) (dev : Bool) : EncodedFields.Statement (.symbolRate c dev) :=
  EncodedFields.of_bank (by simp [Instr.bank, Instr.opcode])

theorem EncodedFields.timingOffset (c : Chan) (dev : Bool) : EncodedFields.Statement (.timingOffset c dev) :=
  EncodedFields.of_bank (by simp [Instr.bank, Instr.opcode])

theorem EncodedFields.encSymbolRate (c : Chan) : EncodedFields.Statement (.encSymbolRate c) :=
  EncodedFields.of_bank (by simp [Instr.bank, Instr.opcode])

theorem EncodedFields.selectStandard (c : Chan) (wr : Bool) : EncodedFields.Statement (.selectStandard c wr) :=
  EncodedFields.of_bank (by simp [Instr.bank, Instr.opcode])

theorem EncodedFields.computeTimeouts (c : Chan) (algo : BitVec 2) : EncodedFields.Statement (.computeTimeouts c algo) :=
  EncodedFields.of_bank (by simp [Instr.bank, Instr.opcode])

theorem EncodedFields.selectClg (c : Chan) (wr : Bool) : EncodedFields.Statement (.selectClg c wr) :=
  EncodedFields.of_bank (by simp [Instr.bank, Instr.opcode])

theorem EncodedFields.search (c : Chan) : EncodedFields.Statement (.search c) :=
  EncodedFields.of_bank (by simp [Instr.bank, Instr.opcode])

theorem EncodedFields.abort (c : Chan) : EncodedFields.Statement (.abort c) :=
  EncodedFields.of_bank (by simp [Instr.bank, Instr.opcode])

theorem EncodedFields.unlock (c : Chan) : EncodedFields.Statement (.unlock c) :=
  EncodedFields.of_bank (by simp [Instr.bank, Instr.opcode])

theorem EncodedFields.getSignalInfo (c : Chan) : EncodedFields.Statement (.getSignalInfo c) :=
  EncodedFields.of_bank (by simp [Instr.bank, Instr.opcode])

theorem EncodedFields.getPer (c : Chan) : EncodedFields.Statement (.getPer c) :=
  EncodedFields.of_bank (by simp [Instr.bank, Instr.opcode])

theorem EncodedFields.ldpcMonitor (c : Chan) : EncodedFields.Statement (.ldpcMonitor c) :=
  EncodedFields.of_bank (by simp [Instr.bank, Instr.opcode])

end Sys2Proof.Laws
end

