-- ==== Sys2Proof/Laws/Run.lean ====
section
/-! SUPPORT. Running a command step by step: an engine's step as a step of the machine, several steps, what one
transaction of a running command comes to, the end of a SEARCH attempt, and the layout of RSL_PARAMS. -/

namespace Sys2Proof.Machine

/-- A command that runs takes one engine step of its rule. -/
theorem exec_of_runs {i : Instr} {s t : State} {ans : Answer} {p : Point} (h : Runs s i p ans) (hi : isAbort i = false)
    (ht : engineStep Config.cfg (ruleOf Config.cfg i) i ans p s = some t) : exec i s = .next t :=
  exec_running hi h.1 h.2 ht

/-- The step of an engine's turn, when the engine runs `i` at `p`. -/
theorem step_of_engine {s t : State} {i : Instr} {p : Point} {ans : Answer} {rest : List Turn} (hi : isAbort i = false)
    (hs : s.turns = .engine i.bank ans :: rest) (hr : s.running i.bank = some ⟨i, p⟩)
    (ht : engineStep Config.cfg (ruleOf Config.cfg i) i ans p s = some t) : step s = .next t.advance := by
  have hn : s.now = .engine i.bank ans := State.now_cons s hs
  simp only [step, takeTurn, hn, hr, exec_running hi hn hr ht]

@[simp] theorem steps_zero (s : State) : steps 0 s = .next s := rfl

theorem steps_succ {n : Nat} {s t : State} (h : step s = .next t) : steps (n + 1) s = steps n t := by
  simp only [steps, h]

theorem steps_add {m n : Nat} {s t : State} (h : steps m s = .next t) : steps (m + n) s = steps n t := by
  induction m generalizing s with
  | zero => simp only [steps, Host.Outcome.next.injEq] at h; rw [Nat.zero_add, h]
  | succ m ih =>
    cases hs : step s with
    | next u =>
      rw [steps_succ hs] at h
      rw [show m + 1 + n = (m + n) + 1 by omega, steps_succ hs, ih h]
    | fault r => simp [steps, hs] at h
    | refused r => simp [steps, hs] at h

/-- A transaction that succeeds and returns `w`: it is recorded, and the straight line goes on. -/
theorem perform_read {cfg : Cfg} {p : Program} {i : Instr} {v w : Int} {q : Prim} {rest : List Op} {got : List Int}
    {k : Kont} {s : State} (hq : ∀ ms, q ≠ .sleep ms) (hv : q.value v = some w) :
    perform cfg p i ⟨false, v⟩ q rest got k s = proceed cfg p i rest (got ++ [w]) k (logged i.bank q w true s) := by
  simp only [perform, transact, raises, Bool.false_and, Bool.false_eq_true, if_false, hv]

/-- A transaction that succeeds and returns nothing. -/
theorem perform_write {cfg : Cfg} {p : Program} {i : Instr} {v : Int} {q : Prim} {rest : List Op} {got : List Int}
    {k : Kont} {s : State} (hq : ∀ ms, q ≠ .sleep ms) (hv : q.value v = none) :
    perform cfg p i ⟨false, v⟩ q rest got k s = proceed cfg p i rest got k (logged i.bank q 0 true s) := by
  simp only [perform, transact, raises, Bool.false_and, Bool.false_eq_true, if_false, hv]

/-- A transaction that fails ends the command. -/
theorem perform_fails {cfg : Cfg} {p : Program} {i : Instr} {v : Int} {q : Prim} {rest : List Op} {got : List Int}
    {k : Kont} {s : State} (hq : ∀ ms, q ≠ .sleep ms) (hl : q ≠ .lnaProbe) :
    perform cfg p i ⟨true, v⟩ q rest got k s =
      some (complete i .busError (p.onBusError (logged i.bank q 0 false s))) := by
  have hr : raises q ⟨true, v⟩ = true := by simp [raises, hl]
  simp only [perform, transact, hr, if_true]

/-- A step of a SEARCH that ends a straight line with a read. -/
theorem exec_search_read {s t : State} {c : Chan} {q : Prim} {got : List Int} {p : SearchPoint} {v w : Int}
    (h : Runs s (.search c) (.before q [] got (.search p)) ⟨false, v⟩) (hq : ∀ ms, q ≠ .sleep ms)
    (hv : q.value v = some w)
    (ht : settle Config.cfg (.search c)
      (searchResume Config.cfg c p (got ++ [w]) (logged (.chan c) q w true s)) = some t) :
    exec (.search c) s = .next t := by
  refine exec_of_runs h rfl ?_
  simp only [engineStep, perform_read hq hv, proceed]
  exact ht

/-- A step of a SEARCH that ends a straight line with a write. -/
theorem exec_search_write {s t : State} {c : Chan} {q : Prim} {got : List Int} {p : SearchPoint} {v : Int}
    (h : Runs s (.search c) (.before q [] got (.search p)) ⟨false, v⟩) (hq : ∀ ms, q ≠ .sleep ms)
    (hv : q.value v = none)
    (ht : settle Config.cfg (.search c) (searchResume Config.cfg c p got (logged (.chan c) q 0 true s)) = some t) :
    exec (.search c) s = .next t := by
  refine exec_of_runs h rfl ?_
  simp only [engineStep, perform_write hq hv, proceed]
  exact ht

/-- A step of a SEARCH that ends a straight line with a Sleep, with no abort requested. -/
theorem exec_search_sleep {s t : State} {c : Chan} {ms : Nat} {got : List Int} {p : SearchPoint} {ans : Answer}
    (h : Runs s (.search c) (.before (.sleep ms) [] got (.search p)) ans) (ha : (s.chan c).abortReq = false)
    (ht : settle Config.cfg (.search c) (searchResume Config.cfg c p got (slept (.chan c) ms s)) = some t) :
    exec (.search c) s = .next t := by
  have hn : (ruleOf Config.cfg (.search c)).aborting s = false := ha
  refine exec_of_runs h rfl ?_
  simp only [engineStep, perform, hn, Bool.false_eq_true, if_false, proceed]
  exact ht

/-- The end of an attempt after a Sleep of the poll loop. -/
theorem settle_endAttempt_slept {c : Chan} {a : Attempt} {out : SearchState} {s : State} (hout : out ≠ .tracking) :
    settle Config.cfg (.search c) (endAttempt Config.cfg c a out (slept (.chan c) 10 s)) =
      some (attemptEnded c a out id 10 [] s) := by
  obtain ⟨_, _, _, _, _, _, _, _, st⟩ := a
  cases st <;> cases out <;> first | exact absurd rfl hout | (cases c <;> rfl)

/-- The end of an attempt in the step of a transaction, with registers written that are not the engine's. -/
theorem settle_endAttempt_logged {c : Chan} {a : Attempt} {out : SearchState} {s : State} {q : Prim} {w : Int}
    {f : Channel → Channel} (hout : out ≠ .tracking) (hf : ∀ ch, (f ch).eng = ch.eng) :
    settle Config.cfg (.search c) (endAttempt Config.cfg c a out ((logged (.chan c) q w true s).updChan c f)) =
      some (attemptEnded c a out f 0 [⟨.chan c, q.delivered, w, true⟩] s) := by
  obtain ⟨_, _, _, _, _, _, _, _, st⟩ := a
  cases st <;> cases out <;>
    first
    | exact absurd rfl hout
    | (cases c <;>
        simp [endAttempt, finish, beginAttempt, settle, complete, attemptEnded, Channel.finished, logged, enter, atPoint,
          ended, standing, chanAfter, State.updChan, State.setChan, State.chan, State.updEng, Instr.bank, Instr.opcode,
          resolve, hf])

/-- RSL_PARAMS and TM_PARAMS as the code of R211 and R290 assembles them. -/
theorem Detected.params_eq (d : Detected) :
    d.params = d.std.setWidth 15 ||| (d.modcode.setWidth 15 <<< 2) ||| (d.pr.setWidth 15 <<< 7) |||
      (d.pilots.setWidth 15 <<< 10) ||| (d.frame.setWidth 15 <<< 11) ||| (d.rolloff.setWidth 15 <<< 12) |||
      (d.inversion.setWidth 15 <<< 14) := by
  unfold Detected.params
  apply BitVec.eq_of_getLsbD_eq
  intro k hk
  interval_cases k <;>
    simp (decide := true) only [BitVec.getLsbD_append, BitVec.getLsbD_or, BitVec.getLsbD_setWidth,
      BitVec.getLsbD_shiftLeft, Nat.reduceSub, if_true, if_false, decide_true, decide_false, Bool.true_and,
      Bool.false_and, Bool.or_false, Bool.not_true, Bool.not_false] <;>
    simp

end Sys2Proof.Machine
end

