-- ==== Sys2Proof/Laws/Search.lean ====
section
/-! SUPPORT. What the pure computations of a SEARCH can do: the edges of STATE, the program points they lead to, and
what they keep (43_search_fsm.md R224). -/

namespace Sys2Proof.Machine

/-! ## What a computation of SEARCH keeps -/

/-- `t` differs from `s` only in channel `c`, and there only in registers that a SEARCH writes as it runs; STATE,
BLIND_PHASE and the RSL registers are free. -/
structure Keeps (c : Chan) (s t : State) : Prop where
  glob : t.glob = s.glob
  bus : t.bus = s.bus
  others : ∀ d, d ≠ c → t.chan d = s.chan d
  eng : (t.chan c).eng = (s.chan c).eng
  req : (t.chan c).req = (s.chan c).req
  aborted : (t.chan c).aborted = (s.chan c).aborted
  abortReq : (t.chan c).abortReq = (s.chan c).abortReq
  locked : (t.chan c).locked = (s.chan c).locked
  mirror : (s.chan c).stoppedMirror = (s.chan c).ldpcStopped → (t.chan c).stoppedMirror = (t.chan c).ldpcStopped
  mask : ((s.chan c).ldpcStopped = true → (s.chan c).modcodeMask = 0) →
    (t.chan c).ldpcStopped = true → (t.chan c).modcodeMask = 0

theorem Keeps.refl (c : Chan) (s : State) : Keeps c s s :=
  ⟨rfl, rfl, fun _ _ => rfl, rfl, rfl, rfl, rfl, rfl, id, id⟩

theorem Keeps.trans {c : Chan} {s t u : State} (h : Keeps c s t) (k : Keeps c t u) : Keeps c s u :=
  ⟨k.glob.trans h.glob, k.bus.trans h.bus, fun d hd => (k.others d hd).trans (h.others d hd), k.eng.trans h.eng,
    k.req.trans h.req, k.aborted.trans h.aborted, k.abortReq.trans h.abortReq, k.locked.trans h.locked,
    fun x => k.mirror (h.mirror x), fun x => k.mask (h.mask x)⟩

theorem keeps_enter (c : Chan) (st : SearchState) (s : State) : Keeps c s (enter c st s) := by
  constructor <;> simp [enter]
  intro d hd
  exact State.updChan_chan_other s _ hd

theorem keeps_enterPhase (c : Chan) (ph : BlindPhase) (s : State) : Keeps c s (enterPhase c ph s) := by
  constructor <;> simp [enterPhase]
  intro d hd
  exact State.updChan_chan_other s _ hd

theorem keeps_resultWritten (c : Chan) (res : Readback) (s : State) : Keeps c s (s.updChan c (resultWritten res)) := by
  constructor <;> simp [resultWritten]
  intro d hd
  exact State.updChan_chan_other s _ hd

theorem keeps_modcodesWritten (c : Chan) (mask : Word) (s : State) :
    Keeps c s (s.updChan c (Channel.modcodesWritten false mask)) := by
  constructor <;> simp [Channel.modcodesWritten]
  intro d hd
  exact State.updChan_chan_other s _ hd

@[simp] theorem enter_state (c : Chan) (st : SearchState) (s : State) : ((enter c st s).chan c).state = st := by
  simp [enter]

@[simp] theorem enterPhase_state (c : Chan) (ph : BlindPhase) (s : State) :
    ((enterPhase c ph s).chan c).state = (s.chan c).state := by simp [enterPhase]

@[simp] theorem resultWritten_state (res : Readback) (ch : Channel) : (resultWritten res ch).state = ch.state := rfl

/-! ## Flows of SEARCH -/

/-- A flow that a SEARCH on `c` may take from a program point with STATE = `x` and state `s`: on to a program point
whose STATE is the one written, over an edge of the transition table or none, or to the search's end over an edge. -/
def SearchFlow (c : Chan) (x : SearchState) (s : State) : Flow → Prop
  | .go t _ _ k => Keeps c s t ∧ ∃ p : SearchPoint, k = .search p ∧ (t.chan c).state = p.state ∧ p.fits = true ∧
      (p.state = x ∨ searchEdge x p.state = true)
  | .done t code => code = .ok ∧ ∃ st u, Keeps c s u ∧ searchEdge x st = true ∧ st.transient = false ∧ st ≠ .idle ∧
      (st = .tracking → x = .fecLocked) ∧ t = u.updChan c (Channel.finished st)
  | .stray => True

theorem SearchFlow.after {c : Chan} {x : SearchState} {s t : State} {fl : Flow} (h : Keeps c s t)
    (hf : SearchFlow c x t fl) : SearchFlow c x s fl := by
  cases fl with
  | go u first rest k => exact ⟨h.trans hf.1, hf.2⟩
  | done u code =>
    obtain ⟨hc, st, v, hk, hr⟩ := hf
    exact ⟨hc, st, v, h.trans hk, hr⟩
  | stray => trivial

/-- An ending over an edge that is not the one to TRACKING. -/
theorem finish_flow {c : Chan} {x st : SearchState} {s : State} (he : searchEdge x st = true)
    (ht : st.transient = false) (hi : st ≠ .idle) (hn : st = .tracking → x = .fecLocked) :
    SearchFlow c x s (finish c st s) := ⟨rfl, st, s, Keeps.refl c s, he, ht, hi, hn, rfl⟩

theorem beginAttempt_flow {cfg : Cfg} {c : Chan} {a : Attempt} {x : SearchState} {s : State}
    (he : searchEdge x .coarseAcquire = true) (ha : a.firstOrWarm = true) :
    SearchFlow c x s (beginAttempt cfg c a s) :=
  ⟨keeps_enter c _ s, .coarseDone a, rfl, by simp [SearchPoint.state], ha, .inr he⟩

/-- The end of an attempt: a first attempt ends the search over the edge to its outcome, a retry goes on to the next one
or ends in NO_DATA. -/
theorem endAttempt_flow {cfg : Cfg} {c : Chan} {a : Attempt} {x out : SearchState} {s : State}
    (hf : a.stage = .first → searchEdge x out = true)
    (hr : a.stage ≠ .first → a.algo = .warm ∧ searchEdge x .coarseAcquire = true ∧ searchEdge x .noData = true)
    (ht : out.transient = false) (hi : out ≠ .idle) (hn : out ≠ .tracking) :
    SearchFlow c x s (endAttempt cfg c a out s) := by
  unfold endAttempt
  split
  · rename_i hs
    exact finish_flow (hf hs) ht hi fun h => absurd h hn
  · rename_i hs
    obtain ⟨hw, he, _⟩ := hr (by simp [hs])
    exact beginAttempt_flow he (by simp [Attempt.firstOrWarm, hw])
  · rename_i hs
    exact finish_flow (hr (by simp [hs])).2.2 rfl (by decide) (fun h => by cases h)

theorem beginReadback_flow {c : Chan} {a : Attempt} {fTmo : Nat} {x : SearchState} {s : State}
    (he : searchEdge x .demodLocked = true) (ha : a.firstOrWarm = true) :
    SearchFlow c x s (beginReadback c a fTmo s) :=
  ⟨keeps_enter c _ s, .readStd a fTmo, rfl, by simp [SearchPoint.state], ha, .inr he⟩

theorem pollOnce_flow {c : Chan} {f : ReadField} {site : WaitSite} {left : Nat} {s : State}
    (hs : (s.chan c).state = site.state) (hf : site.fits = true) :
    SearchFlow c site.state s (pollOnce c f site left s) :=
  ⟨Keeps.refl c s, .wait site left, rfl, hs, hf, .inl rfl⟩

theorem waitFor_flow {c : Chan} {f : ReadField} {t : Nat} {site : WaitSite} {timedOut : State → Flow} {s : State}
    (hs : (s.chan c).state = site.state) (hf : site.fits = true)
    (ho : SearchFlow c site.state s (timedOut s)) : SearchFlow c site.state s (waitFor c f t site timedOut s) := by
  unfold waitFor
  split
  · exact ho
  · exact pollOnce_flow hs hf

/-! ## The blind search -/

theorem firstOf_stage {algo : Algo} {a : Attempt} (h : a.firstOf algo = true) : a.stage = .first ∧ a.algo = algo := by
  simpa [Attempt.firstOf] using h

theorem firstOf_firstOrWarm {algo : Algo} {a : Attempt} (h : a.firstOf algo = true) : a.firstOrWarm = true := by
  simp [Attempt.firstOrWarm, (firstOf_stage h).1]

/-- The end of a first attempt. -/
theorem endFirst_flow {cfg : Cfg} {c : Chan} {a : Attempt} {algo : Algo} {x out : SearchState} {s : State}
    (ha : a.firstOf algo = true) (he : searchEdge x out = true) (ht : out.transient = false) (hi : out ≠ .idle)
    (hn : out ≠ .tracking) : SearchFlow c x s (endAttempt cfg c a out s) :=
  endAttempt_flow (fun _ => he) (fun h => absurd (firstOf_stage ha).1 h) ht hi hn

theorem timingReference_flow {cfg : Cfg} {c : Chan} {a : Attempt} {bl : BlindLocals} {s : State}
    (hs : (s.chan c).state = .blindCoarseSymbolRate) (ha : a.firstOf .blind = true) :
    SearchFlow c .blindCoarseSymbolRate s (timingReference cfg c a bl s) := by
  unfold timingReference
  split
  · exact ⟨Keeps.refl c s, .tmgRef a bl, rfl, hs, ha, .inl rfl⟩
  · exact endFirst_flow ha rfl rfl (by decide) (by decide)

theorem nextReference_flow {cfg : Cfg} {c : Chan} {a : Attempt} {bl : BlindLocals} {s : State}
    (hs : (s.chan c).state = .blindCoarseSymbolRate) (ha : a.firstOf .blind = true) :
    SearchFlow c .blindCoarseSymbolRate s (nextReference cfg c a bl s) := timingReference_flow hs ha

theorem sweepNext_flow {cfg : Cfg} {c : Chan} {a : Attempt} {k : Nat} {minA : Int} {s : State}
    (hs : (s.chan c).state = .blindCoarseSymbolRate) (ha : a.firstOf .blind = true) :
    SearchFlow c .blindCoarseSymbolRate s (sweepNext cfg c a k minA s) := by
  unfold sweepNext
  split
  · exact ⟨Keeps.refl c s, .sweep a (k + 1) minA, rfl, hs, ha, .inl rfl⟩
  · split
    · exact endFirst_flow ha rfl rfl (by decide) (by decide)
    · exact timingReference_flow hs ha

theorem beginBlind_flow {cfg : Cfg} {c : Chan} {a : Attempt} {s : State} (ha : a.firstOf .blind = true) :
    SearchFlow c .coarseAcquire s (beginBlind cfg c a s) :=
  ⟨(keeps_enter c _ s).trans (keeps_enterPhase c _ _), .sweep a 0 65536, rfl, by simp [SearchPoint.state], ha, .inr rfl⟩

theorem coarseStep_flow {cfg : Cfg} {c : Chan} {a : Attempt} {bl : BlindLocals} {k : Nat} {s : State}
    (hs : (s.chan c).state = .blindCoarseSymbolRate) (ha : a.firstOf .blind = true) :
    SearchFlow c .blindCoarseSymbolRate s (coarseStep cfg c a bl k s) :=
  ⟨Keeps.refl c s, .coarseStep a bl k, rfl, hs, ha, .inl rfl⟩

theorem coarseNext_flow {cfg : Cfg} {c : Chan} {a : Attempt} {bl : BlindLocals} {k : Nat} {got : List Int} {s : State}
    (hs : (s.chan c).state = .blindCoarseSymbolRate) (ha : a.firstOf .blind = true) :
    SearchFlow c .blindCoarseSymbolRate s (coarseNext cfg c a bl k got s) := by
  simp only [coarseNext]
  split
  · exact endFirst_flow ha rfl rfl (by decide) (by decide)
  split
  · exact ⟨Keeps.refl c s, .coarseCar _ _ _ _, rfl, hs, ha, .inl rfl⟩
  split
  · exact coarseStep_flow hs ha
  · exact nextReference_flow hs ha

theorem beginFine_flow {c : Chan} {a : Attempt} {bl : BlindLocals} {srC fC : Int} {s : State}
    (hs : (s.chan c).state = .blindCoarseSymbolRate) (ha : a.firstOf .blind = true) :
    SearchFlow c .blindCoarseSymbolRate s (beginFine c a bl srC fC s) :=
  ⟨keeps_enterPhase c _ s, .armed (.fine a bl srC), rfl, by simpa [SearchPoint.state, WaitSite.state] using hs, ha, .inl rfl⟩

/-! ## The zig-zag sweep -/

theorem zzTrial_flow {cfg : Cfg} {c : Chan} {a : Attempt} {z : ZigLocals} {x : SearchState} {s : State}
    (hs : (s.chan c).state = .carrierZigzagSweep) (ha : a.firstOf .cold = true) (hz : z.falseLocks ≤ 2)
    (he : x = .carrierZigzagSweep ∨ searchEdge x .carrierZigzagSweep = true) (hn : searchEdge x .noLock = true) :
    SearchFlow c x s (zzTrial cfg c a z s) := by
  unfold zzTrial
  split
  · exact endFirst_flow ha hn rfl (by decide) (by decide)
  split
  · exact endFirst_flow ha hn rfl (by decide) (by decide)
  · exact ⟨Keeps.refl c s, .armed (.zigzag a z), rfl, hs, by simp [SearchPoint.fits, WaitSite.fits, ha, hz],
      he.imp Eq.symm id⟩

theorem beginZigzag_flow {cfg : Cfg} {c : Chan} {a : Attempt} {s : State} (ha : a.firstOf .cold = true) :
    SearchFlow c .directLock s (beginZigzag cfg c a s) :=
  (zzTrial_flow (by simp) ha (Nat.zero_le 2) (.inr rfl) rfl).after (keeps_enter c _ s)

theorem zzFalseLock_flow {cfg : Cfg} {c : Chan} {a : Attempt} {z : ZigLocals} {s : State}
    (hs : (s.chan c).state = .carrierZigzagSweep) (ha : a.firstOf .cold = true) (hz : z.falseLocks ≤ 2) :
    SearchFlow c .carrierZigzagSweep s (zzFalseLock cfg c a z s) := by
  unfold zzFalseLock
  split
  · exact endFirst_flow ha rfl rfl (by decide) (by decide)
  · exact zzTrial_flow hs ha (by simp only; omega) (.inl rfl) rfl

theorem zzAbsentNext_flow {cfg : Cfg} {c : Chan} {a : Attempt} {z : ZigLocals} {got : List Int} {s : State}
    (hs : (s.chan c).state = .carrierZigzagSweep) (ha : a.firstOf .cold = true) (hz : z.falseLocks ≤ 2) :
    SearchFlow c .carrierZigzagSweep s (zzAbsentNext cfg c a z got s) := by
  unfold zzAbsentNext
  split
  · exact endFirst_flow ha rfl rfl (by decide) (by decide)
  · exact zzTrial_flow hs ha hz (.inl rfl) rfl

theorem zzLock_flow {cfg : Cfg} {c : Chan} {a : Attempt} {s : State} (ha : a.firstOf .cold = true) :
    SearchFlow c .carrierZigzagSweep s (zzLock cfg c a s) := beginReadback_flow rfl (firstOf_firstOrWarm ha)

/-! ## FEC, relock, readback, direct lock -/

theorem fecDone_flow {cfg : Cfg} {c : Chan} {a : Attempt} {res : Readback} {ok : Bool} {s : State}
    (ha : a.firstOrWarm = true) : SearchFlow c .trackingOptimized s (fecDone cfg c a res ok s) := by
  have hw : a.stage ≠ .first → a.algo = .warm := by
    intro h
    simpa [Attempt.firstOrWarm, h] using ha
  unfold fecDone
  split
  · exact ⟨keeps_enter c _ s, .fecCleared, rfl, by simp [SearchPoint.state], rfl, .inr rfl⟩
  split
  · split
    · exact beginAttempt_flow rfl rfl
    · exact finish_flow rfl rfl (by decide) (by decide)
  · rename_i hs
    exact endAttempt_flow (fun _ => rfl) (fun h => ⟨hw h, rfl, rfl⟩) rfl (by decide) (by decide)
  · rename_i hs
    exact endAttempt_flow (fun _ => rfl) (fun h => ⟨hw h, rfl, rfl⟩) rfl (by decide) (by decide)

theorem beginFec_flow {cfg : Cfg} {c : Chan} {a : Attempt} {res : Readback} {fTmo : Nat} {s : State}
    (hs : (s.chan c).state = .trackingOptimized) (ha : a.firstOrWarm = true) :
    SearchFlow c .trackingOptimized s (beginFec cfg c a res fTmo s) :=
  waitFor_flow (site := .fec a res fTmo) hs ha (fecDone_flow ha)

theorem relockDone_flow {cfg : Cfg} {c : Chan} {a : Attempt} {res : Readback} {fTmo tries : Nat} {ok : Bool} {s : State}
    (hs : (s.chan c).state = .trackingOptimized) (ha : a.firstOrWarm = true) :
    SearchFlow c .trackingOptimized s (relockDone cfg c a res fTmo tries ok s) := by
  have hw : a.stage ≠ .first → a.algo = .warm := by
    intro h
    simpa [Attempt.firstOrWarm, h] using ha
  unfold relockDone
  split
  · exact beginFec_flow hs ha
  split
  · exact ⟨Keeps.refl c s, .armed (.relock a res fTmo (tries + 1)), rfl, hs, ha, .inl rfl⟩
  · exact endAttempt_flow (fun _ => rfl) (fun h => ⟨hw h, rfl, rfl⟩) rfl (by decide) (by decide)

theorem readbackDone_flow {cfg : Cfg} {c : Chan} {a : Attempt} {fTmo : Nat} {res : Readback} {s : State}
    (ha : a.firstOrWarm = true) : SearchFlow c .demodLocked s (readbackDone cfg c a fTmo res s) := by
  have hw : a.stage ≠ .first → a.algo = .warm := by
    intro h
    simpa [Attempt.firstOrWarm, h] using ha
  unfold readbackDone
  split
  · exact (endAttempt_flow (fun _ => rfl) (fun h => ⟨hw h, rfl, rfl⟩) rfl (by decide) (by decide)).after
      (keeps_resultWritten c res s)
  · exact ⟨(keeps_resultWritten c res s).trans (keeps_enter c _ _), .armed (.relock a res fTmo 0), rfl,
      by simp [SearchPoint.state, WaitSite.state], ha, .inr rfl⟩

theorem beginDirect_flow {c : Chan} {a : Attempt} {s : State} (ha : a.firstOrWarm = true) (hb : a.algo ≠ .blind) :
    SearchFlow c .coarseAcquire s (beginDirect c a s) :=
  ⟨keeps_enter c _ s, .armed (.direct a), rfl, by simp [SearchPoint.state, WaitSite.state],
    by simp [SearchPoint.fits, WaitSite.fits, ha, hb], .inr rfl⟩

theorem branchByAlgo_flow {cfg : Cfg} {c : Chan} {a : Attempt} {s : State} (ha : a.firstOrWarm = true) :
    SearchFlow c .coarseAcquire s (branchByAlgo cfg c a s) := by
  unfold branchByAlgo
  split
  · rename_i hb
    refine beginBlind_flow ?_
    simpa [Attempt.firstOrWarm, Attempt.firstOf, hb] using ha
  · rename_i hb
    exact beginDirect_flow ha (by simp [hb])
  · rename_i hb
    exact beginDirect_flow ha (by simp [hb])

theorem directDone_flow {cfg : Cfg} {c : Chan} {a : Attempt} {ok : Bool} {s : State}
    (hs : (s.chan c).state = .directLock) (ha : a.firstOrWarm = true) :
    SearchFlow c .directLock s (directDone cfg c a ok s) := by
  have hw : a.stage ≠ .first → a.algo = .warm := by
    intro h
    simpa [Attempt.firstOrWarm, h] using ha
  unfold directDone
  split
  · exact beginReadback_flow rfl ha
  split
  · rename_i hc
    split
    · exact endAttempt_flow (fun _ => rfl) (fun h => ⟨hw h, rfl, rfl⟩) rfl (by decide) (by decide)
    · refine ⟨Keeps.refl c s, .tmgLock a, rfl, hs, ?_, .inl rfl⟩
      simpa [Attempt.firstOrWarm, SearchPoint.fits, Attempt.firstOf, hc] using ha
  · exact endAttempt_flow (fun _ => rfl) (fun h => ⟨hw h, rfl, rfl⟩) rfl (by decide) (by decide)

/-- The end of a lock wait at a site whose STATE is written. -/
theorem waitDone_flow {cfg : Cfg} {c : Chan} {site : WaitSite} {ok : Bool} {s : State}
    (hs : (s.chan c).state = site.state) (hf : site.fits = true) :
    SearchFlow c site.state s (waitDone cfg c site ok s) := by
  cases site with
  | direct a =>
    simp only [WaitSite.fits, Bool.and_eq_true] at hf
    exact directDone_flow hs hf.1
  | zigzag a z =>
    simp only [WaitSite.fits, Bool.and_eq_true, decide_eq_true_eq] at hf
    simp only [waitDone, zzDone]
    split
    · exact ⟨Keeps.refl c s, .zzStd a z, rfl, hs, by simp [SearchPoint.fits, hf], .inl rfl⟩
    · exact ⟨Keeps.refl c s, .zzAbsent a z, rfl, hs, by simp [SearchPoint.fits, hf], .inl rfl⟩
  | fine a bl srC =>
    simp only [waitDone, fineDone]
    split
    · exact beginReadback_flow rfl (firstOf_firstOrWarm hf)
    · exact nextReference_flow hs hf
  | relock a res fTmo tries => exact relockDone_flow hs hf
  | fec a res fTmo => exact fecDone_flow hf

/-! ## The body -/

theorem precheck_flow {c : Chan} {s : State} (hs : (s.chan c).state = .idle) : SearchFlow c .idle s (precheck c s) :=
  ⟨Keeps.refl c s, .agc1, rfl, hs, rfl, .inl rfl⟩

theorem firstAttempt_flow {cfg : Cfg} {c : Chan} {s : State} : SearchFlow c .idle s (firstAttempt cfg c s) := by
  unfold firstAttempt
  split
  · exact beginAttempt_flow rfl rfl
  · trivial

/-- The entry of a SEARCH, from IDLE. -/
theorem searchEntry_flow {cfg : Cfg} {c : Chan} {s : State} (hs : (s.chan c).state = .idle) :
    SearchFlow c .idle s (searchEntry cfg c s) := by
  unfold searchEntry
  split
  · exact finish_flow rfl rfl (by decide) (by decide)
  split
  · exact ⟨Keeps.refl c s, .reenabled, rfl, hs, rfl, .inl rfl⟩
  · exact precheck_flow hs

/-- Every pure computation of a SEARCH, from a program point whose STATE is written and whose locals fit. -/
theorem searchResume_flow {cfg : Cfg} {c : Chan} {p : SearchPoint} {got : List Int} {s : State}
    (hs : (s.chan c).state = p.state) (hf : p.fits = true) :
    SearchFlow c p.state s (searchResume cfg c p got s) := by
  cases p with
  | reenabled => exact (precheck_flow (by simpa [Channel.modcodesWritten, SearchPoint.state] using hs)).after (keeps_modcodesWritten c _ s)
  | agc1 =>
    simp only [searchResume, agc1Next]
    split
    · exact ⟨Keeps.refl c s, .power, rfl, hs, rfl, .inl rfl⟩
    · exact firstAttempt_flow
  | power =>
    simp only [searchResume, powerNext]
    split
    · exact finish_flow rfl rfl (by decide) (by decide)
    · exact firstAttempt_flow
  | coarseDone a => exact branchByAlgo_flow hf
  | armed site => exact waitFor_flow hs hf (waitDone_flow hs hf)
  | wait site left =>
    simp only [searchResume, waitNext]
    split
    · exact waitDone_flow hs hf
    split
    · exact waitDone_flow hs hf
    · exact pollOnce_flow hs hf
  | tmgLock a =>
    simp only [searchResume]
    split
    · exact endFirst_flow hf rfl rfl (by decide) (by decide)
    · exact beginZigzag_flow hf
  | zzStd a z =>
    simp only [SearchPoint.fits, Bool.and_eq_true, decide_eq_true_eq] at hf
    simp only [searchResume]
    split
    · exact ⟨Keeps.refl c s, .zzFly a z, rfl, hs, by simp [SearchPoint.fits, hf], .inl rfl⟩
    · exact zzLock_flow hf.1
  | zzFly a z =>
    simp only [SearchPoint.fits, Bool.and_eq_true, decide_eq_true_eq] at hf
    simp only [searchResume]
    split
    · exact zzLock_flow hf.1
    · exact ⟨Keeps.refl c s, .zzFlyAgain a z, rfl, hs, by simp [SearchPoint.fits, hf], .inl rfl⟩
  | zzFlyAgain a z =>
    simp only [SearchPoint.fits, Bool.and_eq_true, decide_eq_true_eq] at hf
    simp only [searchResume]
    split
    · exact zzLock_flow hf.1
    · exact zzFalseLock_flow hs hf.1 hf.2
  | zzAbsent a z =>
    simp only [SearchPoint.fits, Bool.and_eq_true, decide_eq_true_eq] at hf
    exact zzAbsentNext_flow hs hf.1 hf.2
  | sweep a k minA => exact sweepNext_flow hs hf
  | tmgRef a bl => exact (coarseStep_flow (by simpa [SearchPoint.state] using hs) hf).after (keeps_enterPhase c _ s)
  | coarseStep a bl k => exact coarseNext_flow hs hf
  | coarseCar a bl srC fAct => exact beginFine_flow hs hf
  | readStd a fTmo => exact ⟨Keeps.refl c s, .readRest _ _ _ _ _ _, rfl, hs, hf, .inl rfl⟩
  | readRest a fTmo std cRaw sRaw tRaw => exact readbackDone_flow hf
  | fecCleared => exact finish_flow rfl rfl (by decide) fun _ => rfl

end Sys2Proof.Machine
end

