-- ==== Sys2Proof/Tests/Slice0.lean ====
section
/-! SUPPORT. Tests: expected values are those of spec/95_test_vectors.md, worked there by hand, and the rules'. A theorem
`test_…` checks one thing about one step; a theorem `witness_…` shows a concrete input that meets the hypotheses of the
obligation it names. -/

namespace Sys2Proof.Tests

open Sys2Proof Sys2Proof.Machine

/-! ## Well-formedness: a table id or an algorithm code that names nothing is refused (30_encoding.md R103) -/

theorem test_wf_interp_table_3 : (Instr.interp .a 3).wellFormed = true := by decide
theorem test_wf_interp_table_4 : (Instr.interp .a 4).wellFormed = false := by decide
theorem test_wf_interp_table_7 : (Instr.interp .b 7).wellFormed = false := by decide
theorem test_wf_interp2_coarse_4 : (Instr.interp2 .a 4 0).wellFormed = false := by decide
theorem test_wf_interp2_fine_4 : (Instr.interp2 .a 0 4).wellFormed = false := by decide
theorem test_wf_interp2_both_3 : (Instr.interp2 .a 3 3).wellFormed = true := by decide
theorem test_wf_computeTimeouts_2 : (Instr.computeTimeouts .a 2).wellFormed = true := by decide
theorem test_wf_computeTimeouts_3 : (Instr.computeTimeouts .a 3).wellFormed = false := by decide

/-! ## Decoding: a word of every command, written out from R100 to R103 as IMM16, RSV, SUB, OPCODE -/

theorem test_decode_init : decode .global 0b0000000000000000_00000_000_00000001 = .ok .init := by decide
theorem test_decode_term : decode .global 0b0000000000000000_00000_000_00000010 = .ok .term := by decide
theorem test_decode_standby : decode .global 0b0000000000000000_00000_001_00000011 = .ok (.standby true) := by decide
theorem test_decode_setLdpcMode : decode .global 0b0000000000000000_00000_001_00000100 = .ok (.setLdpcMode true) := by decide
theorem test_decode_interp : decode (.chan .a) 0b0000000000000000_00000_010_00010000 = .ok (.interp .a 2) := by decide
theorem test_decode_interp2 : decode (.chan .b) 0b0000000000000011_00000_010_00010001 = .ok (.interp2 .b 2 3) := by decide
theorem test_decode_getRfLevel : decode (.chan .a) 0b0000000000000000_00000_000_00010010 = .ok (.getRfLevel .a) := by decide
theorem test_decode_getCn : decode (.chan .a) 0b0000000000000000_00000_000_00010011 = .ok (.getCn .a) := by decide
theorem test_decode_carrierOffset : decode (.chan .a) 0b0000000000000000_00000_001_00100000 = .ok (.carrierOffset .a true) := by decide
theorem test_decode_symbolRate : decode (.chan .b) 0b0000000000000000_00000_000_00100001 = .ok (.symbolRate .b false) := by decide
theorem test_decode_timingOffset : decode (.chan .a) 0b0000000000000000_00000_001_00100010 = .ok (.timingOffset .a true) := by decide
theorem test_decode_encSymbolRate : decode (.chan .a) 0b0000000000000000_00000_000_00100011 = .ok (.encSymbolRate .a) := by decide
theorem test_decode_selectStandard : decode (.chan .a) 0b0000000000000000_00000_001_00110000 = .ok (.selectStandard .a true) := by decide
theorem test_decode_computeTimeouts : decode (.chan .b) 0b0000000000000000_00000_010_00110001 = .ok (.computeTimeouts .b 2) := by decide
theorem test_decode_selectClg : decode (.chan .a) 0b0000000000000000_00000_001_00110010 = .ok (.selectClg .a true) := by decide
theorem test_decode_search : decode (.chan .b) 0b0000000000000000_00000_000_01000000 = .ok (.search .b) := by decide
theorem test_decode_abort : decode (.chan .a) 0b0000000000000000_00000_000_01000001 = .ok (.abort .a) := by decide
theorem test_decode_unlock : decode (.chan .a) 0b0000000000000000_00000_000_01000010 = .ok (.unlock .a) := by decide
theorem test_decode_getSignalInfo : decode (.chan .a) 0b0000000000000000_00000_000_01010000 = .ok (.getSignalInfo .a) := by decide
theorem test_decode_getPer : decode (.chan .b) 0b0000000000000000_00000_000_01010001 = .ok (.getPer .b) := by decide
theorem test_decode_ldpcMonitor : decode (.chan .b) 0b0000000000000000_00000_000_01010010 = .ok (.ldpcMonitor .b) := by decide
theorem test_decode_wrong_bank : decode .global 0x00000040 = .error .illegalOpcode := by decide
theorem test_decode_reserved_bit : decode (.chan .a) 0x00000841 = .error .reservedField := by decide
theorem test_decode_table_word : decodeTableWord 32 0x00000303 = none ∧ decodeTableWord 32 0x00000103 = some (.standby true) := by decide

/-! ## States of one step -/

/-- Initialized, with the master clock of the estimator vectors, 135 MHz. -/
def ready : State := { glob := { initialized := true, mclk := 135000000 } }

/-- `s` with the host about to write `w` to the register at `addr`. -/
def writing (addr : Nat) (w : Word) (s : State) : State := { s with turns := [.host (.write addr 4 w)] }

/-- `s` with the engine of `i` at program point `p`, about to move with the environment's answer `ans`. -/
def standingAt (i : Instr) (p : Point) (ans : Answer) (s : State) : State :=
  { s.updEng i.bank (fun g => { g with busy := true, run := some ⟨i, p⟩ }) with turns := [.engine i.bank ans] }

/-- The environment returns `v`. -/
def returns (v : Int) : Answer := ⟨false, v⟩

/-- What `f` reads in the next state, if there is one. -/
def after {α : Type} (r : Result) (f : State → α) : Option α :=
  match r with
  | .next t => some (f t)
  | _ => none

theorem runs_standingAt (i : Instr) (p : Point) (ans : Answer) (s : State) : Runs (standingAt i p ans s) i p ans := by
  unfold Runs standingAt
  generalize i.bank = b
  cases b with
  | global => exact ⟨rfl, rfl⟩
  | chan c => cases c <;> exact ⟨rfl, rfl⟩

/-! ## The parameters of the vectors (95_test_vectors.md section 0), for the commands that read one -/

/-- A table from its points. -/
def points (l : List (Nat × Int)) : List CalPoint := l.map fun p => ⟨BitVec.ofNat 16 p.1, BitVec.ofInt 32 p.2⟩

/-- The test parameters TP, as far as the tests below read them. -/
def testCfg : Cfg :=
  { profileOf := fun _ => .p2
    prof := fun _ =>
      { clgLong := fun m b pl => if m = 13 ∧ b = 4 ∧ pl then 0x35 else if m = 28 ∧ b = 4 ∧ !pl then 0x3C else 0
        clgShort := fun q _ => 0x20 + BitVec.ofNat 8 q.val
        clgS1 := 0x1B, agc2NosigTh := 0x2000, agc2LockTh := 0x1000, zzAgc2AbsentTh := 0x3000
        coarseSrMax := 55000000, s1FalseLockWa := true }
    rfTable := { points := points [(40000, -10), (30000, -30), (20000, -50), (10000, -70)] }
    rfLowTable := { points := points [(10000, -70), (5000, -80), (1000, -90)] }
    cnS1Table := { points := points [(600, 140), (1200, 90), (2400, 40)] }
    cnS2Table := { points := points [(500, 150), (1000, 100), (2000, 50)] }
    tmoDemodCold := fun i => if i = 5 then 150 else 200
    tmoFecCold := fun i => if i = 5 then 100 else 150
    tmoDemodBlind := fun i => if i = 5 then 80 else 100
    tmoFecBlind := fun _ => 80
    unreliableRate := 5, agc1ZeroTh := 16, iqNosigTh := 8, srMin := 1000000, srMax := 60000000
    rangeMin := 0, rangeMax := 20000000, tunerBwAcq := fun sr r _ => (sr + r).toNat, tunerBwMargin := 2000000
    agc2SettleMs := 5, coarseDwellMs := 20, tmgQualMin := 2, faultSamples := 3
    zzMaxRange := fun _ _ => 3000000, zzTmo := fun _ _ => 30, flywheelTh := 8, zzSanityHz := 5000000
    zzAbsentMode := .both, cnSampleDelayMs := 1, siginfoReset := true, ldpcModeInitDual := false
    searchReenablesModcodes := false }

/-- One step of the engine that runs `i` under the test parameters. -/
def stepOf (i : Instr) (p : Point) (v : Int) (s : State) : Result :=
  runCommand testCfg i (ruleOf testCfg i) (standingAt i p (returns v) s)

/-- `ready` with channel A's ARG0 and ARG1. -/
def args (x y : Word) : State := { ready with a := { arg0 := x, arg1 := y } }

/-! ## One step of each command (vectors V-L, V-E, V-C, V-T and the rules named) -/

theorem test_interp_V_L3 : after (stepOf (.interp .a 0) .start 0 (args 25000 0)) (·.a.res0) = some 0xFFFFFFD8 := by decide
theorem test_interp_V_L5_truncates : after (stepOf (.interp .a 0) .start 0 (args 12345 0)) (·.a.res0) = some 0xFFFFFFBF := by decide
theorem test_interp2_V_L7_fine : after (stepOf (.interp2 .a 0 1) .start 0 (args 6000 0)) (·.a.res0) = some 0xFFFFFFB2 := by decide
theorem test_interp2_V_L10_coarse : after (stepOf (.interp2 .a 0 1) .start 0 (args 45000 0)) (·.a.res0) = some 0xFFFFFFF6 := by decide
theorem test_getRfLevel_V_L13 : after (stepOf (.getRfLevel .a) .start 25000 ready) (·.a.res0) = some 0xFFFFFFD8 := by decide
theorem test_getRfLevel_V_L14_gain :
    after (stepOf (.getRfLevel .a) (.before .lnaGetGain [] [] (.rfGain (-78))) 12 ready) (·.a.res0) = some 0xFFFFFFBE := by decide
theorem test_getCn_V_L15 :
    after (stepOf (.getCn .a) (.before (.sleep 1) [] (List.replicate 16 1200) (.cnSamples 3)) 0 ready) (·.a.res0) = some 90 := by decide
theorem test_getCn_V_L17_unlocked :
    after (stepOf (.getCn .a) .start 0 ready) (fun t => (t.a.res0, t.bus)) = some (0, []) := by decide
theorem test_carrierOffset_V_E4_floor :
    after (stepOf (.carrierOffset .a false) .start 0 (args 0xFDC000 0)) (·.a.res0.toInt) = some (-1186524) := by decide
theorem test_carrierOffset_V_E8_masks :
    after (stepOf (.carrierOffset .a false) .start 0 (args 0xAB024000 0)) (·.a.res0) = some 1186523 := by decide
theorem test_symbolRate_V_E9 : after (stepOf (.symbolRate .a false) .start 0 (args 0x34263F00 0)) (·.a.res0) = some 27500659 := by decide
theorem test_symbolRate_from_device : after (stepOf (.symbolRate .a true) .start 0x34263F00 ready) (·.a.res0) = some 27500659 := by decide
theorem test_timingOffset_V_E11 :
    after (stepOf (.timingOffset .a false) .start 0 (args 27500000 0xFFF000)) (·.a.res0) = some 0xFFFFFF2F := by decide
theorem test_timingOffset_V_E13_zero : after (stepOf (.timingOffset .a false) .start 0 (args 27500000 0)) (·.a.res0) = some 0 := by decide
theorem test_encSymbolRate_V_E17 :
    after (stepOf (.encSymbolRate .a) .start 0 (args 1000000 (BitVec.ofInt 32 (-1200000)))) (fun t => (t.a.res0, t.a.res1)) =
      some (0x01E5, 0xFDB9) := by decide
theorem test_encSymbolRate_V_E18_saturates :
    after (stepOf (.encSymbolRate .a) .start 0 (args 135000000 (BitVec.ofInt 32 (-67500000)))) (fun t => (t.a.res0, t.a.res1)) =
      some (0xFFFF, 0x8000) := by decide
theorem test_selectStandard_V_C1_auto : after (stepOf (.selectStandard .a false) .start 0 (args 0 0)) (·.a.res0) = some 0x2F03 := by decide
theorem test_selectStandard_V_C6_bad_rate :
    after (stepOf (.selectStandard .a true) .start 0 (args 0x1C4 0)) (fun t => (t.a.eng.cmdResult, t.bus)) = some (.badOperand, []) := by decide
theorem test_computeTimeouts_V_C9_warm :
    after (stepOf (.computeTimeouts .a 2) .start 0 (args 27500000 0)) (fun t => (t.a.res0, t.a.res1)) = some (75, 100) := by decide
theorem test_computeTimeouts_V_C12_boundary :
    after (stepOf (.computeTimeouts .a 1) .start 0 (args 20000000 0)) (fun t => (t.a.res0, t.a.res1)) = some (200, 150) := by decide
theorem test_selectClg_V_C14 : after (stepOf (.selectClg .a false) .start 0 (args 27500000 0x437)) (·.a.res0) = some 0x35 := by decide
theorem test_selectClg_V_C16_short : after (stepOf (.selectClg .a false) .start 0 (args 5000000 0x81B)) (·.a.res0) = some 0x20 := by decide
theorem test_init_mclk_too_low :
    after (step (writing 0x004 0x1 { glob := { mclk := 0x1FFFF } })) (·.glob.eng.cmdResult) = some .badOperand := by decide
theorem test_init_last_step :
    after (stepOf .init (.before (.devWrite .b .modcodeEn 0x1FFFFFFE) [] [1] (.initDone 0x30)) 0 {})
      (fun t => (t.glob.initialized, gidWord t.glob, t.b.modcodeMask)) = some (true, 0x00050230, 0x1FFFFFFE) := by decide
theorem test_term_last_step :
    after (stepOf .term (.before (.devWrite .b .dmdState 0) [] [] .termDone) 0 ready) (·.glob.initialized) = some false := by decide
theorem test_standby_leave : after (stepOf (.standby false) .start 0 { ready with glob := { standby := true } })
    (fun t => (t.glob.standby, t.bus.map (·.prim))) = some (false, [.globalWrite .devStandby 0]) := by decide
theorem test_setLdpcMode_dual : after (stepOf (.setLdpcMode true) .start 0 ready) (·.glob.ldpcDual) = some true := by decide
theorem test_search_bad_parameter :
    after (stepOf (.search .a) .start 0 { ready with a := { req := ⟨1500000000, 500000, 1, 1, 0, 0, 0, false⟩ } })
      (fun t => (t.a.state, t.a.eng.cmdResult, t.bus)) = some (.badParameter, .ok, []) := by decide
theorem test_search_V_S3_no_power_reads :
    after (stepOf (.search .a) (.before (.devRead .a .agc1Integ) [] [] (.search .agc1)) 17
      { ready with a := { req := ⟨1500000000, 27500000, 5000000, 1, 0, 0, 0, false⟩ } }) (·.a.state) = some .coarseAcquire := by decide
theorem test_abort_busy :
    after (step (writing 0x100 0x41 (standingAt (.search .a) .start (returns 0) ready))) (·.a.abortReq) = some true := by decide
theorem test_abort_idle : after (step (writing 0x100 0x41 ready)) (fun t => (t.a.abortReq, t.a.eng.lastOpcode)) = some (false, 0) := by decide
theorem test_unlock_parks :
    after (step (writing 0x200 0x42 { ready with b := { state := .tracking, locked := true } }))
      (fun t => (t.b.state, t.b.locked, t.b.eng.busy)) = some (.idle, false, true) := by decide
theorem test_unlock_writes_idle : after (stepOf (.unlock .b) .start 0 ready) (·.bus) = some [chanDid .b (.devWrite .b .dmdState 0) 0] := by decide
theorem test_getSignalInfo_sentinels :
    after (stepOf (.getSignalInfo .a) .start 0 ready) (fun t => (t.a.tmErr, t.a.tmTotal, t.bus)) = some (0x00800000, 0x01000000, []) := by decide
theorem test_getPer_unlocked :
    after (stepOf (.getPer .a) .start 0 ready) (fun t => (t.a.res0, t.a.res1, t.bus)) = some (0x00800000, 0x01000000, []) := by decide
theorem test_getPer_clamps :
    after (stepOf (.getPer .a) (.before (.devRead .a .perTotal) [] [17] .perRead) 0x02000000 ready)
      (fun t => (t.a.res0, t.a.res1)) = some (17, 0x01000000) := by decide
theorem test_ldpcMonitor_thresholds_are_good :
    after (stepOf (.ldpcMonitor .a) (.before (.devWrite .a .ldpcCntReset 1) [] [200, 5] .ldpcRead) 0 ready)
      (fun t => (t.a.res0, t.a.ldpcStat, t.a.eng.busy)) = some (0, 0x000500C8, false) := by decide
theorem test_ldpcMonitor_201_is_bad :
    after (stepOf (.ldpcMonitor .a) (.before (.devWrite .a .ldpcCntReset 1) [] [201, 0] .ldpcRead) 0 ready)
      (fun t => (t.a.eng.busy, t.running (.chan .a))) =
      some (true, some ⟨.ldpcMonitor .a, .before (.devWrite .a .modcodeEn 0) [] [] .ldpcDisabled⟩) := by decide

/-! ## Witnesses: inputs that meet the hypotheses of the obligations -/

theorem witness_EncodeDecodeRoundTrip : decode (.chan .a) 0x00010011 = .ok (.interp2 .a 0 1) := by decide
theorem witness_IllegalAndReservedWords : (0x00000803 : Word).extractLsb' 0 8 = 0x03 ∧ (0x00080011 : Word).extractLsb' 0 8 = 0x11 := by
  decide
theorem witness_StepRunsWrittenCommand_global :
    (writing 0x004 0x1 ready).now = .host (.write 0x004 4 0x1) ∧ decode .global 0x1 = .ok .init := by decide
theorem witness_StepRunsWrittenCommand_a :
    (writing 0x100 0x40 ready).now = .host (.write 0x100 4 0x40) ∧ decode (.chan .a) 0x40 = .ok (.search .a) := by decide
theorem witness_StepRunsWrittenCommand_b :
    (writing 0x200 0x41 ready).now = .host (.write 0x200 4 0x41) ∧ decode (.chan .b) 0x41 = .ok (.abort .b) := by decide
theorem witness_StepRunsEngine_running :
    (standingAt .init .start (returns 0) ready).now = .engine .global ⟨false, 0⟩ ∧
      (standingAt .init .start (returns 0) ready).running .global = some ⟨.init, .start⟩ := by decide
theorem witness_StepRunsEngine_idle :
    ({ ready with turns := [.engine (.chan .b) ⟨true, 0⟩] } : State).now = .engine (.chan .b) ⟨true, 0⟩ ∧
      ({ ready with turns := [.engine (.chan .b) ⟨true, 0⟩] } : State).running (.chan .b) = none := by decide
theorem witness_UndecodableWordRejected :
    (writing 0x004 0x40 ready).now = .host (.write 0x004 4 0x40) ∧ decode .global 0x40 = .error .illegalOpcode ∧
      (writing 0x200 0x841 ready).now = .host (.write 0x200 4 0x841) ∧ decode (.chan .b) 0x841 = .error .reservedField := by decide
theorem witness_StraightLineStep :
    Runs (standingAt (.getPer .a) (.before (.devRead .a .perErr) [.prim (.devRead .a .perTotal)] [] .perRead) (returns 5) ready)
      (.getPer .a) (.before (.devRead .a .perErr) [.prim (.devRead .a .perTotal)] [] .perRead) ⟨false, 5⟩ :=
  runs_standingAt _ _ _ _
theorem witness_StraightLineStep_write :
    let p := Point.before (.devWrite .a .sfrInit 0x1FFFF) [.encSr .a .sfrLow 1000000] [] (.search .fecCleared)
    Runs (standingAt (.search .a) p (returns 0) ready) (.search .a) p ⟨false, 0⟩ ∧
      (∀ ms, Prim.devWrite .a .sfrInit 0x1FFFF ≠ .sleep ms) := ⟨runs_standingAt _ _ _ _, nofun⟩
theorem witness_RejectionOrder_busy :
    let s := writing 0x100 0x13 (standingAt (.search .a) .start (returns 0) ready)
    s.now = .host (.write 0x100 4 0x13) ∧ (∀ c, Instr.getCn .a ≠ .abort c) ∧ (s.eng (Instr.getCn .a).bank).busy = true :=
  ⟨rfl, nofun, rfl⟩
theorem witness_RejectionOrder_gated :
    let s := writing 0x004 0x2 (standingAt (.search .b) .start (returns 0) ready)
    s.now = .host (.write 0x004 4 0x2) ∧ (s.eng Instr.term.bank).busy = false ∧ s.b.eng.busy = true := by decide
theorem witness_RejectionOrder_uninitialized :
    let s := writing 0x100 0x13 State.reset
    s.now = .host (.write 0x100 4 0x13) ∧ (s.eng (Instr.getCn .a).bank).busy = false ∧ s.glob.initialized = false ∧
      Instr.getCn .a ≠ .init := by decide
theorem witness_RejectionOrder_standby :
    let s := writing 0x100 0x40 { ready with glob := { ready.glob with standby := true } }
    s.now = .host (.write 0x100 4 0x40) ∧ (s.eng (Instr.search .a).bank).busy = false ∧ s.glob.initialized = true ∧
      s.glob.standby = true := by decide
theorem witness_RejectionOrder_operand :
    let s := writing 0x100 0x410 ready
    s.now = .host (.write 0x100 4 0x410) ∧ (s.eng (Instr.interp .a 4).bank).busy = false ∧ s.glob.initialized = true ∧
      4 ≤ (4 : BitVec 3).toNat := by decide
theorem witness_RejectionOrder_mclk :
    let s := writing 0x004 0x1 { glob := { mclk := 0x1FFFF } }
    s.now = .host (.write 0x004 4 0x1) ∧ (s.eng Instr.init.bank).busy = false ∧ s.a.eng.busy = false ∧
      s.b.eng.busy = false ∧ s.glob.mclk.toNat < 2 ^ 17 := by decide
theorem witness_PlainCommandAccepted :
    let s := writing 0x100 0x310 ready
    s.now = .host (.write 0x100 4 0x310) ∧ (s.eng (Instr.interp .a 3).bank).busy = false ∧ s.glob.initialized = true ∧
      (Instr.interp .a 3).wellFormed = true := by decide
theorem witness_PlainCommandAccepted_gated :
    let s := writing 0x004 0x104 ready
    s.now = .host (.write 0x004 4 0x104) ∧ (s.eng (Instr.setLdpcMode true).bank).busy = false ∧ s.a.eng.busy = false ∧
      s.b.eng.busy = false ∧ s.glob.initialized = true ∧ (Instr.setLdpcMode true).wellFormed = true := by decide
theorem witness_SearchAccepted :
    let s := writing 0x100 0x40 ready
    s.now = .host (.write 0x100 4 0x40) ∧ (s.chan .a).eng.busy = false ∧ s.glob.initialized = true ∧
      s.glob.standby = false := by decide
theorem witness_LifecycleAccepted_init :
    let s := writing 0x004 0x1 { glob := { mclk := 0x20000 } }
    s.now = .host (.write 0x004 4 0x1) ∧ s.glob.eng.busy = false ∧ s.a.eng.busy = false ∧ s.b.eng.busy = false ∧
      2 ^ 17 ≤ s.glob.mclk.toNat := by decide
theorem witness_LifecycleAccepted_term :
    let s := writing 0x004 0x2 ready
    s.now = .host (.write 0x004 4 0x2) ∧ s.glob.eng.busy = false ∧ s.a.eng.busy = false ∧ s.b.eng.busy = false ∧
      s.glob.initialized = true := by decide
theorem witness_LifecycleAccepted_unlock :
    let s := writing 0x200 0x42 ready
    s.now = .host (.write 0x200 4 0x42) ∧ (s.chan .b).eng.busy = false ∧ s.glob.initialized = true := by decide
theorem witness_AbortSetsFlag_busy :
    let s := writing 0x100 0x41 (standingAt (.search .a) .start (returns 0) ready)
    s.now = .host (.write 0x100 4 0x41) ∧ (s.chan .a).eng.busy = true := by decide
theorem witness_AbortSetsFlag_idle :
    (writing 0x100 0x41 ready).now = .host (.write 0x100 4 0x41) ∧ ((writing 0x100 0x41 ready).chan .a).eng.busy = false := by
  decide

/-- The RF table of the vectors. -/
def rf : CalTable := testCfg.rfTable

theorem witness_InterpClamps :
    ¬(rawAt rf 0 < rawAt rf 3) ∧ rawAt rf 0 < 45000 ∧ 9999 < rawAt rf 3 ∧ rf.points.length = 4 ∧
      rawAt testCfg.cnS2Table 0 < rawAt testCfg.cnS2Table 2 ∧ 400 < rawAt testCfg.cnS2Table 0 ∧
      rawAt testCfg.cnS2Table 2 < 2500 := by decide
theorem witness_BracketFindsInterval :
    between (rawAt rf 0) 25000 (rawAt rf 3) = true ∧ between (rawAt rf 0) 40000 (rawAt rf 3) = true ∧
      between (rawAt rf 0) 10000 (rawAt rf 3) = true ∧ between (rawAt rf 1) 30000 (rawAt rf 2) = true ∧
      between (rawAt rf 0) 30000 (rawAt rf 1) = true ∧ 2 + 1 < rf.points.length := by decide
theorem witness_InterpProperties_increasing :
    between (rawAt testCfg.cnS2Table 0) 500 750 = true ∧ between 500 750 (rawAt testCfg.cnS2Table 1) = true ∧
      between (rawAt testCfg.cnS2Table 0) 500 (rawAt testCfg.cnS2Table 1) = true ∧
      between (rawAt testCfg.cnS2Table 0) 750 (rawAt testCfg.cnS2Table 1) = true ∧
      physAt testCfg.cnS2Table 1 ≤ physAt testCfg.cnS2Table 0 := by decide
theorem witness_InterpProperties_decreasing :
    between (rawAt rf 0) 40000 35000 = true ∧ between 40000 35000 (rawAt rf 1) = true ∧
      between (rawAt rf 0) 40000 (rawAt rf 1) = true ∧ between (rawAt rf 0) 35000 (rawAt rf 1) = true ∧
      physAt rf 1 ≤ physAt rf 0 := by decide
theorem witness_InterpCompletes :
    Runs (standingAt (.interp .a 0) .start (returns 0) ready) (.interp .a 0) .start ⟨false, 0⟩ ∧
      Runs (standingAt (.interp2 .b 3 1) .start (returns 0) ready) (.interp2 .b 3 1) .start ⟨false, 0⟩ ∧
      (∀ cfg : Cfg, ((0 : BitVec 3), cfg.rfTable) ∈
          ([(0, cfg.rfTable), (1, cfg.rfLowTable), (2, cfg.cnS1Table), (3, cfg.cnS2Table)] : List (BitVec 3 × CalTable)) ∧
        ((1 : BitVec 3), cfg.rfLowTable) ∈
          ([(0, cfg.rfTable), (1, cfg.rfLowTable), (2, cfg.cnS1Table), (3, cfg.cnS2Table)] : List (BitVec 3 × CalTable)) ∧
        ((3 : BitVec 3), cfg.cnS2Table) ∈
          ([(0, cfg.rfTable), (1, cfg.rfLowTable), (2, cfg.cnS1Table), (3, cfg.cnS2Table)] : List (BitVec 3 × CalTable))) :=
  ⟨runs_standingAt _ _ _ _, runs_standingAt _ _ _ _, fun _ => by simp⟩
theorem witness_GetRfLevelCompletes :
    Runs (standingAt (.getRfLevel .a) .start (returns 6000) ready) (.getRfLevel .a) .start ⟨false, 6000⟩ ∧
      ready.glob.lnaPresent = false ∧ ({ ready with glob := { lnaPresent := true } } : State).glob.lnaPresent = true ∧
      Runs (standingAt (.getRfLevel .a) (.before .lnaGetGain [] [] (.rfGain (-78))) (returns 12) ready)
        (.getRfLevel .a) (.before .lnaGetGain [] [] (.rfGain (-78))) ⟨false, 12⟩ :=
  ⟨runs_standingAt _ _ _ _, rfl, rfl, runs_standingAt _ _ _ _⟩
theorem witness_GetCnCompletes :
    (ready.chan .a).locked = false ∧ Runs (standingAt (.getCn .a) .start (returns 0) ready) (.getCn .a) .start ⟨false, 0⟩ ∧
      Runs (standingAt (.getCn .a) (.before (.sleep 1) [] [1200] (.cnSamples 3)) (returns 0) ready)
        (.getCn .a) (.before (.sleep 1) [] [1200] (.cnSamples 3)) ⟨false, 0⟩ :=
  ⟨rfl, runs_standingAt _ _ _ _, runs_standingAt _ _ _ _⟩

/-- The turns of a command of channel A's engine, one answer a step. -/
def turnsA (answers : List Int) : List Turn := answers.map fun v => .engine (.chan .a) ⟨false, v⟩

/-- Channel A runs `i` from its start, with the environment's answers to come. -/
def runningA (i : Instr) (answers : List Int) (ch : Channel) : State :=
  { ready with a := { ch with eng := { busy := true, run := some ⟨i, .start⟩ } }, turns := turnsA answers }

/-- Sixteen samples of 1200. -/
def samples16 : List Int := List.replicate 16 1200

theorem witness_GetCnRuns :
    (runningA (.getCn .a) (3 :: samples16.flatMap fun x => [x, 0]) { locked := true }).a.locked = true ∧
      (runningA (.getCn .a) (3 :: samples16.flatMap fun x => [x, 0]) { locked := true }).running (.chan .a) =
        some ⟨.getCn .a, .start⟩ ∧
      samples16.length = 16 ∧
      (runningA (.getCn .a) (3 :: samples16.flatMap fun x => [x, 0]) { locked := true }).turns =
        .engine (.chan .a) ⟨false, 3⟩ ::
          samples16.flatMap (fun x => [.engine (.chan .a) ⟨false, x⟩, .engine (.chan .a) ⟨false, 0⟩]) ++ [] := by decide
theorem witness_TwosComplementDecoding : (0 : Nat) < 2 ^ 24 ∧ 0xFFFFFF < 2 ^ 24 := by decide
theorem witness_EstimatorsFromArguments :
    Runs (standingAt (.carrierOffset .a false) .start (returns 0) ready) (.carrierOffset .a false) .start ⟨false, 0⟩ ∧
      Runs (standingAt (.symbolRate .b false) .start (returns 0) ready) (.symbolRate .b false) .start ⟨false, 0⟩ ∧
      Runs (standingAt (.timingOffset .a false) .start (returns 0) ready) (.timingOffset .a false) .start ⟨false, 0⟩ :=
  ⟨runs_standingAt _ _ _ _, runs_standingAt _ _ _ _, runs_standingAt _ _ _ _⟩
theorem witness_EstimatorsFromDevice :
    Runs (standingAt (.carrierOffset .a true) .start (returns 0x800000) ready) (.carrierOffset .a true) .start ⟨false, 0x800000⟩ ∧
      Runs (standingAt (.symbolRate .b true) .start (returns 1) ready) (.symbolRate .b true) .start ⟨false, 1⟩ ∧
      Runs (standingAt (.timingOffset .a true) .start (returns 0) ready) (.timingOffset .a true) .start ⟨false, 0⟩ :=
  ⟨runs_standingAt _ _ _ _, runs_standingAt _ _ _ _, runs_standingAt _ _ _ _⟩
theorem witness_EncSymbolRateCompletes :
    Runs (standingAt (.encSymbolRate .a) .start (returns 0) ready) (.encSymbolRate .a) .start ⟨false, 0⟩ ∧
      ready.glob.mclk ≠ 0 ∧ (standingAt (.encSymbolRate .a) .start (returns 0) State.reset).glob.mclk = 0 ∧
      Runs (standingAt (.encSymbolRate .a) .start (returns 0) State.reset) (.encSymbolRate .a) .start ⟨false, 0⟩ :=
  ⟨runs_standingAt _ _ _ _, by decide, rfl, runs_standingAt _ _ _ _⟩
theorem witness_SymbolRateRoundTrip :
    (2 ^ 17 : Int) ≤ 135000000 ∧ roundDiv (27500000 * 2 ^ 16) 135000000 ≤ 2 ^ 16 - 1 ∧
      roundDiv (symbolRate 131072 (0 : BitVec 32).toNat * 2 ^ 16) 131072 ≤ 2 ^ 16 - 1 ∧
      roundDiv (symbolRate 135000000 (0x34260000 : BitVec 32).toNat * 2 ^ 16) 135000000 ≤ 2 ^ 16 - 1 := by decide
theorem witness_EstimatorProperties :
    (0 : Int) < 135000000 ∧ 0 < 1 ∧ 1 < 2 ^ 24 ∧ 1 ≠ 2 ^ 23 ∧ 0xFFFFFF < 2 ^ 24 ∧ 0xFFFFFF ≠ 2 ^ 23 := by decide
theorem witness_SelectStandardCompletes :
    Runs (standingAt (.selectStandard .a true) .start (returns 0) (args 0x1C4 0)) (.selectStandard .a true) .start ⟨false, 0⟩ ∧
      (0x1C4 : Word).extractLsb' 6 3 = (7 : BitVec 3) ∧
      Runs (standingAt (.selectStandard .a false) .start (returns 0) (args 0x18C 0)) (.selectStandard .a false) .start ⟨false, 0⟩ ∧
      (0x18C : Word).extractLsb' 6 3 ≠ (7 : BitVec 3) :=
  ⟨runs_standingAt _ _ _ _, by decide, runs_standingAt _ _ _ _, by decide⟩
theorem witness_SelectStandardWrites :
    (runningA (.selectStandard .a true) [0, 0, 0, 0] { arg0 := 0xC4 }).running (.chan .a) =
        some ⟨.selectStandard .a true, .start⟩ ∧
      (runningA (.selectStandard .a true) [0, 0, 0, 0] { arg0 := 0xC4 }).turns =
        [.engine (.chan .a) ⟨false, 0⟩, .engine (.chan .a) ⟨false, 0⟩, .engine (.chan .a) ⟨false, 0⟩,
          .engine (.chan .a) ⟨false, 0⟩] ∧
      (0xC4 : Word).extractLsb' 6 3 ≠ (7 : BitVec 3) ∧ (0xC4 : Word).extractLsb' 2 2 = (1 : BitVec 2) ∧
      (0xC0 : Word).extractLsb' 6 3 ≠ (7 : BitVec 3) ∧ (0xC0 : Word).extractLsb' 2 2 = (0 : BitVec 2) ∧
      (0x08 : Word).extractLsb' 2 2 = (2 : BitVec 2) ∧ (0x18C : Word).extractLsb' 2 2 = (3 : BitVec 2) := by decide
theorem witness_TimeoutProperties : (1000000 : Int) ≤ 1000001 := by decide
theorem witness_ComputeTimeoutsCompletes :
    Runs (standingAt (.computeTimeouts .a 2) .start (returns 0) (args 20000001 0)) (.computeTimeouts .a 2) .start ⟨false, 0⟩ ∧
      (2 : BitVec 2) ≠ 3 := ⟨runs_standingAt _ _ _ _, by decide⟩
theorem witness_SelectClgCompletes :
    Runs (standingAt (.selectClg .a false) .start (returns 0) (args 27500000 0x003)) (.selectClg .a false) .start ⟨false, 0⟩ ∧
      Runs (standingAt (.selectClg .a true) .start (returns 0) (args 27500000 0x437)) (.selectClg .a true) .start ⟨false, 0⟩ :=
  ⟨runs_standingAt _ _ _ _, runs_standingAt _ _ _ _⟩

/-! ### SEARCH -/

/-- `ready` with channel A's request snapshot of algorithm `algo`. -/
def requested (algo : BitVec 2) : State := { ready with a := { req := ⟨1500000000, 27500000, 5000000, algo, 0, 0, 0, false⟩ } }

/-- A first COLD attempt. -/
def coldAttempt : Attempt := { freq := 1500000000, sr := 5000000, range := 4000000, algo := .cold, std := 0, iq := 0, pr := 0, berMode := false, stage := .first }

/-- A SEARCH of channel A standing before `now` with point `p` next. -/
def searchAt (now : Prim) (got : List Int) (p : SearchPoint) (ans : Answer) (s : State) : State :=
  standingAt (.search .a) (.before now [] got (.search p)) ans s

theorem runs_searchAt (now : Prim) (got : List Int) (p : SearchPoint) (ans : Answer) (s : State) :
    Runs (searchAt now got p ans s) (.search .a) (.before now [] got (.search p)) ans := runs_standingAt _ _ _ _

theorem witness_SearchEarlyEnds_bad :
    Runs (standingAt (.search .a) .start (returns 0) (requested 3)) (.search .a) .start ⟨false, 0⟩ ∧
      validRequest Config.cfg ((standingAt (.search .a) .start (returns 0) (requested 3)).chan .a).req = false :=
  ⟨runs_standingAt _ _ _ _, rfl⟩
theorem witness_SearchEarlyEnds_first :
    Runs (standingAt (.search .a) .start (returns 7) (requested 1)) (.search .a) .start ⟨false, 7⟩ ∧
      algoOf ((standingAt (.search .a) .start (returns 7) (requested 1)).chan .a).req.algo = some .cold :=
  ⟨runs_standingAt _ _ _ _, rfl⟩
theorem witness_SearchEarlyEnds_agc1 :
    Runs (searchAt (.devRead .a .agc1Integ) [] .agc1 (returns 0) (requested 1)) (.search .a)
        (.before (.devRead .a .agc1Integ) [] [] (.search .agc1)) ⟨false, 0⟩ ∧
      algoOf ((searchAt (.devRead .a .agc1Integ) [] .agc1 (returns 0) (requested 1)).chan .a).req.algo = some .cold ∧
      (0 : Int) % 2 ^ 16 ≤ Config.cfg.agc1ZeroTh.toNat := ⟨runs_searchAt _ _ _ _ _, rfl, by simp⟩
theorem witness_SearchEarlyEnds_power :
    Runs (searchAt (.devRead .a .powerQ) [3] .power (returns 5) (requested 1)) (.search .a)
        (.before (.devRead .a .powerQ) [] [3] (.search .power)) ⟨false, 5⟩ ∧
      algoOf ((searchAt (.devRead .a .powerQ) [3] .power (returns 5) (requested 1)).chan .a).req.algo = some .cold :=
  ⟨runs_searchAt _ _ _ _ _, rfl⟩
/-- A first BLIND attempt. -/
def blindAttempt : Attempt := { coldAttempt with algo := .blind, range := 10000000 }

theorem witness_BlindSearchSteps_preSweep :
    blindAttempt.stage = .first ∧ blindAttempt.algo = .blind ∧
      Runs (searchAt (.devWrite .a .berMode (1 : BitVec 1).toNat) [] (.coarseDone blindAttempt) (returns 0) ready) (.search .a)
        (.before (.devWrite .a .berMode (1 : BitVec 1).toNat) [] [] (.search (.coarseDone blindAttempt))) ⟨false, 0⟩ :=
  ⟨rfl, rfl, runs_searchAt _ _ _ _ _⟩
theorem witness_BlindSearchSteps_reference :
    Runs (searchAt (.devWrite .a .tmgRef 0x50) [] (.tmgRef blindAttempt ⟨0, 0x50, 0⟩) (returns 0) ready) (.search .a)
        (.before (.devWrite .a .tmgRef 0x50) [] [] (.search (.tmgRef blindAttempt ⟨0, 0x50, 0⟩))) ⟨false, 0⟩ ∧
      Runs (searchAt (.devRead .a .carFreq) [] (.coarseCar blindAttempt ⟨0, 0x50, 4000000⟩ 27500000 1500000000)
          (returns 0x4000) ready) (.search .a)
        (.before (.devRead .a .carFreq) [] [] (.search (.coarseCar blindAttempt ⟨0, 0x50, 4000000⟩ 27500000 1500000000)))
        ⟨false, 0x4000⟩ := ⟨runs_searchAt _ _ _ _ _, runs_searchAt _ _ _ _ _⟩
theorem witness_BlindSearchSteps_fine :
    let site : WaitSite := .fine blindAttempt ⟨0, 0x50, 4000000⟩ 27500000
    Runs (searchAt (.devWrite .a .dmdState 1) [] (.armed site) (returns 0) ready) (.search .a)
        (.before (.devWrite .a .dmdState 1) [] [] (.search (.armed site))) ⟨false, 0⟩ ∧
      ((searchAt (.sleep 10) [(1 : BitVec 1).toNat] (.wait site 0) (returns 0) ready).chan .a).abortReq = false ∧
      Runs (searchAt (.sleep 10) [(1 : BitVec 1).toNat] (.wait site 0) (returns 0) ready) (.search .a)
        (.before (.sleep 10) [] [(1 : BitVec 1).toNat] (.search (.wait site 0))) ⟨false, 0⟩ ∧
      Runs (searchAt (.sleep 10) [(0 : BitVec 1).toNat] (.wait site 0) (returns 0) ready) (.search .a)
        (.before (.sleep 10) [] [(0 : BitVec 1).toNat] (.search (.wait site 0))) ⟨false, 0⟩ ∧
      Runs (searchAt (.sleep 10) [(1 : BitVec 1).toNat] (.wait site 4) (returns 0) ready) (.search .a)
        (.before (.sleep 10) [] [(1 : BitVec 1).toNat] (.search (.wait site 4))) ⟨false, 0⟩ :=
  ⟨runs_searchAt _ _ _ _ _, rfl, runs_searchAt _ _ _ _ _, runs_searchAt _ _ _ _ _, runs_searchAt _ _ _ _ _⟩
theorem witness_BlindSearchSteps :
    coldAttempt.stage = .first ∧
      Runs (searchAt (.devRead .a .agc2Integ) [] (.sweep coldAttempt 0 65536) (returns 0x800) ready) (.search .a)
        (.before (.devRead .a .agc2Integ) [] [] (.search (.sweep coldAttempt 0 65536))) ⟨false, 0x800⟩ ∧
      Runs (searchAt (.devRead .a .tmgOvf) [1500000000, 3, 0x800, 0, 1] (.coarseStep coldAttempt ⟨2, 0x40, 2000000⟩ 9) (returns 1) ready)
        (.search .a) (.before (.devRead .a .tmgOvf) [] [1500000000, 3, 0x800, 0, 1]
          (.search (.coarseStep coldAttempt ⟨2, 0x40, 2000000⟩ 9))) ⟨false, 1⟩ :=
  ⟨rfl, runs_searchAt _ _ _ _ _, runs_searchAt _ _ _ _ _⟩
theorem witness_ZigzagSweepSteps :
    coldAttempt.stage = .first ∧
      Runs (searchAt (.devRead .a .carFreq) [0x4000] (.zzAbsent coldAttempt ⟨false, 0, 0⟩) (returns 0) ready) (.search .a)
        (.before (.devRead .a .carFreq) [] [0x4000] (.search (.zzAbsent coldAttempt ⟨false, 0, 0⟩))) ⟨false, 0⟩ ∧
      Runs (searchAt (.devRead .a .flywheel) [] (.zzFlyAgain coldAttempt ⟨true, 2, 4⟩) (returns 7) ready) (.search .a)
        (.before (.devRead .a .flywheel) [] [] (.search (.zzFlyAgain coldAttempt ⟨true, 2, 4⟩))) ⟨false, 7⟩ :=
  ⟨rfl, runs_searchAt _ _ _ _ _, runs_searchAt _ _ _ _ _⟩
theorem witness_ZigzagSweepSteps_start :
    Runs (searchAt (.devRead .a .tmgLock) [] (.tmgLock coldAttempt) (returns 1) ready) (.search .a)
        (.before (.devRead .a .tmgLock) [] [] (.search (.tmgLock coldAttempt))) ⟨false, 1⟩ ∧
      Runs (searchAt (.devRead .a .tmgLock) [] (.tmgLock coldAttempt) (returns 0) ready) (.search .a)
        (.before (.devRead .a .tmgLock) [] [] (.search (.tmgLock coldAttempt))) ⟨false, 0⟩ :=
  ⟨runs_searchAt _ _ _ _ _, runs_searchAt _ _ _ _ _⟩
theorem witness_ZigzagSweepSteps_wait :
    let site : WaitSite := .zigzag coldAttempt ⟨false, 1, 2⟩
    Runs (searchAt (.devWrite .a .dmdState 2) [] (.armed site) (returns 0) ready) (.search .a)
        (.before (.devWrite .a .dmdState 2) [] [] (.search (.armed site))) ⟨false, 0⟩ ∧
      ((searchAt (.sleep 10) [(1 : BitVec 1).toNat] (.wait site 0) (returns 0) ready).chan .a).abortReq = false ∧
      Runs (searchAt (.sleep 10) [(1 : BitVec 1).toNat] (.wait site 0) (returns 0) ready) (.search .a)
        (.before (.sleep 10) [] [(1 : BitVec 1).toNat] (.search (.wait site 0))) ⟨false, 0⟩ ∧
      Runs (searchAt (.sleep 10) [(0 : BitVec 1).toNat] (.wait site 0) (returns 0) ready) (.search .a)
        (.before (.sleep 10) [] [(0 : BitVec 1).toNat] (.search (.wait site 0))) ⟨false, 0⟩ ∧
      Runs (searchAt (.sleep 10) [(1 : BitVec 1).toNat] (.wait site 2) (returns 0) ready) (.search .a)
        (.before (.sleep 10) [] [(1 : BitVec 1).toNat] (.search (.wait site 2))) ⟨false, 0⟩ :=
  ⟨runs_searchAt _ _ _ _ _, rfl, runs_searchAt _ _ _ _ _, runs_searchAt _ _ _ _ _, runs_searchAt _ _ _ _ _⟩
theorem witness_ZigzagSweepSteps_verify :
    Runs (searchAt (.devRead .a .detectedStd) [] (.zzStd coldAttempt ⟨false, 0, 1⟩) (returns 1) ready) (.search .a)
        (.before (.devRead .a .detectedStd) [] [] (.search (.zzStd coldAttempt ⟨false, 0, 1⟩))) ⟨false, 1⟩ ∧
      Runs (searchAt (.devRead .a .flywheel) [] (.zzFly coldAttempt ⟨false, 0, 1⟩) (returns 7) ready) (.search .a)
        (.before (.devRead .a .flywheel) [] [] (.search (.zzFly coldAttempt ⟨false, 0, 1⟩))) ⟨false, 7⟩ :=
  ⟨runs_searchAt _ _ _ _ _, runs_searchAt _ _ _ _ _⟩
/-- The raw values of a readback of DVBS2. -/
def rawS2 : List Int :=
  [(13 : BitVec 5).toNat, (0 : BitVec 1).toNat, (1 : BitVec 1).toNat, (3 : BitVec 2).toNat, (1 : BitVec 1).toNat]

/-- The raw values of a readback of DVBS1. -/
def rawS1 : List Int := [(3 : BitVec 3).toNat, (0 : BitVec 2).toNat, (1 : BitVec 1).toNat]

/-- A warm retry of the workaround, with inverted IQ. -/
def warmRetry : Attempt := { coldAttempt with algo := .warm, iq := 2, stage := .retryInverted }

theorem witness_SearchRangeCheck_reads :
    Runs (searchAt (.devRead .a .tmgOffset) [(3 : BitVec 2).toNat, 150000, 0x3473BC00] (.readStd coldAttempt 100) (returns 0)
          (requested 1)) (.search .a)
        (.before (.devRead .a .tmgOffset) [] [(3 : BitVec 2).toNat, 150000, 0x3473BC00] (.search (.readStd coldAttempt 100)))
        ⟨false, 0⟩ ∧
      Runs (searchAt (.devRead .a .tmgOffset) [(1 : BitVec 2).toNat, 150000, 0x3473BC00] (.readStd warmRetry 100) (returns 0)
          (requested 1)) (.search .a)
        (.before (.devRead .a .tmgOffset) [] [(1 : BitVec 2).toNat, 150000, 0x3473BC00] (.search (.readStd warmRetry 100)))
        ⟨false, 0⟩ := ⟨runs_searchAt _ _ _ _ _, runs_searchAt _ _ _ _ _⟩
theorem witness_SearchRangeCheck :
    ((3 : BitVec 2) ≠ 3 → (13 : BitVec 5) = 0 ∧ (1 : BitVec 1) = 0 ∧ (0 : BitVec 1) = 0) ∧
      ((3 : BitVec 2) = 3 → (0 : BitVec 3) = 0) ∧ ((1 : BitVec 2) = 3 → (3 : BitVec 3) = 0) ∧
      Runs (searchAt (.tunerGetFrequency .a) rawS2 (.readRest coldAttempt 100 3 150000 0x3473BC00 0) (returns 1500000000)
          (requested 1)) (.search .a)
        (.before (.tunerGetFrequency .a) [] rawS2 (.search (.readRest coldAttempt 100 3 150000 0x3473BC00 0)))
        ⟨false, 1500000000⟩ ∧
      Runs (searchAt (.tunerGetFrequency .a) rawS1 (.readRest warmRetry 100 1 150000 0x3473BC00 0) (returns 1600000000)
          (requested 1)) (.search .a)
        (.before (.tunerGetFrequency .a) [] rawS1 (.search (.readRest warmRetry 100 1 150000 0x3473BC00 0)))
        ⟨false, 1600000000⟩ :=
  ⟨by decide, by decide, by decide, runs_searchAt _ _ _ _ _, runs_searchAt _ _ _ _ _⟩
/-- A readback of channel A's request, of a DVBS1 signal. -/
def readbackS1 : Readback := ⟨1500100000, 27500209, 100000, ⟨1, 0, 3, 0, 0, 0, 0⟩⟩

theorem witness_SearchCompletes_armed :
    Runs (searchAt (.tunerSetBandwidth .a 39125000) [] (.armed (.relock coldAttempt readbackS1 150 0)) (returns 0)
          (requested 1)) (.search .a)
        (.before (.tunerSetBandwidth .a 39125000) [] [] (.search (.armed (.relock coldAttempt readbackS1 150 0)))) ⟨false, 0⟩ ∧
      Runs (searchAt (.devWrite .a .dmdState 2) [] (.armed (.relock warmRetry readbackS1 150 1)) (returns 0)
          (requested 1)) (.search .a)
        (.before (.devWrite .a .dmdState 2) [] [] (.search (.armed (.relock warmRetry readbackS1 150 1)))) ⟨false, 0⟩ :=
  ⟨runs_searchAt _ _ _ _ _, runs_searchAt _ _ _ _ _⟩
theorem witness_SearchCompletes_locks :
    ((searchAt (.sleep 10) [(1 : BitVec 1).toNat] (.wait (.relock coldAttempt readbackS1 150 0) 3) (returns 0)
        (requested 1)).chan .a).abortReq = false ∧
      Runs (searchAt (.sleep 10) [(1 : BitVec 1).toNat] (.wait (.relock coldAttempt readbackS1 150 0) 3) (returns 0)
          (requested 1)) (.search .a)
        (.before (.sleep 10) [] [(1 : BitVec 1).toNat] (.search (.wait (.relock coldAttempt readbackS1 150 0) 3))) ⟨false, 0⟩ ∧
      Runs (searchAt (.sleep 10) [(0 : BitVec 1).toNat] (.wait (.fec warmRetry readbackS1 150) 0) (returns 0)
          (requested 1)) (.search .a)
        (.before (.sleep 10) [] [(0 : BitVec 1).toNat] (.search (.wait (.fec warmRetry readbackS1 150) 0))) ⟨false, 0⟩ :=
  ⟨rfl, runs_searchAt _ _ _ _ _, runs_searchAt _ _ _ _ _⟩
theorem witness_SearchCompletes_relock :
    ((searchAt (.sleep 10) [0] (.wait (.relock coldAttempt readbackS1 150 2) 0) (returns 0) (requested 1)).chan .a).abortReq =
        false ∧ coldAttempt.stage = .first ∧
      Runs (searchAt (.sleep 10) [0] (.wait (.relock coldAttempt readbackS1 150 2) 0) (returns 0) (requested 1)) (.search .a)
        (.before (.sleep 10) [] [0] (.search (.wait (.relock coldAttempt readbackS1 150 2) 0))) ⟨false, 0⟩ ∧
      Runs (searchAt (.sleep 10) [0] (.wait (.relock coldAttempt readbackS1 150 1) 0) (returns 0) (requested 1)) (.search .a)
        (.before (.sleep 10) [] [0] (.search (.wait (.relock coldAttempt readbackS1 150 1) 0))) ⟨false, 0⟩ :=
  ⟨rfl, rfl, runs_searchAt _ _ _ _ _, runs_searchAt _ _ _ _ _⟩
theorem witness_SearchCompletes_fec :
    ((searchAt (.sleep 10) [1] (.wait (.fec coldAttempt readbackS1 150) 3) (returns 0) (requested 1)).chan .a).abortReq =
        false ∧
      Runs (searchAt (.sleep 10) [1] (.wait (.fec coldAttempt readbackS1 150) 3) (returns 0) (requested 1)) (.search .a)
        (.before (.sleep 10) [] [1] (.search (.wait (.fec coldAttempt readbackS1 150) 3))) ⟨false, 0⟩ ∧
      Runs (searchAt (.sleep 10) [0] (.wait (.fec coldAttempt readbackS1 150) 0) (returns 0) (requested 1)) (.search .a)
        (.before (.sleep 10) [] [0] (.search (.wait (.fec coldAttempt readbackS1 150) 0))) ⟨false, 0⟩ :=
  ⟨rfl, runs_searchAt _ _ _ _ _, runs_searchAt _ _ _ _ _⟩
theorem witness_SearchCompletes :
    Runs (searchAt (.devWrite .a .cntReset 1) [] .fecCleared (returns 0) (requested 1)) (.search .a)
      (.before (.devWrite .a .cntReset 1) [] [] (.search .fecCleared)) ⟨false, 0⟩ := runs_searchAt _ _ _ _ _
theorem witness_SearchAbortPoint :
    Runs (standingAt (.search .a) (.before (.sleep 5) [.prim (.devRead .a .agc2Integ)] [] (.search (.sweep coldAttempt 0 65536)))
        (returns 0) { ready with a := { abortReq := true } }) (.search .a)
        (.before (.sleep 5) [.prim (.devRead .a .agc2Integ)] [] (.search (.sweep coldAttempt 0 65536))) ⟨false, 0⟩ ∧
      (({ ready with a := { abortReq := true } } : State).chan .a).abortReq = true ∧ (ready.chan .a).abortReq = false ∧
      [Op.prim (.devRead .a .agc2Integ)] = .prim (.devRead .a .agc2Integ) :: [] :=
  ⟨runs_standingAt _ _ _ _, rfl, rfl, rfl⟩
theorem witness_LockWaitPolls_locked :
    ((searchAt (.sleep 10) [1] (.wait (.direct coldAttempt) 0) (returns 0) ready).chan .a).abortReq = false ∧
      Runs (searchAt (.sleep 10) [1] (.wait (.direct coldAttempt) 0) (returns 0) ready) (.search .a)
        (.before (.sleep 10) [] [1] (.search (.wait (.direct coldAttempt) 0))) ⟨false, 0⟩ := ⟨rfl, runs_searchAt _ _ _ _ _⟩
theorem witness_LockWaitPolls_start :
    coldAttempt.algo ≠ .blind ∧ warmRetry.algo ≠ .blind ∧
      Runs (searchAt (.devWrite .a .berMode (1 : BitVec 1).toNat) [] (.coarseDone coldAttempt) (returns 0) ready) (.search .a)
        (.before (.devWrite .a .berMode (1 : BitVec 1).toNat) [] [] (.search (.coarseDone coldAttempt))) ⟨false, 0⟩ ∧
      Runs (searchAt (.devWrite .a .dmdState (2 : BitVec 2).toNat) [] (.armed (.direct warmRetry)) (returns 0) ready)
        (.search .a) (.before (.devWrite .a .dmdState (2 : BitVec 2).toNat) [] [] (.search (.armed (.direct warmRetry))))
        ⟨false, 0⟩ := ⟨by decide, by decide, runs_searchAt _ _ _ _ _, runs_searchAt _ _ _ _ _⟩
theorem witness_LockWaitPolls_last :
    ((searchAt (.sleep 10) [0] (.wait (.direct coldAttempt) 0) (returns 0) ready).chan .a).abortReq = false ∧
      Runs (searchAt (.sleep 10) [0] (.wait (.direct coldAttempt) 0) (returns 0) ready) (.search .a)
        (.before (.sleep 10) [] [0] (.search (.wait (.direct coldAttempt) 0))) ⟨false, 0⟩ ∧
      Runs (searchAt (.sleep 10) [0] (.wait (.direct warmRetry) 0) (returns 0) ready) (.search .a)
        (.before (.sleep 10) [] [0] (.search (.wait (.direct warmRetry) 0))) ⟨false, 0⟩ :=
  ⟨rfl, runs_searchAt _ _ _ _ _, runs_searchAt _ _ _ _ _⟩
theorem witness_LockWaitPolls_polling :
    let at_ := Point.before (.devRead .a .demodLock) [.prim (.sleep 10)] [] (.search (.wait (.direct coldAttempt) 2))
    let s : State := { runningA (.search .a) [0, 0, 0, 0] {} with
      a := { eng := { busy := true, run := some ⟨.search .a, at_⟩ } } }
    s.a.abortReq = false ∧ s.running (.chan .a) = some ⟨.search .a, at_⟩ ∧
      s.turns = [(0 : Int), 0].flatMap (fun v => [.engine (.chan .a) ⟨false, v⟩, .engine (.chan .a) ⟨false, 0⟩]) ++ [] := by decide

/-- A search about to end in TRACKING: the invariant holds of it. -/
def locking : State :=
  { ready with
    a := { state := .fecLocked, req := ⟨1500000000, 27500000, 5000000, 1, 0, 0, 0, false⟩
           eng := { busy := true, run := some ⟨.search .a, .before (.devWrite .a .cntReset 1) [] [] (.search .fecCleared)⟩ } }
    turns := [.engine (.chan .a) ⟨false, 0⟩] }

theorem inv_locking : Inv locking := by
  refine ⟨rfl, ⟨rfl, rfl, rfl, rfl, rfl⟩, rfl, ⟨by decide, rfl, by decide, rfl, rfl, rfl, rfl⟩, ⟨by decide, rfl, by decide, rfl, rfl⟩⟩

/-- A locked channel whose host is about to unlock it. -/
def unlocking : State := writing 0x100 0x42 { ready with a := { state := .tracking, locked := true } }

theorem inv_unlocking : Inv unlocking := by
  refine ⟨rfl, rfl, rfl, ⟨by decide, rfl, by decide, rfl, rfl⟩, ⟨by decide, rfl, by decide, rfl, rfl⟩⟩

/-- A search about to find ch.abort set at its Sleep. -/
def aborting : State :=
  { locking with
    a := { locking.a with
      state := .directLock, abortReq := true
      eng := { busy := true, run := some ⟨.search .a, .before (.sleep 10) [] [0] (.search (.wait (.direct coldAttempt) 3))⟩ } } }

theorem inv_aborting : Inv aborting := by
  refine ⟨rfl, ⟨rfl, rfl, rfl, rfl, rfl⟩, rfl, ⟨by decide, rfl, by decide, rfl, rfl, rfl, rfl⟩, ⟨by decide, rfl, by decide, rfl, rfl⟩⟩

/-- `locking` with its transaction about to fail. -/
def failing : State := { locking with turns := [.engine (.chan .a) ⟨true, 0⟩] }

theorem inv_failing : Inv failing := inv_locking

theorem witness_SearchTransitions_edge : Inv locking ∧ after (step locking) (·.a.state) = some .tracking ∧ locking.a.state = .fecLocked :=
  ⟨inv_locking, rfl, rfl⟩
theorem witness_SearchTransitions_abort :
    Inv aborting ∧ after (step aborting) (·.a.state) = some .noLock ∧ aborting.a.state = .directLock := ⟨inv_aborting, rfl, rfl⟩
theorem witness_SearchTransitions_busError :
    Inv failing ∧ after (step failing) (·.a.state) = some .busError ∧ failing.a.state = .fecLocked := ⟨inv_failing, rfl, rfl⟩
theorem witness_SearchTransitions_host :
    Inv unlocking ∧ after (step unlocking) (·.a.state) = some .idle ∧ unlocking.a.state = .tracking ∧
      after (step unlocking) (·.running (.chan .a)) = some (some ⟨.unlock .a, .start⟩) := ⟨inv_unlocking, rfl, rfl, rfl⟩

/-- `unlocking` with TERM written to GCMD instead: both channels are parked by the acceptance of a global command. -/
def terminating : State := writing 0x004 0x02 { ready with a := { state := .tracking, locked := true } }

theorem inv_terminating : Inv terminating := inv_unlocking

theorem witness_LockedWrites :
    Inv locking ∧ after (step locking) (·.a.locked) = some true ∧ locking.a.locked = false ∧
      Inv unlocking ∧ after (step unlocking) (·.a.locked) = some false ∧ unlocking.a.locked = true :=
  ⟨inv_locking, rfl, rfl, inv_unlocking, rfl, rfl⟩
theorem witness_LockedWrites_global :
    Inv terminating ∧ after (step terminating) (·.a.locked) = some false ∧ terminating.a.locked = true ∧
      after (step terminating) (·.running .global) = some (some ⟨.term, .start⟩) := ⟨inv_terminating, rfl, rfl, rfl⟩
theorem witness_SearchTerminates :
    Inv locking ∧ locking.running (.chan .a) =
      some ⟨.search .a, .before (.devWrite .a .cntReset 1) [] [] (.search .fecCleared)⟩ := ⟨inv_locking, rfl⟩
theorem witness_StepKeepsInvariant : Inv locking ∧ after (step locking) (·.a.eng.busy) = some false := ⟨inv_locking, rfl⟩

/-! ### Errors, telemetry, lifecycle, channels, the host -/

theorem witness_BusErrorEndsCommand :
    Runs (standingAt (.getPer .a) (.before (.devRead .a .perTotal) [] [5] .perRead) ⟨true, 0⟩ ready) (.getPer .a)
        (.before (.devRead .a .perTotal) [] [5] .perRead) ⟨true, 0⟩ ∧
      Runs (searchAt (.devWrite .a .cntReset 1) [] .fecCleared ⟨true, 0⟩ (requested 1)) (.search .a)
        (.before (.devWrite .a .cntReset 1) [] [] (.search .fecCleared)) ⟨true, 0⟩ ∧
      (∀ ms, Prim.devWrite .a .cntReset 1 ≠ .sleep ms) ∧ Prim.devWrite .a .cntReset 1 ≠ .lnaProbe :=
  ⟨runs_standingAt _ _ _ _, runs_searchAt _ _ _ _ _, nofun, nofun⟩
theorem witness_BusErrorEndsCommand_first :
    Runs (standingAt (.carrierOffset .a true) .start ⟨true, 0⟩ ready) (.carrierOffset .a true) .start ⟨true, 0⟩ ∧
      Runs (standingAt (.getCn .a) .start ⟨true, 0⟩ { ready with a := { locked := true } }) (.getCn .a) .start ⟨true, 0⟩ ∧
      ((standingAt (.getCn .a) .start ⟨true, 0⟩ { ready with a := { locked := true } }).chan .a).locked = true ∧
      Runs (standingAt (.selectStandard .a true) .start ⟨true, 0⟩ (args 0xC4 0)) (.selectStandard .a true) .start ⟨true, 0⟩ ∧
      ((0xC4 : Word).extractLsb' 6 3 != (7 : BitVec 3)) = true ∧
      Runs (standingAt (.standby false) .start ⟨true, 0⟩ ready) (.standby false) .start ⟨true, 0⟩ ∧
      Runs (standingAt (.search .a) .start ⟨true, 0⟩ (requested 1)) (.search .a) .start ⟨true, 0⟩ :=
  ⟨runs_standingAt _ _ _ _, runs_standingAt _ _ _ _, rfl, runs_standingAt _ _ _ _, by decide, runs_standingAt _ _ _ _,
    runs_standingAt _ _ _ _⟩
theorem witness_SignalInfoUnlocked :
    (ready.chan .a).locked = false ∧
      Runs (standingAt (.getSignalInfo .a) .start (returns 0) ready) (.getSignalInfo .a) .start ⟨false, 0⟩ :=
  ⟨rfl, runs_standingAt _ _ _ _⟩

/-- Some values gathered by GET_SIGNAL_INFO. -/
def info : InfoLocals := ⟨1501200000, 27500209, ⟨3, 13, 0, 1, 0, 0, 0⟩, 17, 0x01000000, -40⟩

theorem witness_SignalInfoCompletes :
    ((runningA (.getSignalInfo .a) [0] { locked := true }).chan .a).locked = true ∧
      Runs (runningA (.getSignalInfo .a) [0] { locked := true }) (.getSignalInfo .a) .start ⟨false, 0⟩ ∧
      Runs (standingAt (.getSignalInfo .a) (.before (.devWrite .a .cntReset 1) [] [] (.infoReset info 90)) (returns 0) ready)
        (.getSignalInfo .a) (.before (.devWrite .a .cntReset 1) [] [] (.infoReset info 90)) ⟨false, 0⟩ ∧
      Runs (standingAt (.getSignalInfo .a) (.before (.sleep 1) [] samples16 (.infoCnSamples info 3)) (returns 0) ready)
        (.getSignalInfo .a) (.before (.sleep 1) [] samples16 (.infoCnSamples info 3)) ⟨false, 0⟩ :=
  ⟨rfl, ⟨rfl, rfl⟩, runs_standingAt _ _ _ _, runs_standingAt _ _ _ _⟩
/-- A locked channel's GET_SIGNAL_INFO standing before `now`, where `v` is answered. -/
def infoAt (now : Prim) (got : List Int) (k : Kont) (v : Int) : State :=
  standingAt (.getSignalInfo .a) (.before now [] got k) (returns v) { ready with a := { locked := true } }

theorem runs_infoAt (now : Prim) (got : List Int) (k : Kont) (v : Int) :
    Runs (infoAt now got k v) (.getSignalInfo .a) (.before now [] got k) ⟨false, v⟩ := runs_standingAt _ _ _ _

theorem witness_SignalInfoCompletes_estimates :
    Runs (infoAt (.devRead .a .carFreq) [1500000000] .infoCar 0x24000) (.getSignalInfo .a)
        (.before (.devRead .a .carFreq) [] [1500000000] .infoCar) ⟨false, 0x24000⟩ ∧
      Runs (infoAt (.devRead .a .sfr) [] (.infoSfr 1501186523) 0x34263F00) (.getSignalInfo .a)
        (.before (.devRead .a .sfr) [] [] (.infoSfr 1501186523)) ⟨false, 0x34263F00⟩ ∧
      Runs (infoAt (.devRead .a .detectedStd) [0xFFF000] (.infoStd 1501186523 27500659) 3) (.getSignalInfo .a)
        (.before (.devRead .a .detectedStd) [] [0xFFF000] (.infoStd 1501186523 27500659)) ⟨false, 3⟩ :=
  ⟨runs_infoAt _ _ _ _, runs_infoAt _ _ _ _, runs_infoAt _ _ _ _⟩
theorem witness_SignalInfoCompletes_agc1 :
    let read := fun l : List Int => ([13, 0, 1, 0, 0] : List Int) ++ l
    let got := read [(0x00800001 : BitVec 32).toNat, (0x01000000 : BitVec 32).toNat]
    let got1 : List Int := [(3 : BitVec 3).toNat, (0 : BitVec 2).toNat, (1 : BitVec 1).toNat, (0xFFFFFF : BitVec 24).toNat]
    ((infoAt (.devRead .a .agc1Integ) got (.infoAgc 1501186523 27500659 3) 6000).chan .a).locked = true ∧ (1 : BitVec 2) ≠ 3 ∧
      got = [(13 : BitVec 5).toNat, (0 : BitVec 1).toNat, (1 : BitVec 1).toNat, (0 : BitVec 2).toNat, (0 : BitVec 1).toNat,
        (0x00800001 : BitVec 32).toNat, (0x01000000 : BitVec 32).toNat] ∧
      Runs (infoAt (.devRead .a .agc1Integ) got (.infoAgc 1501186523 27500659 3) 6000) (.getSignalInfo .a)
        (.before (.devRead .a .agc1Integ) [] got (.infoAgc 1501186523 27500659 3)) ⟨false, 6000⟩ ∧
      Runs (infoAt (.devRead .a .agc1Integ) got1 (.infoAgc 1501186523 27500659 1) 6000) (.getSignalInfo .a)
        (.before (.devRead .a .agc1Integ) [] got1 (.infoAgc 1501186523 27500659 1)) ⟨false, 6000⟩ :=
  ⟨rfl, by decide, by decide, runs_infoAt _ _ _ _, runs_infoAt _ _ _ _⟩
theorem witness_SignalInfoCompletes_gain :
    ((infoAt .lnaGetGain [] (.infoGain info) 0x84).chan .a).locked = true ∧
      Runs (infoAt .lnaGetGain [] (.infoGain info) 0x84) (.getSignalInfo .a) (.before .lnaGetGain [] [] (.infoGain info))
        ⟨false, 0x84⟩ ∧
      Runs (infoAt (.devRead .a .detectedStd) [] (.infoCnStd info) 3) (.getSignalInfo .a)
        (.before (.devRead .a .detectedStd) [] [] (.infoCnStd info)) ⟨false, 3⟩ :=
  ⟨rfl, runs_infoAt _ _ _ _, runs_infoAt _ _ _ _⟩
theorem witness_GetPerCompletes :
    (ready.chan .a).locked = false ∧ Runs (standingAt (.getPer .a) .start (returns 0) ready) (.getPer .a) .start ⟨false, 0⟩ ∧
      Runs (standingAt (.getPer .a) (.before (.devRead .a .perTotal) [] [17] .perRead) (returns 0x02000000) ready) (.getPer .a)
        (.before (.devRead .a .perTotal) [] [17] .perRead) ⟨false, 0x02000000⟩ ∧
      (runningA (.getPer .a) [17, 0x02000000] { locked := true }).a.locked = true ∧
      (runningA (.getPer .a) [17, 0x02000000] { locked := true }).turns =
        [.engine (.chan .a) ⟨false, 17⟩, .engine (.chan .a) ⟨false, 0x02000000⟩] :=
  ⟨rfl, runs_standingAt _ _ _ _, runs_standingAt _ _ _ _, rfl, rfl⟩
theorem witness_LdpcMonitorCompletes :
    Runs (standingAt (.ldpcMonitor .a) .start (returns 250) ready) (.ldpcMonitor .a) .start ⟨false, 250⟩ ∧
      Runs (standingAt (.ldpcMonitor .a) (.before (.devWrite .a .ldpcCntReset 1) []
          [(201 : BitVec 16).toNat, (0 : BitVec 16).toNat] .ldpcRead) (returns 0) ready) (.ldpcMonitor .a)
        (.before (.devWrite .a .ldpcCntReset 1) [] [(201 : BitVec 16).toNat, (0 : BitVec 16).toNat] .ldpcRead) ⟨false, 0⟩ ∧
      200 < (201 : BitVec 16).toNat ∧ ¬(200 < (200 : BitVec 16).toNat ∨ 5 < (5 : BitVec 16).toNat) ∧
      (({ ready with a := { stoppedMirror := true } } : State).chan .a).stoppedMirror = true ∧ (ready.chan .a).stoppedMirror = false ∧
      Runs (standingAt (.ldpcMonitor .a) (.before (.devWrite .a .modcodeEn 0) [] [] .ldpcDisabled) (returns 0) ready)
        (.ldpcMonitor .a) (.before (.devWrite .a .modcodeEn 0) [] [] .ldpcDisabled) ⟨false, 0⟩ ∧
      Runs (standingAt (.ldpcMonitor .a) (.before (.devWrite .a .modcodeEn 0x1FFFFFFE) [] [] .ldpcEnabled) (returns 0) ready)
        (.ldpcMonitor .a) (.before (.devWrite .a .modcodeEn 0x1FFFFFFE) [] [] .ldpcEnabled) ⟨false, 0⟩ :=
  ⟨runs_standingAt _ _ _ _, runs_standingAt _ _ _ _, by decide, by decide, rfl, rfl, runs_standingAt _ _ _ _,
    runs_standingAt _ _ _ _⟩
theorem witness_InitRuns :
    let turn := fun v : Int => Turn.engine .global ⟨false, v⟩
    let s : State := { glob := { mclk := 0x20000, eng := { busy := true, run := some ⟨.init, .start⟩ } }
                       turns := [turn 0x30, turn 0, turn 0, turn 0, turn 1, turn 0, turn 0, turn 0, turn 0] }
    s.running .global = some ⟨.init, .start⟩ ∧
      s.turns = turn (0x30 : BitVec 8).toNat :: turn 0 :: turn 0 :: turn 0 ::
        .engine .global ⟨false, if true then 1 else 0⟩ :: turn 0 :: turn 0 :: turn 0 :: turn 0 :: [] := by decide
theorem witness_LifecycleCompletes_init :
    Runs (standingAt .init (.before (.devWrite .b .modcodeEn 0x1FFFFFFE) [] [1, 0] (.initDone 0x30)) (returns 0) ready) .init
      (.before (.devWrite .b .modcodeEn 0x1FFFFFFE) [] [1, 0] (.initDone 0x30)) ⟨false, 0⟩ := runs_standingAt _ _ _ _
theorem witness_LifecycleCompletes_global :
    Runs (standingAt .term (.before (.devWrite .b .dmdState 0) [] [] .termDone) (returns 0) ready) .term
        (.before (.devWrite .b .dmdState 0) [] [] .termDone) ⟨false, 0⟩ ∧
      Runs (standingAt (.standby true) (.before (.globalWrite .devStandby 1) [] [] .standbyDone) (returns 0) ready) (.standby true)
        (.before (.globalWrite .devStandby 1) [] [] .standbyDone) ⟨false, 0⟩ ∧
      Runs (standingAt (.standby false) .start (returns 0) ready) (.standby false) .start ⟨false, 0⟩ ∧
      Runs (standingAt (.setLdpcMode true) .start (returns 0) ready) (.setLdpcMode true) .start ⟨false, 0⟩ ∧
      Runs (standingAt (.unlock .b) .start (returns 0) ready) (.unlock .b) .start ⟨false, 0⟩ ∧
      Runs (standingAt .term .start (returns 0) ready) .term .start ⟨false, 0⟩ ∧
      Runs (standingAt (.standby true) .start (returns 0) ready) (.standby true) .start ⟨false, 0⟩ :=
  ⟨runs_standingAt _ _ _ _, runs_standingAt _ _ _ _, runs_standingAt _ _ _ _, runs_standingAt _ _ _ _,
    runs_standingAt _ _ _ _, runs_standingAt _ _ _ _, runs_standingAt _ _ _ _⟩
theorem witness_ChannelCommandFrame :
    (Instr.unlock .a).bank = .chan .a ∧ Chan.b ≠ .a ∧ after (exec (.unlock .a) unlocking) (·.a.state) = some .idle :=
  ⟨rfl, by decide, rfl⟩
theorem witness_ChannelNoninterference :
    let s' : State := { unlocking with b := { state := .tracking, locked := true }, hostData := 7, tick := 9 }
    unlocking.chan .a = s'.chan .a ∧ unlocking.glob = s'.glob ∧ unlocking.now = s'.now ∧
      after (exec (.unlock .a) unlocking) (·.a.state) = some .idle ∧ after (exec (.unlock .a) s') (·.a.state) = some .idle :=
  ⟨rfl, rfl, rfl, rfl, rfl⟩
theorem witness_OperandRegistersAreTheHosts :
    locking.now = .engine (.chan .a) ⟨false, 0⟩ ∧ after (step locking) (·.a.state) = some .tracking := ⟨rfl, rfl⟩
theorem witness_MclkLockedWhileInitialized :
    ready.glob.initialized = true ∧ after (step (writing 0x00C 5 ready)) (·.glob.mclk) = some 135000000 := by decide
theorem witness_HostReads :
    ({ ready with turns := [.host (.read 0x104 4)] } : State).now = .host (.read 0x104 4) ∧
      (0x00C, ready.glob.mclk) ∈ [(0x004, (0 : Word)), (0x00C, ready.glob.mclk)] ∧
      ({ ready with turns := [.host (.read 0x26C 4)] } : State).now = .host (.read (0x200 + 0x6C) 4) ∧
      ({ ready with turns := [.host (.read 0x00C 4)] } : State).now = .host (.read 0x00C 4) ∧
      (SearchState.badParameter, (0x0E : BitVec 5)) ∈ [(SearchState.idle, 0x00), (.badParameter, 0x0E)] := by decide

/-- `s` with the host about to read the register at `addr`. -/
def reading (addr : Nat) (s : State) : State := { s with turns := [.host (.read addr 4)] }

/-- The readback has been written and the search waits for the relock (R213, R374): RSL_PARAMS is open. -/
theorem witness_HostReads_open :
    let s := reading 0x14C (searchAt (.sleep 10) [0]
      (.wait (.relock coldAttempt ⟨1, 1, 1, ⟨3, 13, 0, 1, 0, 0, 0⟩⟩ 100 0) 3) (returns 0)
      { ready with a := { state := .trackingOptimized } })
    s.now = .host (.read (0x100 + 0x4C) 4) ∧ s.a.eng.busy = true ∧
      s.a.eng.run = some ⟨.search .a, .before (.sleep 10) [] [0]
        (.search (.wait (.relock coldAttempt ⟨1, 1, 1, ⟨3, 13, 0, 1, 0, 0, 0⟩⟩ 100 0) 3))⟩ ∧
      s.a.state = .trackingOptimized ∧ 0x4C ∈ [0x40, 0x44, 0x48, 0x4C] := ⟨rfl, rfl, rfl, rfl, by decide⟩
/-- A retry, back in COARSE_ACQUIRE: the result of the first attempt has been written. -/
theorem witness_HostReads_retry :
    (SearchPoint.coarseDone warmRetry).attempt = some warmRetry ∧ warmRetry.stage ≠ .first := by decide
/-- R374: before the readback RSL reads 0 while BUSY is 1, and a register the command does not write its value. -/
theorem test_read_rsl_before_readback :
    let s := { ready with a := { rslFreq := 0, res0 := 7, state := .directLock } }
    let at_ := fun addr => reading addr (searchAt (.sleep 10) [0] (.wait (.direct coldAttempt) 3) (returns 0) s)
    after (step (at_ 0x140)) (·.hostData) = some 0 ∧ after (step (at_ 0x118)) (·.hostData) = some 7 := by decide
/-- R374, I20: GET_PER runs, and RES0 reads as a free value, whatever is stored. -/
theorem test_read_res_while_busy :
    after (step (reading 0x118 (runningA (.getPer .a) [] { res0 := 7 }))) (·.hostData) = some (Config.freeBusyRead 0) := rfl
theorem witness_HostWrites :
    (writing 0x108 5 ready).now = .host (.write (0x100 + 0x08) 4 5) ∧
      (writing 0x23C 0x1FF ready).now = .host (.write (0x200 + 0x3C) 4 0x1FF) ∧
      (writing 0x16C 5 ready).now = .host (.write (0x100 + 0x6C) 4 5) ∧
      (writing 0x204 5 ready).now = .host (.write (0x200 + 0x04) 4 5) ∧
      (writing 0x000 5 ready).now = .host (.write 0x000 4 5) ∧
      (writing 0x00C 5 ready).now = .host (.write 0x00C 4 5) ∧ ready.glob.initialized = true ∧
      State.reset.glob.initialized = false := by decide
theorem witness_HostFaults :
    ({ ready with turns := [.host (.read 0x12C 4)] } : State).now = .host (.read 0x12C 4) ∧
      (writing 0x26C 5 ready).now = .host (.write 0x26C 4 5) ∧ locking.now = .engine (.chan .a) ⟨false, 0⟩ := by decide

end Sys2Proof.Tests
end

section
/-! SUPPORT. What a step of the machine is on an engine's turn, and what one engine step inside a straight line of
primitives is (00_scope.md R12, R13). -/

namespace Sys2Proof.Machine

/-! ## A step is its turn (00_scope.md R13) -/

/-- A turn that answers a next state makes the step that turn, and then the next turn's turn. -/
theorem step_of_takeTurn {s t : State} (h : takeTurn s = .next t) : step s = .next t.advance := by
  simp only [step, h]

theorem takeTurn_engine_running {s : State} {e : Bank} {ans : Answer} {r : Run} (hn : s.now = .engine e ans)
    (hr : s.running e = some r) : takeTurn s = exec r.instr s := by
  simp only [takeTurn, hn, hr]

theorem takeTurn_engine_idle {s : State} {e : Bank} {ans : Answer} (hn : s.now = .engine e ans)
    (hr : s.running e = none) : takeTurn s = .next s := by
  simp only [takeTurn, hn, hr]

/-- Settles O6: an engine's turn is `exec` of its running command, which always answers a next state. -/
theorem stepRunsEngine : Obligations.StepRunsEngine := by
  intro s e ans hn
  constructor
  · intro r hr
    obtain ⟨t, ht⟩ := exec_next r.instr s
    have hturn : takeTurn s = .next t := (takeTurn_engine_running hn hr).trans ht
    rw [ht]
    exact step_of_takeTurn hturn
  · intro hr
    exact step_of_takeTurn (takeTurn_engine_idle hn hr)

/-! ## Inside a straight line of primitives -/

/-- An operand is computed from the global bank alone, which recording a transaction leaves as it is. -/
@[simp] theorem resolve_logged (cfg : Cfg) (e : Bank) (q : Prim) (v : Int) (ok : Bool) (s : State) (op : Op) :
    resolve cfg (logged e q v ok s) op = resolve cfg s op := by
  cases op <;> rfl

/-- A transaction that succeeds: what it returns, if anything, is kept and recorded, and the straight line goes on. -/
theorem perform_succeeds {cfg : Cfg} {p : Program} {i : Instr} {v : Int} {q : Prim} {rest : List Op} {got : List Int}
    {k : Kont} {s : State} (hq : ∀ ms, q ≠ .sleep ms) :
    perform cfg p i ⟨false, v⟩ q rest got k s =
      proceed cfg p i rest (got ++ (q.value v).toList) k (logged i.bank q ((q.value v).getD 0) true s) := by
  cases hv : q.value v with
  | some w => exact perform_read hq hv
  | none => simpa using perform_write hq hv

/-- To record a transaction and then stand at a program point writes the history and the engine, and nothing else. -/
theorem atPoint_logged (i : Instr) (p : Point) (e : Bank) (q : Prim) (v : Int) (ok : Bool) (s : State) :
    atPoint i p (logged e q v ok s) =
      { s.updEng i.bank (standing i p) with bus := ⟨e, q.delivered, v, ok⟩ :: s.bus } := by
  unfold atPoint
  cases i.bank with
  | global => rfl
  | chan c => cases c <;> rfl

/-- One step of a running command whose transaction is not the last primitive of its straight line. -/
theorem exec_straightLine {s : State} {i : Instr} {q : Prim} {op : Op} {ops : List Op} {got : List Int} {k : Kont}
    {v : Int} (hi : isAbort i = false) (hq : ∀ ms, q ≠ .sleep ms)
    (h : Runs s i (.before q (op :: ops) got k) ⟨false, v⟩) :
    exec i s = .next
      { s.updEng i.bank (standing i (.before (resolve Config.cfg s op) ops (got ++ (q.value v).toList) k)) with
        bus := ⟨i.bank, q.delivered, (q.value v).getD 0, true⟩ :: s.bus } := by
  refine exec_of_runs h hi ?_
  simp only [engineStep, perform_succeeds hq, proceed, resolve_logged, atPoint_logged]

theorem isAbort_eq_false {i : Instr} (h : ∀ c, i ≠ .abort c) : isAbort i = false := by
  cases i with
  | abort c => exact absurd rfl (h c)
  | _ => rfl

/-- Settles O8: what remains after `exec_straightLine` is that the widths, the value kept, the primitive delivered and
the next operand are those the statement lists, one by one for each field, primitive and operation. -/
theorem straightLineStep : Obligations.StraightLineStep := by
  intro s i q op ops got k v readWidth writeWidth globalWidth kept delivered hi hq h
  have hread : ∀ f, f.width = readWidth f := by intro f; cases f <;> rfl
  have hwrite : ∀ f, f.width = writeWidth f := by intro f; cases f <;> rfl
  have hglobal : ∀ f, f.width = globalWidth f := by intro f; cases f <;> rfl
  have hkept : q.value v = kept := by
    subst kept
    cases q with
    | devRead c f => simp only [Prim.value, zext, hread]
    | lnaProbe => simp only [Prim.value, zext, pow_one]
    | _ => rfl
  have hdelivered : q.delivered = delivered := by
    subst delivered
    cases q with
    | devWrite c f x => simp only [Prim.delivered, zext, hwrite]
    | globalWrite f x => simp only [Prim.delivered, zext, hglobal]
    | _ => rfl
  rw [exec_straightLine (isAbort_eq_false hi) hq h, hkept, hdelivered]
  cases op <;> rfl

end Sys2Proof.Machine
end

section
/-! SUPPORT. What one step of the machine can do, seen by the invariant: what the host's accesses and an acceptance
leave of the channels (30_encoding.md R105), and how a step of a command goes on or ends, for a command other than
SEARCH and for a SEARCH (00_scope.md R13; 43_search_fsm.md R219, R221, R223). -/

namespace Sys2Proof.Machine

/-! ## Engines and running commands -/

theorem engineInv_iff_of_running {e : Bank} {g : Engine} {r : Run} (h : g.run = some r) :
    EngineInv e g ↔ g.busy = true ∧ r.instr.bank = e ∧ r.instr.wellFormed = true ∧ isAbort r.instr = false ∧
      pointOk r.instr r.point := by
  simp [EngineInv, h]

/-- An engine that is not busy runs nothing (10_state.md R36). -/
theorem EngineInv.run_eq_none {e : Bank} {g : Engine} (h : EngineInv e g) (hb : g.busy = false) : g.run = none := by
  cases hr : g.run with
  | none => rfl
  | some r =>
    rw [engineInv_iff_of_running hr] at h
    rw [h.1] at hb
    cases hb

@[simp] theorem searchRun_none : searchRun none = none := rfl

@[simp] theorem searchRun_search (c : Chan) (p : Point) : searchRun (some ⟨.search c, p⟩) = some p := rfl

theorem searchRun_of_not_search {i : Instr} (p : Point) (h : isSearch i = false) : searchRun (some ⟨i, p⟩) = none := by
  cases i with
  | search c => cases h
  | _ => rfl

theorem Inv.engine {s : State} (h : Inv s) (e : Bank) : EngineInv e (s.eng e) := ((inv_iff s).1 h).1 e

theorem Inv.chan {s : State} (h : Inv s) (c : Chan) : ChannelInv (s.chan c) := ((inv_iff s).1 h).2 c

/-! ## Host accesses -/

/-- A host write to a register of a channel bank writes an operand register, or nothing. -/
theorem quietChan_writeChan (v : Word) (r : ChanReg) : QuietChan (writeChan v · r) := by
  cases r <;> constructor <;> intro ch <;> first | rfl | exact id

theorem inv_writeReg {s : State} (h : Inv s) (v : Word) (r : Reg) : Inv (writeReg s v r) := by
  cases r with
  | mclk =>
    simp only [writeReg]
    split
    · exact h
    · exact h
  | chan c r => exact inv_quiet h (quiet_updChan s c (quietChan_writeChan v r))
  | gid => exact h
  | gcmd => exact h
  | gstatus => exact h

theorem inv_reject {s : State} (h : Inv s) (e : Bank) (opcode : BitVec 8) (code : CmdResult) :
    Inv (reject e opcode code s) :=
  inv_updEng h (h.engine e) rfl

theorem inv_abortRequested {s : State} (h : Inv s) (c : Chan) : Inv (abortRequested c s) := by
  unfold abortRequested
  split
  · cases c <;> exact h
  · exact h

/-! ## Acceptance -/

theorem guarded_ok {ok : Bool} {i j : Instr} (h : guarded ok i = .ok j) : j = i := by
  unfold guarded at h
  split at h
  · exact (Except.ok.inj h).symm
  · cases h

/-- A word that decodes is a command of the bank it was decoded for (R20, R102). -/
theorem bank_of_decode {bank : Bank} {w : Word} {i : Instr} (h : decode bank w = .ok i) : i.bank = bank := by
  cases bank with
  | global =>
    simp only [decode, decodeGlobal] at h
    split at h <;> first | (rw [guarded_ok h]; rfl) | cases h
  | chan c =>
    simp only [decode, decodeChan] at h
    split at h <;> first | (rw [guarded_ok h]; rfl) | cases h

/-- A command on a host turn: ABORT sets its flag; any other command is rejected, or accepted with its acceptance
actions (R105). -/
theorem exec_host_cases {s t : State} {acc : HostAccess} {i : Instr} (hn : s.now = .host acc) (h : exec i s = .next t) :
    (∃ c, i = .abort c ∧ t = abortRequested c s) ∨ (∃ code, t = reject i.bank i.opcode code s) ∨
      (isAbort i = false ∧ rejection i s = none ∧ t = (ruleOf Config.cfg i).onAccept (accept i s)) := by
  cases hi : isAbort i with
  | true =>
    cases i with
    | abort c =>
      rw [exec_abort_host c hn] at h
      exact .inl ⟨c, rfl, (Host.Outcome.next.inj h).symm⟩
    | _ => cases hi
  | false =>
    rw [exec_eq_runCommand hi, runCommand_host _ _ _ hn] at h
    have ht := (Host.Outcome.next.inj h).symm
    rcases hostTurn_cases i (ruleOf Config.cfg i) s with ⟨code, -, he⟩ | ⟨hr, he⟩
    · exact .inr (.inl ⟨code, ht.trans he⟩)
    · exact .inr (.inr ⟨rfl, hr, ht.trans he⟩)

/-- The commands whose acceptance actions write the bank of channel `c` (43_search_fsm.md R200; 46_lifecycle.md R320 to
R322, R325). -/
def rests (c : Chan) : List Instr := [.search c, .unlock c, .standby true, .init, .term]

/-- What acceptance actions leave of a channel bank they write: an IDLE channel that is not locked. -/
structure Rested (i : Instr) (ch ch' : Channel) : Prop where
  eng : ch'.eng = ch.eng
  state : ch'.state = .idle
  locked : ch'.locked = false
  blindPhase : ch'.blindPhase = .none
  stopped : ch'.ldpcStopped = ch.ldpcStopped
  mirror : ch'.stoppedMirror = ch.stoppedMirror
  mask : ch'.modcodeMask = ch.modcodeMask
  aborted : isSearch i = true → ch'.aborted = false

theorem rested_parked {i : Instr} (h : isSearch i = false) (ch : Channel) : Rested i ch ch.parked :=
  ⟨rfl, rfl, rfl, rfl, rfl, rfl, rfl, by simp [h]⟩

theorem rested_initAccepted (i : Instr) (ch : Channel) : Rested i ch ch.initAccepted :=
  ⟨rfl, rfl, rfl, rfl, rfl, rfl, rfl, fun _ => rfl⟩

theorem rested_searchAccepted (i : Instr) (ch : Channel) : Rested i ch (searchAccepted ch) :=
  ⟨rfl, rfl, rfl, rfl, rfl, rfl, rfl, fun _ => rfl⟩

@[simp] theorem State.updBoth_chan (s : State) (f : Channel → Channel) (c : Chan) :
    (s.updBoth f).chan c = f (s.chan c) := by cases c <;> rfl

@[simp] theorem State.updBoth_glob (s : State) (f : Channel → Channel) : (s.updBoth f).glob = s.glob := rfl

/-- Acceptance actions write the bank of a channel exactly for the commands of `rests`. -/
theorem onAccept_chan (cfg : Cfg) (i : Instr) (s : State) (c : Chan) :
    (i ∉ rests c ∧ ((ruleOf cfg i).onAccept s).chan c = s.chan c) ∨
      (i ∈ rests c ∧ Rested i (s.chan c) (((ruleOf cfg i).onAccept s).chan c)) := by
  have own : ∀ {d : Chan} {f : Channel → Channel}, i = .search d ∨ i = .unlock d →
      (∀ ch, Rested i ch (f ch)) → (i ∉ rests c ∧ (s.updChan d f).chan c = s.chan c) ∨
        (i ∈ rests c ∧ Rested i (s.chan c) ((s.updChan d f).chan c)) := by
    intro d f hi hf
    by_cases h : c = d
    · subst h
      rw [State.updChan_chan]
      exact .inr ⟨by rcases hi with rfl | rfl <;> simp [rests], hf _⟩
    · exact .inl ⟨by rcases hi with rfl | rfl <;> simpa [rests] using Ne.symm h, State.updChan_chan_other s f h⟩
  cases i with
  | init =>
    refine .inr ⟨by simp [rests], ?_⟩
    simpa [ruleOf, initProgram] using rested_initAccepted .init (s.chan c)
  | term =>
    refine .inr ⟨by simp [rests], ?_⟩
    simpa [ruleOf, termProgram] using rested_parked rfl (s.chan c)
  | standby enter =>
    cases enter with
    | true =>
      refine .inr ⟨by simp [rests], ?_⟩
      simpa [ruleOf, standbyProgram] using rested_parked rfl (s.chan c)
    | false => exact .inl ⟨by simp [rests], rfl⟩
  | unlock d => exact own (.inr rfl) (rested_parked rfl)
  | search d => exact own (.inl rfl) (rested_searchAccepted _)
  | _ => exact .inl ⟨by simp [rests], rfl⟩

/-- Acceptance actions write no global register. -/
theorem onAccept_glob (cfg : Cfg) (i : Instr) (s : State) : ((ruleOf cfg i).onAccept s).glob = s.glob := by
  cases i with
  | init => exact State.updBoth_glob s _
  | term => exact State.updBoth_glob s _
  | standby enter =>
    cases enter with
    | true => exact State.updBoth_glob s _
    | false => rfl
  | unlock d => exact State.updChan_glob s d _
  | search d => exact State.updChan_glob s d _
  | _ => rfl

/-- Acceptance actions leave every engine as it is. -/
theorem onAccept_eng (cfg : Cfg) (i : Instr) (s : State) (e : Bank) : ((ruleOf cfg i).onAccept s).eng e = s.eng e := by
  cases e with
  | global => simp [onAccept_glob]
  | chan c =>
    rcases onAccept_chan cfg i s c with ⟨-, h⟩ | ⟨-, h⟩
    · simp [h]
    · simp [h.eng]

/-- A command whose acceptance writes a channel bank is accepted only while that channel's engine is idle (R105 lines (4)
and (5)). -/
theorem idle_of_rests {i : Instr} {s : State} {c : Chan} (hr : rejection i s = none) (hi : i ∈ rests c) :
    (s.chan c).eng.busy = false := by
  obtain ⟨hown, hgate, -⟩ := rejection_none hr
  have gated : gatedByChannels i = true → (s.chan c).eng.busy = false := by
    intro h
    obtain ⟨ha, hb⟩ := hgate h
    cases c
    · exact ha
    · exact hb
  simp only [rests, List.mem_cons, List.not_mem_nil, or_false] at hi
  rcases hi with rfl | rfl | rfl | rfl | rfl
  · exact hown
  · exact hown
  · exact gated rfl
  · exact gated rfl
  · exact gated rfl

theorem wellFormed_of_rejection_none {i : Instr} {s : State} (h : rejection i s = none) : i.wellFormed = true := by
  obtain ⟨-, -, -, -, hb⟩ := rejection_none h
  cases hw : i.wellFormed with
  | true => rfl
  | false => simp [badOperand, hw] at hb

/-- An acceptance makes its own engine run the command from its start, and leaves the other engines as they are. -/
theorem engineInv_accept {i : Instr} {s : State} (h : Inv s) (hi : isAbort i = false) (hr : rejection i s = none)
    (e : Bank) : EngineInv e ((accept i s).eng e) := by
  by_cases he : e = i.bank
  · subst he
    rw [accept_eng]
    exact ⟨rfl, rfl, wellFormed_of_rejection_none hr, hi, trivial⟩
  · rw [accept, State.updEng_eng_other s _ he]
    exact h.engine e

theorem accept_chan (i : Instr) (s : State) (c : Chan) :
    (accept i s).chan c = { s.chan c with eng := (accept i s).eng (.chan c) } := chan_updEng s i.bank _ c

/-- The SEARCH a channel's engine runs after an acceptance: the accepted one, or the one it ran before. -/
theorem searchRun_accept {i : Instr} {s : State} (h : Inv s) (hr : rejection i s = none) (c : Chan) :
    (i = .search c ∧ ((accept i s).eng (.chan c)).run = some ⟨i, .start⟩) ∨
      searchRun ((accept i s).eng (.chan c)).run = searchRun (s.chan c).eng.run := by
  by_cases hc : Bank.chan c = i.bank
  · have hidle : (s.chan c).eng.run = none := by
      have hb := (rejection_none hr).1
      rw [← hc] at hb
      exact (h.engine (.chan c)).run_eq_none hb
    have hrun : ((accept i s).eng (.chan c)).run = some ⟨i, .start⟩ := by rw [hc, accept_eng]
    cases hs : isSearch i with
    | true =>
      cases i with
      | search d =>
        obtain rfl : c = d := Bank.chan.inj hc
        exact .inl ⟨rfl, hrun⟩
      | _ => cases hs
    | false => exact .inr (by rw [hrun, hidle, searchRun_of_not_search _ hs, searchRun_none])
  · right
    rw [accept, State.updEng_eng_other s _ hc, State.eng_chan]

/-- A channel bank that acceptance actions wrote, on which a SEARCH runs only from its start. -/
theorem channelInv_rested {i : Instr} {ch ch' : Channel} (hr : Rested i ch ch')
    (hs : (isSearch i = true ∧ searchRun ch'.eng.run = some .start) ∨ searchRun ch'.eng.run = none)
    (hm : ch.stoppedMirror = ch.ldpcStopped) (hk : ch.ldpcStopped = true → ch.modcodeMask = 0) : ChannelInv ch' := by
  rw [channelInv_iff]
  refine ⟨⟨by simp [hr.locked, hr.state], ?_, ?_⟩, ?_⟩
  · rw [hr.mirror, hr.stopped, hm]
  · rw [hr.mask, hr.stopped]
    exact hk
  · rcases hs with ⟨hi, hs⟩ | hs <;> rw [hs]
    · exact ⟨hr.aborted hi, hr.state, hr.blindPhase⟩
    · exact ⟨by rw [hr.state]; rfl, hr.blindPhase⟩

/-- An accepted command and its acceptance actions keep the invariant. -/
theorem inv_accepted (cfg : Cfg) {i : Instr} {s : State} (h : Inv s) (hi : isAbort i = false)
    (hr : rejection i s = none) : Inv ((ruleOf cfg i).onAccept (accept i s)) := by
  rw [inv_iff]
  refine ⟨fun e => by rw [onAccept_eng]; exact engineInv_accept h hi hr e, fun c => ?_⟩
  have hch := h.chan c
  rcases onAccept_chan cfg i (accept i s) c with ⟨hmem, he⟩ | ⟨hmem, hrest⟩
  · rw [he, accept_chan]
    refine channelInv_same hch rfl rfl rfl rfl rfl id id ?_
    rcases searchRun_accept h hr c with ⟨rfl, -⟩ | hs
    · exact absurd (by simp [rests]) hmem
    · exact hs
  · have hidle : (s.chan c).eng.run = none := (h.engine (.chan c)).run_eq_none (idle_of_rests hr hmem)
    obtain ⟨-, hm, hk, -⟩ := hch
    rw [accept_chan] at hrest
    refine channelInv_rested hrest ?_ hm hk
    rw [hrest.eng]
    rcases searchRun_accept h hr c with ⟨rfl, hrun⟩ | hs
    · exact .inl ⟨rfl, by rw [hrun, searchRun_search]⟩
    · exact .inr (by rw [hs, hidle, searchRun_none])

/-! ## A step of a command other than SEARCH -/

/-- `t` is `s` after transactions, Sleeps and computations of a command other than SEARCH. -/
structure Calm (s t : State) : Prop where
  inv : Inv s → Inv t
  run : ∀ e, (t.eng e).run = (s.eng e).run
  state : ∀ c, (t.chan c).state = (s.chan c).state
  locked : ∀ c, (t.chan c).locked = (s.chan c).locked

theorem Calm.trans {s t u : State} (h : Calm s t) (k : Calm t u) : Calm s u :=
  ⟨k.inv ∘ h.inv, fun e => (k.run e).trans (h.run e), fun c => (k.state c).trans (h.state c),
    fun c => (k.locked c).trans (h.locked c)⟩

theorem Quiet.calm {s t : State} (h : Quiet s t) : Calm s t :=
  ⟨fun hi => inv_quiet hi h, fun e => by rw [h.eng e], h.state, h.locked⟩

theorem Moved.calm {i : Instr} {s t : State} (h : Moved i s t) : Calm s t := by
  refine ⟨fun hi => inv_moved hi h, running_moved h, fun c => ?_, fun c => ?_⟩ <;>
    obtain ⟨g, -, hg⟩ := moved_chan h c <;> rw [hg]

theorem Calm.refl (s : State) : Calm s s := (Quiet.refl s).calm

/-- What a step of a command `i` other than SEARCH leaves: the command stands at one of its own program points, or has
ended, after quiet computations. -/
inductive PlainStep (i : Instr) (s : State) : State → Prop
  | stands {u : State} (now : Prim) (rest : List Op) (got : List Int) (k : Kont) :
      Calm s u → ownsPoint i k = true → PlainStep i s (atPoint i (.before now rest got k) u)
  | ends {u : State} (code : CmdResult) : Calm s u → PlainStep i s (complete i code u)

theorem PlainStep.after {i : Instr} {s s' t : State} (h : Calm s s') (k : PlainStep i s' t) : PlainStep i s t := by
  cases k with
  | stands now rest got k hc hp => exact .stands now rest got k (h.trans hc) hp
  | ends code hc => exact .ends code (h.trans hc)

theorem plainStep_of_settle {cfg : Cfg} {i : Instr} {s t : State} {fl : Flow} (hq : QuietFlow i s fl)
    (h : settle cfg i fl = some t) : PlainStep i s t := by
  rcases settle_cases h with ⟨u, first, rest, k, rfl, rfl⟩ | ⟨u, code, rfl, rfl⟩
  · exact .stands _ _ _ _ hq.1.calm hq.2
  · exact .ends _ (Quiet.calm hq)

theorem plainStep_of_perform {cfg : Cfg} {i : Instr} {ans : Answer} {now : Prim} {rest : List Op} {got : List Int}
    {k : Kont} {s t : State} (hi : isSearch i = false) (hk : ownsPoint i k = true)
    (h : perform cfg (ruleOf cfg i) i ans now rest got k s = some t) : PlainStep i s t := by
  rcases perform_cases h with ⟨-, ha, -⟩ | ⟨-, -, rfl⟩ | ⟨u, got', hm, -, hp⟩
  · rw [(ruleOf_plain cfg hi s).1] at ha
    cases ha
  · rw [(ruleOf_plain cfg hi _).2.1]
    exact .ends _ (Moved.calm (.inl ⟨now, 0, false, rfl⟩))
  · refine PlainStep.after hm.calm ?_
    rcases proceed_cases hp with ⟨op, ops, -, rfl⟩ | ⟨-, hs⟩
    · exact .stands _ _ _ _ (Calm.refl u) hk
    · exact plainStep_of_settle (resume_quiet cfg hi k got' u) hs

/-- Every engine step of a command other than SEARCH, from a program point of its own. -/
theorem plainStep_of_engineStep {cfg : Cfg} {i : Instr} {ans : Answer} {p : Point} {s t : State}
    (hi : isSearch i = false) (hp : pointOk i p) (h : engineStep cfg (ruleOf cfg i) i ans p s = some t) :
    PlainStep i s t := by
  have hq := entry_quiet cfg hi s
  rcases engineStep_cases h with ⟨u, code, -, he, rfl⟩ | ⟨u, first, rest, k, -, he, hperf⟩ | ⟨now, rest, got, k, rfl, hperf⟩
  · rw [he] at hq
    exact .ends _ (Quiet.calm hq)
  · rw [he] at hq
    exact PlainStep.after hq.1.calm (plainStep_of_perform hi hq.2 hperf)
  · exact plainStep_of_perform hi hp hperf

/-- Setting the program point of a running command other than SEARCH to one of its own keeps the invariant. -/
theorem inv_atPoint {i : Instr} {p q : Point} {s : State} (h : Inv s) (hi : isSearch i = false)
    (hr : (s.eng i.bank).run = some ⟨i, q⟩) (hp : pointOk i p) : Inv (atPoint i p s) := by
  have he := h.engine i.bank
  rw [engineInv_iff_of_running hr] at he
  obtain ⟨hb, hbank, hwf, ha, -⟩ := he
  refine inv_updEng h ?_ ?_
  · exact ⟨hb, hbank, hwf, ha, hp⟩
  · rw [hr, searchRun_of_not_search _ hi, searchRun_of_not_search _ hi]

/-- The end of a command other than SEARCH keeps the invariant. -/
theorem inv_complete {i : Instr} {q : Point} {s : State} (h : Inv s) (hi : isSearch i = false)
    (hr : (s.eng i.bank).run = some ⟨i, q⟩) (code : CmdResult) : Inv (complete i code s) := by
  refine inv_updEng h rfl ?_
  rw [hr, searchRun_of_not_search _ hi, searchRun_none]

theorem inv_plainStep {i : Instr} {p : Point} {s t : State} (h : Inv s) (hi : isSearch i = false)
    (hr : s.running i.bank = some ⟨i, p⟩) (k : PlainStep i s t) : Inv t := by
  cases k with
  | stands now rest got k hc hp => exact inv_atPoint (hc.inv h) hi ((hc.run _).trans hr) hp
  | ends code hc => exact inv_complete (hc.inv h) hi ((hc.run _).trans hr) code

/-! ## A step of a SEARCH -/

/-- `t` is `s` after transactions, Sleeps and computations of a SEARCH on channel `c`: STATE, BLIND_PHASE and the RSL
registers are free, and so are the history of the bus and the elapsed time. -/
structure Ran (c : Chan) (s t : State) : Prop where
  glob : t.glob = s.glob
  others : ∀ d, d ≠ c → t.chan d = s.chan d
  run : (t.chan c).eng.run = (s.chan c).eng.run
  busy : (t.chan c).eng.busy = (s.chan c).eng.busy
  req : (t.chan c).req = (s.chan c).req
  aborted : (t.chan c).aborted = (s.chan c).aborted
  locked : (t.chan c).locked = (s.chan c).locked
  mirror : (s.chan c).stoppedMirror = (s.chan c).ldpcStopped → (t.chan c).stoppedMirror = (t.chan c).ldpcStopped
  mask : ((s.chan c).ldpcStopped = true → (s.chan c).modcodeMask = 0) →
    (t.chan c).ldpcStopped = true → (t.chan c).modcodeMask = 0

theorem Ran.trans {c : Chan} {s t u : State} (h : Ran c s t) (k : Ran c t u) : Ran c s u :=
  ⟨k.glob.trans h.glob, fun d hd => (k.others d hd).trans (h.others d hd), k.run.trans h.run, k.busy.trans h.busy,
    k.req.trans h.req, k.aborted.trans h.aborted, k.locked.trans h.locked, fun x => k.mirror (h.mirror x),
    fun x => k.mask (h.mask x)⟩

theorem Keeps.ran {c : Chan} {s t : State} (h : Keeps c s t) : Ran c s t :=
  ⟨h.glob, h.others, by rw [h.eng], by rw [h.eng], h.req, h.aborted, h.locked, h.mirror, h.mask⟩

theorem Ran.refl (c : Chan) (s : State) : Ran c s s := (Keeps.refl c s).ran

theorem ran_logged (c : Chan) (e : Bank) (q : Prim) (v : Int) (ok : Bool) (s : State) : Ran c s (logged e q v ok s) := by
  constructor <;> simp

theorem ran_slept (c : Chan) (ms : Nat) (s : State) : Ran c s (slept (.chan c) ms s) := by
  constructor <;> simp only [slept, State.updEng_chan_glob, State.updEng_chan_chan] <;> try exact id
  exact fun d hd => State.updEng_chan_chan_other s _ hd

theorem Moved.ran {c : Chan} {s t : State} (h : Moved (.search c) s t) : Ran c s t := by
  rcases h with ⟨q, v, ok, rfl⟩ | ⟨ms, rfl⟩
  · exact ran_logged c _ q v ok s
  · exact ran_slept c ms s

/-- A primitive that went through leaves STATE as it is. -/
theorem Moved.state {i : Instr} {s t : State} (h : Moved i s t) (c : Chan) : (t.chan c).state = (s.chan c).state :=
  h.calm.state c

/-- What a step of a SEARCH on channel `c` leaves: the SEARCH stands at a program point that STATE names, reached over no
edge of the transition table or over one; or it has ended, over an edge, in a bus error, or at an abort point (R219,
R221, R223, R224). -/
inductive SearchStep (c : Chan) (s : State) : State → Prop
  | stands {u : State} (now : Prim) (rest : List Op) (got : List Int) (p : SearchPoint) :
      Ran c s u → (u.chan c).state = p.state → p.fits = true → (algoOf (s.chan c).req.algo).isSome →
      (p.state = (s.chan c).state ∨ searchEdge (s.chan c).state p.state = true) →
      SearchStep c s (atPoint (.search c) (.before now rest got (.search p)) u)
  | ends {u : State} (st : SearchState) :
      Ran c s u → searchEdge (s.chan c).state st = true → st.transient = false → st ≠ .idle →
      (st = .tracking → (s.chan c).state = .fecLocked) →
      SearchStep c s (complete (.search c) .ok (u.updChan c (Channel.finished st)))
  | fails {u : State} :
      Ran c s u → SearchStep c s (complete (.search c) .busError (u.updChan c (Channel.finished .busError)))
  | aborts : (s.chan c).abortReq = true → SearchStep c s (complete (.search c) .ok (s.updChan c searchAborted))

theorem searchStep_of_settle {cfg : Cfg} {c : Chan} {s u t : State} {fl : Flow} (hr : Ran c s u)
    (ha : (algoOf (s.chan c).req.algo).isSome) (hf : SearchFlow c (s.chan c).state u fl)
    (h : settle cfg (.search c) fl = some t) : SearchStep c s t := by
  rcases settle_cases h with ⟨v, first, rest, k, rfl, rfl⟩ | ⟨v, code, rfl, rfl⟩
  · obtain ⟨hk, p, rfl, hs, hp, he⟩ := hf
    exact .stands _ _ _ p (hr.trans hk.ran) hs hp ha he
  · obtain ⟨rfl, st, w, hk, he, ht, hi, hl, rfl⟩ := hf
    exact .ends st (hr.trans hk.ran) he ht hi hl

/-- One primitive of a SEARCH and the computation after it. -/
theorem searchStep_of_perform {cfg : Cfg} {c : Chan} {ans : Answer} {now : Prim} {rest : List Op} {got : List Int}
    {p : SearchPoint} {s t : State} (hs : (s.chan c).state = p.state) (hf : p.fits = true)
    (ha : (algoOf (s.chan c).req.algo).isSome)
    (h : perform cfg (searchProgram cfg c) (.search c) ans now rest got (.search p) s = some t) : SearchStep c s t := by
  rcases perform_cases h with ⟨-, habort, rfl⟩ | ⟨-, -, rfl⟩ | ⟨u, got', hm, -, hp⟩
  · exact .aborts habort
  · exact .fails (ran_logged c _ now 0 false s)
  · have hu : (u.chan c).state = p.state := (hm.state c).trans hs
    rcases proceed_cases hp with ⟨op, ops, -, rfl⟩ | ⟨-, hset⟩
    · exact .stands _ _ _ p hm.ran hu hf ha (.inl hs.symm)
    · refine searchStep_of_settle hm.ran ha ?_ hset
      rw [hs]
      exact searchResume_flow hu hf

theorem algoOf_isSome_of_validRequest {cfg : Cfg} {r : Request} (h : validRequest cfg r = true) :
    (algoOf r.algo).isSome := by
  simp only [validRequest, Bool.and_eq_true] at h
  obtain ⟨⟨⟨⟨⟨ha, -⟩, -⟩, -⟩, -⟩, -⟩ := h
  exact ha

/-- The entry of a SEARCH: it ends in BAD_PARAMETER, or goes on in IDLE with a request that names an algorithm (R201,
R204, R205). -/
theorem searchEntry_cases (cfg : Cfg) (c : Chan) (s : State) :
    searchEntry cfg c s = finish c .badParameter s ∨
      ∃ first p, searchEntry cfg c s = .go s first [] (.search p) ∧ p.state = .idle ∧ p.fits = true ∧
        (algoOf (s.chan c).req.algo).isSome := by
  unfold searchEntry
  split
  · exact .inl rfl
  · rename_i hv
    have ha := algoOf_isSome_of_validRequest (by simpa using hv)
    split
    · exact .inr ⟨_, .reenabled, rfl, rfl, rfl, ha⟩
    · exact .inr ⟨_, .agc1, rfl, rfl, rfl, ha⟩

/-- Every engine step of a SEARCH, from a program point that STATE names and whose locals fit. -/
theorem searchStep_of_engineStep {cfg : Cfg} {c : Chan} {ans : Answer} {p : Point} {s t : State}
    (hp : SearchInv (s.chan c) p) (h : engineStep cfg (searchProgram cfg c) (.search c) ans p s = some t) :
    SearchStep c s t := by
  rcases engineStep_cases h with ⟨u, code, rfl, he, rfl⟩ | ⟨u, first, rest, k, rfl, he, hperf⟩ |
    ⟨now, rest, got, k, rfl, hperf⟩
  · rcases searchEntry_cases cfg c s with hb | ⟨_, q, hg, -⟩
    · obtain ⟨rfl, rfl⟩ := Flow.done.inj (he.symm.trans hb)
      refine .ends .badParameter (Ran.refl c s) ?_ rfl (by decide) nofun
      rw [hp.1]
      rfl
    · cases he.symm.trans hg
  · rcases searchEntry_cases cfg c s with hb | ⟨_, q, hg, hq, hf, ha⟩
    · cases he.symm.trans hb
    · obtain ⟨rfl, -, rfl, rfl⟩ := Flow.go.inj (he.symm.trans hg)
      exact searchStep_of_perform (hp.1.trans hq.symm) hf ha hperf
  · cases k with
    | search q =>
      obtain ⟨hs, ha, hf⟩ := hp
      exact searchStep_of_perform hs hf ha hperf
    | _ => exact hp.elim

/-- A change of channel `c` alone keeps the invariant when the channel and its engine keep theirs. -/
theorem inv_of_chan {c : Chan} {s t : State} (h : Inv s) (hg : t.glob = s.glob)
    (ho : ∀ d, d ≠ c → t.chan d = s.chan d) (he : EngineInv (.chan c) (t.chan c).eng) (hc : ChannelInv (t.chan c)) :
    Inv t := by
  rw [inv_iff]
  refine ⟨fun e => ?_, fun d => ?_⟩
  · cases e with
    | global =>
      rw [State.eng_global, hg]
      exact h.engine .global
    | chan d =>
      by_cases hd : d = c
      · subst hd
        exact he
      · rw [State.eng_chan, ho d hd]
        exact h.engine (.chan d)
  · by_cases hd : d = c
    · subst hd
      exact hc
    · rw [ho d hd]
      exact h.chan d

theorem SearchPoint.state_ne_tracking (p : SearchPoint) : p.state ≠ .tracking := by
  cases p with
  | armed site => cases site <;> nofun
  | wait site left => cases site <;> nofun
  | _ => nofun

/-- What the invariant says of a channel that runs a SEARCH: it is not locked, and its search did not abort (R36). -/
theorem channelInv_search {ch : Channel} {c : Chan} {p : Point} (hr : ch.eng.run = some ⟨.search c, p⟩) :
    ChannelInv ch ↔ (ch.locked = false ∧ ch.stoppedMirror = ch.ldpcStopped ∧
      (ch.ldpcStopped = true → ch.modcodeMask = 0)) ∧ ch.aborted = false ∧ SearchInv ch p := by
  rw [channelInv_iff, hr, searchRun_search]
  have key : SearchInv ch p → ch.state ≠ .tracking := by
    intro h
    cases p with
    | start =>
      rw [h.1]
      nofun
    | before now rest got k =>
      cases k with
      | search q =>
        rw [h.1]
        exact q.state_ne_tracking
      | _ => exact h.elim
  constructor
  · rintro ⟨⟨hl, hm, hk⟩, ha, hs⟩
    refine ⟨⟨?_, hm, hk⟩, ha, hs⟩
    rw [← Bool.not_eq_true, hl]
    exact key hs
  · rintro ⟨⟨hl, hm, hk⟩, ha, hs⟩
    exact ⟨⟨by simp [hl, key hs], hm, hk⟩, ha, hs⟩

/-- A channel on which a SEARCH has ended keeps its invariant, whether it ended with ABORTED set or not (R219, R221). -/
theorem channelInv_finished {ch : Channel} {g : Engine} {st : SearchState} (ab : Bool) (hr : g.run = none)
    (hl : ch.locked = false) (hm : ch.stoppedMirror = ch.ldpcStopped) (hk : ch.ldpcStopped = true → ch.modcodeMask = 0)
    (ht : st.transient = false) : ChannelInv { ch.finished st with aborted := ab, eng := g } := by
  rw [channelInv_iff, hr]
  refine ⟨⟨?_, hm, hk⟩, ht, rfl⟩
  by_cases h : st = .tracking <;> simp [Channel.finished, h, hl]

theorem atPoint_search_chan (c : Chan) (p : Point) (s : State) :
    (atPoint (.search c) p s).chan c =
      { s.chan c with eng := { (s.chan c).eng with run := some ⟨.search c, p⟩ } } := by
  simp [atPoint, Instr.bank]

theorem complete_search_updChan_chan (c : Chan) (code : CmdResult) (f : Channel → Channel) (s : State) :
    (complete (.search c) code (s.updChan c f)).chan c =
      { f (s.chan c) with
        eng := { (f (s.chan c)).eng with cmdResult := code, lastOpcode := 0x40, busy := false, run := none } } := by
  simp [complete, Instr.bank, Instr.opcode]

/-- A step of a SEARCH writes no global register. -/
theorem SearchStep.glob {c : Chan} {s t : State} (k : SearchStep c s t) : t.glob = s.glob := by
  cases k with
  | stands _ _ _ _ hr => simp [atPoint, Instr.bank, hr.glob]
  | ends _ hr => simp [complete, Instr.bank, hr.glob]
  | fails hr => simp [complete, Instr.bank, hr.glob]
  | aborts => simp [complete, Instr.bank]

/-- A step of a SEARCH leaves the other channel as it is. -/
theorem SearchStep.others {c d : Chan} {s t : State} (k : SearchStep c s t) (hd : d ≠ c) : t.chan d = s.chan d := by
  cases k with
  | stands _ _ _ _ hr => rw [atPoint, Instr.bank, State.updEng_chan_chan_other _ _ hd, hr.others d hd]
  | ends _ hr =>
    rw [complete, Instr.bank, State.updEng_chan_chan_other _ _ hd, State.updChan_chan_other _ _ hd, hr.others d hd]
  | fails hr =>
    rw [complete, Instr.bank, State.updEng_chan_chan_other _ _ hd, State.updChan_chan_other _ _ hd, hr.others d hd]
  | aborts => rw [complete, Instr.bank, State.updEng_chan_chan_other _ _ hd, State.updChan_chan_other _ _ hd]

/-- A step of a SEARCH keeps the invariant of its engine: the SEARCH goes on, or the engine is idle. -/
theorem engineInv_searchStep {c : Chan} {p : Point} {s t : State} (h : EngineInv (.chan c) (s.chan c).eng)
    (hrun : (s.chan c).eng.run = some ⟨.search c, p⟩) (k : SearchStep c s t) :
    EngineInv (.chan c) (t.chan c).eng := by
  rw [engineInv_iff_of_running hrun] at h
  obtain ⟨hb, -⟩ := h
  cases k with
  | stands _ _ _ _ hr =>
    rw [atPoint_search_chan]
    exact ⟨hr.busy.trans hb, rfl, rfl, rfl, rfl⟩
  | _ =>
    rw [complete_search_updChan_chan]
    rfl

/-- A step of a SEARCH keeps the invariant of its channel. -/
theorem channelInv_searchStep {c : Chan} {p : Point} {s t : State} (h : ChannelInv (s.chan c))
    (hrun : (s.chan c).eng.run = some ⟨.search c, p⟩) (k : SearchStep c s t) : ChannelInv (t.chan c) := by
  obtain ⟨⟨hl, hm, hk⟩, hab, -⟩ := (channelInv_search hrun).1 h
  cases k with
  | @stands u now rest got q hr hs hf ha =>
    rw [atPoint_search_chan, channelInv_search rfl]
    refine ⟨⟨hr.locked.trans hl, hr.mirror hm, hr.mask hk⟩, hr.aborted.trans hab, hs, ?_, hf⟩
    rw [hr.req]
    exact ha
  | ends st hr _ ht =>
    rw [complete_search_updChan_chan]
    exact channelInv_finished _ rfl (hr.locked.trans hl) (hr.mirror hm) (hr.mask hk) ht
  | fails hr =>
    rw [complete_search_updChan_chan]
    exact channelInv_finished _ rfl (hr.locked.trans hl) (hr.mirror hm) (hr.mask hk) rfl
  | aborts =>
    rw [complete_search_updChan_chan]
    exact channelInv_finished true rfl hl hm hk rfl

theorem inv_searchStep {c : Chan} {p : Point} {s t : State} (h : Inv s)
    (hrun : s.running (.chan c) = some ⟨.search c, p⟩) (k : SearchStep c s t) : Inv t :=
  inv_of_chan h k.glob (fun _ => k.others) (engineInv_searchStep (h.engine (.chan c)) hrun k)
    (channelInv_searchStep (h.chan c) hrun k)

/-! ## A step of the machine -/

/-- An engine's turn, from a state of the invariant: nothing, one step of the SEARCH it runs, or one of the other command
it runs. -/
theorem engine_turn_cases {s t : State} {e : Bank} {ans : Answer} {r : Run} (h : Inv s) (hn : s.now = .engine e ans)
    (hr : s.running e = some r) (hx : exec r.instr s = .next t) :
    t = s ∨ (∃ c p, Runs s (.search c) p ans ∧ SearchStep c s t) ∨
      ∃ i p, isSearch i = false ∧ Runs s i p ans ∧ PlainStep i s t := by
  obtain ⟨i, p⟩ := r
  have he := h.engine e
  rw [engineInv_iff_of_running hr] at he
  obtain ⟨-, rfl, -, ha, hp⟩ := he
  rw [exec_eq_runCommand ha, runCommand_engine _ _ _ hn] at hx
  rcases engineTurn_cases (Host.Outcome.next.inj hx) with rfl | ⟨q, hq, -, hstep⟩
  · exact .inl rfl
  · obtain rfl : p = q := by simpa using hr.symm.trans hq
    cases hi : isSearch i with
    | false => exact .inr (.inr ⟨i, p, hi, ⟨hn, hr⟩, plainStep_of_engineStep hi hp hstep⟩)
    | true =>
      cases i with
      | search c =>
        obtain ⟨-, -, hs⟩ := (channelInv_search hr).1 (h.chan c)
        exact .inr (.inl ⟨c, p, ⟨hn, hr⟩, searchStep_of_engineStep hs hstep⟩)
      | _ => cases hi

theorem inv_exec_host {s t : State} {acc : HostAccess} {i : Instr} (h : Inv s) (hn : s.now = .host acc)
    (hx : exec i s = .next t) : Inv t := by
  rcases exec_host_cases hn hx with ⟨c, -, rfl⟩ | ⟨code, rfl⟩ | ⟨hi, hr, rfl⟩
  · exact inv_abortRequested h c
  · exact inv_reject h _ _ _
  · exact inv_accepted _ h hi hr

theorem inv_takeTurn {s t : State} (h : Inv s) (ht : takeTurn s = .next t) : Inv t := by
  rcases takeTurn_cases ht with ⟨_, _, _, -, -, rfl⟩ | ⟨_, r, v, -, rfl⟩ | ⟨_, _, _, _, -, -, rfl⟩ |
    ⟨_, _, _, i, -, hn, -, hx⟩ | ⟨e, ans, r, hn, hr, hx⟩ | ⟨_, _, -, -, rfl⟩
  · exact h
  · exact inv_writeReg h v r
  · exact inv_reject h _ _ _
  · exact inv_exec_host h hn hx
  · rcases engine_turn_cases h hn hr hx with rfl | ⟨c, p, hruns, k⟩ | ⟨i, p, hi, hruns, k⟩
    · exact h
    · exact inv_searchStep h hruns.2 k
    · exact inv_plainStep h hi hruns.2 k
  · exact h

/-- Settles O60, by the kinds of turns there are. -/
theorem stepKeepsInvariant : Obligations.StepKeepsInvariant := by
  intro s t h hs
  obtain ⟨u, hu, rfl⟩ := step_cases hs
  exact inv_advance (inv_takeTurn h hu)

theorem channelInv_default : ChannelInv {} := by
  rw [channelInv_iff]
  exact ⟨⟨by decide, rfl, by decide⟩, rfl, rfl⟩

/-- Settles O59: after reset no engine is busy and both channels are IDLE and not locked. -/
theorem resetKeepsInvariant : Obligations.ResetKeepsInvariant :=
  ⟨rfl, rfl, rfl, channelInv_default, channelInv_default⟩

end Sys2Proof.Machine
end

section
/-! SUPPORT. What writes LOCKED (10_state.md R36): the acceptance of the commands of `rests`, and a SEARCH that ends in
TRACKING. -/

namespace Sys2Proof.Machine

theorem writeReg_locked (s : State) (v : Word) (r : Reg) (c : Chan) :
    ((writeReg s v r).chan c).locked = (s.chan c).locked := by
  cases r with
  | mclk =>
    simp only [writeReg]
    split
    · rfl
    · rw [State.updGlob_chan]
  | chan d r => exact (quiet_updChan s d (quietChan_writeChan v r)).locked c
  | _ => rfl

theorem updEng_locked (s : State) (e : Bank) (f : Engine → Engine) (c : Chan) :
    ((s.updEng e f).chan c).locked = (s.chan c).locked := by rw [chan_updEng]

theorem abortRequested_locked (s : State) (d c : Chan) : ((abortRequested d s).chan c).locked = (s.chan c).locked := by
  unfold abortRequested
  split
  · cases d <;> cases c <;> rfl
  · rfl

/-- A command on a host turn writes LOCKED only as an accepted command of `rests`. -/
theorem exec_host_locked {s t : State} {acc : HostAccess} {i : Instr} {c : Chan} (hn : s.now = .host acc)
    (hx : exec i s = .next t) (hne : (t.chan c).locked ≠ (s.chan c).locked) :
    rejection i s = none ∧ i ∈ rests c ∧ (∀ e, t.eng e = (accept i s).eng e) ∧
      Rested i ((accept i s).chan c) (t.chan c) := by
  rcases exec_host_cases hn hx with ⟨d, -, rfl⟩ | ⟨code, rfl⟩ | ⟨-, hr, rfl⟩
  · exact absurd (abortRequested_locked s d c) hne
  · exact absurd (updEng_locked s _ _ c) hne
  · rcases onAccept_chan Config.cfg i (accept i s) c with ⟨-, he⟩ | ⟨hi, hrest⟩
    · rw [he] at hne
      exact absurd (updEng_locked s _ _ c) hne
    · exact ⟨hr, hi, onAccept_eng _ i _, hrest⟩

theorem PlainStep.locked {i : Instr} {s t : State} (k : PlainStep i s t) (c : Chan) :
    (t.chan c).locked = (s.chan c).locked := by
  cases k with
  | stands _ _ _ _ hc => exact (updEng_locked _ _ _ c).trans (hc.locked c)
  | ends _ hc => exact (updEng_locked _ _ _ c).trans (hc.locked c)

theorem finished_locked (st : SearchState) (ch : Channel) :
    (ch.finished st).locked = if st = .tracking then true else ch.locked := rfl

/-- A step of a SEARCH writes LOCKED only where the SEARCH ends in TRACKING, from FEC_LOCKED. -/
theorem SearchStep.locked_tracking {c d : Chan} {s t : State} (k : SearchStep c s t)
    (hne : (t.chan d).locked ≠ (s.chan d).locked) :
    d = c ∧ (t.chan c).locked = true ∧ (s.chan c).state = .fecLocked ∧ (t.chan c).state = .tracking ∧
      (t.chan c).eng.busy = false := by
  by_cases hd : d = c
  · subst hd
    refine ⟨rfl, ?_⟩
    cases k with
    | stands _ _ _ _ hr =>
      rw [atPoint_search_chan] at hne
      exact absurd hr.locked hne
    | ends st hr _ _ _ hx =>
      rw [complete_search_updChan_chan] at hne ⊢
      by_cases hst : st = .tracking
      · subst hst
        exact ⟨rfl, hx rfl, rfl, rfl⟩
      · rw [finished_locked, if_neg hst] at hne
        exact absurd hr.locked hne
    | fails hr =>
      rw [complete_search_updChan_chan] at hne
      exact absurd hr.locked hne
    | aborts =>
      rw [complete_search_updChan_chan] at hne
      exact absurd rfl hne
  · rw [k.others hd] at hne
    exact absurd rfl hne

/-- Settles O42, by the kinds of turns there are. -/
theorem lockedWrites : Obligations.LockedWrites := by
  intro s t c h hs hne
  obtain ⟨u, hu, rfl⟩ := step_cases hs
  rw [State.advance_chan] at hne ⊢
  rcases takeTurn_cases hu with ⟨_, _, _, -, -, rfl⟩ | ⟨_, r, v, -, rfl⟩ | ⟨_, _, _, _, -, -, rfl⟩ |
    ⟨addr, bank, w, i, haddr, hn, hd, hx⟩ | ⟨e, ans, r, hn, hr, hx⟩ | ⟨_, _, -, -, rfl⟩
  · exact absurd (by cases c <;> rfl) hne
  · exact absurd (writeReg_locked s v r c) hne
  · exact absurd (updEng_locked s _ _ c) hne
  · obtain ⟨hr, hi, ht, hrest⟩ := exec_host_locked hn hx hne
    obtain rfl := bank_of_decode hd
    refine .inr ⟨hrest.locked, hrest.state, idle_of_rests hr hi, i, hi, addr, w, i.bank, haddr, hn, hd,
      (rejection_none hr).1, ?_, ?_⟩
    · rw [State.advance_eng, ht, accept_eng]
    · rw [State.running, State.advance_eng, ht, accept_eng]
  · rcases engine_turn_cases h hn hr hx with rfl | ⟨d, p, hruns, k⟩ | ⟨_, _, -, -, k⟩
    · exact absurd rfl hne
    · obtain ⟨rfl, hl, hfec, htr, hb⟩ := k.locked_tracking hne
      exact .inl ⟨hl, hfec, htr, hb, p, ans, hruns⟩
    · exact absurd (k.locked c) hne
  · exact absurd rfl hne

end Sys2Proof.Machine
end

section
/-! SUPPORT. The registers only the host writes (10_state.md R24, R26, R28, R35): ARG0 to ARG3, CH_CFG, the REQ registers
and MCLK. No computation of a command and no engine step writes one. -/

namespace Sys2Proof.Machine

/-! ## Same operand registers -/

/-- The operand registers of a channel bank. -/
def Channel.operands (ch : Channel) : Word × Word × Word × Word × Bool × Word × Word × Word × BitVec 9 :=
  (ch.arg0, ch.arg1, ch.arg2, ch.arg3, ch.berMode, ch.reqFreq, ch.reqSr, ch.reqRange, ch.reqMode)

/-- `t` has the registers of `s` that are the host's to write. -/
structure SameHost (s t : State) : Prop where
  mclk : t.glob.mclk = s.glob.mclk
  operands : ∀ c, (t.chan c).operands = (s.chan c).operands

theorem SameHost.refl (s : State) : SameHost s s := ⟨rfl, fun _ => rfl⟩

theorem SameHost.trans {s t u : State} (h : SameHost s t) (k : SameHost t u) : SameHost s u :=
  ⟨k.mclk.trans h.mclk, fun c => (k.operands c).trans (h.operands c)⟩

theorem sameHost_updChan {s t : State} {c : Chan} {f : Channel → Channel} (h : SameHost s t)
    (hf : ∀ ch, (f ch).operands = ch.operands) : SameHost s (t.updChan c f) := by
  refine ⟨by rw [State.updChan_glob, h.mclk], fun d => ?_⟩
  by_cases hd : d = c
  · subst hd
    rw [State.updChan_chan, hf, h.operands]
  · rw [State.updChan_chan_other t f hd, h.operands]

theorem sameHost_updGlob {s t : State} {f : Global → Global} (h : SameHost s t) (hf : ∀ g, (f g).mclk = g.mclk) :
    SameHost s (t.updGlob f) :=
  ⟨by rw [State.updGlob_glob, hf, h.mclk], fun d => by rw [State.updGlob_chan, h.operands]⟩

theorem sameHost_updEng {s t : State} (h : SameHost s t) (e : Bank) (f : Engine → Engine) :
    SameHost s (t.updEng e f) := by
  cases e with
  | global => exact sameHost_updGlob h (f := fun g => { g with eng := f g.eng }) fun _ => rfl
  | chan c => exact sameHost_updChan h (f := fun ch => { ch with eng := f ch.eng }) fun _ => rfl

theorem Moved.sameHost {i : Instr} {s t : State} (h : Moved i s t) : SameHost s t := by
  rcases h with ⟨q, v, ok, rfl⟩ | ⟨ms, rfl⟩
  · exact ⟨rfl, fun c => by rw [logged_chan]⟩
  · exact sameHost_updEng (SameHost.refl s) _ _

theorem sameHost_enter {s t : State} (h : SameHost s t) (c : Chan) (st : SearchState) : SameHost s (enter c st t) :=
  sameHost_updChan h fun _ => rfl

theorem sameHost_enterPhase {s t : State} (h : SameHost s t) (c : Chan) (ph : BlindPhase) :
    SameHost s (enterPhase c ph t) := sameHost_updChan h fun _ => rfl

/-! ## Flows -/

/-- A flow whose state has the host's registers of `s`. -/
def HostFlow (s : State) : Flow → Prop
  | .go t _ _ _ => SameHost s t
  | .done t _ => SameHost s t
  | .stray => True

theorem hostFlow_updChan (s : State) (c : Chan) (code : CmdResult) {f : Channel → Channel}
    (hf : ∀ ch, (f ch).operands = ch.operands) : HostFlow s (.done (s.updChan c f) code) :=
  sameHost_updChan (SameHost.refl s) hf

theorem hostFlow_updGlob (s : State) (code : CmdResult) {f : Global → Global} (hf : ∀ g, (f g).mclk = g.mclk) :
    HostFlow s (.done (s.updGlob f) code) := sameHost_updGlob (SameHost.refl s) hf

/-! ### SEARCH -/

section
variable {cfg : Cfg} {c : Chan} {a : Attempt} {s t : State}

theorem endAttempt_host (out : SearchState) (h : SameHost s t) : HostFlow s (endAttempt cfg c a out t) := by
  unfold endAttempt
  split
  · exact sameHost_updChan h fun _ => rfl
  · exact sameHost_enter h c _
  · exact sameHost_updChan h fun _ => rfl

theorem waitFor_host {f : ReadField} {n : Nat} {site : WaitSite} {timedOut : State → Flow} (h : SameHost s t)
    (ho : HostFlow s (timedOut t)) : HostFlow s (waitFor c f n site timedOut t) := by
  unfold waitFor
  split
  · exact ho
  · exact h

theorem timingReference_host (bl : BlindLocals) (h : SameHost s t) : HostFlow s (timingReference cfg c a bl t) := by
  unfold timingReference
  split
  · exact h
  · exact endAttempt_host _ h

theorem sweepNext_host (k : Nat) (minA : Int) (h : SameHost s t) : HostFlow s (sweepNext cfg c a k minA t) := by
  unfold sweepNext
  split
  · exact h
  split
  · exact endAttempt_host _ h
  · exact timingReference_host _ h

theorem coarseNext_host (bl : BlindLocals) (k : Nat) (got : List Int) (h : SameHost s t) :
    HostFlow s (coarseNext cfg c a bl k got t) := by
  simp only [coarseNext]
  split
  · exact endAttempt_host _ h
  split
  · exact h
  split
  · exact h
  · exact timingReference_host _ h

theorem zzTrial_host (z : ZigLocals) (h : SameHost s t) : HostFlow s (zzTrial cfg c a z t) := by
  unfold zzTrial
  split
  · exact endAttempt_host _ h
  split
  · exact endAttempt_host _ h
  · exact h

theorem zzFalseLock_host (z : ZigLocals) (h : SameHost s t) : HostFlow s (zzFalseLock cfg c a z t) := by
  unfold zzFalseLock
  split
  · exact endAttempt_host _ h
  · exact zzTrial_host _ h

theorem zzAbsentNext_host (z : ZigLocals) (got : List Int) (h : SameHost s t) :
    HostFlow s (zzAbsentNext cfg c a z got t) := by
  unfold zzAbsentNext
  split
  · exact endAttempt_host _ h
  · exact zzTrial_host _ h

theorem fecDone_host (res : Readback) (ok : Bool) (h : SameHost s t) : HostFlow s (fecDone cfg c a res ok t) := by
  unfold fecDone
  split
  · exact sameHost_enter h c _
  split
  · split
    · exact sameHost_enter h c _
    · exact sameHost_updChan h fun _ => rfl
  · exact endAttempt_host _ h
  · exact endAttempt_host _ h

theorem relockDone_host (res : Readback) (fTmo tries : Nat) (ok : Bool) (h : SameHost s t) :
    HostFlow s (relockDone cfg c a res fTmo tries ok t) := by
  unfold relockDone
  split
  · exact waitFor_host h (fecDone_host res false h)
  split
  · exact h
  · exact endAttempt_host _ h

theorem readbackDone_host (fTmo : Nat) (res : Readback) (h : SameHost s t) :
    HostFlow s (readbackDone cfg c a fTmo res t) := by
  have hw : SameHost s (t.updChan c (resultWritten res)) := sameHost_updChan h fun _ => rfl
  unfold readbackDone
  split
  · exact endAttempt_host _ hw
  · exact sameHost_enter hw c _

theorem branchByAlgo_host (h : SameHost s t) : HostFlow s (branchByAlgo cfg c a t) := by
  unfold branchByAlgo
  split
  · exact sameHost_enterPhase (sameHost_enter h c _) c _
  · exact sameHost_enter h c _
  · exact sameHost_enter h c _

theorem directDone_host (ok : Bool) (h : SameHost s t) : HostFlow s (directDone cfg c a ok t) := by
  unfold directDone
  split
  · exact sameHost_enter h c _
  split
  · split
    · exact endAttempt_host _ h
    · exact h
  · exact endAttempt_host _ h

theorem waitDone_host (site : WaitSite) (ok : Bool) (h : SameHost s t) : HostFlow s (waitDone cfg c site ok t) := by
  cases site with
  | direct a => exact directDone_host ok h
  | zigzag a z =>
    simp only [waitDone, zzDone]
    split <;> exact h
  | fine a bl srC =>
    simp only [waitDone, fineDone]
    split
    · exact sameHost_enter h c _
    · exact timingReference_host _ h
  | relock a res fTmo tries => exact relockDone_host res fTmo tries ok h
  | fec a res fTmo => exact fecDone_host res ok h

theorem firstAttempt_host (h : SameHost s t) : HostFlow s (firstAttempt cfg c t) := by
  unfold firstAttempt
  split
  · exact sameHost_enter h c _
  · trivial

end

theorem searchEntry_host (cfg : Cfg) (c : Chan) (s : State) : HostFlow s (searchEntry cfg c s) := by
  unfold searchEntry
  split
  · exact hostFlow_updChan s c _ fun _ => rfl
  split
  · exact SameHost.refl s
  · exact SameHost.refl s

/-- The computations of SEARCH between its straight lines. -/
theorem searchResume_host (cfg : Cfg) (c : Chan) (p : SearchPoint) (got : List Int) (s : State) :
    HostFlow s (searchResume cfg c p got s) := by
  have h := SameHost.refl s
  cases p with
  | reenabled => exact sameHost_updChan h fun _ => rfl
  | agc1 =>
    simp only [searchResume, agc1Next]
    split
    · exact h
    · exact firstAttempt_host h
  | power =>
    simp only [searchResume, powerNext]
    split
    · exact hostFlow_updChan s c _ fun _ => rfl
    · exact firstAttempt_host h
  | coarseDone a => exact branchByAlgo_host h
  | armed site => exact waitFor_host h (waitDone_host site false h)
  | wait site left =>
    simp only [searchResume, waitNext]
    split
    · exact waitDone_host site true h
    split
    · exact waitDone_host site false h
    · exact h
  | tmgLock a =>
    simp only [searchResume]
    split
    · exact endAttempt_host _ h
    · exact zzTrial_host _ (sameHost_enter h c _)
  | zzStd a z =>
    simp only [searchResume]
    split
    · exact h
    · exact sameHost_enter h c _
  | zzFly a z =>
    simp only [searchResume]
    split
    · exact sameHost_enter h c _
    · exact h
  | zzFlyAgain a z =>
    simp only [searchResume]
    split
    · exact sameHost_enter h c _
    · exact zzFalseLock_host z h
  | zzAbsent a z => exact zzAbsentNext_host z got h
  | sweep a k minA => exact sweepNext_host k _ h
  | tmgRef a bl => exact sameHost_enterPhase h c _
  | coarseStep a bl k => exact coarseNext_host bl k got h
  | coarseCar a bl srC fAct => exact sameHost_enterPhase h c _
  | readStd a fTmo => exact h
  | readRest a fTmo std cRaw sRaw tRaw => exact readbackDone_host fTmo _ h
  | fecCleared => exact hostFlow_updChan s c _ fun _ => rfl

/-! ### The other commands -/

theorem initWritten_sameHost (cfg : Cfg) (id : BitVec 8) (lna : Bool) (s : State) :
    SameHost s (initWritten cfg id lna s) := by
  unfold initWritten State.updBoth
  refine sameHost_updChan (sameHost_updChan (sameHost_updGlob (SameHost.refl s) ?_) ?_) ?_ <;> exact fun _ => rfl

theorem infoMeasure_host (cfg : Cfg) (c : Chan) (p : InfoLocals) (s : State) : HostFlow s (infoMeasure cfg c p s) := by
  unfold infoMeasure infoFinish
  split
  · exact SameHost.refl s
  split
  · exact SameHost.refl s
  · exact hostFlow_updChan s c _ fun _ => rfl

/-- The computations of GET_SIGNAL_INFO between its transactions. -/
theorem infoResume_host (cfg : Cfg) (c : Chan) (k : Kont) (got : List Int) (s : State) :
    HostFlow s (infoResume cfg c k got s) := by
  unfold infoResume
  split
  · exact SameHost.refl s
  · exact SameHost.refl s
  · exact SameHost.refl s
  · split
    · exact SameHost.refl s
    · exact infoMeasure_host cfg c _ s
  · exact infoMeasure_host cfg c _ s
  · exact SameHost.refl s
  · unfold infoFinish
    split
    · exact SameHost.refl s
    · exact hostFlow_updChan s c _ fun _ => rfl
  · exact hostFlow_updChan s c _ fun _ => rfl
  · trivial

section
variable (c : Chan) (dev : Bool) (field : ReadField) (arg : Channel → Int) (k : Kont) (result : State → Int → Int)
  (s : State)

/-- The entry of the three estimators (41_estimators.md R168 to R170). -/
theorem decodeProgram_entry_host : HostFlow s ((decodeProgram c dev field arg k result).entry s) := by
  simp only [decodeProgram, plainProgram]
  split
  · exact SameHost.refl s
  · exact hostFlow_updChan s c _ fun _ => rfl

/-- The end of the three estimators. -/
theorem decodeProgram_resume_host (k' : Kont) (got : List Int) :
    HostFlow s ((decodeProgram c dev field arg k result).resume k' got s) := by
  simp only [decodeProgram, plainProgram]
  split
  · exact hostFlow_updChan s c _ fun _ => rfl
  · trivial

end

/-- The entry of every command. -/
theorem entry_host (cfg : Cfg) (i : Instr) (s : State) : HostFlow s ((ruleOf cfg i).entry s) := by
  cases i with
  | search c => exact searchEntry_host cfg c s
  | abort c => trivial
  | init => exact SameHost.refl s
  | term => exact SameHost.refl s
  | standby enter => cases enter <;> exact SameHost.refl s
  | setLdpcMode dual => exact SameHost.refl s
  | unlock c => exact SameHost.refl s
  | ldpcMonitor c => exact SameHost.refl s
  | getRfLevel c => exact SameHost.refl s
  | interp c t =>
    simp only [ruleOf, interpProgram, plainProgram]
    split
    · exact hostFlow_updChan s c _ fun _ => rfl
    · trivial
  | interp2 c t u =>
    simp only [ruleOf, interp2Program, plainProgram]
    split
    · exact hostFlow_updChan s c _ fun _ => rfl
    · trivial
  | getCn c =>
    simp only [ruleOf, getCnProgram, plainProgram]
    split
    · exact SameHost.refl s
    · exact hostFlow_updChan s c _ fun _ => rfl
  | carrierOffset c dev => exact decodeProgram_entry_host ..
  | symbolRate c dev => exact decodeProgram_entry_host ..
  | timingOffset c dev => exact decodeProgram_entry_host ..
  | encSymbolRate c => exact hostFlow_updChan s c _ fun _ => rfl
  | selectStandard c wr =>
    simp only [ruleOf, selectStandardProgram, plainProgram]
    split
    · exact SameHost.refl s
    split
    · exact SameHost.refl s
    · exact hostFlow_updChan s c _ fun _ => rfl
  | computeTimeouts c algo =>
    simp only [ruleOf, computeTimeoutsProgram, plainProgram]
    split
    · exact hostFlow_updChan s c _ fun _ => rfl
    · trivial
  | selectClg c wr =>
    simp only [ruleOf, selectClgProgram, plainProgram]
    split
    · exact SameHost.refl s
    · exact hostFlow_updChan s c _ fun _ => rfl
  | getSignalInfo c =>
    simp only [ruleOf, getSignalInfoProgram, plainProgram]
    split
    · exact SameHost.refl s
    · exact hostFlow_updChan s c _ fun _ => rfl
  | getPer c =>
    simp only [ruleOf, getPerProgram, plainProgram]
    split
    · exact SameHost.refl s
    · exact hostFlow_updChan s c _ fun _ => rfl

/-- Every later computation of every command. -/
theorem resume_host (cfg : Cfg) (i : Instr) (k : Kont) (got : List Int) (s : State) :
    HostFlow s ((ruleOf cfg i).resume k got s) := by
  cases i with
  | search c =>
    simp only [ruleOf, searchProgram]
    split
    · exact searchResume_host cfg c _ got s
    · trivial
  | abort c => trivial
  | init =>
    simp only [ruleOf, initProgram, plainProgram]
    split
    · exact SameHost.refl s
    · exact initWritten_sameHost cfg _ _ s
    · trivial
  | term =>
    simp only [ruleOf, termProgram, plainProgram]
    split
    · exact hostFlow_updGlob s _ fun _ => rfl
    · trivial
  | standby enter =>
    simp only [ruleOf, standbyProgram, plainProgram]
    split
    · exact hostFlow_updGlob s _ fun _ => rfl
    · trivial
  | setLdpcMode dual =>
    simp only [ruleOf, setLdpcModeProgram, plainProgram]
    split
    · exact hostFlow_updGlob s _ fun _ => rfl
    · trivial
  | unlock c =>
    simp only [ruleOf, unlockProgram, plainProgram]
    split
    · exact SameHost.refl s
    · trivial
  | ldpcMonitor c =>
    have hstat : SameHost s (s.updChan c fun ch => { ch with ldpcStat := ldpcStatWord (nth got 0) (nth got 1) }) :=
      sameHost_updChan (SameHost.refl s) fun _ => rfl
    simp only [ruleOf, ldpcMonitorProgram, plainProgram]
    split
    · split
      · exact hstat
      split
      · exact hstat
      · exact sameHost_updChan hstat fun _ => rfl
    · exact hostFlow_updChan s c _ fun _ => rfl
    · exact hostFlow_updChan s c _ fun _ => rfl
    · trivial
  | getRfLevel c =>
    simp only [ruleOf, getRfLevelProgram, plainProgram]
    split
    · split
      · exact SameHost.refl s
      · exact hostFlow_updChan s c _ fun _ => rfl
    · exact hostFlow_updChan s c _ fun _ => rfl
    · trivial
  | interp c t => trivial
  | interp2 c t u => trivial
  | getCn c =>
    simp only [ruleOf, getCnProgram, plainProgram]
    split
    · exact SameHost.refl s
    · exact hostFlow_updChan s c _ fun _ => rfl
    · trivial
  | carrierOffset c dev => exact decodeProgram_resume_host ..
  | symbolRate c dev => exact decodeProgram_resume_host ..
  | timingOffset c dev => exact decodeProgram_resume_host ..
  | encSymbolRate c => trivial
  | selectStandard c wr =>
    simp only [ruleOf, selectStandardProgram, plainProgram]
    split
    · exact hostFlow_updChan s c _ fun _ => rfl
    · trivial
  | computeTimeouts c algo => trivial
  | selectClg c wr =>
    simp only [ruleOf, selectClgProgram, plainProgram]
    split
    · exact hostFlow_updChan s c _ fun _ => rfl
    · trivial
  | getSignalInfo c => exact infoResume_host cfg c k got s
  | getPer c =>
    simp only [ruleOf, getPerProgram, plainProgram]
    split
    · exact hostFlow_updChan s c _ fun _ => rfl
    · trivial

/-- The registers a command writes when it ends in a bus error, or at an abort point, are not the host's. -/
theorem onBusError_host (cfg : Cfg) (i : Instr) {s t : State} (h : SameHost s t) :
    SameHost s ((ruleOf cfg i).onBusError t) := by
  cases hi : isSearch i with
  | false => rwa [(ruleOf_plain cfg hi t).2.1]
  | true =>
    cases i with
    | search c => exact sameHost_updChan h fun _ => rfl
    | _ => cases hi

theorem onAbort_host (cfg : Cfg) (i : Instr) {s t : State} (h : SameHost s t) :
    SameHost s ((ruleOf cfg i).onAbort t) := by
  cases hi : isSearch i with
  | false => rwa [(ruleOf_plain cfg hi t).2.2]
  | true =>
    cases i with
    | search c => exact sameHost_updChan h fun _ => rfl
    | _ => cases hi

/-! ## Engine steps -/

theorem settle_host {cfg : Cfg} {i : Instr} {fl : Flow} {s t : State} (hf : HostFlow s fl)
    (h : settle cfg i fl = some t) : SameHost s t := by
  rcases settle_cases h with ⟨u, first, rest, k, rfl, rfl⟩ | ⟨u, code, rfl, rfl⟩
  · exact sameHost_updEng hf _ _
  · exact sameHost_updEng hf _ _

theorem perform_host {cfg : Cfg} {i : Instr} {ans : Answer} {now : Prim} {rest : List Op} {got : List Int} {k : Kont}
    {s t : State} (h : perform cfg (ruleOf cfg i) i ans now rest got k s = some t) : SameHost s t := by
  rcases perform_cases h with ⟨-, -, rfl⟩ | ⟨-, -, rfl⟩ | ⟨u, got', hm, -, hp⟩
  · exact sameHost_updEng (onAbort_host cfg i (SameHost.refl s)) _ _
  · exact sameHost_updEng (onBusError_host cfg i (Moved.sameHost (.inl ⟨now, 0, false, rfl⟩))) _ _
  · refine hm.sameHost.trans ?_
    rcases proceed_cases hp with ⟨op, ops, -, rfl⟩ | ⟨-, hs⟩
    · exact sameHost_updEng (SameHost.refl u) _ _
    · exact settle_host (resume_host cfg i k got' u) hs

theorem engineStep_host {cfg : Cfg} {i : Instr} {ans : Answer} {p : Point} {s t : State}
    (h : engineStep cfg (ruleOf cfg i) i ans p s = some t) : SameHost s t := by
  have he := entry_host cfg i s
  rcases engineStep_cases h with ⟨u, code, -, hu, rfl⟩ | ⟨u, first, rest, k, -, hu, hp⟩ | ⟨now, rest, got, k, -, hp⟩
  · rw [hu] at he
    exact sameHost_updEng he _ _
  · rw [hu] at he
    exact SameHost.trans he (perform_host hp)
  · exact perform_host hp

/-- An engine's turn writes no register of the host, in any state. -/
theorem exec_engine_host {s t : State} {e : Bank} {ans : Answer} {i : Instr} (hn : s.now = .engine e ans)
    (h : exec i s = .next t) : SameHost s t := by
  cases hi : isAbort i with
  | true =>
    cases i with
    | abort c =>
      rw [exec_abort_engine c hn] at h
      obtain rfl := Host.Outcome.next.inj h
      exact SameHost.refl s
    | _ => cases hi
  | false =>
    rw [exec_eq_runCommand hi, runCommand_engine _ _ _ hn] at h
    rcases engineTurn_cases (Host.Outcome.next.inj h) with rfl | ⟨p, -, -, hs⟩
    · exact SameHost.refl t
    · exact engineStep_host hs

theorem takeTurn_engine_host {s t : State} {e : Bank} {ans : Answer} (hn : s.now = .engine e ans)
    (h : takeTurn s = .next t) : SameHost s t := by
  cases hr : s.running e with
  | none =>
    rw [takeTurn_engine_idle hn hr] at h
    obtain rfl := Host.Outcome.next.inj h
    exact SameHost.refl s
  | some r =>
    rw [takeTurn_engine_running hn hr] at h
    exact exec_engine_host hn h

/-- Settles O53: an engine's turn leaves the host's registers, whatever command its engine runs and wherever it stands. -/
theorem operandRegistersAreTheHosts : Obligations.OperandRegistersAreTheHosts := by
  intro s t e ans c hn hs
  obtain ⟨u, hu, rfl⟩ := step_cases hs
  have h := (takeTurn_engine_host hn hu).operands c
  rw [State.advance_chan]
  simpa only [Channel.operands, Prod.mk.injEq] using h

/-! ## MCLK -/

/-- A host write that stores leaves MCLK as it is while INITIALIZED is 1 (R24). -/
theorem writeReg_mclk {s : State} (h : s.glob.initialized = true) (v : Word) (r : Reg) :
    (writeReg s v r).glob.mclk = s.glob.mclk := by
  cases r with
  | mclk => rw [writeReg, if_pos h]
  | chan c r => rw [writeReg, State.updChan_glob]
  | _ => rfl

/-- A command on a host turn leaves MCLK as it is. -/
theorem exec_host_mclk {s t : State} {acc : HostAccess} {i : Instr} (hn : s.now = .host acc) (h : exec i s = .next t) :
    t.glob.mclk = s.glob.mclk := by
  have hupd : ∀ e f, (s.updEng e f).glob.mclk = s.glob.mclk := fun e f => (sameHost_updEng (SameHost.refl s) e f).mclk
  rcases exec_host_cases hn h with ⟨c, -, rfl⟩ | ⟨code, rfl⟩ | ⟨-, -, rfl⟩
  · unfold abortRequested
    split
    · rw [State.updChan_glob]
    · rfl
  · exact hupd _ _
  · rw [onAccept_glob]
    exact hupd _ _

/-- Settles O54, by the kinds of turns there are. -/
theorem mclkLockedWhileInitialized : Obligations.MclkLockedWhileInitialized := by
  intro s t hinit hs
  obtain ⟨u, hu, rfl⟩ := step_cases hs
  rw [State.advance_glob]
  rcases takeTurn_cases hu with ⟨_, _, _, -, -, rfl⟩ | ⟨_, r, v, -, rfl⟩ | ⟨_, _, _, _, -, -, rfl⟩ |
    ⟨_, _, _, _, -, hn, -, hx⟩ | ⟨_, _, _, hn, -, hx⟩ | ⟨_, _, -, -, rfl⟩
  · rfl
  · exact writeReg_mclk hinit v r
  · exact (sameHost_updEng (SameHost.refl s) _ _).mclk
  · exact exec_host_mclk hn hx
  · exact (exec_engine_host hn hx).mclk
  · rfl

end Sys2Proof.Machine
end

section
/-! SUPPORT. The readback of a SEARCH (43_search_fsm.md R211 to R213): the record it assembles, the registers it writes,
and where it goes on. -/

namespace Sys2Proof.Machine

/-! ## The fields of the readback -/

theorem bitsOf_toNat {w : Nat} (v : BitVec w) : bitsOf w (v.toNat : Int) = v := by
  apply BitVec.eq_of_toInt_eq
  simp [bitsOf]

theorem detectedFrom_s2 (mc : BitVec 5) (fr pl inv : BitVec 1) (ro : BitVec 2) (f : Int) :
    detectedFrom 3 [mc.toNat, fr.toNat, pl.toNat, ro.toNat, inv.toNat, f] = ⟨3, mc, 0, pl, fr, ro, inv⟩ := by
  simp [detectedFrom, nth, bitsOf_toNat]

theorem detectedFrom_s1 {std : BitVec 2} (h : std ≠ 3) (pr : BitVec 3) (inv : BitVec 1) (ro : BitVec 2) (f : Int) :
    detectedFrom std [pr.toNat, ro.toNat, inv.toNat, f] = ⟨std, 0, pr, 0, 0, ro, inv⟩ := by
  rw [detectedFrom, if_neg h]
  simp [nth, bitsOf_toNat]

theorem carrierLoopGain_eq (cfg : Cfg) (p : Prof) (sr : Int) (std : BitVec 2) (mc : BitVec 5) (fr pl : BitVec 1) :
    carrierLoopGain cfg p sr std mc fr pl =
      if std = 3 then
        if fr = 1 then p.clgShort (modulationOf mc.toNat) (clgBucket sr)
        else p.clgLong (if 1 ≤ mc.toNat ∧ mc.toNat ≤ 28 then mc.toNat else 28) (clgBucket sr) (decide (pl = 1))
      else p.clgS1 := by
  have hfr : fr = 0 ∨ fr = 1 := by
    revert fr
    decide
  unfold carrierLoopGain longClass
  rw [cfg.num_modcodes_value]
  split
  · rcases hfr with rfl | rfl <;> rfl
  · rfl

theorem rolloffPct_eq (ro : BitVec 2) : rolloffPct ro = if ro = 1 then 25 else if ro = 2 then 20 else 35 := by
  revert ro
  decide

theorem timingOffset_eq (cfg : Cfg) (sr r : Int) :
    timingOffset cfg sr r = ((sr * 10).tdiv ((2 ^ 24 : Int).tdiv (timingRaw r))).tdiv 320 := by
  unfold timingOffset truncDiv
  rw [cfg.tmg_scale_value]

/-! ## The steps of the readback -/

theorem State.updChan_id (s : State) (c : Chan) : s.updChan c id = s := State.setChan_self s c

/-- After a transaction and a write of registers of the channel that are not the engine's, the SEARCH stands at a program
point. -/
theorem atPoint_search_logged {c : Chan} {q : Prim} {w : Int} {f : Channel → Channel} {p : Point} {s : State}
    (hf : ∀ ch, (f ch).eng = ch.eng) :
    atPoint (.search c) p ((logged (.chan c) q w true s).updChan c f) =
      chanAfter c f (standing (.search c) p) [⟨.chan c, q.delivered, w, true⟩] s := by
  cases c <;> simp [atPoint, chanAfter, standing, logged, State.updEng, State.updChan, State.setChan, State.chan,
    Instr.bank, hf]

/-- After the read of TMG_OFFSET: the parameter reads of the detected standard (R211). -/
theorem exec_readStd {s : State} {c : Chan} {f : Int} {a : Attempt} {fTmo : Nat} {std : BitVec 2} {cRaw sRaw : Int}
    (h : Runs s (.search c)
      (.before (.devRead c .tmgOffset) [] [(std.toNat : Int), cRaw, sRaw] (.search (.readStd a fTmo))) ⟨false, f⟩) :
    exec (.search c) s = .next (chanAfter c id
      (standing (.search c) (.before (resolve Config.cfg s (paramFirst c std))
        (paramRest c std ++ [.prim (.tunerGetFrequency c)]) []
        (.search (.readRest a fTmo std cRaw sRaw (f % 2 ^ 24)))))
      [chanDid c (.devRead c .tmgOffset) (f % 2 ^ 24)] s) := by
  refine exec_search_read h nofun rfl ?_
  simp only [searchResume, settle, resolve_logged, nth, List.cons_append, List.nil_append, List.getD_cons_zero,
    List.getD_cons_succ, bitsOf_toNat]
  exact congrArg some ((congrArg _ (State.updChan_id _ c).symm).trans (atPoint_search_logged fun _ => rfl))

theorem optimize_updChan (cfg : Cfg) (c : Chan) (a : Attempt) (res : Readback) (fTmo : Nat) (f : Channel → Channel)
    (s : State) :
    optimize cfg c a res fTmo (s.updChan c f) =
      .go (s.updChan c fun ch => { f ch with state := .trackingOptimized })
        (wr c .carLoopGain (uval (carrierLoopGain cfg (s.prof cfg) res.sr res.det.std res.det.modcode res.det.frame
          res.det.pilots)))
        [.prim (.tunerSetBandwidth c (carrierWidth res.sr res.det.rolloff + uval cfg.tunerBwMargin))]
        (.search (.armed (.relock a res fTmo 0))) := by
  simp [optimize, enter, State.prof]

/-- After the last read: the RSL registers, and the range check against the request of the SEARCH (R211 to R213). -/
theorem exec_readRest {s : State} {c : Chan} {f : Int} {a : Attempt} {fTmo : Nat} {std : BitVec 2}
    {cRaw sRaw tRaw : Int} {got : List Int} {res : Readback}
    (h : Runs s (.search c)
      (.before (.tunerGetFrequency c) [] got (.search (.readRest a fTmo std cRaw sRaw tRaw))) ⟨false, f⟩)
    (hres : readbackOf Config.cfg s.mclk std cRaw sRaw tRaw (got ++ [f]) = res) :
    exec (.search c) s = .next
      (if outOfRange Config.cfg (s.chan c).req res then
        attemptEnded c a .rangeExceeded (resultWritten res) 0 [chanDid c (.tunerGetFrequency c) f] s
      else
        chanAfter c (fun ch => { resultWritten res ch with state := .trackingOptimized })
          (standing (.search c) (.before
            (.devWrite c .carLoopGain (uval (carrierLoopGain Config.cfg (s.prof Config.cfg) res.sr res.det.std
              res.det.modcode res.det.frame res.det.pilots)))
            [.prim (.tunerSetBandwidth c (carrierWidth res.sr res.det.rolloff + uval Config.cfg.tunerBwMargin))] []
            (.search (.armed (.relock a res fTmo 0)))))
          [chanDid c (.tunerGetFrequency c) f] s) := by
  refine exec_search_read h nofun rfl ?_
  have hm : (logged (.chan c) (.tunerGetFrequency c) f true s).mclk = s.mclk := rfl
  simp only [searchResume, hm, hres, readbackDone, logged_chan]
  split
  · exact settle_endAttempt_logged nofun fun _ => rfl
  · rw [optimize_updChan]
    exact congrArg some (atPoint_search_logged fun _ => rfl)

/-- Settles O37: what the steps of the readback do, with the record, the range check and the operands spelled out. -/
theorem searchRangeCheck : Obligations.SearchRangeCheck := by
  intro s c f a fTmo std cRaw sRaw tRaw cfg p m signed
  refine ⟨fun h => ?_, ?_⟩
  · rw [exec_readStd h]
    by_cases hstd : std = 3
    · simp only [paramFirst, paramRest, if_pos hstd]
      rfl
    · simp only [paramFirst, paramRest, if_neg hstd]
      rfl
  · intro mc pr pl fr inv ro hs1 hs2 got h car srN raw res rsl o limit b n gain percent did
    have hgot : detectedFrom std (got ++ [f]) = res.det ∧ nth (got ++ [f]) (if std = 3 then 5 else 3) = f := by
      by_cases hstd : std = 3
      · subst hstd
        obtain rfl := hs2 rfl
        exact ⟨detectedFrom_s2 mc fr pl inv ro f, rfl⟩
      · obtain ⟨rfl, rfl, rfl⟩ := hs1 hstd
        simp only [got, res, if_neg hstd]
        exact ⟨detectedFrom_s1 hstd pr inv ro f, rfl⟩
    obtain ⟨hdet, hfreq⟩ := hgot
    have hres : readbackOf Config.cfg s.mclk std cRaw sRaw tRaw (got ++ [f]) = res := by
      rw [readbackOf, hdet, hfreq, timingOffset_eq]
      rfl
    have hrsl : rsl = resultWritten res := by
      funext ch
      simp only [rsl, resultWritten, Detected.params_eq, res]
    have hgain : carrierLoopGain Config.cfg (s.prof Config.cfg) res.sr res.det.std res.det.modcode res.det.frame
        res.det.pilots = gain := carrierLoopGain_eq _ _ _ _ _ _ _
    have hwidth : carrierWidth res.sr res.det.rolloff = res.sr + res.sr * percent / 100 := by
      rw [carrierWidth, rolloffPct_eq]
      rfl
    rw [exec_readRest h hres, hrsl, hgain, hwidth]
    simp only [outOfRange, decide_eq_true_eq]
    rfl

end Sys2Proof.Machine
end

section
/-! SUPPORT. The host's accesses (20_memory.md R70 to R73): the register at each address of the map, which accesses are
within the contract, and what the step of each of them is. -/

namespace Sys2Proof.Machine

/-! ## The address map (R72) -/

/-- The offset of a channel register from its bank's base. -/
def ChanReg.offset : ChanReg → Nat
  | .cmd => 0x00
  | .status => 0x04
  | .arg0 => 0x08
  | .arg1 => 0x0C
  | .arg2 => 0x10
  | .arg3 => 0x14
  | .res0 => 0x18
  | .res1 => 0x1C
  | .res2 => 0x20
  | .res3 => 0x24
  | .chCfg => 0x28
  | .reqFreq => 0x30
  | .reqSr => 0x34
  | .reqRange => 0x38
  | .reqMode => 0x3C
  | .rslFreq => 0x40
  | .rslSr => 0x44
  | .rslOffset => 0x48
  | .rslParams => 0x4C
  | .tmFreq => 0x50
  | .tmSr => 0x54
  | .tmRf => 0x58
  | .tmCn => 0x5C
  | .tmErr => 0x60
  | .tmTotal => 0x64
  | .tmParams => 0x68
  | .ldpcStat => 0x6C

@[simp] theorem chanRegAt_offset (r : ChanReg) : chanRegAt r.offset = some r := by cases r <;> rfl

theorem ChanReg.offset_injective : Function.Injective ChanReg.offset := by
  intro r q h
  have hr := chanRegAt_offset r
  rw [h, chanRegAt_offset] at hr
  exact (Option.some.inj hr).symm

theorem globalRegAt_isSome_iff (addr : Nat) :
    (globalRegAt addr).isSome = true ↔ addr ∈ [0x000, 0x004, 0x008, 0x00C] := by
  unfold globalRegAt
  split <;> simp_all

/-- A channel bank has a register at every word of two ranges. -/
theorem chanRegAt_isSome_iff (offset : Nat) :
    (chanRegAt offset).isSome = true ↔
      offset % 4 = 0 ∧ (offset ≤ 0x28 ∨ (0x30 ≤ offset ∧ offset ≤ 0x6C)) := by
  unfold chanRegAt
  split
  case h_28 =>
    simp only [imp_false] at *
    simp only [Option.isSome_none, Bool.false_eq_true, false_iff]
    omega
  all_goals simp

theorem ChanReg.offset_lt (r : ChanReg) : r.offset < 0x100 := by
  have h := (chanRegAt_isSome_iff r.offset).1 (by rw [chanRegAt_offset]; rfl)
  omega

/-- The registers of a bank stand at its base and their offsets. -/
theorem regAt_chanBase (c : Chan) {offset : Nat} (h : offset < 0x100) :
    regAt (chanBase c + offset) = (chanRegAt offset).map (.chan c) := by
  cases c with
  | a =>
    rw [regAt, chanBase, if_neg (by omega), if_pos (by omega), Nat.add_sub_cancel_left]
  | b =>
    rw [regAt, chanBase, if_neg (by omega), if_neg (by omega), Nat.add_sub_cancel_left]

theorem regAt_chan (c : Chan) (r : ChanReg) : regAt (chanBase c + r.offset) = some (.chan c r) := by
  rw [regAt_chanBase c r.offset_lt, chanRegAt_offset, Option.map_some]

/-- The addresses of the map. -/
theorem regAt_isSome_iff (addr : Nat) :
    (regAt addr).isSome = true ↔ addr ∈ [0x000, 0x004, 0x008, 0x00C] ∨
      ∃ base offset, base ∈ [0x100, 0x200] ∧ addr = base + offset ∧ offset % 4 = 0 ∧
        (offset ≤ 0x28 ∨ (0x30 ≤ offset ∧ offset ≤ 0x6C)) := by
  constructor
  · unfold regAt
    split
    · exact fun h => .inl ((globalRegAt_isSome_iff addr).1 h)
    · rw [apply_ite Option.isSome, Option.isSome_map, Option.isSome_map]
      split <;> intro h <;> have hoff := (chanRegAt_isSome_iff _).1 h
      · exact .inr ⟨0x100, addr - 0x100, by simp, by omega, hoff⟩
      · exact .inr ⟨0x200, addr - 0x200, by simp, by omega, hoff⟩
  · rintro (h | ⟨base, offset, hbase, rfl, hoff⟩)
    · have hlt : addr < 0x100 := by
        simp only [List.mem_cons, List.not_mem_nil, or_false] at h
        omega
      rw [regAt, if_pos hlt]
      exact (globalRegAt_isSome_iff addr).2 h
    · obtain ⟨c, rfl⟩ : ∃ c, base = chanBase c := by
        simp only [List.mem_cons, List.not_mem_nil, or_false] at hbase
        exact hbase.elim (fun h => ⟨.a, h⟩) fun h => ⟨.b, h⟩
      rw [regAt_chanBase c (by omega), Option.isSome_map]
      exact (chanRegAt_isSome_iff offset).2 hoff

theorem regAt_aligned {addr : Nat} (h : (regAt addr).isSome = true) : addr % 4 = 0 := by
  simp only [regAt_isSome_iff, List.mem_cons, List.not_mem_nil, or_false] at h
  omega

/-! ## Accesses outside the contract (R70, R343) -/

theorem accessFault_eq_none_iff (addr width : Nat) :
    accessFault addr width = none ↔ width = 4 ∧ addr % 4 = 0 ∧ (regAt addr).isSome = true := by
  unfold accessFault
  split
  · rename_i hw
    exact iff_of_false nofun fun h => hw h.1
  split
  · rename_i ha
    exact iff_of_false nofun fun h => ha h.2.1
  · cases hr : regAt addr <;> simp_all

theorem accessFault_mapped {addr : Nat} {r : Reg} (h : regAt addr = some r) : accessFault addr 4 = none := by
  have hs : (regAt addr).isSome = true := by rw [h]; rfl
  exact (accessFault_eq_none_iff addr 4).2 ⟨rfl, regAt_aligned hs, hs⟩

theorem hostAccess_read {s : State} {addr : Nat} {r : Reg} (h : regAt addr = some r) :
    hostAccess s (.read addr 4) = .done { s with hostData := readReg s r } := by
  simp only [hostAccess, accessFault_mapped h, hostRead, h]

/-- A write to a command register places its word. -/
theorem hostAccess_command {addr : Nat} {bank : Bank}
    (h : (addr, bank) ∈ [(0x004, Bank.global), (0x100, .chan .a), (0x200, .chan .b)]) (s : State) (w : Word) :
    hostAccess s (.write addr 4 w) = .command bank w := by
  simp only [List.mem_cons, Prod.mk.injEq, List.not_mem_nil, or_false] at h
  rcases h with ⟨rfl, rfl⟩ | ⟨rfl, rfl⟩ | ⟨rfl, rfl⟩ <;> rfl

/-- A write to any other register stores. -/
theorem hostAccess_store {addr : Nat} {r : Reg} (h : regAt addr = some r) (hg : r ≠ .gcmd)
    (hc : ∀ c, r ≠ .chan c .cmd) (s : State) (v : Word) :
    hostAccess s (.write addr 4 v) = .done (writeReg s v r) := by
  simp only [hostAccess, accessFault_mapped h, hostWrite, h]

/-- An access faults exactly when it is outside the contract. -/
theorem hostAccess_fault_iff {s : State} {acc : HostAccess} {addr width : Nat} {v : Word}
    (hacc : acc = .read addr width ∨ acc = .write addr width v) :
    (∃ r, hostAccess s acc = .fault r) ↔ accessFault addr width ≠ none := by
  cases hf : accessFault addr width with
  | some f =>
    refine iff_of_true ⟨f, ?_⟩ (Option.some_ne_none f)
    rcases hacc with rfl | rfl <;> simp only [hostAccess, hf]
  | none =>
    refine iff_of_false ?_ (fun h => h rfl)
    rintro ⟨f, hfault⟩
    obtain ⟨r, hr⟩ := Option.isSome_iff_exists.1 ((accessFault_eq_none_iff addr width).1 hf).2.2
    rcases hacc with rfl | rfl
    · simp only [hostAccess, hf, hostRead, hr] at hfault
      cases hfault
    · simp only [hostAccess, hf, hostWrite, hr] at hfault
      split at hfault <;> cases hfault
      rename_i hnone
      cases hnone

/-! ## The step of a host access -/

/-- The step of an access that is no command. -/
theorem step_of_hostAccess_done {s t : State} {acc : HostAccess} (hn : s.now = .host acc)
    (h : hostAccess s acc = .done t) : step s = .next t.advance :=
  step_of_takeTurn (by simp only [takeTurn, hn, h])

theorem takeTurn_of_hostAccess_command {s : State} {acc : HostAccess} {bank : Bank} {w : Word}
    (hn : s.now = .host acc) (h : hostAccess s acc = .command bank w) : takeTurn s = commandWord bank w s := by
  simp only [takeTurn, hn, h]

/-- A command word, whether or not it is a command, does not fault. -/
theorem commandWord_next (bank : Bank) (w : Word) (s : State) : ∃ t, commandWord bank w s = .next t := by
  unfold commandWord
  cases decode bank w with
  | ok i => exact exec_next i s
  | error e => exact ⟨_, rfl⟩

/-- The step of a host access faults exactly when the access does. -/
theorem step_fault_iff_of_host {s : State} {acc : HostAccess} (hn : s.now = .host acc) :
    (∃ r, step s = .fault r) ↔ ∃ r, hostAccess s acc = .fault r := by
  cases h : hostAccess s acc with
  | fault r => exact iff_of_true ⟨r, by simp only [step, takeTurn, hn, h]⟩ ⟨r, rfl⟩
  | done t => simp [step_of_hostAccess_done hn h]
  | command bank w =>
    obtain ⟨t, ht⟩ := commandWord_next bank w s
    simp [step_of_takeTurn ((takeTurn_of_hostAccess_command hn h).trans ht)]

/-- The step of an engine's turn answers a next state, whatever the engine runs. -/
theorem step_engine_next {s : State} {e : Bank} {ans : Answer} (hn : s.now = .engine e ans) :
    ∃ t, step s = .next t := by
  cases hr : s.running e with
  | none => exact ⟨_, step_of_takeTurn (takeTurn_engine_idle hn hr)⟩
  | some r =>
    obtain ⟨t, ht⟩ := exec_next r.instr s
    exact ⟨_, step_of_takeTurn ((takeTurn_engine_running hn hr).trans ht)⟩

/-- Settles O5: a word written to a command register is placed for its bank and decoded there, and `exec` always answers
a next state. -/
theorem stepRunsWrittenCommand : Obligations.StepRunsWrittenCommand := by
  intro s addr bank w i hmem hn hd
  obtain ⟨t, ht⟩ := exec_next i s
  have hturn : takeTurn s = .next t := by
    rw [takeTurn_of_hostAccess_command hn (hostAccess_command hmem s w), commandWord, hd]
    exact ht
  rw [ht]
  exact step_of_takeTurn hturn

/-- Settles O57: a step of the host faults with its access, which faults outside the contract; a step of an engine never
does. -/
theorem hostFaults : Obligations.HostFaults := by
  refine ⟨fun s addr width v hn => ?_, fun s e ans hn => step_engine_next hn⟩
  have hfault : (∃ r, step s = .fault r) ↔ accessFault addr width ≠ none := by
    rcases hn with hn | hn
    · exact (step_fault_iff_of_host hn).trans (hostAccess_fault_iff (v := v) (.inl rfl))
    · exact (step_fault_iff_of_host hn).trans (hostAccess_fault_iff (.inr rfl))
  rw [hfault, Ne, accessFault_eq_none_iff, regAt_isSome_iff]
  simp only [not_and_or, ne_eq]

/-! ## Host writes -/

theorem step_hostWrite {s : State} {addr : Nat} {v : Word} {r : Reg} (hn : s.now = .host (.write addr 4 v))
    (hr : regAt addr = some r) (hg : r ≠ .gcmd) (hc : ∀ c, r ≠ .chan c .cmd) :
    step s = .next (writeReg s v r).advance :=
  step_of_hostAccess_done hn (hostAccess_store hr hg hc s v)

theorem step_hostWrite_chan {s : State} {c : Chan} {r : ChanReg} {v : Word}
    (hn : s.now = .host (.write (chanBase c + r.offset) 4 v)) (hr : r ≠ .cmd) :
    step s = .next (s.updChan c fun ch => writeChan v ch r).advance :=
  step_hostWrite hn (regAt_chan c r) nofun fun _ h => hr (Reg.chan.inj h).2

/-- The read-only registers of a channel bank (R21, R73). -/
def ChanReg.readOnly : List ChanReg :=
  [.status, .res0, .res1, .res2, .res3, .rslFreq, .rslSr, .rslOffset, .rslParams, .tmFreq, .tmSr, .tmRf, .tmCn, .tmErr,
    .tmTotal, .tmParams, .ldpcStat]

theorem writeChan_readOnly {r : ChanReg} (h : r ∈ ChanReg.readOnly) (v : Word) (ch : Channel) :
    writeChan v ch r = ch := by
  cases r <;> first | rfl | simp [ChanReg.readOnly] at h

theorem writeReg_mclk_locked {s : State} (h : s.glob.initialized = true) (v : Word) : writeReg s v .mclk = s :=
  if_pos h

theorem writeReg_mclk_unlocked {s : State} (h : s.glob.initialized = false) (v : Word) :
    writeReg s v .mclk = { s with glob := { s.glob with mclk := v } } := by
  rw [writeReg, if_neg (by simp [h]), State.updGlob]

/-- Settles O56, register by register of the lists. -/
theorem hostWrites : Obligations.HostWrites := by
  intro s v passed
  have hpassed : ∀ t : State, t.turns = s.turns → t.tick = s.tick → t.advance = passed t := by
    intro t hturns htick
    simp only [passed, State.advance, hturns, htick]
  have hchan : ∀ (c : Chan) (r : ChanReg), r ≠ .cmd → s.now = .host (.write (chanBase c + r.offset) 4 v) →
      step s = .next (passed (s.updChan c fun ch => writeChan v ch r)) := by
    intro c r hr hn
    rw [step_hostWrite_chan hn hr, hpassed _ (State.updChan_turns _ _ _) (State.updChan_tick _ _ _)]
  refine ⟨fun c offset hn => ?_, fun addr hn => ⟨?_, ?_⟩⟩
  · replace hn : s.now = .host (.write (chanBase c + offset) 4 v) := by cases c <;> exact hn
    constructor
    · rintro f (⟨rfl, rfl⟩ | ⟨rfl, rfl⟩ | ⟨rfl, rfl⟩ | ⟨rfl, rfl⟩ | ⟨rfl, rfl⟩ | ⟨rfl, rfl⟩ | ⟨rfl, rfl⟩ | ⟨rfl, rfl⟩ |
        ⟨rfl, rfl⟩)
      · exact hchan c .arg0 nofun hn
      · exact hchan c .arg1 nofun hn
      · exact hchan c .arg2 nofun hn
      · exact hchan c .arg3 nofun hn
      · exact hchan c .chCfg nofun hn
      · exact hchan c .reqFreq nofun hn
      · exact hchan c .reqSr nofun hn
      · exact hchan c .reqRange nofun hn
      · rw [← BitVec.setWidth_eq_extractLsb' (by omega)]
        exact hchan c .reqMode nofun hn
    · intro hoff
      obtain ⟨r, hr, rfl⟩ : ∃ r ∈ ChanReg.readOnly, r.offset = offset := List.mem_map.1 hoff
      have hcmd : r ≠ .cmd := by
        rintro rfl
        simp [ChanReg.readOnly] at hr
      have hid : (fun ch => writeChan v ch r) = id := funext fun ch => writeChan_readOnly hr v ch
      rw [hchan c r hcmd hn, hid, State.updChan_id]
  · rintro (rfl | rfl | ⟨rfl, hinit⟩)
    · exact step_hostWrite (r := .gid) hn rfl nofun nofun
    · exact step_hostWrite (r := .gstatus) hn rfl nofun nofun
    · rw [step_hostWrite (r := .mclk) hn rfl nofun nofun, writeReg_mclk_locked hinit]
      rfl
  · rintro rfl hinit
    rw [step_hostWrite (r := .mclk) hn rfl nofun nofun, writeReg_mclk_unlocked hinit]
    rfl

end Sys2Proof.Machine
end

section
/-! SUPPORT. What a host read returns (10_state.md R21 to R30, 20_memory.md R73, R80): the assembled words as their fields
at their bit positions, and which channel registers are open. -/

namespace Sys2Proof.Machine

/-! ## Words assembled from fields (R22, R23, R25) -/

/-- A concatenation within a word is its low part, with its high one shifted past it. -/
theorem setWidth_append_eq_or {m n : Nat} (k : Nat) (x : BitVec m) (y : BitVec n) :
    (x ++ y).setWidth k = y.setWidth k ||| (x.setWidth k <<< n) := by
  apply BitVec.eq_of_getLsbD_eq
  intro i hi
  simp only [BitVec.getLsbD_setWidth, BitVec.getLsbD_append, BitVec.getLsbD_or, BitVec.getLsbD_shiftLeft, hi]
  by_cases hn : i < n
  · simp [hn]
  · have hk : i - n < k := by omega
    simp [hn, hk, BitVec.getLsbD_of_ge y i (by omega)]

theorem gidWord_eq (g : Global) :
    gidWord g = g.chipId.setWidth 32 ||| ((profileCode g.profile).setWidth 32 <<< 8) |||
      ((BitVec.ofBool g.initialized).setWidth 32 <<< 16) ||| ((BitVec.ofBool g.standby).setWidth 32 <<< 17) |||
      ((BitVec.ofBool g.lnaPresent).setWidth 32 <<< 18) ||| ((BitVec.ofBool g.ldpcDual).setWidth 32 <<< 19) := by
  rw [← BitVec.setWidth_eq (gidWord g), gidWord]
  simp only [setWidth_append_eq_or]
  simp only [BitVec.ofNat_eq_ofNat, BitVec.setWidth_zero, BitVec.zero_shiftLeft, BitVec.zero_or, BitVec.or_zero,
    BitVec.shiftLeft_or_distrib, ← BitVec.shiftLeft_add, Nat.reduceAdd, BitVec.or_assoc]

theorem gstatusWord_eq (e : Engine) :
    gstatusWord e = ((BitVec.ofBool e.busy).setWidth 32 <<< 8) ||| (e.cmdResult.code.setWidth 32 <<< 12) |||
      (e.lastOpcode.setWidth 32 <<< 16) := by
  rw [← BitVec.setWidth_eq (gstatusWord e), gstatusWord]
  simp only [setWidth_append_eq_or]
  simp only [BitVec.ofNat_eq_ofNat, BitVec.setWidth_zero, BitVec.zero_shiftLeft, BitVec.zero_or, BitVec.or_zero,
    BitVec.shiftLeft_or_distrib, ← BitVec.shiftLeft_add, Nat.reduceAdd, BitVec.or_assoc]

theorem statusWord_eq (ch : Channel) :
    statusWord ch = ch.state.code.setWidth 32 ||| ((BitVec.ofBool ch.eng.busy).setWidth 32 <<< 8) |||
      ((BitVec.ofBool ch.locked).setWidth 32 <<< 9) ||| ((BitVec.ofBool ch.aborted).setWidth 32 <<< 10) |||
      ((BitVec.ofBool ch.ldpcStopped).setWidth 32 <<< 11) ||| (ch.eng.cmdResult.code.setWidth 32 <<< 12) |||
      (ch.eng.lastOpcode.setWidth 32 <<< 16) ||| (ch.blindPhase.code.setWidth 32 <<< 24) := by
  rw [← BitVec.setWidth_eq (statusWord ch), statusWord]
  simp only [setWidth_append_eq_or]
  simp only [BitVec.ofNat_eq_ofNat, BitVec.setWidth_zero, BitVec.zero_shiftLeft, BitVec.zero_or, BitVec.or_zero,
    BitVec.shiftLeft_or_distrib, ← BitVec.shiftLeft_add, Nat.reduceAdd, BitVec.or_assoc]

/-! ## Open registers (R80, R374) -/

/-- The RSL registers are written at the points after the readback of the search, known by STATE or by the attempt. -/
theorem rslWritten_iff (ch : Channel) (p : Point) :
    rslWritten ch p = true ↔ ∃ now rest got at_, p = .before now rest got (.search at_) ∧
      (ch.state = .trackingOptimized ∨ ch.state = .fecLocked ∨ ∃ a, at_.attempt = some a ∧ a.stage ≠ .first) := by
  unfold rslWritten
  split
  · rename_i now rest got at_
    simp [or_assoc, Option.any_eq_true]
  · rename_i hp
    refine iff_of_false Bool.false_ne_true ?_
    rintro ⟨now, rest, got, at_, rfl, -⟩
    exact hp _ _ _ _ rfl

theorem isSearch_iff (i : Instr) : isSearch i = true ↔ ∃ c, i = .search c := by
  cases i with
  | search c => exact iff_of_true rfl ⟨c, rfl⟩
  | _ => exact iff_of_false Bool.false_ne_true nofun

theorem openWhileBusy_iff (ch : Channel) (r : ChanReg) :
    openWhileBusy ch r = true ↔ ch.eng.busy = true ∧ ∃ i p, ch.eng.run = some ⟨i, p⟩ ∧ r ∈ resultRegs i ∧
      ((∃ d, i = .search d) → rslWritten ch p = true) := by
  unfold openWhileBusy
  split
  · rename_i hrun
    simp [hrun]
  · rename_i i p hrun
    cases hs : isSearch i <;> simp [hrun, hs, ← isSearch_iff, and_assoc]

/-- The reserved bits of a result register are those above bit 14 of the two parameter registers. -/
theorem withoutReserved_eq (v : Word) (r : ChanReg) :
    withoutReserved v r = if r.offset = 0x4C ∨ r.offset = 0x68 then v &&& 0x7FFF else v := by
  have hmask : (v.setWidth 15).setWidth 32 = v &&& 0x7FFF := by
    apply BitVec.eq_of_toNat_eq
    rw [BitVec.toNat_setWidth_of_le (by omega), BitVec.toNat_setWidth, BitVec.toNat_and]
    exact (Nat.and_two_pow_sub_one_eq_mod v.toNat 15).symm
  cases r with
  | rslParams => exact hmask
  | tmParams => exact hmask
  | _ => rfl

/-! ## Host reads -/

theorem step_hostRead {s : State} {addr : Nat} {r : Reg} (hn : s.now = .host (.read addr 4)) (hr : regAt addr = some r) :
    step s = .next { s with hostData := readReg s r, turns := s.turns.tail, tick := s.tick + 1 } :=
  step_of_hostAccess_done hn (hostAccess_read hr)

/-- The registers of a channel bank, in the order of their offsets. -/
def ChanReg.all : List ChanReg :=
  [.cmd, .status, .arg0, .arg1, .arg2, .arg3, .res0, .res1, .res2, .res3, .chCfg, .reqFreq, .reqSr, .reqRange, .reqMode,
    .rslFreq, .rslSr, .rslOffset, .rslParams, .tmFreq, .tmSr, .tmRf, .tmCn, .tmErr, .tmTotal, .tmParams, .ldpcStat]

/-- Settles O55: a read returns `readReg` of the register at its address, and `readReg` is what the statement lists. -/
theorem hostReads : Obligations.HostReads := by
  refine ⟨?_, by simp [SearchState.code], by simp [CmdResult.code], by simp [BlindPhase.code], by simp [profileCode]⟩
  intro s v bit returned
  have hread : ∀ {addr : Nat} (r : Reg), s.now = .host (.read addr 4) → regAt addr = some r → v = readReg s r →
      step s = .next returned := by
    intro addr r hn hr hv
    rw [step_hostRead hn hr, ← hv]
  constructor
  · intro addr hn hmem
    simp only [List.mem_cons, Prod.mk.injEq, List.not_mem_nil, or_false] at hmem
    rcases hmem with ⟨rfl, hv⟩ | ⟨rfl, hv⟩ | ⟨rfl, hv⟩ | ⟨rfl, hv⟩
    · exact hread .gid hn rfl (hv.trans (gidWord_eq s.glob).symm)
    · exact hread .gcmd hn rfl hv
    · exact hread .gstatus hn rfl (hv.trans (gstatusWord_eq s.glob.eng).symm)
    · exact hread .mclk hn rfl hv
  · intro c offset hn ch writes isOpen
    replace hn : s.now = .host (.read (chanBase c + offset) 4) := by cases c <;> exact hn
    have hwrites : ∀ i, writes i = (resultRegs i).map ChanReg.offset := by intro i; cases i <;> rfl
    have hopen : ∀ r : ChanReg, r.offset = offset → (isOpen ↔ openWhileBusy ch r = true) := by
      intro r hr
      simp only [isOpen, hwrites, ← hr, List.mem_map_of_injective ChanReg.offset_injective, openWhileBusy_iff,
        rslWritten_iff]
    have hchan : ∀ r : ChanReg, r.offset = offset →
        v = (if openWhileBusy ch r then withoutReserved (Config.freeBusyRead s.tick) r else readChan ch r) →
        step s = .next returned := by
      rintro r rfl hv
      exact hread (.chan c r) hn (regAt_chan c r) hv
    constructor
    · intro hmem hclosed
      obtain ⟨r, -, hr⟩ : ∃ r ∈ ChanReg.all, (r.offset, readChan ch r) = (offset, v) := by
        refine List.mem_map.1 ?_
        rw [← statusWord_eq] at hmem
        exact hmem
      obtain ⟨hoff, hv⟩ := Prod.mk.inj hr
      refine hchan r hoff ?_
      rw [if_neg (mt (hopen r hoff).2 hclosed), hv]
    · intro hopened hv
      obtain ⟨r, hoff⟩ : ∃ r : ChanReg, r.offset = offset := by
        obtain ⟨-, i, -, -, hmem, -⟩ := hopened
        rw [hwrites] at hmem
        obtain ⟨r, -, hr⟩ := List.mem_map.1 hmem
        exact ⟨r, hr⟩
      refine hchan r hoff ?_
      rw [if_pos ((hopen r hoff).1 hopened), withoutReserved_eq, hoff, hv]

end Sys2Proof.Machine
end

section
/-! SUPPORT. The words of the commands (30_encoding.md R100 to R104): the layout of a command's operands, the layout at
each opcode of each bank, and the decoder and the encoder in terms of it. -/

namespace Sys2Proof

/-! ## Layouts of the operands (R103) -/

/-- How a command keeps its operands in SUB and IMM16 (R103). -/
inductive Layout where
  /-- No operand. -/
  | bare (i : Instr)
  /-- A flag in SUB[0]. -/
  | flag (f : Bool → Instr)
  /-- An algorithm code in SUB[1:0]. -/
  | algorithm (f : BitVec 2 → Instr)
  /-- A table id in SUB. -/
  | table (f : BitVec 3 → Instr)
  /-- A table id in SUB, and one in IMM16[2:0]. -/
  | tables (f : BitVec 3 → BitVec 3 → Instr)

/-- The SUB bits that must be 0. -/
def Layout.subZero : Layout → BitVec 3
  | .bare _ => 0b111
  | .flag _ => 0b110
  | .algorithm _ => 0b100
  | .table _ => 0
  | .tables _ => 0

/-- The IMM16 bits that must be 0. -/
def Layout.immZero : Layout → BitVec 16
  | .bare _ => 0xFFFF
  | .flag _ => 0xFFFF
  | .algorithm _ => 0xFFFF
  | .table _ => 0xFFFF
  | .tables _ => 0xFFF8

/-- The command whose operands are read from SUB and IMM16. -/
def Layout.command (sub : BitVec 3) (imm : BitVec 16) : Layout → Instr
  | .bare i => i
  | .flag f => f (sub.getLsbD 0)
  | .algorithm f => f (sub.extractLsb' 0 2)
  | .table f => f sub
  | .tables f => f sub (imm.extractLsb' 0 3)

/-- The reserved-field check of R104: RSV is 0, and so are the SUB and IMM16 bits that hold no operand. -/
def Layout.fits (w : Word) (l : Layout) : Bool :=
  decide (rsvOf w = 0 ∧ subOf w &&& l.subZero = 0 ∧ immOf w &&& l.immZero = 0)

theorem Layout.fits_iff (w : Word) (l : Layout) :
    l.fits w = true ↔ rsvOf w = 0 ∧ subOf w &&& l.subZero = 0 ∧ immOf w &&& l.immZero = 0 := decide_eq_true_iff

/-- The commands of the layout have this opcode, and their operands in the fields the layout says. -/
def Layout.Describes (opcode : BitVec 8) : Layout → Prop
  | .bare i => i.opcode = opcode ∧ i.sub = 0 ∧ i.imm = 0
  | .flag f => ∀ b, (f b).opcode = opcode ∧ (f b).sub = (BitVec.ofBool b).setWidth 3 ∧ (f b).imm = 0
  | .algorithm f => ∀ a, (f a).opcode = opcode ∧ (f a).sub = a.setWidth 3 ∧ (f a).imm = 0
  | .table f => ∀ t, (f t).opcode = opcode ∧ (f t).sub = t ∧ (f t).imm = 0
  | .tables f => ∀ t u, (f t u).opcode = opcode ∧ (f t u).sub = t ∧ (f t u).imm = u.setWidth 16

/-- The layout at an opcode of a bank's map (R102). -/
def layoutAt : Bank → Nat → Option Layout
  | .global, opcode =>
    match opcode with
    | 0x01 => some (.bare .init)
    | 0x02 => some (.bare .term)
    | 0x03 => some (.flag .standby)
    | 0x04 => some (.flag .setLdpcMode)
    | _ => none
  | .chan c, opcode =>
    match opcode with
    | 0x10 => some (.table (.interp c))
    | 0x11 => some (.tables (.interp2 c))
    | 0x12 => some (.bare (.getRfLevel c))
    | 0x13 => some (.bare (.getCn c))
    | 0x20 => some (.flag (.carrierOffset c))
    | 0x21 => some (.flag (.symbolRate c))
    | 0x22 => some (.flag (.timingOffset c))
    | 0x23 => some (.bare (.encSymbolRate c))
    | 0x30 => some (.flag (.selectStandard c))
    | 0x31 => some (.algorithm (.computeTimeouts c))
    | 0x32 => some (.flag (.selectClg c))
    | 0x40 => some (.bare (.search c))
    | 0x41 => some (.bare (.abort c))
    | 0x42 => some (.bare (.unlock c))
    | 0x50 => some (.bare (.getSignalInfo c))
    | 0x51 => some (.bare (.getPer c))
    | 0x52 => some (.bare (.ldpcMonitor c))
    | _ => none

/-! ## The decoder by layouts -/

theorem plainFields_eq_true_iff (subMask : BitVec 3) (w : Word) :
    plainFields subMask w = true ↔ rsvOf w = 0 ∧ subOf w &&& ~~~subMask = 0 ∧ immOf w &&& 0xFFFF = 0 := by
  have himm : immOf w &&& 0xFFFF = immOf w := BitVec.and_allOnes
  rw [himm]
  simp only [plainFields, Bool.and_eq_true, beq_iff_eq]
  tauto

/-- Shifting the three operand bits out leaves 0 exactly when masking them does. -/
theorem extractLsb'_high_eq_zero_iff (x : BitVec 16) : x.extractLsb' 3 13 = 0 ↔ x &&& 0xFFF8 = 0 := by
  have hmask : x &&& (0xFFF8 : BitVec 16) = x >>> 3 <<< 3 := by
    ext k hk
    interval_cases k <;> simp
  rw [hmask, ← BitVec.toNat_inj, ← BitVec.toNat_inj]
  simp only [BitVec.extractLsb'_toNat, BitVec.toNat_shiftLeft, BitVec.toNat_ushiftRight, Nat.shiftLeft_eq,
    Nat.shiftRight_eq_div_pow, BitVec.ofNat_eq_ofNat, BitVec.toNat_ofNat]
  omega

theorem interp2Fields_eq_true_iff (w : Word) :
    interp2Fields w = true ↔ rsvOf w = 0 ∧ subOf w &&& 0 = 0 ∧ immOf w &&& 0xFFF8 = 0 := by
  have hsub : subOf w &&& 0 = 0 := BitVec.and_zero
  simp only [interp2Fields, Bool.and_eq_true, beq_iff_eq, extractLsb'_high_eq_zero_iff, hsub, true_and]

/-- The decoder looks the layout up at the opcode, makes the reserved-field check, and reads the operands (R105 lines (1)
and (2), R107). -/
theorem decode_eq (bank : Bank) (w : Word) : decode bank w =
    (layoutAt bank (opcodeOf w).toNat).elim (.error .illegalOpcode)
      fun l => guarded (l.fits w) (l.command (subOf w) (immOf w)) := by
  have plain : ∀ {m : BitVec 3} {l : Layout}, ~~~m = l.subZero → l.immZero = 0xFFFF → plainFields m w = l.fits w := by
    intro m l hs hi
    rw [Bool.eq_iff_iff, plainFields_eq_true_iff, Layout.fits_iff, hs, hi]
  have tables : ∀ f, interp2Fields w = (Layout.tables f).fits w := by
    intro f
    rw [Bool.eq_iff_iff, interp2Fields_eq_true_iff, Layout.fits_iff, Layout.subZero, Layout.immZero]
  cases bank with
  | global =>
    simp only [decode, decodeGlobal, layoutAt]
    generalize (opcodeOf w).toNat = opcode
    split
    case h_5 => simp_all
    all_goals exact congrArg (guarded · _) (plain rfl rfl)
  | chan c =>
    simp only [decode, decodeChan, layoutAt]
    generalize (opcodeOf w).toNat = opcode
    split
    case h_18 => simp_all
    case h_2 => exact congrArg (guarded · _) (tables _)
    all_goals exact congrArg (guarded · _) (plain rfl rfl)

theorem decode_eq_ok_iff {bank : Bank} {w : Word} {i : Instr} : decode bank w = .ok i ↔
    ∃ l, layoutAt bank (opcodeOf w).toNat = some l ∧ l.fits w = true ∧ l.command (subOf w) (immOf w) = i := by
  rw [decode_eq]
  cases layoutAt bank (opcodeOf w).toNat with
  | none => simp
  | some l => cases h : l.fits w <;> simp [guarded, h]

theorem decode_eq_illegalOpcode_iff (bank : Bank) (w : Word) :
    decode bank w = .error .illegalOpcode ↔ layoutAt bank (opcodeOf w).toNat = none := by
  rw [decode_eq]
  cases layoutAt bank (opcodeOf w).toNat with
  | none => simp
  | some l => cases h : l.fits w <;> simp [guarded, h]

theorem decode_eq_reservedField_iff {bank : Bank} {w : Word} {l : Layout}
    (hl : layoutAt bank (opcodeOf w).toNat = some l) : decode bank w = .error .reservedField ↔
      rsvOf w ≠ 0 ∨ subOf w &&& l.subZero ≠ 0 ∨ immOf w &&& l.immZero ≠ 0 := by
  have hfits : l.fits w = false ↔ rsvOf w ≠ 0 ∨ subOf w &&& l.subZero ≠ 0 ∨ immOf w &&& l.immZero ≠ 0 := by
    rw [← Bool.not_eq_true, Layout.fits_iff, not_and_or, not_and_or]
  rw [← hfits, decode_eq, hl, Option.elim]
  cases l.fits w <;> simp [guarded]

/-! ## The encoder by layouts -/

/-- Each row of the map describes its commands (R102, R103). -/
theorem layoutAt_describes {bank : Bank} {n : Nat} {l : Layout} (hl : layoutAt bank n = some l) :
    l.Describes (BitVec.ofNat 8 n) := by
  cases bank with
  | global =>
    simp only [layoutAt] at hl
    split at hl <;> cases hl
    case h_1 | h_2 => exact ⟨rfl, rfl, rfl⟩
    case h_3 | h_4 => exact fun _ => ⟨rfl, rfl, rfl⟩
  | chan c =>
    simp only [layoutAt] at hl
    split at hl <;> cases hl
    case h_2 => exact fun _ _ => ⟨rfl, rfl, rfl⟩
    case h_1 | h_5 | h_6 | h_7 | h_9 | h_10 | h_11 => exact fun _ => ⟨rfl, rfl, rfl⟩
    all_goals exact ⟨rfl, rfl, rfl⟩

/-! The operand of a field, written back, is the field whose other bits are 0. -/

theorem flag_written_back : ∀ sub : BitVec 3, sub &&& 0b110 = 0 → (BitVec.ofBool (sub.getLsbD 0)).setWidth 3 = sub := by
  decide

theorem algorithm_written_back : ∀ sub : BitVec 3, sub &&& 0b100 = 0 → (sub.extractLsb' 0 2).setWidth 3 = sub := by
  decide

theorem fine_written_back {imm : BitVec 16} (h : imm &&& 0xFFF8 = 0) : (imm.extractLsb' 0 3).setWidth 16 = imm := by
  have hhigh := congrArg BitVec.toNat ((extractLsb'_high_eq_zero_iff imm).2 h)
  simp only [BitVec.extractLsb'_toNat, Nat.shiftRight_eq_div_pow, BitVec.ofNat_eq_ofNat, BitVec.toNat_ofNat] at hhigh
  apply BitVec.eq_of_toNat_eq
  simp only [BitVec.toNat_setWidth, BitVec.extractLsb'_toNat, Nat.shiftRight_zero]
  omega

/-! An operand's field has no other bit, and reads back as the operand. -/

theorem flag_read : ∀ b : Bool,
    (BitVec.ofBool b).setWidth 3 &&& 0b110 = 0 ∧ ((BitVec.ofBool b).setWidth 3).getLsbD 0 = b := by
  decide

theorem algorithm_read : ∀ a : BitVec 2, a.setWidth 3 &&& 0b100 = 0 ∧ (a.setWidth 3).extractLsb' 0 2 = a := by decide

theorem fine_read : ∀ u : BitVec 3, u.setWidth 16 &&& 0xFFF8 = 0 ∧ (u.setWidth 16).extractLsb' 0 3 = u := by decide

/-- Operands read from fields whose must-be-0 bits are 0 are written back to the same fields. -/
theorem Layout.Describes.command {opcode : BitVec 8} {l : Layout} (h : l.Describes opcode) {sub : BitVec 3}
    {imm : BitVec 16} (hs : sub &&& l.subZero = 0) (hi : imm &&& l.immZero = 0) :
    (l.command sub imm).opcode = opcode ∧ (l.command sub imm).sub = sub ∧ (l.command sub imm).imm = imm := by
  have imm_zero : imm &&& 0xFFFF = 0 → 0 = imm := fun h => h.symm.trans BitVec.and_allOnes
  cases l with
  | bare i =>
    obtain ⟨hop, hsub, himm⟩ := h
    exact ⟨hop, hsub.trans (hs.symm.trans BitVec.and_allOnes), himm.trans (imm_zero hi)⟩
  | flag f =>
    obtain ⟨hop, hsub, himm⟩ := h (sub.getLsbD 0)
    exact ⟨hop, hsub.trans (flag_written_back sub hs), himm.trans (imm_zero hi)⟩
  | algorithm f =>
    obtain ⟨hop, hsub, himm⟩ := h (sub.extractLsb' 0 2)
    exact ⟨hop, hsub.trans (algorithm_written_back sub hs), himm.trans (imm_zero hi)⟩
  | table f =>
    obtain ⟨hop, hsub, himm⟩ := h sub
    exact ⟨hop, hsub, himm.trans (imm_zero hi)⟩
  | tables f =>
    obtain ⟨hop, hsub, himm⟩ := h sub (imm.extractLsb' 0 3)
    exact ⟨hop, hsub, himm.trans (fine_written_back hi)⟩

/-- The commands of a layout, for every value of the operands. -/
def Layout.Has (i : Instr) : Layout → Prop
  | .bare j => j = i
  | .flag f => ∃ b, f b = i
  | .algorithm f => ∃ a, f a = i
  | .table f => ∃ t, f t = i
  | .tables f => ∃ t u, f t u = i

/-- Every command stands in the map of its bank at its opcode. -/
theorem layoutAt_opcode (i : Instr) : ∃ l, layoutAt i.bank i.opcode.toNat = some l ∧ l.Has i := by
  cases i with
  | standby b | setLdpcMode b | carrierOffset _ b | symbolRate _ b | timingOffset _ b | selectStandard _ b
  | selectClg _ b => exact ⟨_, rfl, b, rfl⟩
  | computeTimeouts _ a => exact ⟨_, rfl, a, rfl⟩
  | interp _ t => exact ⟨_, rfl, t, rfl⟩
  | interp2 _ t u => exact ⟨_, rfl, t, u, rfl⟩
  | _ => exact ⟨_, rfl, rfl⟩

/-- A command's fields have no must-be-0 bit, and the command is read back from them. -/
theorem Layout.Has.read {opcode : BitVec 8} {l : Layout} {i : Instr} (h : l.Has i) (hd : l.Describes opcode) :
    i.sub &&& l.subZero = 0 ∧ i.imm &&& l.immZero = 0 ∧ l.command i.sub i.imm = i := by
  cases l with
  | bare j =>
    obtain rfl := h
    obtain ⟨-, hsub, himm⟩ := hd
    rw [hsub, himm]
    exact ⟨BitVec.zero_and, BitVec.zero_and, rfl⟩
  | flag f =>
    obtain ⟨b, rfl⟩ := h
    obtain ⟨-, hsub, himm⟩ := hd b
    rw [hsub, himm]
    exact ⟨(flag_read b).1, BitVec.zero_and, congrArg f (flag_read b).2⟩
  | algorithm f =>
    obtain ⟨a, rfl⟩ := h
    obtain ⟨-, hsub, himm⟩ := hd a
    rw [hsub, himm]
    exact ⟨(algorithm_read a).1, BitVec.zero_and, congrArg f (algorithm_read a).2⟩
  | table f =>
    obtain ⟨t, rfl⟩ := h
    obtain ⟨-, hsub, himm⟩ := hd t
    rw [hsub, himm]
    exact ⟨BitVec.and_zero, BitVec.zero_and, rfl⟩
  | tables f =>
    obtain ⟨t, u, rfl⟩ := h
    obtain ⟨-, hsub, himm⟩ := hd t u
    rw [hsub, himm]
    exact ⟨BitVec.and_zero, (fine_read u).1, congrArg (f t) (fine_read u).2⟩

/-- The four fields make up the word (R100). -/
theorem append_fields (w : Word) : immOf w ++ rsvOf w ++ subOf w ++ opcodeOf w = w := by
  simp only [immOf, rsvOf, subOf, opcodeOf]
  rw [BitVec.extractLsb'_append_extractLsb'_eq_extractLsb' (show 16 = 11 + 5 from rfl),
    BitVec.extractLsb'_append_extractLsb'_eq_extractLsb' (show 11 = 8 + 3 from rfl),
    BitVec.extractLsb'_append_extractLsb'_eq_extractLsb' (show 8 = 0 + 8 from rfl)]
  exact BitVec.extractLsb'_eq_self

/-! ## The round trips -/

/-- Settles O1: the layout at the command's opcode reads the command back from its fields. -/
theorem decodeEncodeRoundTrip : Obligations.DecodeEncodeRoundTrip := by
  intro i
  obtain ⟨l, hl, hi⟩ := layoutAt_opcode i
  obtain ⟨hsub, himm, hcmd⟩ := hi.read (layoutAt_describes hl)
  rw [decode_eq_ok_iff]
  refine ⟨l, by rw [opcodeOf_encode, hl], ?_, by rw [subOf_encode, immOf_encode, hcmd]⟩
  rw [Layout.fits_iff, rsvOf_encode, subOf_encode, immOf_encode]
  exact ⟨rfl, hsub, himm⟩

/-- Settles O2: the fields the layout reads the operands from are the fields the command writes, and the others are 0. -/
theorem encodeDecodeRoundTrip : Obligations.EncodeDecodeRoundTrip := by
  intro bank w i h
  refine ⟨Machine.bank_of_decode h, ?_⟩
  obtain ⟨l, hl, hfits, rfl⟩ := decode_eq_ok_iff.1 h
  obtain ⟨hrsv, hsub, himm⟩ := (l.fits_iff w).1 hfits
  obtain ⟨ho, hs, hi⟩ := (layoutAt_describes hl).command hsub himm
  rw [BitVec.ofNat_toNat, BitVec.setWidth_eq] at ho
  rw [encode, ho, hs, hi, ← hrsv, append_fields]

/-- Settles O4: the ten words are the encoded ones, which decode as O1 says. -/
theorem encodingExamples : Obligations.EncodingExamples := by
  intro ex hex
  have henc : encode ex.1 = ex.2 := by
    revert ex
    decide
  exact ⟨henc, henc ▸ decodeEncodeRoundTrip ex.1⟩

/-! ## Illegal words and reserved fields (R104) -/

theorem layoutAt_global_eq_none_iff (n : Nat) : layoutAt .global n = none ↔ n ∉ [0x01, 0x02, 0x03, 0x04] := by
  simp only [layoutAt]
  split <;> simp_all

theorem layoutAt_chan_eq_none_iff (c : Chan) (n : Nat) : layoutAt (.chan c) n = none ↔
    n ∉ [0x10, 0x11, 0x12, 0x13, 0x20, 0x21, 0x22, 0x23, 0x30, 0x31, 0x32, 0x40, 0x41, 0x42, 0x50, 0x51, 0x52] := by
  simp only [layoutAt]
  split <;> simp_all

/-- A row of must-be-0 bits is the one of the layout at its opcode. -/
theorem decode_eq_reservedField_iff_of_row {bank : Bank} {w : Word} {row : BitVec 8 × BitVec 3 × BitVec 16}
    (hrow : (layoutAt bank row.1.toNat).map (fun l => (l.subZero, l.immZero)) = some row.2) (hop : opcodeOf w = row.1) :
    decode bank w = .error .reservedField ↔
      rsvOf w ≠ 0 ∨ subOf w &&& row.2.1 ≠ 0 ∨ immOf w &&& row.2.2 ≠ 0 := by
  obtain ⟨l, hl, hbits⟩ := Option.map_eq_some_iff.1 hrow
  rw [← hbits]
  exact decode_eq_reservedField_iff (hop ▸ hl)

/-- Settles O3: the opcodes and the must-be-0 bits of the layouts are the listed ones. -/
theorem illegalAndReservedWords : Obligations.IllegalAndReservedWords := by
  refine fun w => ⟨?_, fun c => ?_, fun row hrow hop => ?_, fun c row hrow hop => ?_⟩
  · exact (decode_eq_illegalOpcode_iff .global w).trans (layoutAt_global_eq_none_iff _)
  · exact (decode_eq_illegalOpcode_iff (.chan c) w).trans (layoutAt_chan_eq_none_iff c _)
  · refine decode_eq_reservedField_iff_of_row ?_ hop
    clear hop
    revert row
    simp [layoutAt, Layout.subZero, Layout.immZero]
  · refine decode_eq_reservedField_iff_of_row ?_ hop
    clear hop
    revert row
    simp [layoutAt, Layout.subZero, Layout.immZero]

end Sys2Proof
end

section
/-! SUPPORT. What a host turn does with a command word (30_encoding.md R105): a word that is no command, a command the
checks of lines (4) to (8) reject, and one they accept. -/

namespace Sys2Proof.Machine

/-! ## Lines (1) and (2) -/

/-- Settles O7: the turn of an undecodable word is its reject. -/
theorem undecodableWordRejected : Obligations.UndecodableWordRejected := by
  intro s addr bank w err hmem hn hd
  have hturn : takeTurn s = .next (reject bank (opcodeOf w) (decodeResult err) s) := by
    rw [takeTurn_of_hostAccess_command hn (hostAccess_command hmem s w), commandWord, hd]
  rw [step_of_takeTurn hturn]
  cases err <;> rfl

/-! ## Lines (4) to (8) -/

theorem gatedByChannels_iff (i : Instr) : gatedByChannels i = true ↔
    i = .init ∨ i = .term ∨ i = .standby true ∨ ∃ d, i = .setLdpcMode d := by
  cases i <;> simp [gatedByChannels]

/-- A command whose word names nothing: a table id above 3, or algorithm code 3 (R103). -/
theorem wellFormed_eq_false_iff (i : Instr) : i.wellFormed = false ↔
    (∃ c t, i = .interp c t ∧ 4 ≤ t.toNat) ∨ (∃ c t u, i = .interp2 c t u ∧ (4 ≤ t.toNat ∨ 4 ≤ u.toNat)) ∨
      ∃ c, i = .computeTimeouts c 3 := by
  cases i with
  | interp c t => simp [Instr.wellFormed]
  | interp2 c t u => simp [Instr.wellFormed]; omega
  | computeTimeouts c algo =>
    have halgo : 3 ≤ algo.toNat ↔ algo = 3 := by
      revert algo
      decide
    simp [Instr.wellFormed, halgo]
  | _ => simp [Instr.wellFormed]

theorem badOperand_iff (i : Instr) (s : State) :
    badOperand i s = true ↔ i.wellFormed = false ∨ (i = .init ∧ s.glob.mclk.toNat < 2 ^ 17) := by
  simp only [badOperand, Bool.or_eq_true, Bool.not_eq_true', Bool.and_eq_true, beq_iff_eq, decide_eq_true_eq]

/-- The checks of R105 in their order, each as the condition it tests. -/
theorem rejection_eq (i : Instr) (s : State) : rejection i s =
    if (s.eng i.bank).busy = true ∨
        (gatedByChannels i = true ∧ (s.a.eng.busy = true ∨ s.b.eng.busy = true)) then some .rejectedBusy
    else if s.glob.initialized = false ∧ i ≠ .init then some .notInitialized
    else if s.glob.standby = true ∧ isSearch i = true then some .inStandby
    else if badOperand i s = true then some .badOperand
    else none := by
  unfold rejection
  cases (s.eng i.bank).busy <;> simp [and_comm]

theorem exec_host_rejected {i : Instr} {s : State} {acc : HostAccess} {code : CmdResult} (hi : isAbort i = false)
    (hn : s.now = .host acc) (hr : rejection i s = some code) : exec i s = .next (reject i.bank i.opcode code s) := by
  rw [exec_eq_runCommand hi, runCommand_host _ _ _ hn]
  simp only [hostTurn, hr]

/-- Settles O9: the conditions of the statement are those of `rejection_eq`, in the same order. -/
theorem rejectionOrder : Obligations.RejectionOrder := by
  intro i s acc hn hi rejected busy uninitialized inStandby badOp
  have hrejected : ∀ {code}, rejection i s = some code → rejected code :=
    exec_host_rejected (isAbort_eq_false hi) hn
  have hbusy : busy ↔ (s.eng i.bank).busy = true ∨
      (gatedByChannels i = true ∧ (s.a.eng.busy = true ∨ s.b.eng.busy = true)) := by rw [gatedByChannels_iff]
  have hstandby : inStandby ↔ s.glob.standby = true ∧ isSearch i = true := by rw [isSearch_iff]
  have hbad : badOp ↔ badOperand i s = true := by
    rw [badOperand_iff, wellFormed_eq_false_iff]
    simp only [badOp, or_assoc]
  rw [hbusy, hstandby, hbad]
  refine ⟨fun h => ?_, fun nb h => ?_, fun nb nu h => ?_, fun nb nu ns h => ?_⟩
  all_goals refine hrejected ((rejection_eq i s).trans ?_)
  · rw [if_pos h]
  · rw [if_neg nb, if_pos h]
  · rw [if_neg nb, if_neg nu, if_pos h]
  · rw [if_neg nb, if_neg nu, if_neg ns, if_pos h]

/-! ## Line (9) -/

theorem exec_host_accepted {i : Instr} {s : State} {acc : HostAccess} (hi : isAbort i = false)
    (hn : s.now = .host acc) (hr : rejection i s = none) :
    exec i s = .next ((ruleOf Config.cfg i).onAccept (accept i s)) := by
  rw [exec_eq_runCommand hi, runCommand_host _ _ _ hn]
  simp only [hostTurn, hr]

/-- A command whose acceptance writes no channel bank has no acceptance action. -/
theorem onAccept_eq_self (cfg : Cfg) {i : Instr} (h : ∀ c, i ∉ rests c) (s : State) : (ruleOf cfg i).onAccept s = s := by
  cases i with
  | init | term => exact absurd (by simp [rests]) (h .a)
  | search c | unlock c => exact absurd (by simp [rests]) (h c)
  | standby enter =>
    cases enter with
    | true => exact absurd (by simp [rests]) (h .a)
    | false => rfl
  | _ => rfl

/-- Settles O10: no check rejects the command, and it has no acceptance action. -/
theorem plainCommandAccepted : Obligations.PlainCommandAccepted := by
  intro i s acc hn hchan hinit hterm hstandby hbusy hgate hready hwf
  have hrests : ∀ c, i ∉ rests c := by
    intro c
    simp [rests, hchan c, hinit, hterm, hstandby]
  have hr : rejection i s = none := by
    rw [rejection_eq, if_neg, if_neg, if_neg, if_neg]
    · rw [badOperand_iff, hwf]
      exact fun h => h.elim nofun fun h => hinit h.1
    · rw [isSearch_iff]
      exact fun ⟨_, c, h⟩ => (hchan c).2.1 h
    · rw [hready]
      exact fun h => nomatch h.1
    · rw [hbusy, gatedByChannels_iff]
      rintro (h | ⟨h | h | h | h, hb⟩)
      · cases h
      · exact hinit h
      · exact hterm h
      · exact hstandby h
      · obtain ⟨ha, hb'⟩ := hgate h
        simp [ha, hb'] at hb
  rw [exec_host_accepted (isAbort_eq_false fun c => (hchan c).1) hn hr, onAccept_eq_self Config.cfg hrests]
  rfl

end Sys2Proof.Machine
end

section
/-! SUPPORT. The interpolation on a calibration table (40_lookup.md R141 to R143, R151): the clamps at the two ends, the
interval the binary search ends on, and the line through its two points. -/

namespace Sys2Proof.Machine

/-! ## The clamps (R141) -/

theorem beyondStrong_iff (t : CalTable) (x : Int) :
    beyondStrong t x = true ↔
      (rawAt t 0 < rawAt t (t.points.length - 1) ∧ x < rawAt t 0) ∨
        (¬rawAt t 0 < rawAt t (t.points.length - 1) ∧ rawAt t 0 < x) := by
  unfold beyondStrong increasing lastIndex
  by_cases h : rawAt t 0 < rawAt t (t.points.length - 1) <;> simp [h]

theorem beyondWeak_iff (t : CalTable) (x : Int) :
    beyondWeak t x = true ↔
      (rawAt t 0 < rawAt t (t.points.length - 1) ∧ rawAt t (t.points.length - 1) < x) ∨
        (¬rawAt t 0 < rawAt t (t.points.length - 1) ∧ x < rawAt t (t.points.length - 1)) := by
  unfold beyondWeak increasing lastIndex
  by_cases h : rawAt t 0 < rawAt t (t.points.length - 1) <;> simp [h]

theorem not_beyondStrong_and_beyondWeak (t : CalTable) (x : Int) :
    ¬(beyondStrong t x = true ∧ beyondWeak t x = true) := by
  rw [beyondStrong_iff, beyondWeak_iff]
  omega

/-- A sample is beyond one of the ends of the table, or between them. -/
theorem beyond_or_between (t : CalTable) (x : Int) :
    beyondStrong t x = true ∨ beyondWeak t x = true ∨
      between (rawAt t 0) x (rawAt t (t.points.length - 1)) = true := by
  rw [beyondStrong_iff, beyondWeak_iff, between_iff]
  omega

theorem not_beyond_of_between {t : CalTable} {x : Int}
    (h : between (rawAt t 0) x (rawAt t (t.points.length - 1)) = true) :
    ¬beyondStrong t x = true ∧ ¬beyondWeak t x = true := by
  rw [between_iff] at h
  rw [beyondStrong_iff, beyondWeak_iff]
  omega

theorem interp_of_beyondStrong {t : CalTable} {x : Int} (h : beyondStrong t x = true) : interp t x = physAt t 0 := by
  rw [interp, if_pos h]

theorem interp_of_beyondWeak {t : CalTable} {x : Int} (h : beyondWeak t x = true) :
    interp t x = physAt t (t.points.length - 1) := by
  have hs : ¬beyondStrong t x = true := fun hs => not_beyondStrong_and_beyondWeak t x ⟨hs, h⟩
  rw [interp, if_neg hs, if_pos h, lastIndex]

theorem interp_of_between {t : CalTable} {x : Int}
    (h : between (rawAt t 0) x (rawAt t (t.points.length - 1)) = true) :
    interp t x = lerp t x (bracket t x (t.points.length - 1) 0 (t.points.length - 1)).1
      (bracket t x (t.points.length - 1) 0 (t.points.length - 1)).2 := by
  obtain ⟨hs, hw⟩ := not_beyond_of_between h
  rw [interp, if_neg hs, if_neg hw, lastIndex]

/-- Settles O14: the conditions are `beyondStrong` and `beyondWeak`, which select the two clamps of `interp`. -/
theorem interpClamps : Obligations.InterpClamps := by
  intro t x n inc strong weak
  have hstrong : strong ↔ beyondStrong t x = true := (beyondStrong_iff t x).symm
  have hweak : weak ↔ beyondWeak t x = true := (beyondWeak_iff t x).symm
  rw [hstrong, hweak]
  exact ⟨interp_of_beyondStrong, interp_of_beyondWeak, Iff.rfl, not_beyondStrong_and_beyondWeak t x⟩

/-! ## The binary search (R142) -/

/-- `iv` is an interval of two neighbouring points of the table with the sample between them. -/
def Encloses (t : CalTable) (x : Int) (iv : Nat × Nat) : Prop :=
  iv.2 = iv.1 + 1 ∧ iv.2 < t.points.length ∧ between (rawAt t iv.1) x (rawAt t iv.2) = true

theorem between_split {a x c : Int} (b : Int) (h : between a x c = true) :
    between a x b = true ∨ between b x c = true := by
  simp only [between_iff] at h ⊢
  omega

/-- The search keeps the sample between the ends of its interval, and halves it down to two neighbours. -/
theorem bracket_encloses (t : CalTable) (x : Int) (fuel imin imax : Nat) (hlt : imin < imax)
    (hlen : imax < t.points.length) (hfuel : imax - imin ≤ fuel + 1)
    (hx : between (rawAt t imin) x (rawAt t imax) = true) : Encloses t x (bracket t x fuel imin imax) := by
  induction fuel generalizing imin imax with
  | zero => exact ⟨by simp only [bracket]; omega, hlen, hx⟩
  | succ fuel ih =>
    rw [bracket]
    split
    · exact ⟨by simp only; omega, hlen, hx⟩
    · split
      · rename_i hleft
        exact ih _ _ (by omega) (by omega) (by omega) hleft
      · rename_i hleft
        have hright := (between_split _ hx).resolve_left hleft
        exact ih _ _ (by omega) hlen (by omega) hright

/-- The search of `interp` starts from the whole table. -/
theorem bracket_table_encloses {t : CalTable} {x : Int}
    (h : between (rawAt t 0) x (rawAt t (t.points.length - 1)) = true) :
    Encloses t x (bracket t x (t.points.length - 1) 0 (t.points.length - 1)) := by
  have := t.two_points
  exact bracket_encloses t x _ _ _ (by omega) (by omega) (by omega) h

/-- The order of the raw values along the table, strict between different points (R145). -/
theorem rawAt_ordered (t : CalTable) :
    (∀ i j, i ≤ j → j < t.points.length → rawAt t i ≤ rawAt t j ∧ (i < j → rawAt t i < rawAt t j)) ∨
      ∀ i j, i ≤ j → j < t.points.length → rawAt t j ≤ rawAt t i ∧ (i < j → rawAt t j < rawAt t i) := by
  refine (rawAt_strict t).imp (fun h i j hij hj => ?_) fun h i j hij hj => ?_
  all_goals
    rcases Nat.lt_or_eq_of_le hij with hlt | rfl
    · exact ⟨(h i j hlt hj).le, fun _ => h i j hlt hj⟩
    · exact ⟨le_rfl, fun hlt => absurd hlt (lt_irrefl i)⟩

/-- Two intervals of neighbouring points enclose the same sample only where they meet. -/
theorem meet_of_between {t : CalTable} {x : Int} {j k : Nat} (hjk : j < k) (hk : k + 1 < t.points.length)
    (hxj : between (rawAt t j) x (rawAt t (j + 1)) = true) (hxk : between (rawAt t k) x (rawAt t (k + 1)) = true) :
    k = j + 1 ∧ x = rawAt t (j + 1) := by
  rw [between_iff] at hxj hxk
  rcases rawAt_ordered t with h | h
  all_goals
    have hleft := h j (j + 1) (by omega) (by omega)
    have hgap := h (j + 1) k hjk (by omega)
    have hright := h k (k + 1) (by omega) hk
    omega

theorem rawAt_succ_ne (t : CalTable) {k : Nat} (hk : k + 1 < t.points.length) : rawAt t (k + 1) ≠ rawAt t k := by
  rcases rawAt_strict t with h | h <;> have := h k (k + 1) (by omega) hk <;> omega

/-- All intervals of neighbouring points that enclose a sample give the same result. -/
theorem lerp_eq_of_between {t : CalTable} {x : Int} {j k : Nat} (hj : j + 1 < t.points.length)
    (hk : k + 1 < t.points.length) (hxj : between (rawAt t j) x (rawAt t (j + 1)) = true)
    (hxk : between (rawAt t k) x (rawAt t (k + 1)) = true) : lerp t x j (j + 1) = lerp t x k (k + 1) := by
  have meet : ∀ j k, j < k → k + 1 < t.points.length → between (rawAt t j) x (rawAt t (j + 1)) = true →
      between (rawAt t k) x (rawAt t (k + 1)) = true → lerp t x j (j + 1) = lerp t x k (k + 1) := by
    intro j k hjk hk hxj hxk
    obtain ⟨rfl, rfl⟩ := meet_of_between hjk hk hxj hxk
    rw [lerp_right t (rawAt_succ_ne t (by omega)), lerp_left]
  rcases Nat.lt_trichotomy j k with hjk | rfl | hjk
  · exact meet j k hjk hk hxj hxk
  · rfl
  · exact (meet k j hjk hj hxk hxj).symm

/-- An inner interval lies between the ends of the table. -/
theorem between_ends {t : CalTable} {x : Int} {k : Nat} (hk : k + 1 < t.points.length)
    (hx : between (rawAt t k) x (rawAt t (k + 1)) = true) :
    between (rawAt t 0) x (rawAt t (t.points.length - 1)) = true := by
  rw [between_iff] at hx ⊢
  rcases rawAt_ordered t with h | h
  all_goals
    have hfirst := h 0 k (by omega) (by omega)
    have hstep := h k (k + 1) (by omega) hk
    have hlast := h (k + 1) (t.points.length - 1) (by omega) (by omega)
    omega

/-- Between two neighbouring points `interp` is the line through them (R143). -/
theorem interp_eq_lerp {t : CalTable} {x : Int} {k : Nat} (hk : k + 1 < t.points.length)
    (hx : between (rawAt t k) x (rawAt t (k + 1)) = true) : interp t x = lerp t x k (k + 1) := by
  have hends := between_ends hk hx
  rw [interp_of_between hends]
  obtain ⟨hnext, hlen, hbetween⟩ := bracket_table_encloses hends
  rw [hnext] at hlen hbetween ⊢
  exact lerp_eq_of_between hlen hk hbetween hx

/-- Settles O15: the search ends on an enclosing interval, and every enclosing interval gives the same line. -/
theorem bracketFindsInterval : Obligations.BracketFindsInterval := by
  intro t x h iv line
  obtain ⟨hnext, hlen, hbetween⟩ := bracket_table_encloses h
  exact ⟨hnext, hlen, hbetween, interp_of_between h, fun k hk hx => interp_eq_lerp hk hx⟩

/-! ## Reproduction, monotonicity and range (R151) -/

/-- A quotient truncated toward zero rises with the numerator's factor along the divisor's sign. -/
theorem tdiv_slope_mono {r d x y : Int} (hd : 0 ≤ d) (h : (0 < r ∧ x ≤ y) ∨ (r < 0 ∧ y ≤ x)) :
    (x * d).tdiv r ≤ (y * d).tdiv r := by
  rcases h with ⟨hr, hxy⟩ | ⟨hr, hxy⟩
  · exact Int.tdiv_le_tdiv hr (Int.mul_le_mul_of_nonneg_right hxy hd)
  · rw [← Int.neg_tdiv_neg (x * d), ← Int.neg_tdiv_neg (y * d)]
    exact Int.tdiv_le_tdiv (by omega) (Int.neg_le_neg (Int.mul_le_mul_of_nonneg_right hxy hd))

/-- From a sample to one further along the interval the line moves the way `phys` moves. -/
theorem lerp_mono {t : CalTable} {i j : Nat} {x y : Int}
    (h : (rawAt t i < rawAt t j ∧ x ≤ y) ∨ (rawAt t j < rawAt t i ∧ y ≤ x)) :
    (physAt t i ≤ physAt t j → lerp t x i j ≤ lerp t y i j) ∧
      (physAt t j ≤ physAt t i → lerp t y i j ≤ lerp t x i j) := by
  have hdir : (0 < rawAt t j - rawAt t i ∧ x - rawAt t i ≤ y - rawAt t i) ∨
      (rawAt t j - rawAt t i < 0 ∧ y - rawAt t i ≤ x - rawAt t i) := by omega
  constructor <;> intro hphys
  · have hd : 0 ≤ physAt t j - physAt t i := by omega
    exact Int.add_le_add_right (tdiv_slope_mono hd hdir) _
  · have hd : 0 ≤ -(physAt t j - physAt t i) := by omega
    have hneg := tdiv_slope_mono hd hdir
    rw [Int.mul_neg, Int.mul_neg, Int.neg_tdiv, Int.neg_tdiv] at hneg
    exact Int.add_le_add_right (Int.neg_le_neg_iff.mp hneg) _

/-- On the interval of two neighbouring points the line is within their two physical values. -/
theorem lerp_between_phys {t : CalTable} {x : Int} {k : Nat} (hk : k + 1 < t.points.length)
    (hx : between (rawAt t k) x (rawAt t (k + 1)) = true) :
    between (physAt t k) (lerp t x k (k + 1)) (physAt t (k + 1)) = true := by
  have hne := rawAt_succ_ne t hk
  rw [between_iff] at hx ⊢
  have hleft := lerp_mono (t := t) (i := k) (j := k + 1) (x := rawAt t k) (y := x) (by omega)
  have hright := lerp_mono (t := t) (i := k) (j := k + 1) (x := x) (y := rawAt t (k + 1)) (by omega)
  rw [lerp_left] at hleft
  rw [lerp_right t hne] at hright
  omega

theorem interp_rawAt (t : CalTable) {k : Nat} (hk : k < t.points.length) : interp t (rawAt t k) = physAt t k := by
  have htwo := t.two_points
  by_cases hnext : k + 1 < t.points.length
  · rw [interp_eq_lerp hnext (by rw [between_iff]; omega), lerp_left]
  · obtain ⟨j, rfl⟩ : ∃ j, k = j + 1 := ⟨k - 1, by omega⟩
    rw [interp_eq_lerp hk (by rw [between_iff]; omega), lerp_right t (rawAt_succ_ne t hk)]

theorem interp_in_range (t : CalTable) (x : Int) :
    (∃ i < t.points.length, physAt t i ≤ interp t x) ∧ ∃ j < t.points.length, interp t x ≤ physAt t j := by
  have htwo := t.two_points
  have hpoint : ∀ k < t.points.length, interp t x = physAt t k →
      (∃ i < t.points.length, physAt t i ≤ interp t x) ∧ ∃ j < t.points.length, interp t x ≤ physAt t j :=
    fun k hk h => ⟨⟨k, hk, h.ge⟩, k, hk, h.le⟩
  rcases beyond_or_between t x with hs | hw | hx
  · exact hpoint 0 (by omega) (interp_of_beyondStrong hs)
  · exact hpoint (t.points.length - 1) (by omega) (interp_of_beyondWeak hw)
  · obtain ⟨hnext, hlen, hbetween⟩ := bracket_table_encloses hx
    rw [hnext] at hlen hbetween
    rw [interp_eq_lerp hlen hbetween]
    rcases (between_iff _ _ _).1 (lerp_between_phys hlen hbetween) with ⟨hl, hr⟩ | ⟨hr, hl⟩
    · exact ⟨⟨_, by omega, hl⟩, _, hlen, hr⟩
    · exact ⟨⟨_, hlen, hr⟩, _, by omega, hl⟩

/-- Settles O16: the points by `interp_rawAt`, monotonicity from the line of the interval, the range by
`interp_in_range`. -/
theorem interpProperties : Obligations.InterpProperties := by
  intro t
  refine ⟨fun k hk => interp_rawAt t hk, fun k x y hk hkx hyk hx hy => ?_, interp_in_range t⟩
  have hne := rawAt_succ_ne t hk
  rw [interp_eq_lerp hk hx, interp_eq_lerp hk hy]
  rw [between_iff] at hkx hyk hx hy
  exact lerp_mono (by omega)

end Sys2Proof.Machine
end

section
/-! SUPPORT. One step of a channel command as `chanAfter` (00_scope.md R13): the command goes on at another program
point or completes, after a transaction, after a Sleep, or with neither. -/

namespace Sys2Proof.Machine

/-- `f` neither reads nor writes the engine of the channel. -/
def SparesEngine (f : Channel → Channel) : Prop := ∀ ch g, f { ch with eng := g } = { f ch with eng := g }

theorem SparesEngine.id : SparesEngine id := fun _ _ => rfl

section
variable {cfg : Cfg} {p : Program} {i : Instr} {c : Chan} {s : State} {q : Prim} {got : List Int} {k : Kont}
  {f : Channel → Channel} {code : CmdResult} {ms : Nat} {ans : Answer} {v w : Int}

/-! ## Each shared operation as `chanAfter`, and one after another -/

theorem chanAfter_chanAfter {f' : Channel → Channel} {g g' : Engine → Engine} {evs evs' : List BusEvent}
    (hf : SparesEngine f) :
    chanAfter c f g evs (chanAfter c f' g' evs' s) = chanAfter c (f ∘ f') (g ∘ g') (evs ++ evs') s := by
  cases c
  all_goals
    simp only [chanAfter, State.updChan, State.setChan, State.chan, List.append_assoc, Function.comp_apply]
    rw [hf]

theorem updChan_eq_chanAfter (hf : SparesEngine f) : s.updChan c f = chanAfter c f id [] s := by
  have hself : (fun ch => { f ch with eng := id ch.eng }) = f := funext fun ch => (hf ch ch.eng).symm
  rw [chanAfter, hself]
  cases c <;> rfl

theorem logged_eq_chanAfter :
    logged (.chan c) q w true s = chanAfter c id id [⟨.chan c, q.delivered, w, true⟩] s := by
  cases c <;> rfl

theorem slept_eq_chanAfter :
    slept (.chan c) ms s = chanAfter c id (fun g => { g with elapsed := g.elapsed + ms }) [] s := by
  cases c <;> rfl

theorem atPoint_eq_chanAfter (hb : i.bank = .chan c) (pt : Point) :
    atPoint i pt s = chanAfter c id (standing i pt) [] s := by
  rw [atPoint, hb]
  cases c <;> rfl

theorem complete_eq_chanAfter (hb : i.bank = .chan c) :
    complete i code s = chanAfter c id (ended i.opcode code) [] s := by
  rw [complete, hb]
  cases c <;> rfl

theorem complete_updChan (hb : i.bank = .chan c) (hf : SparesEngine f) :
    complete i code (s.updChan c f) = chanAfter c f (ended i.opcode code) [] s := by
  rw [complete_eq_chanAfter hb, updChan_eq_chanAfter hf, chanAfter_chanAfter .id]
  rfl

theorem complete_updChan_logged (hb : i.bank = .chan c) (hf : SparesEngine f) :
    complete i code ((logged (.chan c) q w true s).updChan c f) =
      chanAfter c f (ended i.opcode code) [⟨.chan c, q.delivered, w, true⟩] s := by
  rw [complete_updChan hb hf, logged_eq_chanAfter, chanAfter_chanAfter hf]
  rfl

theorem complete_updChan_slept (hb : i.bank = .chan c) (hf : SparesEngine f) :
    complete i code ((slept (.chan c) ms s).updChan c f) =
      chanAfter c f (fun g => { ended i.opcode code g with elapsed := g.elapsed + ms }) [] s := by
  rw [complete_updChan hb hf, slept_eq_chanAfter, chanAfter_chanAfter hf]
  rfl

theorem atPoint_logged_chan (hb : i.bank = .chan c) (pt : Point) :
    atPoint i pt (logged (.chan c) q w true s) =
      chanAfter c id (standing i pt) [⟨.chan c, q.delivered, w, true⟩] s := by
  rw [atPoint_eq_chanAfter hb, logged_eq_chanAfter, chanAfter_chanAfter .id]
  rfl

theorem atPoint_slept_chan (hb : i.bank = .chan c) (pt : Point) :
    atPoint i pt (slept (.chan c) ms s) =
      chanAfter c id (fun g => { standing i pt g with elapsed := g.elapsed + ms }) [] s := by
  rw [atPoint_eq_chanAfter hb, slept_eq_chanAfter, chanAfter_chanAfter .id]
  rfl

@[simp] theorem resolve_slept (e : Bank) (op : Op) : resolve cfg (slept e ms s) op = resolve cfg s op := by
  cases e <;> cases op <;> simp [resolve, slept, State.mclk, State.prof]

/-! ## From the command's start -/

/-- A rule with no primitive completes in its first step. -/
theorem engineStep_start_done (hb : i.bank = .chan c) (hf : SparesEngine f)
    (he : p.entry s = .done (s.updChan c f) code) :
    engineStep cfg p i ans .start s = some (chanAfter c f (ended i.opcode code) [] s) := by
  simp only [engineStep, he, complete_updChan hb hf]

/-- The first step of a command performs its first primitive (log 4). -/
theorem engineStep_start_go {first : Op} {rest : List Op} (he : p.entry s = .go s first rest k) :
    engineStep cfg p i ans .start s = engineStep cfg p i ans (.before (resolve cfg s first) rest [] k) s := by
  simp only [engineStep, he]

/-! ## A transaction that returns a value -/

theorem ne_sleep_of_value (hv : q.value v = some w) (ms : Nat) : q ≠ .sleep ms := by
  rintro rfl
  cases hv

/-- Inside a straight line the next primitive comes. -/
theorem engineStep_read_next {op : Op} {ops : List Op} (hb : i.bank = .chan c)
    (hv : q.value v = some w) :
    engineStep cfg p i ⟨false, v⟩ (.before q (op :: ops) got k) s =
      some (chanAfter c id (standing i (.before (resolve cfg s op) ops (got ++ [w]) k))
        [⟨.chan c, q.delivered, w, true⟩] s) := by
  simp only [engineStep, perform_read (ne_sleep_of_value hv) hv, proceed, resolve_logged, hb, atPoint_logged_chan hb]

/-- At the end of a straight line the computation there may start another one. -/
theorem engineStep_read_go {first : Op} {rest : List Op} {k' : Kont} (hb : i.bank = .chan c) (hv : q.value v = some w)
    (hr : p.resume k (got ++ [w]) (logged (.chan c) q w true s) = .go (logged (.chan c) q w true s) first rest k') :
    engineStep cfg p i ⟨false, v⟩ (.before q [] got k) s =
      some (chanAfter c id (standing i (.before (resolve cfg s first) rest [] k'))
        [⟨.chan c, q.delivered, w, true⟩] s) := by
  simp only [engineStep, perform_read (ne_sleep_of_value hv) hv, proceed, hb, hr, settle, resolve_logged,
    atPoint_logged_chan hb]

/-- At the end of a straight line the computation there may complete the command. -/
theorem engineStep_read_done (hb : i.bank = .chan c) (hv : q.value v = some w)
    (hf : SparesEngine f)
    (hr : p.resume k (got ++ [w]) (logged (.chan c) q w true s) =
      .done ((logged (.chan c) q w true s).updChan c f) code) :
    engineStep cfg p i ⟨false, v⟩ (.before q [] got k) s =
      some (chanAfter c f (ended i.opcode code) [⟨.chan c, q.delivered, w, true⟩] s) := by
  simp only [engineStep, perform_read (ne_sleep_of_value hv) hv, proceed, hb, hr, settle, complete_updChan_logged hb hf]

/-- A last primitive that returns nothing, and the command completes. -/
theorem engineStep_write_done (hb : i.bank = .chan c) (hq : ∀ ms, q ≠ .sleep ms) (hv : q.value v = none)
    (hf : SparesEngine f)
    (hr : p.resume k got (logged (.chan c) q 0 true s) = .done ((logged (.chan c) q 0 true s).updChan c f) code) :
    engineStep cfg p i ⟨false, v⟩ (.before q [] got k) s =
      some (chanAfter c f (ended i.opcode code) [⟨.chan c, q.delivered, 0, true⟩] s) := by
  simp only [engineStep, perform_write hq hv, proceed, hb, hr, settle, complete_updChan_logged hb hf]

/-! ## A Sleep that is no abort point (43_search_fsm.md R203) -/

theorem engineStep_sleep_next {op : Op} {ops : List Op} (hb : i.bank = .chan c) (ha : p.aborting s = false) :
    engineStep cfg p i ans (.before (.sleep ms) (op :: ops) got k) s =
      some (chanAfter c id (fun g => { standing i (.before (resolve cfg s op) ops got k) g with
        elapsed := g.elapsed + ms }) [] s) := by
  simp only [engineStep, perform, ha, Bool.false_eq_true, if_false, proceed, resolve_slept, hb,
    atPoint_slept_chan hb]

theorem engineStep_sleep_go {first : Op} {rest : List Op} {k' : Kont} (hb : i.bank = .chan c)
    (ha : p.aborting s = false)
    (hr : p.resume k got (slept (.chan c) ms s) = .go (slept (.chan c) ms s) first rest k') :
    engineStep cfg p i ans (.before (.sleep ms) [] got k) s =
      some (chanAfter c id (fun g => { standing i (.before (resolve cfg s first) rest [] k') g with
        elapsed := g.elapsed + ms }) [] s) := by
  simp only [engineStep, perform, ha, Bool.false_eq_true, if_false, proceed, hb, hr, settle, resolve_slept,
    atPoint_slept_chan hb]

theorem engineStep_sleep_done (hb : i.bank = .chan c) (ha : p.aborting s = false)
    (hf : SparesEngine f)
    (hr : p.resume k got (slept (.chan c) ms s) = .done ((slept (.chan c) ms s).updChan c f) code) :
    engineStep cfg p i ans (.before (.sleep ms) [] got k) s =
      some (chanAfter c f (fun g => { ended i.opcode code g with elapsed := g.elapsed + ms }) [] s) := by
  simp only [engineStep, perform, ha, Bool.false_eq_true, if_false, proceed, hb, hr, settle,
    complete_updChan_slept hb hf]

end

end Sys2Proof.Machine
end

section
/-! SUPPORT. The lookup commands: INTERP, INTERP2, GET_RF_LEVEL and GET_CN (40_lookup.md R146 to R149). -/

namespace Sys2Proof.Machine

/-! ## INTERP and INTERP2 -/

/-- R150: the four ids that name a table. -/
theorem tableOf_of_mem {cfg : Cfg} {k : BitVec 3} {t : CalTable}
    (h : (k, t) ∈ [((0 : BitVec 3), cfg.rfTable), (1, cfg.rfLowTable), (2, cfg.cnS1Table), (3, cfg.cnS2Table)]) :
    tableOf cfg k = some t := by
  simp only [List.mem_cons, Prod.mk.injEq, List.not_mem_nil, or_false] at h
  rcases h with ⟨rfl, rfl⟩ | ⟨rfl, rfl⟩ | ⟨rfl, rfl⟩ | ⟨rfl, rfl⟩ <;> rfl

/-- Settles O17: with the tables the ids name, the entry of either rule is the write of RES0 and the end. -/
theorem interpCompletes : Obligations.InterpCompletes := by
  intro s c ans k l t u tables hk hl
  have hkt : tableOf Config.cfg k = some t := tableOf_of_mem hk
  have hlu : tableOf Config.cfg l = some u := tableOf_of_mem hl
  constructor
  · intro h
    refine exec_of_runs h rfl (engineStep_start_done rfl (fun _ _ => rfl) ?_)
    simp only [ruleOf, interpProgram, plainProgram, hkt]
  · intro h
    refine exec_of_runs h rfl (engineStep_start_done rfl (fun _ _ => rfl) ?_)
    simp only [ruleOf, interp2Program, plainProgram, hkt, hlu, interp2]

/-! ## GET_RF_LEVEL -/

/-- A gain is a signed byte (60_exceptions.md R351). -/
theorem sext_byte (v : Int) : sext 8 v = if v % 256 < 128 then v % 256 else v % 256 - 256 := rfl

/-- Settles O18: the AGC1 read ends the command or, with an LNA, is followed by the gain read, which ends it. -/
theorem getRfLevelCompletes : Obligations.GetRfLevelCompletes := by
  intro s c v
  refine ⟨fun h => ⟨fun hl => ?_, fun hl => ?_⟩, fun rf h => ?_⟩
  · refine exec_of_runs h rfl ((engineStep_start_go rfl).trans
      (engineStep_read_done rfl rfl (fun _ _ => rfl) ?_))
    simp only [ruleOf, getRfLevelProgram, plainProgram, logged_glob, hl, Bool.false_eq_true, if_false]
    rfl
  · refine exec_of_runs h rfl ((engineStep_start_go rfl).trans
      (engineStep_read_go (first := .prim .lnaGetGain) rfl rfl ?_))
    simp only [ruleOf, getRfLevelProgram, plainProgram, logged_glob, hl, if_true]
    rfl
  · rw [← sext_byte]
    exact exec_of_runs h rfl (engineStep_read_done rfl rfl (fun _ _ => rfl) rfl)

/-! ## GET_CN -/

/-- Settles O19: unlocked, the entry is the end; after the last Sleep, which is no abort point, the C/N is written. -/
theorem getCnCompletes : Obligations.GetCnCompletes := by
  intro s c ans
  refine ⟨fun hl h => ?_, fun d samples std h => ?_⟩
  · refine exec_of_runs h rfl (engineStep_start_done rfl (fun _ _ => rfl) ?_)
    simp only [ruleOf, getCnProgram, plainProgram, hl, Bool.false_eq_true, if_false]
  · exact exec_of_runs h rfl (engineStep_sleep_done rfl rfl (fun _ _ => rfl) rfl)

end Sys2Proof.Machine
end

section
/-! SUPPORT. A whole GET_CN (40_lookup.md R149): the engine's turns one after another, from the read of DETECTED_STD
through the sixteen samples to the end. -/

namespace Sys2Proof.Machine

/-! ## The machine's steps on the turns of a channel's engine -/

/-- `s` when `n` turns have passed and `ts` are to come. -/
def passed (ts : List Turn) (n : Nat) (s : State) : State := { s with turns := ts, tick := s.tick + n }

theorem passed_passed (ts us : List Turn) (m n : Nat) (s : State) :
    passed ts m (passed us n s) = passed ts (n + m) s := by
  simp only [passed, Nat.add_assoc]

theorem chanAfter_passed (c : Chan) (f : Channel → Channel) (g : Engine → Engine) (evs : List BusEvent)
    (ts : List Turn) (n : Nat) (s : State) :
    chanAfter c f g evs (passed ts n s) = passed ts n (chanAfter c f g evs s) := by
  cases c <;> rfl

@[simp] theorem passed_turns (ts : List Turn) (n : Nat) (s : State) : (passed ts n s).turns = ts := rfl

@[simp] theorem passed_chanAfter_running (c : Chan) (f : Channel → Channel) (g : Engine → Engine)
    (evs : List BusEvent) (ts : List Turn) (n : Nat) (s : State) :
    (passed ts n (chanAfter c f g evs s)).running (.chan c) = (g (s.chan c).eng).run := by
  cases c <;> rfl

/-- One turn of a channel's engine, in which the running command does `chanAfter`. -/
theorem step_chanAfter {s : State} {i : Instr} {c : Chan} {p : Point} {ans : Answer} {ts : List Turn}
    {f : Channel → Channel} {g : Engine → Engine} {evs : List BusEvent} (hb : i.bank = .chan c)
    (hi : isAbort i = false) (hs : s.turns = .engine (.chan c) ans :: ts) (hr : s.running (.chan c) = some ⟨i, p⟩)
    (ht : engineStep Config.cfg (ruleOf Config.cfg i) i ans p s = some (chanAfter c f g evs s)) :
    step s = .next (passed ts 1 (chanAfter c f g evs s)) := by
  rw [← hb] at hs hr
  have hadvance : (chanAfter c f g evs s).advance = passed ts 1 (chanAfter c f g evs s) := by
    have hturns : (chanAfter c f g evs s).turns = s.turns := by cases c <;> rfl
    rw [State.advance, hturns, hs, passed, List.tail_cons]
  rw [← hadvance]
  exact step_of_engine hi hs hr ht

/-! ## The samples -/

/-- The turns in which the samples are read, each followed by the turn of its Sleep. -/
def sampleTurns (c : Chan) (samples : List Int) : List Turn :=
  samples.flatMap fun x => [.engine (.chan c) ⟨false, x⟩, .engine (.chan c) ⟨false, 0⟩]

/-- The primitives of the last `n` samples, each with its Sleep. -/
def nextSamples (cfg : Cfg) (c : Chan) (std : BitVec 2) (n : Nat) : List Op :=
  (List.replicate n [Op.prim (.devRead c (noiseField std)), .prim (.sleep cfg.cnSampleDelayMs.toNat)]).flatten

theorem noiseField_value (c : Chan) (std : BitVec 2) (x : Int) :
    (Prim.devRead c (noiseField std)).value x = some (x % 2 ^ 16) := by
  unfold noiseField
  split <;> rfl

/-- The program point of GET_CN before a sample, with `n` more to come after it. -/
def samplePoint (cfg : Cfg) (c : Chan) (std : BitVec 2) (n : Nat) (got : List Int) : Point :=
  .before (.devRead c (noiseField std)) (.prim (.sleep cfg.cnSampleDelayMs.toNat) :: nextSamples cfg c std n) got
    (.cnSamples std)

/-- The measurement of R149 starts before the first of its sixteen samples. -/
theorem samplePoint_first (cfg : Cfg) (c : Chan) (std : BitVec 2) :
    samplePoint cfg c std 15 [] = .before (.devRead c (noiseField std)) (cnOps cfg c std) [] (.cnSamples std) := rfl

/-- The recorded read of a sample. -/
def sampleRead (c : Chan) (std : BitVec 2) (x : Int) : BusEvent := chanDid c (.devRead c (noiseField std)) (x % 2 ^ 16)

/-- The program point of GET_CN before the Sleep that follows a sample, with `n` more samples to come. -/
def sleepPoint (cfg : Cfg) (c : Chan) (std : BitVec 2) (n : Nat) (got : List Int) : Point :=
  .before (.sleep cfg.cnSampleDelayMs.toNat) (nextSamples cfg c std n) got (.cnSamples std)

theorem step_sample {s : State} {c : Chan} {std : BitVec 2} {n : Nat} {got : List Int} {x : Int} {ts : List Turn}
    (hs : s.turns = .engine (.chan c) ⟨false, x⟩ :: ts)
    (hr : s.running (.chan c) = some ⟨.getCn c, samplePoint Config.cfg c std n got⟩) :
    step s = .next (passed ts 1 (chanAfter c id
      (standing (.getCn c) (sleepPoint Config.cfg c std n (got ++ [x % 2 ^ 16])))
      [sampleRead c std x] s)) :=
  step_chanAfter rfl rfl hs hr (engineStep_read_next rfl (noiseField_value c std x))

theorem step_sampleSleep {s : State} {c : Chan} {std : BitVec 2} {n : Nat} {got : List Int} {ans : Answer}
    {ts : List Turn} (hs : s.turns = .engine (.chan c) ans :: ts)
    (hr : s.running (.chan c) = some ⟨.getCn c, sleepPoint Config.cfg c std (n + 1) got⟩) :
    step s = .next (passed ts 1 (chanAfter c id
      (fun g => { standing (.getCn c) (samplePoint Config.cfg c std n got) g with
        elapsed := g.elapsed + Config.cfg.cnSampleDelayMs.toNat }) [] s)) :=
  step_chanAfter rfl rfl hs hr (engineStep_sleep_next rfl rfl)

theorem step_lastSleep {s : State} {c : Chan} {std : BitVec 2} {got : List Int} {ans : Answer} {ts : List Turn}
    (hs : s.turns = .engine (.chan c) ans :: ts)
    (hr : s.running (.chan c) = some ⟨.getCn c, sleepPoint Config.cfg c std 0 got⟩) :
    step s = .next (passed ts 1 (chanAfter c (fun ch => { ch with res0 := wrap32 (cnValue Config.cfg std got) })
      (fun g => { ended 0x13 .ok g with elapsed := g.elapsed + Config.cfg.cnSampleDelayMs.toNat }) [] s)) :=
  step_chanAfter rfl rfl hs hr (engineStep_sleep_done rfl rfl (fun _ _ => rfl) rfl)

/-- The two steps of a sample that is not the last one. -/
theorem steps_sample_next {s : State} {c : Chan} {std : BitVec 2} {m n : Nat} {got : List Int} {x : Int} {ans : Answer}
    {ts : List Turn} (hs : s.turns = .engine (.chan c) ⟨false, x⟩ :: .engine (.chan c) ans :: ts)
    (hr : s.running (.chan c) = some ⟨.getCn c, samplePoint Config.cfg c std (n + 1) got⟩) :
    steps (m + 2) s = steps m (passed ts 2 (chanAfter c id
      (fun g => { standing (.getCn c) (samplePoint Config.cfg c std n (got ++ [x % 2 ^ 16])) g with
        elapsed := g.elapsed + Config.cfg.cnSampleDelayMs.toNat }) [sampleRead c std x] s)) := by
  refine (steps_succ (step_sample hs hr)).trans ?_
  refine (steps_succ (step_sampleSleep (passed_turns _ _ _) (passed_chanAfter_running _ _ _ _ _ _ _))).trans ?_
  rw [chanAfter_passed, passed_passed, chanAfter_chanAfter .id]
  rfl

/-- The two steps of the last sample. -/
theorem steps_sample_last {s : State} {c : Chan} {std : BitVec 2} {got : List Int} {x : Int} {ans : Answer}
    {ts : List Turn} (hs : s.turns = .engine (.chan c) ⟨false, x⟩ :: .engine (.chan c) ans :: ts)
    (hr : s.running (.chan c) = some ⟨.getCn c, samplePoint Config.cfg c std 0 got⟩) :
    steps 2 s = .next (passed ts 2 (chanAfter c
      (fun ch => { ch with res0 := wrap32 (cnValue Config.cfg std (got ++ [x % 2 ^ 16])) })
      (fun g => { ended 0x13 .ok g with elapsed := g.elapsed + Config.cfg.cnSampleDelayMs.toNat })
      [sampleRead c std x] s)) := by
  refine (steps_succ (step_sample hs hr)).trans ?_
  refine (steps_succ (step_lastSleep (passed_turns _ _ _) (passed_chanAfter_running _ _ _ _ _ _ _))).trans ?_
  rw [chanAfter_passed, passed_passed, chanAfter_chanAfter fun _ _ => rfl]
  rfl

/-- GET_CN from before a sample to its end: a read and a Sleep for this sample and for each one after it. -/
theorem steps_samples {c : Chan} {std : BitVec 2} {rest : List Turn} (x : Int) (xs got : List Int) {s : State}
    (hs : s.turns = sampleTurns c (x :: xs) ++ rest)
    (hr : s.running (.chan c) = some ⟨.getCn c, samplePoint Config.cfg c std xs.length got⟩) :
    steps (2 * xs.length + 2) s = .next (passed rest (2 * xs.length + 2) (chanAfter c
      (fun ch => { ch with res0 := wrap32 (cnValue Config.cfg std (got ++ (x :: xs).map (· % 2 ^ 16))) })
      (fun g => { ended 0x13 .ok g with elapsed := g.elapsed + (xs.length + 1) * Config.cfg.cnSampleDelayMs.toNat })
      ((x :: xs).map (sampleRead c std)).reverse s)) := by
  induction xs generalizing s x got with
  | nil =>
    rw [List.length_nil, Nat.zero_add, Nat.one_mul]
    exact steps_sample_last hs hr
  | cons y ys ih =>
    refine (steps_sample_next hs hr).trans ?_
    refine (ih y _ (passed_turns _ _ _) (passed_chanAfter_running _ _ _ _ _ _ _)).trans ?_
    rw [chanAfter_passed, passed_passed, chanAfter_chanAfter fun _ _ => rfl]
    have hpassed : 2 + (2 * ys.length + 2) = 2 * (y :: ys).length + 2 := by rw [List.length_cons]; omega
    have hgot : got ++ [x % 2 ^ 16] ++ (y :: ys).map (· % 2 ^ 16) = got ++ (x :: y :: ys).map (· % 2 ^ 16) :=
      List.append_assoc _ _ _
    have hreads : ((y :: ys).map (sampleRead c std)).reverse ++ [sampleRead c std x] =
        ((x :: y :: ys).map (sampleRead c std)).reverse := List.reverse_cons.symm
    have helapsed : ∀ e d : Nat, e + d + (ys.length + 1) * d = e + ((y :: ys).length + 1) * d := by
      intro e d
      rw [List.length_cons]
      ring
    simp only [hpassed, hgot, hreads, Function.comp_def, id, helapsed]
    rfl

/-! ## The whole command -/

theorem bitsOf_emod (w : Nat) (v : Int) : bitsOf w (v % 2 ^ w) = bitsOf w v := by
  apply BitVec.eq_of_toInt_eq
  simp only [bitsOf, BitVec.toInt_ofInt]
  exact_mod_cast Int.emod_bmod v (2 ^ w)

/-- The first step of a locked GET_CN: the read of DETECTED_STD, after which the first sample is next. -/
theorem step_getCn_start {s : State} {c : Chan} {v : Int} {ts : List Turn} (hl : (s.chan c).locked = true)
    (hs : s.turns = .engine (.chan c) ⟨false, v⟩ :: ts) (hr : s.running (.chan c) = some ⟨.getCn c, .start⟩) :
    step s = .next (passed ts 1 (chanAfter c id
      (standing (.getCn c) (samplePoint Config.cfg c (bitsOf 2 v) 15 []))
      [chanDid c (.devRead c .detectedStd) (v % 4)] s)) := by
  have hentry : (ruleOf Config.cfg (.getCn c)).entry s = .go s (.prim (.devRead c .detectedStd)) [] .cnStd := if_pos hl
  rw [samplePoint_first, ← bitsOf_emod]
  exact step_chanAfter rfl rfl hs hr ((engineStep_start_go hentry).trans
    (engineStep_read_go (first := .prim (.devRead c (noiseField (bitsOf 2 (v % 2 ^ 2))))) rfl rfl rfl))

/-- Settles O20: one step for DETECTED_STD, and two for each of the sixteen samples. -/
theorem getCnRuns : Obligations.GetCnRuns := by
  intro s c v samples rest hlen hl hr hs std field table
  obtain ⟨x, xs, rfl⟩ := List.exists_cons_of_length_eq_add_one hlen
  have hxs : xs.length = 15 := Nat.succ.inj hlen
  have hsamples := steps_samples (std := std) (rest := rest) x xs []
    (s := passed (sampleTurns c (x :: xs) ++ rest) 1 (chanAfter c id
      (standing (.getCn c) (samplePoint Config.cfg c std 15 [])) [chanDid c (.devRead c .detectedStd) (v % 4)] s))
    (passed_turns _ _ _) (by rw [hxs]; exact passed_chanAfter_running _ _ _ _ _ _ _)
  rw [hxs, chanAfter_passed, passed_passed, chanAfter_chanAfter fun _ _ => rfl] at hsamples
  refine (steps_succ (step_getCn_start hl hs hr)).trans (hsamples.trans ?_)
  cases c <;> rfl

end Sys2Proof.Machine
end

section
/-! SUPPORT. The steps of GET_SIGNAL_INFO (45_tracking.md R290 to R292): what the computations between its straight
lines make of the values read. -/

namespace Sys2Proof.Machine

/-! ## The estimates -/

/-- R161, on a raw value as its field holds it. -/
theorem carrierOffset_field (m v : Int) :
    carrierOffset m (v % 2 ^ 24) =
      m * (if v % 2 ^ 24 < 2 ^ 23 then v % 2 ^ 24 else v % 2 ^ 24 - 2 ^ 24) / 2 ^ 24 := by
  simp only [carrierOffset, floorDiv, sext, Int.emod_emod, Nat.add_one_sub_one]

/-! ## The parameters and counters -/

theorem infoFrom_s2 (cfg : Cfg) (f srT : Int) (mc : BitVec 5) (fr pl inv : BitVec 1) (ro : BitVec 2)
    (e t : BitVec 32) (agc : Int) :
    infoFrom cfg f srT 3 (([mc.toNat, fr.toNat, pl.toNat, ro.toNat, inv.toNat, e.toNat, t.toNat] : List Int) ++ [agc]) =
      ⟨f, srT, ⟨3, mc, 0, pl, fr, ro, inv⟩, min e.toNat (2 ^ 23), min t.toNat (2 ^ 24), rfLevel cfg agc⟩ := by
  simp [infoFrom, detectedFrom, nth, bitsOf_toNat, perErrCeil, perTotCeil]

theorem infoFrom_s1 (cfg : Cfg) (f srT : Int) {std : BitVec 2} (h : std ≠ 3) (pr : BitVec 3) (inv : BitVec 1)
    (ro : BitVec 2) (e : BitVec 24) (agc : Int) :
    infoFrom cfg f srT std (([pr.toNat, ro.toNat, inv.toNat, e.toNat] : List Int) ++ [agc]) =
      ⟨f, srT, ⟨std, 0, pr, 0, 0, ro, inv⟩, e.toNat, 0, rfLevel cfg agc⟩ := by
  simp only [infoFrom, detectedFrom, if_neg h]
  simp [nth, bitsOf_toNat]

theorem infoWritten_eq (p : InfoLocals) (cn : Int) :
    infoWritten p cn = fun ch =>
      { ch with
        tmFreq := wrap32 p.freq, tmSr := wrap32 p.sr
        tmParams := p.det.std.setWidth 15 ||| (p.det.modcode.setWidth 15 <<< 2) ||| (p.det.pr.setWidth 15 <<< 7) |||
          (p.det.pilots.setWidth 15 <<< 10) ||| (p.det.frame.setWidth 15 <<< 11) |||
          (p.det.rolloff.setWidth 15 <<< 12) ||| (p.det.inversion.setWidth 15 <<< 14)
        tmErr := wrap32 p.err, tmTotal := wrap32 p.total, tmRf := wrap32 p.rf, tmCn := wrap32 cn } := by
  funext ch
  rw [infoWritten, Detected.params_eq]

/-! ## The steps -/

/-- A read that ends a straight line of GET_SIGNAL_INFO, after which another one starts. -/
theorem exec_info_read {s : State} {c : Chan} {q : Prim} {got : List Int} {k k' : Kont} {v w : Int} {first : Op}
    {rest : List Op} (h : Runs s (.getSignalInfo c) (.before q [] got k) ⟨false, v⟩) (hv : q.value v = some w)
    (hr : infoResume Config.cfg c k (got ++ [w]) (logged (.chan c) q w true s) =
      .go (logged (.chan c) q w true s) first rest k') :
    exec (.getSignalInfo c) s = .next (chanAfter c id
      (standing (.getSignalInfo c) (.before (resolve Config.cfg s first) rest [] k'))
      [⟨.chan c, q.delivered, w, true⟩] s) :=
  exec_of_runs h rfl (engineStep_read_go rfl hv hr)

/-- On a locked channel the C/N measurement starts with the read of DETECTED_STD (R149). -/
theorem infoMeasure_locked (cfg : Cfg) {c : Chan} {s : State} (p : InfoLocals) (h : (s.chan c).locked = true) :
    infoMeasure cfg c p s = .go s (.prim (.devRead c .detectedStd)) [] (.infoCnStd p) := if_pos h

/-- After the AGC1 read: the LNA gain where an LNA is present, else the C/N measurement (R290, R148). -/
theorem exec_info_agc {s : State} {c : Chan} {got : List Int} {f srT v : Int} {std : BitVec 2}
    (hl : (s.chan c).locked = true)
    (h : Runs s (.getSignalInfo c) (.before (.devRead c .agc1Integ) [] got (.infoAgc f srT std)) ⟨false, v⟩) :
    exec (.getSignalInfo c) s = .next
      (if s.glob.lnaPresent then
        chanAfter c id (standing (.getSignalInfo c) (.before .lnaGetGain [] []
          (.infoGain (infoFrom Config.cfg f srT std (got ++ [v % 2 ^ 16])))))
          [chanDid c (.devRead c .agc1Integ) (v % 2 ^ 16)] s
      else
        chanAfter c id (standing (.getSignalInfo c) (.before (.devRead c .detectedStd) [] []
          (.infoCnStd (infoFrom Config.cfg f srT std (got ++ [v % 2 ^ 16])))))
          [chanDid c (.devRead c .agc1Integ) (v % 2 ^ 16)] s) := by
  split
  · rename_i hlna
    exact exec_info_read (first := .prim .lnaGetGain) h rfl (if_pos hlna)
  · rename_i hlna
    refine exec_info_read (first := .prim (.devRead c .detectedStd)) h rfl ((if_neg hlna).trans ?_)
    exact infoMeasure_locked _ _ (by rw [logged_chan]; exact hl)

/-- After the read of DETECTED_STD: the nominal rate plus the timing offset, and the reads of the standard (R290). -/
theorem exec_info_std {s : State} {c : Chan} {f srN t v : Int}
    (h : Runs s (.getSignalInfo c) (.before (.devRead c .detectedStd) [] [t] (.infoStd f srN)) ⟨false, v⟩) :
    exec (.getSignalInfo c) s = .next (chanAfter c id
      (standing (.getSignalInfo c) (.before (resolve Config.cfg s (paramFirst c (bitsOf 2 (v % 2 ^ 2))))
        (paramRest c (bitsOf 2 (v % 2 ^ 2)) ++ counterOps c (bitsOf 2 (v % 2 ^ 2))) []
        (.infoAgc f (srN + timingOffset Config.cfg srN t) (bitsOf 2 (v % 2 ^ 2)))))
      [chanDid c (.devRead c .detectedStd) (v % 2 ^ 2)] s) := exec_info_read h rfl rfl

/-- After the last Sleep of the C/N measurement, which is no abort point: the counter reset where the configuration asks
for one, else the TM registers (R292). -/
theorem exec_info_samples {s : State} {c : Chan} {ms : Nat} {samples : List Int} {p : InfoLocals} {std : BitVec 2}
    {ans : Answer} (h : Runs s (.getSignalInfo c) (.before (.sleep ms) [] samples (.infoCnSamples p std)) ans) :
    exec (.getSignalInfo c) s = .next
      (if Config.cfg.siginfoReset then
        chanAfter c id (fun g =>
          { standing (.getSignalInfo c) (.before (.devWrite c .cntReset 1) [] []
              (.infoReset p (cnValue Config.cfg std samples))) g with elapsed := g.elapsed + ms }) [] s
      else
        chanAfter c (infoWritten p (cnValue Config.cfg std samples))
          (fun g => { ended 0x50 .ok g with elapsed := g.elapsed + ms }) [] s) := by
  split
  · rename_i hreset
    exact exec_of_runs h rfl (engineStep_sleep_go (first := .prim (.devWrite c .cntReset 1)) rfl rfl (if_pos hreset))
  · rename_i hreset
    exact exec_of_runs h rfl (engineStep_sleep_done rfl rfl (fun _ _ => rfl) (if_neg hreset))

/-- Settles O46: the steps in the order of R290, each from the computation at its program point. -/
theorem signalInfoCompletes : Obligations.SignalInfoCompletes := by
  intro s c v p cfg m signed runs stands onwards rf d params tm
  have htm : ∀ cn, infoWritten p cn = tm cn := infoWritten_eq p
  refine ⟨?tuner, ?car, ?sfr, ?std, ?agcS2, ?agcS1, ?gain, ?cnStd, ?reset, ?samples⟩
  case tuner =>
    intro hl h
    have hentry : (ruleOf Config.cfg (.getSignalInfo c)).entry s =
        .go s (.prim (.tunerGetFrequency c)) [.prim (.devRead c .carFreq)] .infoCar := if_pos hl
    exact exec_of_runs h rfl ((engineStep_start_go hentry).trans (engineStep_read_next rfl rfl))
  case car =>
    intro f h
    rw [← carrierOffset_field]
    exact exec_info_read (first := .prim (.devRead c .sfr)) h rfl rfl
  case sfr =>
    intro f h
    exact exec_info_read (first := .prim (.devRead c .tmgOffset)) h rfl rfl
  case std =>
    intro f srN t h raw srT std did
    have hsr : srN + timingOffset Config.cfg srN t = srT := by rw [timingOffset_eq]; rfl
    have hbits : bitsOf 2 (v % 2 ^ 2) = std := rfl
    rw [exec_info_std h, hsr, hbits]
    by_cases hstd : std = 3
    · simp only [paramFirst, paramRest, counterOps, if_pos hstd]
      rfl
    · simp only [paramFirst, paramRest, counterOps, if_neg hstd]
      rfl
  case agcS2 =>
    intro f srT mc fr pl inv ro e t hl h
    rw [exec_info_agc hl h, infoFrom_s2]
    rfl
  case agcS1 =>
    intro f srT std pr inv ro e hl hstd h
    rw [exec_info_agc hl h, infoFrom_s1 _ _ _ hstd]
    rfl
  case gain =>
    intro hl h gain
    exact exec_info_read (first := .prim (.devRead c .detectedStd)) h rfl
      (infoMeasure_locked _ _ (by rw [logged_chan]; exact hl))
  case cnStd =>
    intro h std sample wait
    exact exec_info_read (first := .prim sample) h rfl rfl
  case reset =>
    intro cn h
    rw [← htm]
    exact exec_of_runs h rfl (engineStep_write_done rfl nofun rfl (fun _ _ => rfl) rfl)
  case samples =>
    intro ms samples std h cn
    rw [← htm]
    exact exec_info_samples h

end Sys2Proof.Machine
end

section
/-! SUPPORT. The conversion functions (41_estimators.md R160 to R166): the decoding of a raw value, what the floors and
the rounding of the divisions leave of the exact quotient, the round-trip bounds, and the ranges of the estimates. -/

namespace Sys2Proof.Machine

/-! ## Decoding a raw value (R160) -/

/-- Decoding sees the low bits only. -/
theorem sext_emod (n : Nat) (v : Int) : sext n (v % 2 ^ n) = sext n v := by
  simp only [sext, Int.emod_emod]

/-- A raw value is its own low 24 bits. -/
theorem sext_of_lt {r : Nat} (hr : r < 2 ^ 24) : sext 24 r = if r < 2 ^ 23 then (r : Int) else r - 2 ^ 24 := by
  have hlow : (r : Int) % 2 ^ 24 = r := by omega
  rw [sext, hlow]
  split <;> split <;> omega

/-- Settles O21: a raw value below 2^24 is its own low 24 bits; the four values are evaluated. -/
theorem twosComplementDecoding : Obligations.TwosComplementDecoding :=
  ⟨fun _ hr => sext_of_lt hr, by decide, by decide, by decide, by decide⟩

theorem sext_24_range (v : Int) : -2 ^ 23 ≤ sext 24 v ∧ sext 24 v < 2 ^ 23 := by
  unfold sext
  split <;> omega

/-- The negative of a raw value decodes to the negative, but for 2^23, which is its own (log 20). -/
theorem sext_neg_raw {r : Nat} (hpos : 0 < r) (hr : r < 2 ^ 24) (hmid : r ≠ 2 ^ 23) :
    sext 24 ((2 ^ 24 - r : Nat) : Int) = -sext 24 r := by
  rw [sext_of_lt hr, sext_of_lt (by omega)]
  split <;> split <;> omega

/-- Only the raw value 0 decodes to 0. -/
theorem sext_ne_zero {r : Nat} (hpos : 0 < r) (hr : r < 2 ^ 24) : sext 24 r ≠ 0 := by
  rw [sext_of_lt hr]
  split <;> omega

/-! ## Floors and roundings -/

/-- R11: a floor is less than 1 below the quotient. -/
theorem floorDiv_bounds (a : Int) {b : Int} (hb : 0 < b) : b * floorDiv a b ≤ a ∧ a < b * floorDiv a b + b :=
  ⟨Int.mul_ediv_self_le hb.ne', Int.lt_mul_ediv_self_add hb⟩

/-- R11: a rounded quotient is within one half of the quotient. -/
theorem roundDiv_bounds (a : Int) {b : Int} (hb : 0 < b) :
    2 * (b * roundDiv a b) ≤ 2 * a + b ∧ 2 * a < 2 * (b * roundDiv a b) + b := by
  obtain ⟨hle, hlt⟩ := floorDiv_bounds (2 * a + b) (show 0 < 2 * b by omega)
  rw [mul_assoc] at hle hlt
  constructor
  · exact hle
  · unfold roundDiv
    omega

theorem roundDiv_nonneg {a b : Int} (ha : 0 ≤ a) (hb : 0 < b) : 0 ≤ roundDiv a b :=
  Int.ediv_nonneg (by omega) (by omega)

/-- R164: of a symbol rate, which is not negative, only the upper saturation is left. -/
theorem encSr_eq_min {m sr : Int} (hm : 0 < m) (hsr : 0 ≤ sr) :
    encSr m sr = min (roundDiv (sr * 2 ^ 16) m) (2 ^ 16 - 1) := by
  rw [encSr, if_neg hm.ne', encSrAt, sat, max_eq_left (roundDiv_nonneg (by omega) hm)]

theorem encSr_eq_roundDiv {m sr : Int} (hm : 0 < m) (hsr : 0 ≤ sr) (hunsat : roundDiv (sr * 2 ^ 16) m ≤ 2 ^ 16 - 1) :
    encSr m sr = roundDiv (sr * 2 ^ 16) m := by
  rw [encSr_eq_min hm hsr, min_eq_left hunsat]

/-! ## The round trips (R166) -/

/-- R166 (a). With `e` the encoding, `m * e` is within `m / 2` of `sr * 2^16`, the floor loses less than 2^16 more, and
2^16 is at most `m / 2`. -/
theorem symbolRate_encSr_error {m : Int} (hm : 2 ^ 17 ≤ m) (sr : Nat)
    (hunsat : roundDiv ((sr : Int) * 2 ^ 16) m ≤ 2 ^ 16 - 1) :
    |symbolRate m (encSr m sr * 2 ^ 16) - sr| * 2 ^ 16 < m := by
  have hpos : 0 < m := by omega
  rw [encSr_eq_roundDiv hpos (by omega) hunsat]
  obtain ⟨hround, hround'⟩ := roundDiv_bounds ((sr : Int) * 2 ^ 16) hpos
  generalize roundDiv ((sr : Int) * 2 ^ 16) m = e at *
  obtain ⟨hfloor, hfloor'⟩ := floorDiv_bounds (m * (e * 2 ^ 16)) (show (0 : Int) < 2 ^ 32 by decide)
  rw [← mul_assoc] at hfloor hfloor'
  have habs : |symbolRate m (e * 2 ^ 16) - sr| * 2 ^ 16 = |(symbolRate m (e * 2 ^ 16) - sr) * 2 ^ 16| := by
    rw [abs_mul, abs_of_pos (show (0 : Int) < 2 ^ 16 by decide)]
  rw [habs, abs_lt, symbolRate, ← mul_assoc]
  constructor <;> omega

/-- R166 (b). Multiplied by `m`, the rounding moves the encoding by at most `m * 2^15`, and the floor of the symbol rate
by less than 2^32, which is at most `m * 2^15`. -/
theorem encSr_symbolRate_error {m : Int} (hm : 2 ^ 17 ≤ m) {r : Int} (hr : 0 ≤ r)
    (hunsat : roundDiv (symbolRate m r * 2 ^ 16) m ≤ 2 ^ 16 - 1) :
    |encSr m (symbolRate m r) * 2 ^ 16 - r| < 2 ^ 16 := by
  have hpos : 0 < m := by omega
  have hrate : 0 ≤ symbolRate m r := Int.ediv_nonneg (mul_nonneg hpos.le hr) (by decide)
  rw [encSr_eq_roundDiv hpos hrate hunsat]
  obtain ⟨hfloor, hfloor'⟩ := floorDiv_bounds (m * r) (show (0 : Int) < 2 ^ 32 by decide)
  change 2 ^ 32 * symbolRate m r ≤ m * r at hfloor
  change m * r < 2 ^ 32 * symbolRate m r + 2 ^ 32 at hfloor'
  obtain ⟨hround, hround'⟩ := roundDiv_bounds (symbolRate m r * 2 ^ 16) hpos
  generalize roundDiv (symbolRate m r * 2 ^ 16) m = e at *
  have hdist : m * (e * 2 ^ 16 - r) = m * e * 2 ^ 16 - m * r := by ring
  rw [abs_lt]
  constructor
  · exact lt_of_mul_lt_mul_left (by omega) hpos.le
  · exact lt_of_mul_lt_mul_left (by omega) hpos.le

/-- Settles O25: both bounds of R166. -/
theorem symbolRateRoundTrip : Obligations.SymbolRateRoundTrip := fun _ hm =>
  ⟨symbolRate_encSr_error hm, fun _ hunsat => encSr_symbolRate_error hm (by omega) hunsat⟩

/-! ## Ranges and antisymmetry (R161 to R163) -/

/-- R161, the lower bound as the floor leaves it for an odd `m` (log 20). -/
theorem carrierOffset_range {m : Int} (hm : 0 < m) (r : Int) :
    -(m + 1) ≤ 2 * carrierOffset m r ∧ 2 * carrierOffset m r < m := by
  obtain ⟨hlow, hhigh⟩ := sext_24_range r
  obtain ⟨hfloor, hfloor'⟩ := floorDiv_bounds (m * sext 24 r) (show (0 : Int) < 2 ^ 24 by decide)
  have hprod : m * -2 ^ 23 ≤ m * sext 24 r := mul_le_mul_of_nonneg_left hlow hm.le
  have hprod' : m * sext 24 r < m * 2 ^ 23 := mul_lt_mul_of_pos_left hhigh hm
  unfold carrierOffset
  constructor <;> omega

/-- R162. -/
theorem symbolRate_range {m : Int} (hm : 0 < m) {r : Int} (hr : 0 ≤ r) (hr' : r < 2 ^ 32) :
    0 ≤ symbolRate m r ∧ symbolRate m r < m :=
  ⟨Int.ediv_nonneg (mul_nonneg hm.le hr) (by decide),
    Int.ediv_lt_of_lt_mul (by decide) (mul_lt_mul_of_pos_left hr' hm)⟩

/-- R163: the guard against 0 does not touch a raw value other than 0. -/
theorem timingRaw_of_ne_zero {r : Int} (h : sext 24 r ≠ 0) : timingRaw r = sext 24 r := if_neg h

/-- R163: truncating divisions are odd in both operands. -/
theorem timingOffset_neg_raw (cfg : Cfg) (sr : Int) {r : Nat} (hpos : 0 < r) (hr : r < 2 ^ 24) (hmid : r ≠ 2 ^ 23) :
    timingOffset cfg sr ((2 ^ 24 - r : Nat) : Int) = -timingOffset cfg sr r := by
  have hneg : timingRaw ((2 ^ 24 - r : Nat) : Int) = -timingRaw r := by
    rw [timingRaw_of_ne_zero (sext_ne_zero hpos hr), timingRaw_of_ne_zero (sext_ne_zero (by omega) (by omega)),
      sext_neg_raw hpos hr hmid]
  rw [timingOffset_eq, timingOffset_eq, hneg, Int.tdiv_neg, Int.tdiv_neg, Int.neg_tdiv]

/-- Settles O26: the two ranges, and the antisymmetry where R163 has it. -/
theorem estimatorProperties : Obligations.EstimatorProperties := fun _ hm =>
  ⟨fun _ => carrierOffset_range hm _, fun r => symbolRate_range hm (by omega) (by exact_mod_cast r.isLt),
    fun sr _ => timingOffset_neg_raw Config.cfg sr⟩

end Sys2Proof.Machine
end

section
/-! SUPPORT. The estimator commands (41_estimators.md R168 to R171): a decoding command from its operand register or from
its device read, and ENC_SYMBOL_RATE with and without a master clock. -/

namespace Sys2Proof.Machine

/-! ## A decoding command -/

/-- What a step writes depends on the registers the channel has. -/
theorem chanAfter_congr {c : Chan} {f f' : Channel → Channel} {g : Engine → Engine} {evs : List BusEvent} {s : State}
    (h : f (s.chan c) = f' (s.chan c)) : chanAfter c f g evs s = chanAfter c f' g evs s := by
  simp only [chanAfter, State.updChan, h]

section
variable {i : Instr} {c : Chan} {field : ReadField} {arg : Channel → Int} {k : Kont} {result : State → Int → Int}
  {s : State} {res : Channel → Int}

/-- R168 to R170 with SRC = `.arg`: one step, no transaction, and RES0 from the operand register. -/
theorem exec_decode_arg {ans : Answer} (hrule : ruleOf Config.cfg i = decodeProgram c false field arg k result)
    (h : Runs s i .start ans) (hi : isAbort i = false) (hb : i.bank = .chan c)
    (hres : result s (arg (s.chan c)) = res (s.chan c)) :
    exec i s = .next (chanAfter c (fun ch => { ch with res0 := BitVec.ofInt 32 (res ch) }) (ended i.opcode .ok) [] s) := by
  rw [chanAfter_congr (f' := fun ch => { ch with res0 := wrap32 (result s (arg (s.chan c))) }) (by rw [hres]; rfl)]
  refine exec_of_runs h hi ?_
  rw [hrule]
  exact engineStep_start_done hb (fun _ _ => rfl) rfl

/-- R168 to R170 with SRC = `.dev`: one step with the read of the field, and RES0 from its value. -/
theorem exec_decode_dev {v : Int} (hrule : ruleOf Config.cfg i = decodeProgram c true field arg k result)
    (h : Runs s i .start ⟨false, v⟩) (hi : isAbort i = false) (hb : i.bank = .chan c)
    (hres : result (logged (.chan c) (.devRead c field) (zext field.width v) true s) (zext field.width v) =
      res (s.chan c)) :
    exec i s = .next (chanAfter c (fun ch => { ch with res0 := BitVec.ofInt 32 (res ch) }) (ended i.opcode .ok)
      [chanDid c (.devRead c field) (zext field.width v)] s) := by
  rw [chanAfter_congr (f' := fun ch => { ch with res0 := wrap32 (res (s.chan c)) }) rfl, ← hres]
  refine exec_of_runs h hi ?_
  rw [hrule]
  exact (engineStep_start_go rfl).trans (engineStep_read_done hb rfl (fun _ _ => rfl) (if_pos rfl))

end

/-! ## The raw values as the statements write them -/

/-- The low bits of a register (R168, R170). -/
theorem natCast_toNat_emod (n : Nat) (w : Word) : ((w.toNat % 2 ^ n : Nat) : Int) = uval w % 2 ^ n := by
  simp [uval]

/-- R163, on a raw value as its field holds it. -/
theorem timingOffset_field (cfg : Cfg) (sr v : Int) :
    timingOffset cfg sr (v % 2 ^ 24) =
      ((sr * 10).tdiv ((2 ^ 24 : Int).tdiv (if sext 24 v = 0 then 1 else sext 24 v))).tdiv 320 := by
  rw [timingOffset_eq, timingRaw, sext_emod]

/-! ## CARRIER_OFFSET, SYMBOL_RATE and TIMING_OFFSET -/

/-- Settles O22: each command is `exec_decode_arg`, its function written out. -/
theorem estimatorsFromArguments : Obligations.EstimatorsFromArguments := by
  intro s c ans m signed raw
  have hraw : ∀ w, raw w = uval w % 2 ^ 24 := natCast_toNat_emod 24
  refine ⟨fun h => exec_decode_arg rfl h rfl rfl ?carrier, fun h => exec_decode_arg rfl h rfl rfl ?rate,
    fun h => exec_decode_arg rfl h rfl rfl ?timing⟩
  case carrier =>
    rw [hraw]
    exact carrierOffset_field _ _
  case rate => rfl
  case timing =>
    rw [hraw]
    exact timingOffset_field _ _ _

/-- Settles O23: each command is `exec_decode_dev`, its function written out. -/
theorem estimatorsFromDevice : Obligations.EstimatorsFromDevice := by
  intro s c v m signed
  refine ⟨fun h => exec_decode_dev rfl h rfl rfl ?carrier, fun h => exec_decode_dev rfl h rfl rfl ?rate,
    fun h => exec_decode_dev rfl h rfl rfl ?timing⟩
  case carrier => exact carrierOffset_field _ _
  case rate => rfl
  case timing =>
    rw [logged_chan]
    exact timingOffset_field _ _ _

/-! ## ENC_SYMBOL_RATE -/

/-- ENC_SYMBOL_RATE completes in one step from what EncSR and EncCar give (R171). -/
theorem exec_encSymbolRate {s : State} {c : Chan} {ans : Answer} (h : Runs s (.encSymbolRate c) .start ans) :
    exec (.encSymbolRate c) s = .next (chanAfter c
      (fun ch => { ch with
        res0 := wrap32 (encSr s.mclk (uval ch.arg0)), res1 := wrap32 (encCar s.mclk ch.arg1.toInt) })
      (ended 0x23 .ok) [] s) :=
  exec_of_runs h rfl (engineStep_start_done rfl (fun _ _ => rfl) rfl)

/-- A 16-bit value in a register. -/
theorem wrap32_uval (x : BitVec 16) : wrap32 (uval x) = x.setWidth 32 := by
  simp [wrap32, uval, BitVec.ofInt_natCast]

/-- Settles O24: a nonzero clock gives the two formulas; with a clock of 0 the free values are those of log 5. -/
theorem encSymbolRateCompletes : Obligations.EncSymbolRateCompletes := by
  intro s c ans h m
  rw [exec_encSymbolRate h]
  constructor
  · intro hm
    have hpos : 0 < s.mclk := by
      have hne : s.glob.mclk.toNat ≠ 0 := fun h0 => hm (BitVec.eq_of_toNat_eq h0)
      exact Int.natCast_pos.mpr (Nat.pos_of_ne_zero hne)
    refine congrArg _ (chanAfter_congr ?_)
    have hsr : 0 ≤ uval (s.chan c).arg0 := Int.natCast_nonneg _
    rw [encSr_eq_min hpos hsr, encCar, if_neg hpos.ne']
    rfl
  · intro hm
    have hzero : s.mclk = 0 := by rw [State.mclk, hm]; rfl
    refine ⟨Config.freeEncSr (uval (s.chan c).arg0), Config.freeEncCar (s.chan c).arg1.toInt,
      congrArg _ (chanAfter_congr ?_)⟩
    rw [encSr, encCar, if_pos hzero, if_pos hzero, wrap32_uval, wrap32_uval]

end Sys2Proof.Machine
end

section
/-! SUPPORT. The functions of the device configuration layer (42_configuration.md R180, R183, R184, R186 to R188, R190):
the selection as its columns, the rows of the step tables, the order of the timeouts, the valid requests. -/

namespace Sys2Proof.Machine

/-! ## Register fields -/

theorem eq_of_two_bits (v : BitVec 2) : v = 0 ∨ v = 1 ∨ v = 2 ∨ v = 3 := by
  revert v
  decide

/-- DevWrite delivers a value of the field's own width as it is (20_memory.md R74). -/
theorem zext_uval {w : Nat} (x : BitVec w) : zext w (uval x) = uval x :=
  Int.emod_eq_of_lt (Int.natCast_nonneg _) (by unfold uval; exact_mod_cast x.isLt)

theorem bit_eq_uval (b : Bool) : bit b = uval (BitVec.ofBool b) := by cases b <;> rfl

/-! ## The selection (R180, R181) -/

/-- R180 by columns: AUTO has both decoders, and its mask depends on the unreliable rate only. -/
theorem selectStandard_eq (cfg : Cfg) (std : BitVec 2) (pr : BitVec 3) :
    selectStandard cfg std pr =
      { enS1 := std != 3, enS2 := std == 0 || std == 3, dss := std == 2
        mask := if std = 0 then autoMask cfg else prMask pr } := by
  rcases eq_of_two_bits std with rfl | rfl | rfl | rfl <;> rfl

theorem stdWord_eq (sel : StdSelection) :
    stdWord sel = (BitVec.ofBool sel.enS1).setWidth 32 ||| ((BitVec.ofBool sel.enS2).setWidth 32 <<< 1) |||
      ((BitVec.ofBool sel.dss).setWidth 32 <<< 2) ||| (sel.mask.setWidth 32 <<< 8) := by
  rw [← BitVec.setWidth_eq (stdWord sel), stdWord]
  simp only [setWidth_append_eq_or]
  simp only [BitVec.ofNat_eq_ofNat, BitVec.setWidth_zero, BitVec.zero_shiftLeft, BitVec.zero_or, BitVec.or_zero,
    BitVec.shiftLeft_or_distrib, ← BitVec.shiftLeft_add, Nat.reduceAdd, BitVec.or_assoc]

/-- `stdWord_eq` for a selection that is written out, whose bits then evaluate. -/
theorem stdWord_mk (enS1 enS2 dss : Bool) (mask : BitVec 6) :
    stdWord ⟨enS1, enS2, dss, mask⟩ = (BitVec.ofBool enS1).setWidth 32 ||| ((BitVec.ofBool enS2).setWidth 32 <<< 1) |||
      ((BitVec.ofBool dss).setWidth 32 <<< 2) ||| (mask.setWidth 32 <<< 8) := stdWord_eq _

/-- RES0 of SELECT_STANDARD for each of the four standards: the decoders in its low bits, the mask at bit 8 (R181). -/
theorem stdWord_selectStandard (cfg : Cfg) (std : BitVec 2) (pr : BitVec 3) :
    stdWord (selectStandard cfg std pr) =
      match std.toNat with
      | 0 => 0x3 ||| ((autoMask cfg).setWidth 32 <<< 8)
      | 1 => 0x1 ||| ((prMask pr).setWidth 32 <<< 8)
      | 2 => 0x5 ||| ((prMask pr).setWidth 32 <<< 8)
      | _ => 0x2 ||| ((prMask pr).setWidth 32 <<< 8) := by
  rcases eq_of_two_bits std with rfl | rfl | rfl | rfl
  · exact stdWord_mk true true false (autoMask cfg)
  · exact stdWord_mk true false false (prMask pr)
  · exact stdWord_mk true false true (prMask pr)
  · exact stdWord_mk false true false (prMask pr)

/-- The decoder bits of the four standards (R180). -/
theorem selectStandard_bits (cfg : Cfg) {std : BitVec 2} (pr : BitVec 3) {s1 s2 dss : BitVec 1}
    (h : (std, s1, s2, dss) ∈ [((0 : BitVec 2), (1 : BitVec 1), (1 : BitVec 1), (0 : BitVec 1)), (1, 1, 0, 0),
      (2, 1, 0, 1), (3, 0, 1, 0)]) :
    BitVec.ofBool (selectStandard cfg std pr).enS1 = s1 ∧ BitVec.ofBool (selectStandard cfg std pr).enS2 = s2 ∧
      BitVec.ofBool (selectStandard cfg std pr).dss = dss := by
  simp only [List.mem_cons, Prod.mk.injEq, List.not_mem_nil, or_false] at h
  rcases h with ⟨rfl, rfl, rfl, rfl⟩ | ⟨rfl, rfl, rfl, rfl⟩ | ⟨rfl, rfl, rfl, rfl⟩ | ⟨rfl, rfl, rfl, rfl⟩ <;>
    exact ⟨rfl, rfl, rfl⟩

/-! ## Tiers and buckets (R183, R186, R188) -/

/-- The rows of R183. -/
theorem tier_cases (sr : Int) :
    (sr ≤ 1000000 ∧ tier sr = 0) ∨ (1000000 < sr ∧ sr ≤ 2000000 ∧ tier sr = 1) ∨
      (2000000 < sr ∧ sr ≤ 5000000 ∧ tier sr = 2) ∨ (5000000 < sr ∧ sr ≤ 10000000 ∧ tier sr = 3) ∨
      (10000000 < sr ∧ sr ≤ 20000000 ∧ tier sr = 4) ∨ (20000000 < sr ∧ tier sr = 5) := by
  unfold tier
  split_ifs <;> simp <;> omega

/-- The rows of R186. -/
theorem clgBucket_cases (sr : Int) :
    (sr ≤ 3000000 ∧ clgBucket sr = 0) ∨ (3000000 < sr ∧ sr ≤ 7000000 ∧ clgBucket sr = 1) ∨
      (7000000 < sr ∧ sr ≤ 15000000 ∧ clgBucket sr = 2) ∨ (15000000 < sr ∧ sr ≤ 25000000 ∧ clgBucket sr = 3) ∨
      (25000000 < sr ∧ clgBucket sr = 4) := by
  unfold clgBucket
  split_ifs <;> simp <;> omega

/-- The rows of R188. -/
theorem modulationOf_cases (m : Nat) :
    (1 ≤ m ∧ m ≤ 11 ∧ modulationOf m = 0) ∨ (12 ≤ m ∧ m ≤ 17 ∧ modulationOf m = 1) ∨
      (18 ≤ m ∧ m ≤ 23 ∧ modulationOf m = 2) ∨ ((m = 0 ∨ 24 ≤ m) ∧ modulationOf m = 3) := by
  unfold modulationOf
  split_ifs <;> simp <;> omega

/-- Settles O29: in each row the value is known, and the bounds of the rows exclude each other. -/
theorem tiersAndBuckets : Obligations.TiersAndBuckets := by
  refine ⟨fun sr => ⟨?tiers, ?buckets⟩, fun m => ?modulations⟩
  case tiers =>
    rcases tier_cases sr with ⟨h, ht⟩ | ⟨h, h', ht⟩ | ⟨h, h', ht⟩ | ⟨h, h', ht⟩ | ⟨h, h', ht⟩ | ⟨h, ht⟩ <;>
      simp [ht] <;> omega
  case buckets =>
    rcases clgBucket_cases sr with ⟨h, hb⟩ | ⟨h, h', hb⟩ | ⟨h, h', hb⟩ | ⟨h, h', hb⟩ | ⟨h, hb⟩ <;>
      simp [hb] <;> omega
  case modulations =>
    rcases modulationOf_cases m with ⟨h, h', hm⟩ | ⟨h, h', hm⟩ | ⟨h, h', hm⟩ | ⟨h, hm⟩ <;> simp [hm] <;> omega

/-! ## Timeouts (R184, R191) -/

theorem tier_mono {x y : Int} (h : x ≤ y) : tier x ≤ tier y := by
  unfold tier
  split_ifs <;> omega

/-- R191 (a). -/
theorem demodTimeout_antitone (cfg : Cfg) (algo : Algo) {x y : Int} (h : x ≤ y) :
    demodTimeout cfg y algo ≤ demodTimeout cfg x algo := by
  have htier := tier_mono h
  have hcold := BitVec.le_def.1 (cfg.tmo_demod_cold_noninc _ _ htier)
  cases algo with
  | blind => exact BitVec.le_def.1 (cfg.tmo_demod_blind_noninc _ _ htier)
  | cold => exact hcold
  | warm => exact Nat.div_le_div_right hcold

/-- Settles O30: the tables are not increasing in the tier, half is at most the whole, and BLIND is at most COLD in each
tier. -/
theorem timeoutProperties : Obligations.TimeoutProperties := fun cfg =>
  ⟨fun algo _ _ h => demodTimeout_antitone cfg algo h, fun _ => Nat.div_le_self _ _,
    fun x => BitVec.le_def.1 (cfg.tmo_demod_blind_le_cold (tier x))⟩

/-! ## Requests (R190) -/

/-- The code 3 names no algorithm (10_state.md R28). -/
theorem algoOf_isSome_iff (v : BitVec 2) : (algoOf v).isSome = true ↔ v ≠ 3 := by
  rcases eq_of_two_bits v with rfl | rfl | rfl | rfl <;> decide

theorem algoOf_eq_blind_iff (v : BitVec 2) : algoOf v = some .blind ↔ v = 0 := by
  rcases eq_of_two_bits v with rfl | rfl | rfl | rfl <;> decide

/-- Settles O33: the conjunction of `validRequest`; COLD and WARM are the algorithms other than BLIND. -/
theorem validRequestExactly : Obligations.ValidRequestExactly := by
  intro cfg r
  simp only [validRequest, Bool.and_eq_true, Bool.or_eq_true, bne_iff_ne, beq_iff_eq, decide_eq_true_eq,
    algoOf_isSome_iff, algoOf_eq_blind_iff, ← BitVec.le_def]
  have hcodes := eq_of_two_bits r.algo
  constructor
  · rintro ⟨⟨⟨⟨⟨halgo, hiq⟩, hpr⟩, hmin⟩, hmax⟩, hsr⟩
    refine ⟨⟨halgo, hiq, hpr⟩, ⟨hmin, hmax⟩, ?_⟩
    rintro (hcold | hwarm)
    · exact hsr.resolve_left (by rw [hcold]; decide)
    · exact hsr.resolve_left (by rw [hwarm]; decide)
  · rintro ⟨⟨halgo, hiq, hpr⟩, ⟨hmin, hmax⟩, hsr⟩
    refine ⟨⟨⟨⟨⟨halgo, hiq⟩, hpr⟩, hmin⟩, hmax⟩, ?_⟩
    rcases hcodes with h | h | h | h
    · exact .inl h
    · exact .inr (hsr (.inl h))
    · exact .inr (hsr (.inr h))
    · exact absurd h halgo

end Sys2Proof.Machine
end

section
/-! SUPPORT. The commands of the device configuration layer (42_configuration.md R181, R185, R189): SELECT_STANDARD in
one step and with its four writes, COMPUTE_TIMEOUTS, SELECT_CLG. -/

namespace Sys2Proof.Machine

/-- Inside a straight line a write is followed by the next primitive. -/
theorem engineStep_write_next {cfg : Cfg} {p : Program} {i : Instr} {c : Chan} {s : State} {q : Prim} {v : Int} {op : Op}
    {ops : List Op} {got : List Int} {k : Kont} (hb : i.bank = .chan c) (hq : ∀ ms, q ≠ .sleep ms)
    (hv : q.value v = none) :
    engineStep cfg p i ⟨false, v⟩ (.before q (op :: ops) got k) s =
      some (chanAfter c id (standing i (.before (resolve cfg s op) ops got k))
        [⟨.chan c, q.delivered, 0, true⟩] s) := by
  simp only [engineStep, perform_write hq hv, proceed, resolve_logged, hb, atPoint_logged_chan hb]

/-! ## SELECT_STANDARD -/

/-- PR = 7 ends the command before anything is written (R181). -/
theorem exec_selectStandard_bad {s : State} {c : Chan} {wr : Bool} {ans : Answer} (hpr : modePr (s.chan c).arg0 = 7)
    (h : Runs s (.selectStandard c wr) .start ans) :
    exec (.selectStandard c wr) s = .next (chanAfter c id (ended 0x30 .badOperand) [] s) := by
  refine exec_of_runs h rfl (engineStep_start_done rfl .id ?_)
  rw [State.updChan_id]
  exact if_pos hpr

/-- Without WR the entry is the write of RES0 and the end (R181). -/
theorem exec_selectStandard_plain {s : State} {c : Chan} {ans : Answer} (hpr : modePr (s.chan c).arg0 ≠ 7)
    (h : Runs s (.selectStandard c false) .start ans) :
    exec (.selectStandard c false) s = .next (chanAfter c
      (fun ch => { ch with
        res0 := stdWord (selectStandard Config.cfg (modeStd (s.chan c).arg0) (modePr (s.chan c).arg0)) })
      (ended 0x30 .ok) [] s) :=
  exec_of_runs h rfl (engineStep_start_done rfl (fun _ _ => rfl) (if_neg hpr))

/-- Settles O27: the entry ends the command, with the word of the selection unless PR = 7. -/
theorem selectStandardCompletes : Obligations.SelectStandardCompletes := by
  intro s c ans arg pr prMask auto
  refine ⟨fun wr hpr h => exec_selectStandard_bad hpr h, fun hpr h => ?_⟩
  rw [exec_selectStandard_plain hpr h, stdWord_selectStandard]
  rfl

/-- The four writes of WriteStandard as the bus records them, newest first (R182). -/
def standardWritten (c : Chan) (sel : StdSelection) : List BusEvent :=
  [chanDid c (.devWrite c .prMask (uval sel.mask)) 0, chanDid c (.devWrite c .dssMode (uval (BitVec.ofBool sel.dss))) 0,
    chanDid c (.devWrite c .stdEnS2 (uval (BitVec.ofBool sel.enS2))) 0,
    chanDid c (.devWrite c .stdEnS1 (uval (BitVec.ofBool sel.enS1))) 0]

/-- SELECT_STANDARD with WR: a step for each of the four writes, and RES0 with the last one (R181, R182). -/
theorem steps_selectStandard {s : State} {c : Chan} {v1 v2 v3 v4 : Int} {rest : List Turn} {sel : StdSelection}
    (hr : s.running (.chan c) = some ⟨.selectStandard c true, .start⟩)
    (hs : s.turns = .engine (.chan c) ⟨false, v1⟩ :: .engine (.chan c) ⟨false, v2⟩ :: .engine (.chan c) ⟨false, v3⟩ ::
      .engine (.chan c) ⟨false, v4⟩ :: rest)
    (hpr : modePr (s.chan c).arg0 ≠ 7)
    (hsel : selectStandard Config.cfg (modeStd (s.chan c).arg0) (modePr (s.chan c).arg0) = sel) :
    steps 4 s = .next (passed rest 4 (chanAfter c (fun ch => { ch with res0 := stdWord sel }) (ended 0x30 .ok)
      (standardWritten c sel) s)) := by
  have hentry : (ruleOf Config.cfg (.selectStandard c true)).entry s =
      .go s (writeStandardFirst c sel) (writeStandardRest c sel) (.stdWritten (stdWord sel)) := by
    rw [← hsel]
    exact if_neg hpr
  refine (steps_succ (step_chanAfter rfl rfl hs hr
    ((engineStep_start_go hentry).trans (engineStep_write_next rfl (by nofun) rfl)))).trans ?_
  refine (steps_succ (step_chanAfter rfl rfl (passed_turns _ _ _) (passed_chanAfter_running _ _ _ _ _ _ _)
    (engineStep_write_next rfl (by nofun) rfl))).trans ?_
  refine (steps_succ (step_chanAfter rfl rfl (passed_turns _ _ _) (passed_chanAfter_running _ _ _ _ _ _ _)
    (engineStep_write_next rfl (by nofun) rfl))).trans ?_
  refine (steps_succ (step_chanAfter rfl rfl (passed_turns _ _ _) (passed_chanAfter_running _ _ _ _ _ _ _)
    (engineStep_write_done rfl (by nofun) rfl (fun _ _ => rfl) rfl))).trans ?_
  simp only [steps_zero, chanAfter_passed, passed_passed, chanAfter_chanAfter .id]
  rw [chanAfter_chanAfter fun _ _ => rfl]
  simp only [standardWritten, writeStandardFirst, resolve, Prim.delivered, WriteField.width, bit_eq_uval, zext_uval]
  rfl

/-- Settles O28: the four writes, with the bits and the mask of each standard. -/
theorem selectStandardWrites : Obligations.SelectStandardWrites := by
  intro s c v1 v2 v3 v4 rest hr hs pr std mask hpr s1 s2 dss hmem
  obtain ⟨h1, h2, hdss⟩ := selectStandard_bits Config.cfg pr hmem
  have hmask : (selectStandard Config.cfg std pr).mask = mask := by rw [selectStandard_eq]; rfl
  rw [steps_selectStandard hr hs hpr (sel := selectStandard Config.cfg std pr) rfl, stdWord_eq, standardWritten, h1, h2,
    hdss, hmask]
  cases c <;> rfl

/-! ## COMPUTE_TIMEOUTS -/

/-- COMPUTE_TIMEOUTS completes with the timeouts of the algorithm that its code names (R185). -/
theorem exec_computeTimeouts {s : State} {c : Chan} {ans : Answer} {code : BitVec 2} {algo : Algo} {demod : Nat}
    {fec : Word} (hcode : algoOf code = some algo)
    (hdemod : demodTimeout Config.cfg (uval (s.chan c).arg0) algo = demod)
    (hfec : BitVec.ofNat 32 (fecTimeout Config.cfg (uval (s.chan c).arg0) algo) = fec)
    (h : Runs s (.computeTimeouts c code) .start ans) :
    exec (.computeTimeouts c code) s = .next (chanAfter c
      (fun ch => { ch with res0 := BitVec.ofNat 32 demod, res1 := fec }) (ended 0x31 .ok) [] s) := by
  subst hdemod hfec
  refine exec_of_runs h rfl (engineStep_start_done rfl (fun _ _ => rfl) ?_)
  simp only [ruleOf, computeTimeoutsProgram, plainProgram, hcode, wrap32, BitVec.ofInt_natCast]
  rfl

/-- Settles O31: the three codes with their algorithms; a FEC timeout is a word of its table as it stands. -/
theorem computeTimeoutsCompletes : Obligations.ComputeTimeoutsCompletes := by
  intro s c ans code hcode h t demod fec
  have hword : ∀ x : Word, BitVec.ofNat 32 x.toNat = x := fun x => by rw [BitVec.ofNat_toNat, BitVec.setWidth_eq]
  rcases eq_of_two_bits code with rfl | rfl | rfl | rfl
  · exact exec_computeTimeouts (algo := .blind) rfl rfl (hword _) h
  · exact exec_computeTimeouts (algo := .cold) rfl rfl (hword _) h
  · exact exec_computeTimeouts (algo := .warm) rfl rfl (hword _) h
  · exact absurd rfl hcode

/-! ## SELECT_CLG -/

/-- The gain byte of SELECT_CLG, from the profile and the operand registers (R189). -/
def clgOf (cfg : Cfg) (p : Prof) (ch : Channel) : BitVec 8 :=
  carrierLoopGain cfg p (uval ch.arg0) (paramsStd ch.arg1) (paramsModcode ch.arg1) (paramsFrame ch.arg1)
    (paramsPilots ch.arg1)

theorem exec_selectClg_plain {s : State} {c : Chan} {ans : Answer} (h : Runs s (.selectClg c false) .start ans) :
    exec (.selectClg c false) s = .next (chanAfter c
      (fun ch => { ch with res0 := (clgOf Config.cfg (s.prof Config.cfg) (s.chan c)).setWidth 32 }) (ended 0x32 .ok)
      [] s) :=
  exec_of_runs h rfl (engineStep_start_done rfl (fun _ _ => rfl) rfl)

theorem exec_selectClg_write {s : State} {c : Chan} {v : Int} {g : BitVec 8}
    (hg : clgOf Config.cfg (s.prof Config.cfg) (s.chan c) = g) (h : Runs s (.selectClg c true) .start ⟨false, v⟩) :
    exec (.selectClg c true) s = .next (chanAfter c (fun ch => { ch with res0 := g.setWidth 32 }) (ended 0x32 .ok)
      [chanDid c (.devWrite c .carLoopGain (uval g)) 0] s) := by
  have hentry : (ruleOf Config.cfg (.selectClg c true)).entry s =
      .go s (.prim (.devWrite c .carLoopGain (uval g))) [] (.clgWritten g) := by
    rw [← hg]
    rfl
  have hdelivered : zext 8 (uval g) = uval g := zext_uval g
  rw [← hdelivered]
  exact exec_of_runs h rfl ((engineStep_start_go hentry).trans
    (engineStep_write_done rfl (by nofun) rfl (fun _ _ => rfl) rfl))

/-- Settles O32: one step, with the write of the byte under WR; the byte is `carrierLoopGain_eq` on ARG0 and ARG1. -/
theorem selectClgCompletes : Obligations.SelectClgCompletes := by
  intro s c v arg p b mc g
  have hg : clgOf Config.cfg (s.prof Config.cfg) (s.chan c) = g := by
    subst g
    rw [BitVec.getLsbD_eq_extractLsb', BitVec.getLsbD_eq_extractLsb', clgOf, carrierLoopGain_eq]
    simp only [beq_iff_eq]
    rfl
  refine ⟨fun ans h => ?_, fun h => exec_selectClg_write hg h⟩
  rw [← hg]
  exact exec_selectClg_plain h

end Sys2Proof.Machine
end

section
/-! SUPPORT. The start of a SEARCH (43_search_fsm.md R201, R204 to R206): its first step, the pre-check, the start of the
first attempt, and the writes of R206. -/

namespace Sys2Proof.Machine

/-! ## What a computation of SEARCH leaves after a transaction -/

@[simp] theorem resolve_updChan (cfg : Cfg) (c : Chan) (f : Channel → Channel) (s : State) (op : Op) :
    resolve cfg (s.updChan c f) op = resolve cfg s op := by
  cases op <;> simp [resolve, State.mclk, State.prof]

/-- The next straight line starts, with registers written that are not the engine's. -/
theorem settle_go_logged {cfg : Cfg} {c : Chan} {q : Prim} {w : Int} {f : Channel → Channel} {first : Op}
    {rest : List Op} {k : Kont} {s : State} (hf : ∀ ch, (f ch).eng = ch.eng) :
    settle cfg (.search c) (.go ((logged (.chan c) q w true s).updChan c f) first rest k) =
      some (chanAfter c f (standing (.search c) (.before (resolve cfg s first) rest [] k))
        [⟨.chan c, q.delivered, w, true⟩] s) := by
  simp only [settle, resolve_updChan, resolve_logged, atPoint_search_logged hf]

/-- finish(S) for an S other than TRACKING leaves LOCKED as it is (R219). -/
theorem finished_of_ne_tracking {st : SearchState} (hst : st ≠ .tracking) :
    Channel.finished st = fun ch => { ch with state := st, blindPhase := .none } := by
  funext ch
  simp only [Channel.finished, if_neg hst]

theorem settle_finish_logged {cfg : Cfg} {c : Chan} {st : SearchState} {q : Prim} {w : Int} {s : State}
    (hst : st ≠ .tracking) :
    settle cfg (.search c) (finish c st (logged (.chan c) q w true s)) =
      some (chanAfter c (fun ch => { ch with state := st, blindPhase := .none }) (ended 0x40 .ok)
        [⟨.chan c, q.delivered, w, true⟩] s) := by
  rw [finish, finished_of_ne_tracking hst]
  exact congrArg some (complete_updChan_logged rfl fun _ _ => rfl)

/-! ## The first attempt (R206, R210) -/

/-- `s` after the step whose transaction is `ev`, in which the first attempt starts: COARSE_ACQUIRE, with the tuner call
next. -/
def firstAttemptBegun (cfg : Cfg) (c : Chan) (algo : Algo) (ev : BusEvent) (s : State) : State :=
  chanAfter c (fun ch => { ch with state := .coarseAcquire })
    (standing (.search c) (.before (.tunerSetFrequency c (uval (s.chan c).req.freq))
      (coarseOps cfg c ((s.chan c).req.attempt algo)) [] (.search (.coarseDone ((s.chan c).req.attempt algo))))) [ev] s

theorem settle_firstAttempt_logged {cfg : Cfg} {c : Chan} {algo : Algo} {q : Prim} {w : Int} {s : State}
    (halgo : algoOf (s.chan c).req.algo = some algo) :
    settle cfg (.search c) (firstAttempt cfg c (logged (.chan c) q w true s)) =
      some (firstAttemptBegun cfg c algo ⟨.chan c, q.delivered, w, true⟩ s) := by
  simp only [firstAttempt, logged_chan, halgo]
  exact settle_go_logged fun _ => rfl

/-! ## The pre-check (R205) -/

/-- `s` after the read of AGC1: at or below its threshold the power reads come next, else the first attempt starts. -/
def agc1Checked (cfg : Cfg) (c : Chan) (algo : Algo) (agc1 : Int) (s : State) : State :=
  if agc1 ≤ uval cfg.agc1ZeroTh then
    chanAfter c id (standing (.search c) (.before (.devRead c .powerI) [.prim (.devRead c .powerQ)] [] (.search .power)))
      [chanDid c (.devRead c .agc1Integ) agc1] s
  else firstAttemptBegun cfg c algo (chanDid c (.devRead c .agc1Integ) agc1) s

theorem engineStep_agc1 {cfg : Cfg} {c : Chan} {algo : Algo} {v : Int} {s : State}
    (halgo : algoOf (s.chan c).req.algo = some algo) :
    engineStep cfg (ruleOf cfg (.search c)) (.search c) ⟨false, v⟩
      (.before (.devRead c .agc1Integ) [] [] (.search .agc1)) s = some (agc1Checked cfg c algo (v % 2 ^ 16) s) := by
  simp only [engineStep, perform_read (q := .devRead c .agc1Integ) nofun rfl, proceed]
  change settle cfg (.search c) (agc1Next cfg c (v % 2 ^ 16) _) = _
  rw [agc1Next, agc1Checked]
  split
  · rw [← State.updChan_id (logged _ _ _ _ s) c]
    exact settle_go_logged fun _ => rfl
  · exact settle_firstAttempt_logged halgo

/-- After the read of POWER_Q: NO_SIGNAL when both powers are below the threshold, else the first attempt. -/
theorem exec_powerQ {s : State} {c : Chan} {pi v : Int} {algo : Algo} (halgo : algoOf (s.chan c).req.algo = some algo)
    (h : Runs s (.search c) (.before (.devRead c .powerQ) [] [pi] (.search .power)) ⟨false, v⟩) :
    exec (.search c) s = .next
      (if pi < uval Config.cfg.iqNosigTh ∧ v % 2 ^ 8 < uval Config.cfg.iqNosigTh then
        chanAfter c (fun ch => { ch with state := .noSignal, blindPhase := .none }) (ended 0x40 .ok)
          [chanDid c (.devRead c .powerQ) (v % 2 ^ 8)] s
      else firstAttemptBegun Config.cfg c algo (chanDid c (.devRead c .powerQ) (v % 2 ^ 8)) s) := by
  refine exec_search_read h nofun rfl ?_
  change settle Config.cfg (.search c) (powerNext Config.cfg c pi (v % 2 ^ 8) _) = _
  rw [powerNext]
  split
  · exact settle_finish_logged nofun
  · exact settle_firstAttempt_logged halgo

/-! ## The first step (R204, R201) -/

/-- R294: bits 1 to 28. -/
theorem allModcodes_eq (cfg : Cfg) : allModcodes cfg = 0x1FFFFFFE := by
  rw [allModcodes, cfg.num_modcodes_value]
  rfl

/-- A request that is not valid ends the SEARCH in BAD_PARAMETER, with no transaction (R204). -/
theorem exec_search_badParameter {s : State} {c : Chan} {ans : Answer} (h : Runs s (.search c) .start ans)
    (hv : validRequest Config.cfg (s.chan c).req = false) :
    exec (.search c) s = .next (chanAfter c (fun ch => { ch with state := .badParameter, blindPhase := .none })
      (ended 0x40 .ok) [] s) := by
  refine exec_of_runs h rfl (engineStep_start_done rfl (fun _ _ => rfl) ?_)
  rw [← finished_of_ne_tracking (by decide)]
  exact if_pos (by rw [hv]; rfl)

/-- The re-enabling of the modcodes, with the AGC1 read next (R201). -/
theorem exec_search_reenable {s : State} {c : Chan} {v : Int} (h : Runs s (.search c) .start ⟨false, v⟩)
    (hv : validRequest Config.cfg (s.chan c).req = true)
    (hre : (Config.cfg.searchReenablesModcodes && (s.chan c).stoppedMirror) = true) :
    exec (.search c) s = .next (chanAfter c
      (fun ch => { ch with modcodeMask := 0x1FFFFFFE, ldpcStopped := false, stoppedMirror := false })
      (standing (.search c) (.before (.devRead c .agc1Integ) [] [] (.search .agc1)))
      [chanDid c (.devWrite c .modcodeEn 0x1FFFFFFE) 0] s) := by
  have hentry : (ruleOf Config.cfg (.search c)).entry s =
      .go s (wr c .modcodeEn 0x1FFFFFFE) [] (.search .reenabled) := by
    rw [← allModcodes_eq Config.cfg]
    exact (if_neg (by rw [hv]; decide)).trans (if_pos hre)
  refine exec_of_runs h rfl ((engineStep_start_go hentry).trans ?_)
  simp only [wr, resolve, engineStep, perform_write (q := .devWrite c .modcodeEn 0x1FFFFFFE) nofun rfl, proceed]
  change settle Config.cfg (.search c) (precheck c (State.updChan _ c (Channel.modcodesWritten false _))) = _
  rw [allModcodes_eq]
  exact settle_go_logged fun _ => rfl

/-- With no re-enabling the first step is the AGC1 read of the pre-check (R205). -/
theorem exec_search_precheck {s : State} {c : Chan} {v : Int} {algo : Algo}
    (halgo : algoOf (s.chan c).req.algo = some algo) (h : Runs s (.search c) .start ⟨false, v⟩)
    (hv : validRequest Config.cfg (s.chan c).req = true)
    (hre : (Config.cfg.searchReenablesModcodes && (s.chan c).stoppedMirror) ≠ true) :
    exec (.search c) s = .next (agc1Checked Config.cfg c algo (v % 2 ^ 16) s) := by
  have hentry : (ruleOf Config.cfg (.search c)).entry s = .go s (rd c .agc1Integ) [] (.search .agc1) :=
    (if_neg (by rw [hv]; decide)).trans (if_neg hre)
  exact exec_of_runs h rfl ((engineStep_start_go hentry).trans (engineStep_agc1 halgo))

/-! ## The writes of R206 -/

theorem windowOps_eq (cfg : Cfg) (c : Chan) (a : Attempt) :
    windowOps cfg c a =
      if a.algo = .blind then [.encSr c .sfrInit 1000000, .encSr c .sfrLow 850000, .encSrMax c .sfrUp]
      else [.encSr c .sfrInit a.sr, .encSr c .sfrLow (a.sr - narrowWindow cfg a),
        .encSr c .sfrUp (a.sr + narrowWindow cfg a)] := by
  cases h : a.algo <;> simp only [windowOps, h] <;> rfl

/-- The four writes of R182, by the columns of R180. -/
theorem writeStandard_eq (cfg : Cfg) (c : Chan) (std : BitVec 2) (pr : BitVec 3) :
    writeStandardFirst c (selectStandard cfg std pr) :: writeStandardRest c (selectStandard cfg std pr) =
      [.prim (.devWrite c .stdEnS1 (if std = 3 then 0 else 1)),
        .prim (.devWrite c .stdEnS2 (if std = 0 ∨ std = 3 then 1 else 0)),
        .prim (.devWrite c .dssMode (if std = 2 then 1 else 0)),
        .prim (.devWrite c .prMask (uval (if std = 0 then autoMask cfg else prMask pr)))] := by
  rcases eq_of_two_bits std with rfl | rfl | rfl | rfl <;> rfl

/-- R206 after the tuner frequency: the bandwidth, the window, and the writes that do not depend on the algorithm. -/
theorem coarseOps_eq (cfg : Cfg) (c : Chan) (a : Attempt) :
    coarseOps cfg c a =
      .prim (.tunerSetBandwidth c (cfg.tunerBwAcq a.sr a.range a.algo)) :: List.append (windowOps cfg c a)
        [.prim (.devWrite c .iqMode (uval a.iq)), .prim (.devWrite c .stdEnS1 (if a.std = 3 then 0 else 1)),
          .prim (.devWrite c .stdEnS2 (if a.std = 0 ∨ a.std = 3 then 1 else 0)),
          .prim (.devWrite c .dssMode (if a.std = 2 then 1 else 0)),
          .prim (.devWrite c .prMask (uval (if a.std = 0 then autoMask cfg else prMask a.pr))), .encCar c 0,
          .prim (.devWrite c .rolloffCtrl 0), .prim (.devWrite c .berMode (bit a.berMode))] := by
  rw [coarseOps, writeStandard_eq]
  exact List.append_assoc _ _ _

/-- Settles O34: the steps of R201, R204 and R205 one by one, and `coarseOps_eq`. -/
theorem searchEarlyEnds : Obligations.SearchEarlyEnds := by
  intro s c v enters agc1Read
  refine ⟨fun ans h hv => exec_search_badParameter h hv, fun algo halgo h => ?first, fun algo halgo h => ?agc1,
    fun pi algo halgo h => exec_powerQ halgo h, fun a => ?writes⟩
  case first =>
    split
    · exact exec_search_badParameter h ‹_›
    · rename_i hv
      rw [Bool.not_eq_false] at hv
      split
      · rename_i hre
        exact exec_search_reenable h hv (by simpa using hre)
      · rename_i hre
        exact exec_search_precheck halgo h hv (by simpa using hre)
  case agc1 => exact exec_of_runs h rfl (engineStep_agc1 halgo)
  case writes =>
    rw [coarseOps_eq, windowOps_eq]
    rfl

end Sys2Proof.Machine
end

section
/-! SUPPORT. The acceptance of a SEARCH and its abort points (43_search_fsm.md R200, R203, R221). -/

namespace Sys2Proof.Machine

/-- Settles O11: no check rejects the SEARCH, and its acceptance actions write its own channel. The namespace keeps the
name apart from the model's `searchAccepted`, those actions. -/
theorem SearchSteps.searchAccepted : Obligations.SearchAccepted := by
  intro s c acc hn hbusy hinit hstandby
  have hr : rejection (.search c) s = none := by
    simp [rejection_eq, Instr.bank, hbusy, hinit, hstandby, gatedByChannels, badOperand, Instr.wellFormed]
  rw [exec_host_accepted rfl hn hr]
  cases c <;> rfl

/-- Settles O39: at a Sleep `perform` looks at the abort flag first. -/
theorem searchAbortPoint : Obligations.SearchAbortPoint := by
  intro s c ans ms rest got p h
  refine ⟨fun habort => ?_, fun q more habort hrest => ?_⟩
  · refine exec_of_runs h rfl ((if_pos habort).trans ?_)
    exact congrArg some (complete_updChan rfl fun _ _ => rfl)
  · subst hrest
    exact exec_of_runs h rfl (engineStep_sleep_next rfl habort)

end Sys2Proof.Machine
end

section
/-! SUPPORT. Where a step of a SEARCH that ends a straight line leads, as `chanAfter`: the step's primitive was a
transaction or a Sleep, and the computation after it stands at a program point, ends the SEARCH, or ends an attempt
(00_scope.md R13; 43_search_fsm.md R202, R210, R219). -/

namespace Sys2Proof.Machine

/-! ## After the primitive -/

/-- `s` after the primitive of a step of channel `c`: `ms` slept and the transactions `evs` made. -/
def went (c : Chan) (ms : Nat) (evs : List BusEvent) (s : State) : State :=
  chanAfter c id (fun g => { g with elapsed := g.elapsed + ms }) evs s

section
variable {cfg : Cfg} {c : Chan} {ms : Nat} {evs : List BusEvent} {s : State}

theorem logged_eq_went (q : Prim) (w : Int) :
    logged (.chan c) q w true s = went c 0 [⟨.chan c, q.delivered, w, true⟩] s := logged_eq_chanAfter

theorem slept_eq_went : slept (.chan c) ms s = went c ms [] s := slept_eq_chanAfter

@[simp] theorem went_mclk : (went c ms evs s).mclk = s.mclk := by cases c <;> rfl

@[simp] theorem went_prof : (went c ms evs s).prof cfg = s.prof cfg := by cases c <;> rfl

@[simp] theorem went_req : ((went c ms evs s).chan c).req = (s.chan c).req := by cases c <;> rfl

@[simp] theorem resolve_went (op : Op) : resolve cfg (went c ms evs s) op = resolve cfg s op := by
  cases c <;> cases op <;> rfl

/-! ## Where the computation leads -/

/-- `s` after a step in which the SEARCH of channel `c` comes to stand before `now`, with the registers changed by
`f`. -/
def searchStands (c : Chan) (f : Channel → Channel) (now : Prim) (rest : List Op) (p : SearchPoint) (ms : Nat)
    (evs : List BusEvent) (s : State) : State :=
  chanAfter c f
    (fun g => { standing (.search c) (.before now rest [] (.search p)) g with elapsed := g.elapsed + ms }) evs s

/-- `s` after a step in which the SEARCH of channel `c` ends in `st`. -/
def searchEnds (c : Chan) (st : SearchState) (ms : Nat) (evs : List BusEvent) (s : State) : State :=
  chanAfter c (fun ch => { ch with state := st, blindPhase := .none })
    (fun g => { ended 0x40 .ok g with elapsed := g.elapsed + ms }) evs s

theorem settle_go_updChan {f : Channel → Channel} {first : Op} {rest : List Op} {p : SearchPoint}
    (hf : SparesEngine f) :
    settle cfg (.search c) (.go ((went c ms evs s).updChan c f) first rest (.search p)) =
      some (searchStands c f (resolve cfg s first) rest p ms evs s) := by
  rw [settle, resolve_updChan, resolve_went, atPoint_eq_chanAfter rfl, updChan_eq_chanAfter hf, chanAfter_chanAfter .id,
    Function.id_comp, went, chanAfter_chanAfter hf]
  rfl

theorem settle_go {first : Op} {rest : List Op} {p : SearchPoint} :
    settle cfg (.search c) (.go (went c ms evs s) first rest (.search p)) =
      some (searchStands c id (resolve cfg s first) rest p ms evs s) := by
  rw [← settle_go_updChan .id, State.updChan_id]

theorem settle_finish {st : SearchState} (hst : st ≠ .tracking) :
    settle cfg (.search c) (finish c st (went c ms evs s)) = some (searchEnds c st ms evs s) := by
  rw [finish, finished_of_ne_tracking hst, settle, complete_updChan rfl fun _ _ => rfl, went,
    chanAfter_chanAfter fun _ _ => rfl]
  rfl

theorem settle_endAttempt {a : Attempt} {out : SearchState} (hout : out ≠ .tracking) :
    settle Config.cfg (.search c) (endAttempt Config.cfg c a out (went c ms evs s)) =
      some (attemptEnded c a out id ms evs s) := by
  cases hstage : a.stage with
  | first =>
    simp only [endAttempt, attemptEnded, hstage]
    exact settle_finish hout
  | retryInverted =>
    simp only [endAttempt, attemptEnded, hstage]
    exact settle_go_updChan fun _ _ => rfl
  | retryNormal =>
    simp only [endAttempt, attemptEnded, hstage]
    exact settle_finish (by decide)

/-- The end of a first attempt is the end of the SEARCH (R210). -/
theorem settle_endFirst {a : Attempt} {out : SearchState} (ha : a.stage = .first) (hout : out ≠ .tracking) :
    settle Config.cfg (.search c) (endAttempt Config.cfg c a out (went c ms evs s)) =
      some (searchEnds c out ms evs s) := by
  simp only [endAttempt, ha, settle_finish hout]

/-- `s` after a step in which the demodulator locks: the four reads of R211 are next. -/
def searchLocks (c : Chan) (a : Attempt) (fTmo ms : Nat) (evs : List BusEvent) (s : State) : State :=
  searchStands c (fun ch => { ch with state := .demodLocked }) (.devRead c .detectedStd)
    [.prim (.devRead c .carFreq), .prim (.devRead c .sfr), .prim (.devRead c .tmgOffset)] (.readStd a fTmo) ms evs s

theorem settle_beginReadback {a : Attempt} {fTmo : Nat} :
    settle cfg (.search c) (beginReadback c a fTmo (went c ms evs s)) = some (searchLocks c a fTmo ms evs s) :=
  settle_go_updChan fun _ _ => rfl

/-! ## The steps -/

theorem exec_search_read_went {t : State} {q : Prim} {got : List Int} {p : SearchPoint} {v w : Int}
    (h : Runs s (.search c) (.before q [] got (.search p)) ⟨false, v⟩) (hv : q.value v = some w)
    (ht : settle Config.cfg (.search c)
      (searchResume Config.cfg c p (got ++ [w]) (went c 0 [⟨.chan c, q.delivered, w, true⟩] s)) = some t) :
    exec (.search c) s = .next t :=
  exec_search_read h (ne_sleep_of_value hv) hv (by rwa [logged_eq_went])

theorem exec_search_write_went {t : State} {q : Prim} {got : List Int} {p : SearchPoint} {v : Int}
    (h : Runs s (.search c) (.before q [] got (.search p)) ⟨false, v⟩) (hq : ∀ ms, q ≠ .sleep ms)
    (hv : q.value v = none)
    (ht : settle Config.cfg (.search c)
      (searchResume Config.cfg c p got (went c 0 [⟨.chan c, q.delivered, 0, true⟩] s)) = some t) :
    exec (.search c) s = .next t :=
  exec_search_write h hq hv (by rwa [logged_eq_went])

theorem exec_search_sleep_went {t : State} {got : List Int} {p : SearchPoint} {ans : Answer}
    (h : Runs s (.search c) (.before (.sleep ms) [] got (.search p)) ans) (habort : (s.chan c).abortReq = false)
    (ht : settle Config.cfg (.search c) (searchResume Config.cfg c p got (went c ms [] s)) = some t) :
    exec (.search c) s = .next t :=
  exec_search_sleep h habort (by rwa [slept_eq_went])

/-! ## Lock waits (R202) -/

/-- `s` after a step that leads to the next iteration of a lock wait. -/
def searchPolls (c : Chan) (site : WaitSite) (left ms : Nat) (evs : List BusEvent) (s : State) : State :=
  searchStands c id (.devRead c site.field) [.prim (.sleep 10)] (.wait site left) ms evs s

theorem settle_pollOnce {site : WaitSite} {left : Nat} :
    settle cfg (.search c) (pollOnce c site.field site left (went c ms evs s)) =
      some (searchPolls c site left ms evs s) := settle_go

/-- A lock wait starts with its first iteration; with none it has timed out. -/
theorem settle_waitFor {site : WaitSite} {timeout : Nat} {timedOut : State → Flow} {unlocked : State}
    (hunlocked : settle cfg (.search c) (timedOut (went c ms evs s)) = some unlocked) :
    settle cfg (.search c) (waitFor c site.field timeout site timedOut (went c ms evs s)) =
      some (if pollCount timeout = 0 then unlocked else searchPolls c site (pollCount timeout - 1) ms evs s) := by
  unfold waitFor
  cases pollCount timeout with
  | zero => exact hunlocked
  | succ n => exact settle_pollOnce

/-- The write before a lock wait starts it. -/
theorem exec_armed {q : Prim} {site : WaitSite} {v : Int} {unlocked : State}
    (h : Runs s (.search c) (.before q [] [] (.search (.armed site))) ⟨false, v⟩) (hq : ∀ ms, q ≠ .sleep ms)
    (hv : q.value v = none)
    (hunlocked : settle Config.cfg (.search c)
      (waitDone Config.cfg c site false (went c 0 [⟨.chan c, q.delivered, 0, true⟩] s)) = some unlocked) :
    exec (.search c) s = .next
      (if pollCount (site.timeout Config.cfg) = 0 then unlocked
      else searchPolls c site (pollCount (site.timeout Config.cfg) - 1) 0 [⟨.chan c, q.delivered, 0, true⟩] s) :=
  exec_search_write_went h hq hv (settle_waitFor hunlocked)

theorem toNat_eq_one_iff (lock : BitVec 1) : (lock.toNat : Int) = 1 ↔ lock = 1 := by
  revert lock
  decide

/-- The Sleep of an iteration of a lock wait: the value read decides, then the iterations left. -/
theorem exec_wait {site : WaitSite} {lock : BitVec 1} {left : Nat} {ans : Answer} {locked unlocked : State}
    (h : Runs s (.search c) (.before (.sleep 10) [] [(lock.toNat : Int)] (.search (.wait site left))) ans)
    (habort : (s.chan c).abortReq = false)
    (hlocked : settle Config.cfg (.search c) (waitDone Config.cfg c site true (went c 10 [] s)) = some locked)
    (hunlocked : settle Config.cfg (.search c) (waitDone Config.cfg c site false (went c 10 [] s)) = some unlocked) :
    exec (.search c) s = .next
      (if lock = 1 then locked else if left = 0 then unlocked else searchPolls c site (left - 1) 10 [] s) := by
  refine exec_search_sleep_went h habort ?_
  change settle _ _ (waitNext _ _ _ _ (lock.toNat : Int) _) = _
  simp only [waitNext, toNat_eq_one_iff]
  split
  · exact hlocked
  · cases left with
    | zero => exact hunlocked
    | succ n => exact settle_pollOnce

end

end Sys2Proof.Machine
end

section
/-! SUPPORT. DIRECT_LOCK (43_search_fsm.md R207 to R209): its start, its lock wait with both ends, and a run of its poll
loop (R202). -/

namespace Sys2Proof.Machine

/-! ## Timeouts and operands as the statements write them -/

theorem fecTimeout_eq (cfg : Cfg) (sr : Int) (algo : Algo) :
    fecTimeout cfg sr algo =
      (if algo = .blind then cfg.tmoFecBlind (tier sr) else cfg.tmoFecCold (tier sr)).toNat := by
  cases algo <;> rfl

theorem demodTimeout_eq (cfg : Cfg) (sr : Int) {algo : Algo} (h : algo ≠ .blind) :
    demodTimeout cfg sr algo =
      if algo = .cold then (cfg.tmoDemodCold (tier sr)).toNat else (cfg.tmoDemodCold (tier sr)).toNat / 2 := by
  cases algo with
  | blind => exact absurd rfl h
  | cold => rfl
  | warm => rfl

/-- DevWrite delivers a value that fits the field as it is (20_memory.md R74). -/
theorem zext_uval_of_le {w n : Nat} (x : BitVec w) (h : w ≤ n) : zext n (uval x) = uval x := by
  have hx : x.toNat < 2 ^ n := lt_of_lt_of_le x.isLt (Nat.pow_le_pow_right Nat.two_pos h)
  exact Int.emod_eq_of_lt (Int.natCast_nonneg _) (by unfold uval; exact_mod_cast hx)

/-- A write of a value that fits its field, as the history records it. -/
theorem devWrite_did (c : Chan) (f : WriteField) {w : Nat} (x : BitVec w) (h : w ≤ f.width) :
    (⟨.chan c, (Prim.devWrite c f x.toNat).delivered, 0, true⟩ : BusEvent) =
      chanDid c (.devWrite c f x.toNat) 0 := by
  change chanDid c (.devWrite c f (zext f.width (uval x))) 0 = _
  rw [zext_uval_of_le x h]
  rfl

section
variable {c : Chan} {a : Attempt} {ms : Nat} {evs : List BusEvent} {s : State}

/-! ## The ends of the lock wait (R208, R209) -/

/-- `s` after the step that ends the lock wait of DIRECT_LOCK without lock. -/
def directUnlocked (c : Chan) (a : Attempt) (ms : Nat) (evs : List BusEvent) (s : State) : State :=
  if a.algo = .cold ∧ a.sr < 10000000 then searchStands c id (.devRead c .tmgLock) [] (.tmgLock a) ms evs s
  else attemptEnded c a .noLock id ms evs s

theorem settle_directDone_unlocked :
    settle Config.cfg (.search c) (directDone Config.cfg c a false (went c ms evs s)) =
      some (directUnlocked c a ms evs s) := by
  rw [directDone, if_neg (by decide), directUnlocked]
  by_cases halgo : a.algo = .cold
  · rw [if_pos halgo]
    by_cases hsr : 10000000 ≤ a.sr
    · rw [if_pos hsr, if_neg fun h => absurd h.2 (not_lt.2 hsr)]
      exact settle_endAttempt (by decide)
    · rw [if_neg hsr, if_pos ⟨halgo, not_le.1 hsr⟩]
      exact settle_go
  · rw [if_neg halgo, if_neg fun h => halgo h.1]
    exact settle_endAttempt (by decide)

theorem settle_directDone_locked :
    settle Config.cfg (.search c) (directDone Config.cfg c a true (went c ms evs s)) =
      some (searchLocks c a (if a.algo = .blind then Config.cfg.tmoFecBlind (tier a.sr)
        else Config.cfg.tmoFecCold (tier a.sr)).toNat ms evs s) := by
  rw [← fecTimeout_eq]
  exact settle_beginReadback

/-- The last write of R206 is followed by the start of DIRECT_LOCK, for an attempt that is not BLIND (R207). -/
theorem settle_branchByAlgo_direct (h : a.algo ≠ .blind) :
    settle Config.cfg (.search c) (branchByAlgo Config.cfg c a (went c ms evs s)) =
      some (searchStands c (fun ch => { ch with state := .directLock })
        (.devWrite c .dmdState (if a.algo = .cold then 1 else 2)) [] (.armed (.direct a)) ms evs s) := by
  have hdirect : branchByAlgo Config.cfg c a (went c ms evs s) = beginDirect c a (went c ms evs s) := by
    unfold branchByAlgo
    split
    · exact absurd ‹_› h
    · rfl
    · rfl
  rw [hdirect]
  exact settle_go_updChan fun _ _ => rfl

/-! ## A run of the poll loop (R202) -/

/-- The program point of a SEARCH at an iteration of a lock wait, with `left` more to come. -/
def pollPoint (c : Chan) (site : WaitSite) (left : Nat) : Point :=
  .before (.devRead c site.field) [.prim (.sleep 10)] [] (.search (.wait site left))

theorem field_width_eq_one (site : WaitSite) : site.field.width = 1 := by cases site <;> rfl

/-- To put a running command where it stands changes nothing. -/
theorem chanAfter_standing_self {i : Instr} {p : Point} (hr : s.running (.chan c) = some ⟨i, p⟩) :
    chanAfter c id (standing i p) [] s = s := by
  have heng : standing i p (s.chan c).eng = (s.chan c).eng := by
    rw [standing, ← hr]
    rfl
  rw [chanAfter, State.updChan, heng]
  cases c <;> rfl

/-- The two turns of an iteration that reads 0 and is not the last one. -/
theorem steps_poll {site : WaitSite} {left m : Nat} {v : Int} {ans : Answer} {ts : List Turn}
    (habort : (s.chan c).abortReq = false) (hv : v % 2 = 0)
    (hs : s.turns = .engine (.chan c) ⟨false, v⟩ :: .engine (.chan c) ans :: ts)
    (hr : s.running (.chan c) = some ⟨.search c, pollPoint c site (left + 1)⟩) :
    steps (m + 2) s = steps m (passed ts 2 (chanAfter c id
      (fun g => { standing (.search c) (pollPoint c site left) g with elapsed := g.elapsed + 10 })
      [chanDid c (.devRead c site.field) 0] s)) := by
  have hread : (Prim.devRead c site.field).value v = some 0 := by
    rw [Prim.value, zext, field_width_eq_one, pow_one, hv]
  refine (steps_succ (step_chanAfter rfl rfl hs hr (engineStep_read_next rfl hread))).trans ?_
  refine (steps_succ (step_chanAfter rfl rfl (passed_turns _ _ _) (passed_chanAfter_running _ _ _ _ _ _ _)
    (engineStep_sleep_go rfl ?_ rfl))).trans ?_
  · rw [← habort]
    cases c <;> rfl
  · rw [chanAfter_passed, passed_passed, chanAfter_chanAfter .id]
    rfl

theorem abortReq_passed_chanAfter {ts : List Turn} {n : Nat} {g : Engine → Engine} :
    ((passed ts n (chanAfter c id g evs s)).chan c).abortReq = (s.chan c).abortReq := by cases c <;> rfl

/-- Iterations that read 0: a read and 10 ms for each. -/
theorem steps_polls {site : WaitSite} {left : Nat} {rest : List Turn} (vs : List Int)
    (habort : (s.chan c).abortReq = false) (hvs : ∀ v ∈ vs, v % 2 = 0) (hs : s.turns = sampleTurns c vs ++ rest)
    (hr : s.running (.chan c) = some ⟨.search c, pollPoint c site (vs.length + left)⟩) :
    steps (2 * vs.length) s = .next (passed rest (2 * vs.length) (chanAfter c id
      (fun g => { standing (.search c) (pollPoint c site left) g with elapsed := g.elapsed + 10 * vs.length })
      (List.replicate vs.length (chanDid c (.devRead c site.field) 0)) s)) := by
  induction vs generalizing s with
  | nil =>
    rw [List.length_nil, Nat.zero_add] at hr
    have hself : passed rest 0 s = s := by
      rw [passed, ← show s.turns = rest from hs]
      rfl
    refine congrArg _ (Eq.symm ?_)
    exact (congrArg _ (chanAfter_standing_self hr)).trans hself
  | cons v vs ih =>
    rw [List.length_cons, Nat.add_right_comm] at hr
    refine (steps_poll habort (hvs v List.mem_cons_self) hs hr).trans ?_
    refine (ih (abortReq_passed_chanAfter.trans habort) (fun w hw => hvs w (List.mem_cons_of_mem v hw))
      (passed_turns _ _ _) (passed_chanAfter_running _ _ _ _ _ _ _)).trans ?_
    rw [chanAfter_passed, passed_passed, chanAfter_chanAfter .id]
    have hpassed : 2 + 2 * vs.length = 2 * (v :: vs).length := by rw [List.length_cons]; omega
    have helapsed : ∀ e : Nat, e + 10 + 10 * vs.length = e + 10 * (v :: vs).length := by
      intro e
      rw [List.length_cons]
      omega
    rw [hpassed, ← List.replicate_succ']
    simp only [Function.comp_def, helapsed]
    rfl

end

/-- Settles O40: the entry, the two ends of the wait, and the run of the poll loop. -/
theorem lockWaitPolls : Obligations.LockWaitPolls := by
  unfold Obligations.LockWaitPolls
  intro at_ unlocked
  refine ⟨fun s c v a ber halgo h => ?start, fun s c v a dmd halgo h => ?armed,
    fun s c ans a left habort h => ?locked, fun s c ans a habort h => ?unlocked,
    fun n left s c a vs rest habort hr hlen hvs hs => ?polls⟩
  case start =>
    rw [← devWrite_did c .berMode ber le_rfl]
    exact exec_search_write_went h nofun rfl (settle_branchByAlgo_direct halgo)
  case armed =>
    have hdid := devWrite_did c .dmdState dmd (by decide)
    intro cold n did
    have hexec := exec_armed h nofun rfl settle_directDone_unlocked
    rw [hdid, WaitSite.timeout, demodTimeout_eq Config.cfg a.sr halgo] at hexec
    exact hexec
  case locked =>
    exact exec_wait (lock := 1) h habort settle_directDone_locked settle_directDone_unlocked
  case unlocked =>
    exact exec_wait (lock := 0) h habort settle_directDone_locked settle_directDone_unlocked
  case polls =>
    subst hlen
    refine (steps_polls (site := .direct a) vs habort hvs hs hr).trans ?_
    cases c <;> rfl

end Sys2Proof.Machine
end

section
/-! SUPPORT. The ends of a SEARCH after its readback (43_search_fsm.md R213 to R217): the relock waits, the FEC wait,
NO_DATA with the false-lock workaround, TRACKING. -/

namespace Sys2Proof.Machine

section
variable {c : Chan} {a : Attempt} {res : Readback} {fTmo ms : Nat} {evs : List BusEvent} {s : State}

/-! ## The ends of the lock waits -/

/-- `s` after the step that ends a lock wait of TRACKING_OPTIMIZED without lock (R214). -/
def relockUnlocked (c : Chan) (a : Attempt) (res : Readback) (fTmo tries ms : Nat) (evs : List BusEvent) (s : State) :
    State :=
  if tries < 2 then
    searchStands c id (.devWrite c .cfrInit (encCar s.mclk res.car)) [.prim (.devWrite c .dmdState 2)]
      (.armed (.relock a res fTmo (tries + 1))) ms evs s
  else attemptEnded c a .noLock id ms evs s

theorem settle_relockDone_unlocked {tries : Nat} :
    settle Config.cfg (.search c) (relockDone Config.cfg c a res fTmo tries false (went c ms evs s)) =
      some (relockUnlocked c a res fTmo tries ms evs s) := by
  rw [relockDone, if_neg (by decide), relockUnlocked]
  split
  · exact settle_go
  · exact settle_endAttempt (by decide)

/-- The request of the first retry of the workaround, as R217 lists it. -/
def invertedRetry (o : Request) (res : Readback) : Attempt :=
  { freq := res.freq, sr := res.sr, range := o.range.toNat, algo := .warm, std := o.std, iq := 2, pr := o.pr
    berMode := o.berMode, stage := .retryInverted }

theorem workaroundApplies_went (cfg : Cfg) : workaroundApplies cfg c res (went c ms evs s) = true ↔
    (s.prof cfg).s1FalseLockWa = true ∧ (res.det.std = 1 ∨ res.det.std = 2) ∧ (s.chan c).req.iq = 0 := by
  simp only [workaroundApplies, went_prof, went_req, Bool.and_eq_true, Bool.or_eq_true, beq_iff_eq, and_assoc]

/-- `s` after the step that ends the FEC wait without lock (R215, R217). -/
def fecUnlocked (c : Chan) (a : Attempt) (res : Readback) (ms : Nat) (evs : List BusEvent) (s : State) : State :=
  if a.stage = .first ∧ (s.prof Config.cfg).s1FalseLockWa = true ∧ (res.det.std = 1 ∨ res.det.std = 2) ∧
      (s.chan c).req.iq = 0 then
    searchStands c (fun ch => { ch with state := .coarseAcquire }) (.tunerSetFrequency c res.freq)
      (coarseOps Config.cfg c (invertedRetry (s.chan c).req res)) (.coarseDone (invertedRetry (s.chan c).req res)) ms
      evs s
  else attemptEnded c a .noData id ms evs s

theorem settle_fecDone_unlocked :
    settle Config.cfg (.search c) (fecDone Config.cfg c a res false (went c ms evs s)) =
      some (fecUnlocked c a res ms evs s) := by
  rw [fecDone, if_neg (by decide), fecUnlocked]
  split
  case h_1 hstage =>
    simp only [workaroundApplies_went, hstage, true_and]
    split
    · rw [went_req]
      exact settle_go_updChan fun _ _ => rfl
    · simp only [attemptEnded, hstage]
      exact settle_finish (by decide)
  case h_2 hstage =>
    rw [if_neg fun h => by simp [hstage] at h]
    exact settle_endAttempt (by decide)
  case h_3 hstage =>
    rw [if_neg fun h => by simp [hstage] at h]
    exact settle_endAttempt (by decide)

/-- The FEC lock enters FEC_LOCKED with the write of CNT_RESET next (R216). -/
theorem settle_fecDone_locked :
    settle Config.cfg (.search c) (fecDone Config.cfg c a res true (went c ms evs s)) =
      some (searchStands c (fun ch => { ch with state := .fecLocked }) (.devWrite c .cntReset 1) [] .fecCleared ms evs
        s) :=
  settle_go_updChan fun _ _ => rfl

/-- A lock of TRACKING_OPTIMIZED starts the FEC wait (R215). -/
theorem settle_relockDone_locked {tries : Nat} :
    settle Config.cfg (.search c) (relockDone Config.cfg c a res fTmo tries true (went c ms evs s)) =
      some (if pollCount fTmo = 0 then fecUnlocked c a res ms evs s
        else searchPolls c (.fec a res fTmo) (pollCount fTmo - 1) ms evs s) :=
  settle_waitFor (site := .fec a res fTmo) settle_fecDone_unlocked

/-- The write of CNT_RESET ends the SEARCH in TRACKING, locked (R216, R219). -/
theorem exec_fecCleared {v : Int}
    (h : Runs s (.search c) (.before (.devWrite c .cntReset 1) [] [] (.search .fecCleared)) ⟨false, v⟩) :
    exec (.search c) s = .next (chanAfter c
      (fun ch => { ch with state := .tracking, locked := true, blindPhase := .none }) (ended 0x40 .ok)
      [chanDid c (.devWrite c .cntReset 1) 0] s) :=
  exec_search_write h nofun rfl (congrArg some (complete_updChan_logged rfl fun _ _ => rfl))

end

/-- Settles O38: the two kinds of lock wait by their starts and ends, and the last write. -/
theorem searchCompletes : Obligations.SearchCompletes := by
  intro s c v a res fTmo cfg polls unlocked o inverted noData waits fecWaits
  refine ⟨fun q tries hq h => ?armed, fun lock tries left habort h => ?relock, fun lock left habort h => ?fec,
    exec_fecCleared⟩
  case armed =>
    rcases hq with ⟨hz, rfl⟩ | rfl
    · exact exec_armed h nofun rfl settle_relockDone_unlocked
    · exact exec_armed h nofun rfl settle_relockDone_unlocked
  case relock => exact exec_wait h habort settle_relockDone_locked settle_relockDone_unlocked
  case fec => exact exec_wait h habort settle_fecDone_locked settle_fecDone_unlocked

end Sys2Proof.Machine
end

section
/-! SUPPORT. The carrier zig-zag sweep (43_search_fsm.md R209; 44_blind_zigzag.md R270 to R275): its trials, the
false-lock check and the signal-absent check. -/

namespace Sys2Proof.Machine

/-- A one-bit field, as the environment's answer gives it (20_memory.md R74). -/
theorem value_of_bitField (c : Chan) {f : ReadField} (hf : f.width = 1) (v : Int) :
    (Prim.devRead c f).value v = some (v % 2) := by
  rw [Prim.value, hf, zext, pow_one]

section
variable {c : Chan} {a : Attempt} {z : ZigLocals} {ms : Nat} {evs : List BusEvent} {s : State}

/-! ## Trials (R270, R272) -/

/-- `s` after a step that starts trial `z`. -/
def zzTries (cfg : Cfg) (c : Chan) (a : Attempt) (z : ZigLocals) (f : Channel → Channel) (ms : Nat)
    (evs : List BusEvent) (s : State) : State :=
  searchStands c f (.devWrite c .cfrInit (encCar s.mclk (zzOffset cfg a z))) [.prim (.devWrite c .dmdState 2)]
    (.armed (.zigzag a z)) ms evs s

/-- A trial within the sweep's limits starts. -/
theorem settle_zzTrial_go {cfg : Cfg} {f : Channel → Channel} (hf : SparesEngine f)
    (hk : z.k < cfg.zzMaxSteps a.sr (zzClass a)) (hoff : |zzOffset cfg a z| ≤ cfg.zzMaxRange a.sr (zzClass a)) :
    settle cfg (.search c) (zzTrial cfg c a z ((went c ms evs s).updChan c f)) =
      some (zzTries cfg c a z f ms evs s) := by
  rw [zzTrial, if_neg (not_le.2 hk), if_neg (not_lt.2 hoff)]
  exact settle_go_updChan hf

/-- The first trial is always within the limits, in zig-zag order at offset 0 and in LINEAR mode at the low end: the
steps are at least one, and the range is not negative (log 9). -/
theorem settle_zzTrial_first {cfg : Cfg} {f : Channel → Channel} {linear : Bool} {falseLocks : Nat}
    (hf : SparesEngine f) :
    settle cfg (.search c) (zzTrial cfg c a ⟨linear, falseLocks, 0⟩ ((went c ms evs s).updChan c f)) =
      some (zzTries cfg c a ⟨linear, falseLocks, 0⟩ f ms evs s) := by
  refine settle_zzTrial_go hf (cfg.zz_max_steps_pos _ _) ?_
  cases linear <;> simp [zzOffset, zigzagIndex]

/-- The next trial, or NO_LOCK when the trials are spent. -/
theorem settle_zzTrial (ha : a.stage = .first) :
    settle Config.cfg (.search c) (zzTrial Config.cfg c a z (went c ms evs s)) =
      some (if Config.cfg.zzMaxSteps a.sr (zzClass a) ≤ z.k ∨
          (Config.cfg.zzMaxRange a.sr (zzClass a) : Int) < |zzOffset Config.cfg a z| then
        searchEnds c .noLock ms evs s else zzTries Config.cfg c a z id ms evs s) := by
  split
  case isTrue hspent =>
    have hends : zzTrial Config.cfg c a z (went c ms evs s) = endAttempt Config.cfg c a .noLock (went c ms evs s) := by
      unfold zzTrial
      split_ifs with hk hoff
      · rfl
      · rfl
      · exact absurd hspent (not_or.2 ⟨hk, hoff⟩)
    rw [hends]
    exact settle_endFirst ha (by decide)
  case isFalse hleft =>
    obtain ⟨hk, hoff⟩ := not_or.1 hleft
    rw [← State.updChan_id (went c ms evs s) c]
    exact settle_zzTrial_go .id (not_le.1 hk) (not_lt.1 hoff)

/-- The read of TMG_LOCK ends the search without timing lock, and starts the sweep with it (R209). -/
theorem exec_tmgLock {v : Int} (ha : a.stage = .first)
    (h : Runs s (.search c) (.before (.devRead c .tmgLock) [] [] (.search (.tmgLock a))) ⟨false, v⟩) :
    exec (.search c) s = .next
      (if v % 2 = 0 then searchEnds c .noLock 0 [chanDid c (.devRead c .tmgLock) (v % 2)] s
      else zzTries Config.cfg c a ⟨false, 0, 0⟩ (fun ch => { ch with state := .carrierZigzagSweep }) 0
        [chanDid c (.devRead c .tmgLock) (v % 2)] s) := by
  refine exec_search_read_went h (value_of_bitField c rfl v) ?_
  change settle _ _ (if v % 2 = 0 then _ else _) = _
  split
  · exact settle_endFirst ha (by decide)
  · exact settle_zzTrial_first fun _ _ => rfl

/-! ## The end of a trial's lock wait (R270, R273, R275) -/

theorem settle_zzDone_locked {cfg : Cfg} :
    settle cfg (.search c) (zzDone c a z true (went c ms evs s)) =
      some (searchStands c id (.devRead c .detectedStd) [] (.zzStd a z) ms evs s) := settle_go

theorem settle_zzDone_unlocked {cfg : Cfg} :
    settle cfg (.search c) (zzDone c a z false (went c ms evs s)) =
      some (searchStands c id (.devRead c .agc2Integ) [.prim (.devRead c .carFreq)] (.zzAbsent a z) ms evs s) :=
  settle_go

/-! ## The false-lock check (R273, R274) -/

/-- `s` after a step that finds a confirmed lock. -/
def zzLocks (c : Chan) (a : Attempt) (ms : Nat) (evs : List BusEvent) (s : State) : State :=
  searchLocks c a (if a.algo = .blind then Config.cfg.tmoFecBlind (tier a.sr)
    else Config.cfg.tmoFecCold (tier a.sr)).toNat ms evs s

theorem settle_zzLock :
    settle Config.cfg (.search c) (zzLock Config.cfg c a (went c ms evs s)) = some (zzLocks c a ms evs s) := by
  rw [zzLock, fecTimeout_eq]
  exact settle_beginReadback

/-- A lock of DVBS2 has FLYWHEEL read next, any other one counts. -/
theorem exec_zzStd {v : Int}
    (h : Runs s (.search c) (.before (.devRead c .detectedStd) [] [] (.search (.zzStd a z))) ⟨false, v⟩) :
    exec (.search c) s = .next
      (if v % 2 ^ 2 = 3 then
        searchStands c id (.devRead c .flywheel) [] (.zzFly a z) 0 [chanDid c (.devRead c .detectedStd) (v % 2 ^ 2)] s
      else zzLocks c a 0 [chanDid c (.devRead c .detectedStd) (v % 2 ^ 2)] s) := by
  refine exec_search_read_went h rfl ?_
  change settle _ _ (if v % 2 ^ 2 = 3 then _ else _) = _
  split
  · exact settle_go
  · exact settle_zzLock

/-- The first read of FLYWHEEL: a good value locks, a bad one is read again after a Sleep. -/
theorem exec_zzFly {v : Int}
    (h : Runs s (.search c) (.before (.devRead c .flywheel) [] [] (.search (.zzFly a z))) ⟨false, v⟩) :
    exec (.search c) s = .next
      (if uval Config.cfg.flywheelTh ≤ v % 2 ^ 4 then zzLocks c a 0 [chanDid c (.devRead c .flywheel) (v % 2 ^ 4)] s
      else searchStands c id (.sleep (Config.cfg.zzTmo a.sr (zzClass a))) [.prim (.devRead c .flywheel)]
        (.zzFlyAgain a z) 0 [chanDid c (.devRead c .flywheel) (v % 2 ^ 4)] s) := by
  refine exec_search_read_went h rfl ?_
  change settle _ _ (if decide (uval Config.cfg.flywheelTh ≤ v % 2 ^ 4) = true then _ else _) = _
  simp only [decide_eq_true_eq]
  split
  · exact settle_zzLock
  · exact settle_go

/-- The second read of FLYWHEEL: a bad value is a false lock, which restarts the sweep at the low end, or ends it. -/
theorem exec_zzFlyAgain {v : Int} (ha : a.stage = .first)
    (h : Runs s (.search c) (.before (.devRead c .flywheel) [] [] (.search (.zzFlyAgain a z))) ⟨false, v⟩) :
    exec (.search c) s = .next
      (if uval Config.cfg.flywheelTh ≤ v % 2 ^ 4 then zzLocks c a 0 [chanDid c (.devRead c .flywheel) (v % 2 ^ 4)] s
      else if z.falseLocks = 2 then searchEnds c .noLock 0 [chanDid c (.devRead c .flywheel) (v % 2 ^ 4)] s
      else zzTries Config.cfg c a ⟨true, z.falseLocks + 1, 0⟩ id 0
        [chanDid c (.devRead c .flywheel) (v % 2 ^ 4)] s) := by
  refine exec_search_read_went h rfl ?_
  change settle _ _ (if decide (uval Config.cfg.flywheelTh ≤ v % 2 ^ 4) = true then _ else zzFalseLock _ _ _ _ _) = _
  simp only [decide_eq_true_eq, zzFalseLock]
  split_ifs
  · exact settle_zzLock
  · exact settle_endFirst ha (by decide)
  · rw [← State.updChan_id (went c 0 _ s) c]
    exact settle_zzTrial_first .id

/-! ## The signal-absent check (R275) -/

theorem signalAbsent_iff (cfg : Cfg) (p : Prof) (agc2 car : Int) : signalAbsent cfg p agc2 car = true ↔
    (uval p.zzAgc2AbsentTh ≤ agc2 ∧ uval cfg.zzSanityHz < |car|) ∨
      (cfg.zzAbsentMode = .either ∧ (uval p.zzAgc2AbsentTh ≤ agc2 ∨ uval cfg.zzSanityHz < |car|)) := by
  unfold signalAbsent
  cases cfg.zzAbsentMode with
  | both => simp
  | either =>
    simp only [Bool.or_eq_true, decide_eq_true_eq, true_and]
    tauto

/-- After the two reads of a trial without lock: the end of the search, or the next trial. -/
theorem exec_zzAbsent {agc2 v : Int} (ha : a.stage = .first)
    (h : Runs s (.search c) (.before (.devRead c .carFreq) [] [agc2] (.search (.zzAbsent a z))) ⟨false, v⟩) :
    exec (.search c) s = .next
      (if signalAbsent Config.cfg (s.prof Config.cfg) agc2 (carrierOffset s.mclk (v % 2 ^ 24)) = true then
        searchEnds c .noLock 0 [chanDid c (.devRead c .carFreq) (v % 2 ^ 24)] s
      else if Config.cfg.zzMaxSteps a.sr (zzClass a) ≤ z.k + 1 ∨
          (Config.cfg.zzMaxRange a.sr (zzClass a) : Int) < |zzOffset Config.cfg a { z with k := z.k + 1 }| then
        searchEnds c .noLock 0 [chanDid c (.devRead c .carFreq) (v % 2 ^ 24)] s
      else zzTries Config.cfg c a { z with k := z.k + 1 } id 0 [chanDid c (.devRead c .carFreq) (v % 2 ^ 24)] s) := by
  refine exec_search_read_went h rfl ?_
  change settle _ _ (if signalAbsent _ (State.prof _ (went ..)) agc2
    (carrierOffset (State.mclk (went ..)) (v % 2 ^ 24)) = true then _ else _) = _
  rw [went_prof, went_mclk]
  split
  · exact settle_endFirst ha (by decide)
  · exact settle_zzTrial ha

end

/-- Settles O36: the steps one by one; what is left is the offsets and the conditions spelled out. -/
theorem zigzagSweepSteps : Obligations.ZigzagSweepSteps := by
  intro s c a z v ha cfg cls reach ends stands tries locks
  refine ⟨fun h => ?start, fun h => ?armed, fun lock left habort h => ?wait, exec_zzStd, exec_zzFly, fun h => ?again,
    fun agc2 h => ?absent⟩
  case start =>
    have hoff : zzOffset Config.cfg a ⟨false, 0, 0⟩ = 0 := by simp [zzOffset, zigzagIndex]
    have hexec := exec_tmgLock ha h
    rw [zzTries, hoff] at hexec
    exact hexec
  case armed => exact exec_armed h nofun rfl settle_zzDone_unlocked
  case wait =>
    rw [exec_wait h habort settle_zzDone_locked settle_zzDone_unlocked]
    split_ifs <;> rfl
  case again =>
    have hoff : zzOffset Config.cfg a ⟨true, z.falseLocks + 1, 0⟩ = -reach := by
      simp [zzOffset, reach, zzClass, cls, cfg]
    have hexec := exec_zzFlyAgain ha h
    rw [zzTries, hoff] at hexec
    exact hexec
  case absent =>
    have hexec := exec_zzAbsent ha h
    simp only [signalAbsent_iff] at hexec
    exact hexec

end Sys2Proof.Machine
end

section
/-! SUPPORT. The blind search (43_search_fsm.md R207; 44_blind_zigzag.md R250 to R257): the pre-sweep, the timing
references, the coarse steps, the fine search. -/

namespace Sys2Proof.Machine

section
variable {c : Chan} {a : Attempt} {bl : BlindLocals} {ms : Nat} {evs : List BusEvent} {s : State}

/-! ## The pre-sweep (R207, R251) -/

theorem sweepFreq_zero (cfg : Cfg) (a : Attempt) : sweepFreq cfg a 0 = a.freq - a.range / 2 := by
  simp [sweepFreq, halfRange, floorDiv]

/-- The last write of R206 is followed by the start of the pre-sweep, for a BLIND attempt. -/
theorem settle_branchByAlgo_blind (h : a.algo = .blind) :
    settle Config.cfg (.search c) (branchByAlgo Config.cfg c a (went c ms evs s)) =
      some (searchStands c (fun ch => { ch with state := .blindCoarseSymbolRate, blindPhase := .agc2Sweep })
        (.devWrite c .sfrInit (encSr s.mclk 1000000))
        [.prim (.devWrite c .dmdState 3), .prim (.tunerSetFrequency c (a.freq - a.range / 2)),
          .prim (.sleep Config.cfg.agc2SettleMs.toNat), .prim (.devRead c .agc2Integ)] (.sweep a 0 65536) ms evs
        s) := by
  have hblind : branchByAlgo Config.cfg c a (went c ms evs s) = beginBlind Config.cfg c a (went c ms evs s) := by
    simp only [branchByAlgo, h]
  rw [hblind, beginBlind, enter, enterPhase, State.updChan_updChan, sweepFreq_zero]
  exact settle_go_updChan fun _ _ => rfl

/-- `s` after a step that leads to a timing reference, or ends the search in NO_LOCK where none is left (R250, R255). -/
def blindReferences (cfg : Cfg) (c : Chan) (a : Attempt) (bl : BlindLocals) (ms : Nat) (evs : List BusEvent)
    (s : State) : State :=
  if uval (s.prof cfg).tmgrefMin ≤ bl.kref then
    searchStands c id (.devWrite c .tmgRef bl.kref) [] (.tmgRef a bl) ms evs s
  else searchEnds c .noLock ms evs s

theorem settle_timingReference (ha : a.stage = .first) :
    settle Config.cfg (.search c) (timingReference Config.cfg c a bl (went c ms evs s)) =
      some (blindReferences Config.cfg c a bl ms evs s) := by
  rw [timingReference, went_prof, blindReferences]
  split
  · exact settle_go
  · exact settle_endFirst ha (by decide)

/-- The first timing reference is the greatest one, which is not below the least (R7). -/
theorem blindReferences_first (cfg : Cfg) {faultRun : Nat} {freqStep : Int} :
    blindReferences cfg c a ⟨faultRun, uval (s.prof cfg).tmgrefMax, freqStep⟩ ms evs s =
      searchStands c id (.devWrite c .tmgRef (uval (s.prof cfg).tmgrefMax)) []
        (.tmgRef a ⟨faultRun, uval (s.prof cfg).tmgrefMax, freqStep⟩) ms evs s :=
  if_pos (Int.ofNat_le.2 (BitVec.le_def.1 (s.prof cfg).tmgref_range))

/-- After the AGC2 read of a step of the pre-sweep: the next step while the grid lasts, then NO_SIGNAL or the first
timing reference. -/
theorem exec_sweep {k : Nat} {minA v : Int} (ha : a.stage = .first)
    (h : Runs s (.search c) (.before (.devRead c .agc2Integ) [] [] (.search (.sweep a k minA))) ⟨false, v⟩) :
    exec (.search c) s = .next
      (if ((k + 1 : Nat) : Int) * uval Config.cfg.agc2SweepStep ≤ 2 * halfRange a then
        searchStands c id (.tunerSetFrequency c (sweepFreq Config.cfg a (k + 1)))
          [.prim (.sleep Config.cfg.agc2SettleMs.toNat), .prim (.devRead c .agc2Integ)]
          (.sweep a (k + 1) (min minA (v % 2 ^ 16))) 0 [chanDid c (.devRead c .agc2Integ) (v % 2 ^ 16)] s
      else if uval (s.prof Config.cfg).agc2NosigTh < min minA (v % 2 ^ 16) then
        searchEnds c .noSignal 0 [chanDid c (.devRead c .agc2Integ) (v % 2 ^ 16)] s
      else searchStands c id (.devWrite c .tmgRef (uval (s.prof Config.cfg).tmgrefMax)) []
        (.tmgRef a ⟨0, uval (s.prof Config.cfg).tmgrefMax, 0⟩) 0
        [chanDid c (.devRead c .agc2Integ) (v % 2 ^ 16)] s) := by
  refine exec_search_read_went h rfl ?_
  change settle _ _ (sweepNext _ _ _ _ (min minA (v % 2 ^ 16)) _) = _
  rw [sweepNext, went_prof]
  split_ifs
  · exact settle_go
  · exact settle_endFirst ha (by decide)
  · rw [settle_timingReference ha, blindReferences_first]
    rfl

/-! ## The coarse search (R250, R253, R256) -/

/-- `s` after a step that leads to coarse step `k`, with the registers changed by `f`. -/
def blindCoarse (cfg : Cfg) (c : Chan) (a : Attempt) (bl : BlindLocals) (k : Nat) (f : Channel → Channel) (ms : Nat)
    (evs : List BusEvent) (s : State) : State :=
  searchStands c f (.tunerSetFrequency c (a.freq + zigzagIndex k * bl.freqStep)) (coarseRest cfg c)
    (.coarseStep a bl k) ms evs s

/-- The write of a timing reference starts a coarse search, at the attempt's frequency. -/
theorem exec_tmgRef {kref v : Int}
    (h : Runs s (.search c) (.before (.devWrite c .tmgRef kref) [] [] (.search (.tmgRef a bl))) ⟨false, v⟩) :
    exec (.search c) s = .next (blindCoarse Config.cfg c a
      { bl with freqStep := Config.cfg.coarseFreqStep (uval (s.prof Config.cfg).coarseSrMax) } 0
      (fun ch => { ch with blindPhase := .coarse }) 0 [chanDid c (.devWrite c .tmgRef (kref % 2 ^ 8)) 0] s) := by
  refine exec_search_write_went h nofun rfl ?_
  change settle _ _ (beginCoarse _ _ _ _ _) = _
  rw [beginCoarse, went_prof]
  exact settle_go_updChan fun _ _ => rfl

/-- Z(k + 1), by the parity of k. -/
theorem zigzagIndex_succ (k : Nat) :
    zigzagIndex (k + 1) = if k % 2 = 0 then ((k / 2 + 1 : Nat) : Int) else -(((k + 1) / 2 : Nat) : Int) := by
  unfold zigzagIndex
  split_ifs <;> omega

theorem coarseFound_iff (cfg : Cfg) (p : Prof) (quality agc2 srC : Int) : coarseFound cfg p quality agc2 srC = true ↔
    uval cfg.tmgQualMin ≤ quality ∧ agc2 < uval p.agc2LockTh ∧ 850000 ≤ srC ∧ srC ≤ uval p.coarseSrMax := by
  simp only [coarseFound, Bool.and_eq_true, decide_eq_true_eq, and_assoc]
  rfl

/-- After the last read of a coarse step: NO_LOCK after a run of faults, the read of CAR_FREQ, the next of ten steps, or
the next timing reference. -/
theorem exec_coarseStep {k : Nat} {f quality agc2 sfr co v : Int} (ha : a.stage = .first)
    (h : Runs s (.search c)
      (.before (.devRead c .tmgOvf) [] [f, quality, agc2, sfr, co] (.search (.coarseStep a bl k))) ⟨false, v⟩) :
    exec (.search c) s = .next
      (let bl1 := { bl with faultRun := faultRunAfter bl.faultRun co (v % 2) }
      let did := chanDid c (.devRead c .tmgOvf) (v % 2)
      if Config.cfg.faultSamples.toNat ≤ bl1.faultRun then searchEnds c .noLock 0 [did] s
      else if coarseFound Config.cfg (s.prof Config.cfg) quality agc2 (symbolRate s.mclk sfr) = true then
        searchStands c id (.devRead c .carFreq) [] (.coarseCar a bl1 (symbolRate s.mclk sfr) f) 0 [did] s
      else if k + 1 < 10 then blindCoarse Config.cfg c a bl1 (k + 1) id 0 [did] s
      else blindReferences Config.cfg c a
        { bl1 with kref := bl.kref - uval (s.prof Config.cfg).tmgrefStep } 0 [did] s) := by
  refine exec_search_read_went h (value_of_bitField c rfl v) ?_
  change settle _ _ (coarseNext _ _ _ _ _ [f, quality, agc2, sfr, co, v % 2] _) = _
  simp only [coarseNext, went_prof, went_mclk]
  change settle _ _ (if Config.cfg.faultSamples.toNat ≤ faultRunAfter bl.faultRun co (v % 2) then _
    else if coarseFound Config.cfg (s.prof Config.cfg) quality agc2 (symbolRate s.mclk sfr) = true then _ else _) = _
  split_ifs
  · exact settle_endFirst ha (by decide)
  · exact settle_go
  · exact settle_go
  · rw [nextReference, went_prof]
    exact settle_timingReference ha

/-! ## The fine search (R257) -/

/-- The read of CAR_FREQ starts a fine search. -/
theorem exec_coarseCar {srC f v : Int}
    (h : Runs s (.search c) (.before (.devRead c .carFreq) [] [] (.search (.coarseCar a bl srC f))) ⟨false, v⟩) :
    exec (.search c) s = .next (searchStands c (fun ch => { ch with blindPhase := .fine })
      (.tunerSetFrequency c (f + carrierOffset s.mclk (v % 2 ^ 24)))
      [.encSr c .sfrInit srC, .encSr c .sfrLow (srC - srC * 37 / 100), .encSr c .sfrUp (srC + srC * 40 / 100),
        .encCar c 0, .prim (.devWrite c .dmdState 1)] (.armed (.fine a bl srC)) 0
      [chanDid c (.devRead c .carFreq) (v % 2 ^ 24)] s) := by
  refine exec_search_read_went h rfl ?_
  change settle _ _ (beginFine _ _ _ _ (f + carrierOffset (State.mclk (went ..)) (v % 2 ^ 24)) _) = _
  rw [went_mclk]
  exact settle_go_updChan fun _ _ => rfl

theorem settle_fineDone_locked {srC : Int} :
    settle Config.cfg (.search c) (fineDone Config.cfg c a bl srC true (went c ms evs s)) =
      some (searchLocks c a (Config.cfg.tmoFecBlind (tier srC)).toNat ms evs s) := settle_beginReadback

theorem settle_fineDone_unlocked {srC : Int} (ha : a.stage = .first) :
    settle Config.cfg (.search c) (fineDone Config.cfg c a bl srC false (went c ms evs s)) =
      some (blindReferences Config.cfg c a { bl with kref := bl.kref - uval (s.prof Config.cfg).tmgrefStep } ms evs
        s) := by
  rw [fineDone, if_neg (by decide), nextReference, went_prof]
  exact settle_timingReference ha

end

/-- Settles O35: the steps one by one; what is left is the frequencies and the conditions spelled out. -/
theorem blindSearchSteps : Obligations.BlindSearchSteps := by
  intro s c a v ha cfg p m ends stands coarse
  refine ⟨fun halgo b h => ?start, fun k minA h => ?sweep, fun bl kref h => ?reference,
    fun bl k f quality agc2 sfr co h => ?coarse, fun bl srC f h => exec_coarseCar h, fun bl srC => ⟨fun h => ?armed,
    fun lock left habort h => ?wait⟩⟩
  case start =>
    rw [← devWrite_did c .berMode b le_rfl]
    exact exec_search_write_went h nofun rfl (settle_branchByAlgo_blind halgo)
  case sweep => exact exec_sweep ha h
  case reference =>
    have hfreq : ∀ x : Int, a.freq + zigzagIndex 0 * x = a.freq := by simp [zigzagIndex]
    have hexec := exec_tmgRef h
    rw [blindCoarse, hfreq] at hexec
    exact hexec
  case coarse =>
    have hexec := exec_coarseStep ha h
    simp only [coarseFound_iff, blindCoarse, zigzagIndex_succ] at hexec
    exact hexec
  case armed => exact exec_armed h nofun rfl (settle_fineDone_unlocked ha)
  case wait => exact exec_wait h habort settle_fineDone_locked (settle_fineDone_unlocked ha)

end Sys2Proof.Machine
end

section
/-! SUPPORT. What writes STATE (43_search_fsm.md R224): the acceptance of the commands of `rests`, and a step of a
SEARCH. -/

namespace Sys2Proof.Machine

theorem writeReg_state (s : State) (v : Word) (r : Reg) (c : Chan) :
    ((writeReg s v r).chan c).state = (s.chan c).state := by
  cases r with
  | mclk =>
    simp only [writeReg]
    split
    · rfl
    · rw [State.updGlob_chan]
  | chan d r => exact (quiet_updChan s d (quietChan_writeChan v r)).state c
  | _ => rfl

theorem updEng_state (s : State) (e : Bank) (f : Engine → Engine) (c : Chan) :
    ((s.updEng e f).chan c).state = (s.chan c).state := by rw [chan_updEng]

theorem abortRequested_state (s : State) (d c : Chan) : ((abortRequested d s).chan c).state = (s.chan c).state := by
  unfold abortRequested
  split
  · cases d <;> cases c <;> rfl
  · rfl

/-- A command on a host turn writes STATE only as an accepted command of `rests`. -/
theorem exec_host_state {s t : State} {acc : HostAccess} {i : Instr} {c : Chan} (hn : s.now = .host acc)
    (hx : exec i s = .next t) (hne : (t.chan c).state ≠ (s.chan c).state) :
    rejection i s = none ∧ i ∈ rests c ∧ (∀ e, t.eng e = (accept i s).eng e) ∧ (t.chan c).state = .idle := by
  rcases exec_host_cases hn hx with ⟨d, -, rfl⟩ | ⟨code, rfl⟩ | ⟨-, hr, rfl⟩
  · exact absurd (abortRequested_state s d c) hne
  · exact absurd (updEng_state s _ _ c) hne
  · rcases onAccept_chan Config.cfg i (accept i s) c with ⟨-, he⟩ | ⟨hi, hrest⟩
    · rw [he] at hne
      exact absurd (updEng_state s _ _ c) hne
    · exact ⟨hr, hi, onAccept_eng _ i _, hrest.state⟩

theorem PlainStep.state {i : Instr} {s t : State} (k : PlainStep i s t) (c : Chan) :
    (t.chan c).state = (s.chan c).state := by
  cases k with
  | stands _ _ _ _ hc => exact (updEng_state _ _ _ c).trans (hc.state c)
  | ends _ hc => exact (updEng_state _ _ _ c).trans (hc.state c)

/-- A step of a SEARCH that changes a STATE changes its own channel's: over an edge, in a bus error, or by an abort. -/
theorem SearchStep.state_changed {c d : Chan} {s t : State} (k : SearchStep c s t)
    (hne : (t.chan d).state ≠ (s.chan d).state) :
    d = c ∧ (searchEdge (s.chan c).state (t.chan c).state = true ∨
      ((t.chan c).state = .noLock ∧ (s.chan c).abortReq = true ∧ (t.chan c).aborted = true) ∨
      ((t.chan c).state = .busError ∧ (t.chan c).eng.cmdResult = .busError)) := by
  by_cases hd : d = c
  · subst hd
    refine ⟨rfl, ?_⟩
    cases k with
    | stands _ _ _ p _ hs _ _ he =>
      rw [atPoint_search_chan] at hne ⊢
      rw [hs] at hne ⊢
      exact .inl (he.resolve_left hne)
    | ends st _ he =>
      rw [complete_search_updChan_chan]
      exact .inl he
    | fails =>
      rw [complete_search_updChan_chan]
      exact .inr (.inr ⟨rfl, rfl⟩)
    | aborts habort =>
      rw [complete_search_updChan_chan]
      exact .inr (.inl ⟨rfl, habort, rfl⟩)
  · rw [k.others hd] at hne
    exact absurd rfl hne

/-- The STATE of a channel whose engine is idle is none that only a running SEARCH has (R34). -/
theorem Inv.transient_eq_false {s : State} (h : Inv s) {c : Chan} (hb : (s.chan c).eng.busy = false) :
    (s.chan c).state.transient = false := by
  have hrun : (s.chan c).eng.run = none := (h.engine (.chan c)).run_eq_none hb
  have hch := (channelInv_iff _).1 (h.chan c)
  rw [hrun] at hch
  exact hch.2.1

/-- Settles O41, by the kinds of turns there are. -/
theorem searchTransitions : Obligations.SearchTransitions := by
  intro s t c h hs hne x y searching
  obtain ⟨u, hu, rfl⟩ := step_cases hs
  simp only [x, y, State.advance_chan] at hne ⊢
  rcases takeTurn_cases hu with ⟨_, _, _, -, -, rfl⟩ | ⟨_, r, v, -, rfl⟩ | ⟨_, _, _, _, -, -, rfl⟩ |
    ⟨addr, bank, w, i, haddr, hn, hd, hx⟩ | ⟨e, ans, r, hn, hr, hx⟩ | ⟨_, _, -, -, rfl⟩
  · exact absurd (by cases c <;> rfl) hne
  · exact absurd (writeReg_state s v r c) hne
  · exact absurd (updEng_state s _ _ c) hne
  · obtain ⟨hr, hi, ht, hidle⟩ := exec_host_state hn hx hne
    obtain rfl := bank_of_decode hd
    have hb := idle_of_rests hr hi
    refine .inr (.inr (.inr ⟨hidle, h.transient_eq_false hb, hb, i, hi, addr, w, i.bank, haddr, hn, hd,
      (rejection_none hr).1, ?_, ?_⟩))
    · rw [State.advance_eng, ht, accept_eng]
    · rw [State.running, State.advance_eng, ht, accept_eng]
  · rcases engine_turn_cases h hn hr hx with rfl | ⟨d, p, hruns, k⟩ | ⟨_, _, -, -, k⟩
    · exact absurd rfl hne
    · obtain ⟨rfl, hcause⟩ := k.state_changed hne
      have hsearching : searching := ⟨p, ans, hruns⟩
      rcases hcause with hedge | ⟨hy, habort, haborted⟩ | ⟨hy, hcode⟩
      · exact .inl ⟨hsearching, hedge⟩
      · exact .inr (.inl ⟨hsearching, hy, habort, haborted⟩)
      · exact .inr (.inr (.inl ⟨hsearching, hy, hcode⟩))
    · exact absurd (k.state c) hne
  · exact absurd rfl hne

end Sys2Proof.Machine
end

section
/-! SUPPORT. Every SEARCH ends (43_search_fsm.md R218 (a), R222). Each program point has a number of steps that its rule
can still take at most, whatever the environment answers, and every step makes that number smaller: the lock waits, the
relocks, the trials of the sweep, the false locks, the grid, the coarse steps, the timing references and the retries are
all counted down. -/

namespace Sys2Proof.Machine

/-! ## How many steps a part of the rule can take -/

/-- No lock wait whose timeout is a word has more iterations than this (R202). -/
def pollsMax : Nat := 2 ^ 32

/-- The steps that can follow the end of an attempt: the retries of the workaround (R217). -/
def retrySteps : Stage → Nat
  | .first => 20 * pollsMax + 62
  | .retryInverted => 10 * pollsMax + 31
  | .retryNormal => 0

/-- The steps from the start of the FEC wait (R215). -/
def fecSteps (st : Stage) (fTmo : Nat) : Nat := 2 * pollCount fTmo + 1 + retrySteps st

/-- The steps from the demodulator's lock (R211 to R217), with a FEC timeout of R184. -/
def lockSteps (st : Stage) : Nat := 8 * pollsMax + 17 + retrySteps st

/-- The trials the sweep can still start: those up to ZZ_MAX_STEPS, and as many after each false lock to come (R274). -/
def zzTrialsLeft (cfg : Cfg) (a : Attempt) (z : ZigLocals) : Nat :=
  (2 - z.falseLocks) * (cfg.zzMaxSteps a.sr (zzClass a) + 1) + (cfg.zzMaxSteps a.sr (zzClass a) - z.k)

/-- The steps of one trial: its writes, its lock wait, its checks (R270, R273, R275). -/
def zzTrialSteps (cfg : Cfg) (a : Attempt) : Nat := 2 * pollCount (cfg.zzTmo a.sr (zzClass a)) + 6

/-- The steps from the head of the loop of R270. -/
def zzSteps (cfg : Cfg) (a : Attempt) (z : ZigLocals) : Nat :=
  zzTrialsLeft cfg a z * zzTrialSteps cfg a + lockSteps a.stage

/-- The locals of the trial after `z`. -/
def ZigLocals.next (z : ZigLocals) : ZigLocals := { z with k := z.k + 1 }

/-- The steps from the end of the lock wait of R208. -/
def directSteps (cfg : Cfg) (a : Attempt) : Nat :=
  if a.algo = .cold then zzSteps cfg a ⟨false, 0, 0⟩ + 1 else lockSteps a.stage

/-- The steps of one timing reference: ten coarse steps, a fine search and its lock wait (R250 to R257). -/
def referenceSteps : Nat := 2 * pollsMax + 140

/-- The steps from the head of the loop of R250, where the timing reference is `kref`; each one is at least 1 less than
the one before it. -/
def blindSteps (a : Attempt) (kref : Int) : Nat := (kref + 1).toNat * referenceSteps + lockSteps a.stage

/-- The steps from the end of a lock wait. -/
def WaitSite.steps (cfg : Cfg) : WaitSite → Nat
  | .direct a => directSteps cfg a
  | .zigzag a z => zzSteps cfg a z.next + 4
  | .fine a bl _ => blindSteps a (bl.kref - 1)
  | .relock a _ fTmo tries => (2 - tries) * (2 * pollsMax + 2) + fecSteps a.stage fTmo
  | .fec a _ _ => 1 + retrySteps a.stage

/-- The steps after the AGC2 read of step `k` of the pre-sweep (R251). -/
def sweepSteps (a : Attempt) (k : Nat) : Nat := 3 * (2 * halfRange a - k).toNat + blindSteps a 255

/-- The steps after the last write of R206. -/
def attemptSteps (cfg : Cfg) (a : Attempt) : Nat :=
  if a.algo = .blind then 5 + sweepSteps a 0 else 1 + 2 * pollsMax + directSteps cfg a

/-- The steps from the tuner call of the first attempt (R206, R210). -/
def firstSteps (cfg : Cfg) (r : Request) : Nat :=
  match algoOf r.algo with
  | some algo => 13 + attemptSteps cfg (r.attempt algo)
  | none => 0

/-- The steps that a SEARCH for the request `r` can take after the straight line on the way to a program point. -/
def SearchPoint.steps (cfg : Cfg) (r : Request) : SearchPoint → Nat
  | .reenabled => 3 + firstSteps cfg r
  | .agc1 => 2 + firstSteps cfg r
  | .power => firstSteps cfg r
  | .coarseDone a => attemptSteps cfg a
  | .armed site => 2 * pollCount (site.timeout cfg) + site.steps cfg
  | .wait site left => 2 * left + site.steps cfg
  | .tmgLock a => zzSteps cfg a ⟨false, 0, 0⟩
  | .zzStd a z => zzSteps cfg a z.next + 3
  | .zzFly a z => zzSteps cfg a z.next + 2
  | .zzFlyAgain a z => zzSteps cfg a z.next
  | .zzAbsent a z => zzSteps cfg a z.next
  | .sweep a k _ => sweepSteps a k
  | .tmgRef a bl => 139 + 2 * pollsMax + blindSteps a (bl.kref - 1)
  | .coarseStep a bl k => 12 * (10 - k) + 7 + 2 * pollsMax + blindSteps a (bl.kref - 1)
  | .coarseCar a bl _ _ => 6 + 2 * pollsMax + blindSteps a (bl.kref - 1)
  | .readStd a fTmo => 6 * pollsMax + 12 + fecSteps a.stage fTmo
  | .readRest a fTmo _ _ _ _ => 6 * pollsMax + 6 + fecSteps a.stage fTmo
  | .fecCleared => 0

/-! ## Counting down -/

section
variable {cfg : Cfg} {a : Attempt} {z : ZigLocals}

theorem pollCount_toNat_le (t : Word) : pollCount t.toNat ≤ pollsMax := by
  have ht := t.isLt
  unfold pollCount pollsMax
  omega

theorem pollCount_demodTimeout_le (cfg : Cfg) (sr : Int) (algo : Algo) :
    pollCount (demodTimeout cfg sr algo) ≤ pollsMax := by
  cases algo with
  | blind | cold => exact pollCount_toNat_le _
  | warm => exact (Nat.div_le_div_right (Nat.add_le_add_right (Nat.div_le_self _ _) 9)).trans (pollCount_toNat_le _)

theorem pollCount_fecTimeout_le (cfg : Cfg) (sr : Int) (algo : Algo) :
    pollCount (fecTimeout cfg sr algo) ≤ pollsMax := by
  rw [fecTimeout_eq]
  exact pollCount_toNat_le _

theorem zzSteps_of_lt (h : z.k < cfg.zzMaxSteps a.sr (zzClass a)) :
    zzSteps cfg a z = zzSteps cfg a z.next + zzTrialSteps cfg a := by
  have htrials : zzTrialsLeft cfg a z = zzTrialsLeft cfg a z.next + 1 := by
    simp only [zzTrialsLeft, ZigLocals.next]
    omega
  rw [zzSteps, zzSteps, htrials]
  ring

/-- A false lock leaves fewer trials, although the sweep restarts (R274). -/
theorem zzSteps_restart_le (h : z.falseLocks < 2) :
    zzSteps cfg a ⟨true, z.falseLocks + 1, 0⟩ ≤ zzSteps cfg a z.next := by
  have htrials : zzTrialsLeft cfg a ⟨true, z.falseLocks + 1, 0⟩ ≤ zzTrialsLeft cfg a z.next := by
    have hlocks : 2 - z.falseLocks = (2 - (z.falseLocks + 1)) + 1 := by omega
    simp only [zzTrialsLeft, ZigLocals.next]
    rw [hlocks, Nat.add_mul]
    omega
  exact Nat.add_le_add_right (Nat.mul_le_mul_right _ htrials) _

theorem retrySteps_le_lockSteps (st : Stage) : retrySteps st ≤ lockSteps st := by
  unfold lockSteps
  omega

theorem lockSteps_le_zzSteps : lockSteps a.stage ≤ zzSteps cfg a z := Nat.le_add_left _ _

theorem lockSteps_le_blindSteps (kref : Int) : lockSteps a.stage ≤ blindSteps a kref := Nat.le_add_left _ _

theorem blindSteps_mono {x y : Int} (h : x ≤ y) : blindSteps a x ≤ blindSteps a y :=
  Nat.add_le_add_right (Nat.mul_le_mul_right _ (by omega)) _

theorem blindSteps_of_nonneg {kref : Int} (h : 0 ≤ kref) :
    blindSteps a kref = blindSteps a (kref - 1) + referenceSteps := by
  have hrefs : (kref + 1).toNat = (kref - 1 + 1).toNat + 1 := by omega
  rw [blindSteps, blindSteps, hrefs]
  ring

theorem coarseOps_length (cfg : Cfg) (c : Chan) (a : Attempt) : (coarseOps cfg c a).length = 12 := by
  rw [coarseOps_eq, windowOps_eq]
  split <;> rfl

end

/-! ## Flows -/

/-- `s` has the request `r` on channel `c`, and the turns `ts` are to come. -/
structure Under (c : Chan) (r : Request) (ts : List Turn) (s : State) : Prop where
  req : (s.chan c).req = r
  turns : s.turns = ts

/-- The flow of a SEARCH whose steps to come are at most `n`. -/
def FlowWithin (cfg : Cfg) (c : Chan) (r : Request) (ts : List Turn) (n : Nat) : Flow → Prop
  | .go t _ rest k => Under c r ts t ∧ ∃ p, k = .search p ∧ 1 + rest.length + p.steps cfg r ≤ n
  | .done t _ => t.turns = ts
  | .stray => False

section
variable {cfg : Cfg} {c : Chan} {r : Request} {ts : List Turn} {n : Nat} {s : State} {a : Attempt} {z : ZigLocals}
  {bl : BlindLocals} {res : Readback} {fTmo : Nat}

theorem FlowWithin.mono {m : Nat} {fl : Flow} (h : FlowWithin cfg c r ts m fl) (hmn : m ≤ n) :
    FlowWithin cfg c r ts n fl := by
  cases fl with
  | go t first rest k =>
    obtain ⟨ht, p, hk, hp⟩ := h
    exact ⟨ht, p, hk, hp.trans hmn⟩
  | done t code => exact h
  | stray => exact h

theorem Under.updChan (h : Under c r ts s) {f : Channel → Channel} (hf : ∀ ch, (f ch).req = ch.req) :
    Under c r ts (s.updChan c f) :=
  ⟨by rw [State.updChan_chan, hf, h.req], by rw [State.updChan_turns, h.turns]⟩

theorem Under.enter (h : Under c r ts s) (st : SearchState) : Under c r ts (enter c st s) := h.updChan fun _ => rfl

theorem Under.enterPhase (h : Under c r ts s) (ph : BlindPhase) : Under c r ts (enterPhase c ph s) :=
  h.updChan fun _ => rfl

theorem flowWithin_go {first : Op} {rest : List Op} {p : SearchPoint} (h : Under c r ts s)
    (hn : 1 + rest.length + p.steps cfg r ≤ n) : FlowWithin cfg c r ts n (.go s first rest (.search p)) :=
  ⟨h, p, rfl, hn⟩

theorem finish_within (h : Under c r ts s) (st : SearchState) : FlowWithin cfg c r ts n (finish c st s) :=
  (State.updChan_turns s c _).trans h.turns

theorem beginAttempt_within (h : Under c r ts s) :
    FlowWithin cfg c r ts (13 + attemptSteps cfg a) (beginAttempt cfg c a s) :=
  flowWithin_go (h.enter _) (by rw [coarseOps_length, SearchPoint.steps])

theorem attemptSteps_of_warm (ha : a.algo = .warm) : attemptSteps cfg a = 10 * pollsMax + 18 + retrySteps a.stage := by
  simp only [attemptSteps, directSteps, ha, lockSteps, reduceCtorEq, if_false]
  omega

theorem endAttempt_within (h : Under c r ts s) (ha : a.firstOrWarm = true) (out : SearchState) :
    FlowWithin cfg c r ts (retrySteps a.stage) (endAttempt cfg c a out s) := by
  unfold endAttempt
  split
  · exact finish_within h _
  · rename_i hstage
    have hwarm : a.algo = .warm := by simpa [Attempt.firstOrWarm, hstage] using ha
    have hsteps := attemptSteps_of_warm (cfg := cfg) (a := { a with iq := 1, stage := .retryNormal }) hwarm
    refine (beginAttempt_within h).mono ?_
    rw [hsteps, hstage, retrySteps, retrySteps]
    omega
  · exact finish_within h _

theorem beginReadback_within (h : Under c r ts s) :
    FlowWithin cfg c r ts (6 * pollsMax + 16 + fecSteps a.stage fTmo) (beginReadback c a fTmo s) :=
  flowWithin_go (h.enter _) (by simp only [List.length_cons, List.length_nil, SearchPoint.steps]; omega)

/-- The readback with a FEC timeout of R184. -/
theorem beginReadback_fecTimeout_within (h : Under c r ts s) (sr : Int) (algo : Algo) :
    FlowWithin cfg c r ts (lockSteps a.stage) (beginReadback c a (fecTimeout cfg sr algo) s) := by
  have hpolls := pollCount_fecTimeout_le cfg sr algo
  refine (beginReadback_within h).mono ?_
  unfold fecSteps lockSteps
  omega

/-! ## Lock waits -/

theorem pollOnce_within (h : Under c r ts s) {f : ReadField} {site : WaitSite} {left : Nat} :
    FlowWithin cfg c r ts (2 * (left + 1) + site.steps cfg) (pollOnce c f site left s) :=
  flowWithin_go h (by simp only [List.length_cons, List.length_nil, SearchPoint.steps]; omega)

theorem waitFor_within (h : Under c r ts s) {f : ReadField} {t : Nat} {site : WaitSite} {timedOut : State → Flow}
    (ho : FlowWithin cfg c r ts (site.steps cfg) (timedOut s)) :
    FlowWithin cfg c r ts (2 * pollCount t + site.steps cfg) (waitFor c f t site timedOut s) := by
  unfold waitFor
  cases pollCount t with
  | zero => exact ho.mono (Nat.le_add_left _ _)
  | succ n => exact pollOnce_within h

/-! ## The blind search -/

theorem timingReference_within (h : Under c r ts s) (ha : a.firstOrWarm = true) :
    FlowWithin cfg c r ts (blindSteps a bl.kref) (timingReference cfg c a bl s) := by
  unfold timingReference
  split
  · rename_i hkref
    have hnonneg : 0 ≤ bl.kref := le_trans (Int.natCast_nonneg _) hkref
    refine flowWithin_go h ?_
    rw [blindSteps_of_nonneg hnonneg]
    simp only [List.length_nil, SearchPoint.steps, referenceSteps]
    omega
  · exact (endAttempt_within h ha _).mono ((retrySteps_le_lockSteps _).trans (lockSteps_le_blindSteps _))

theorem nextReference_within (h : Under c r ts s) (ha : a.firstOrWarm = true) :
    FlowWithin cfg c r ts (blindSteps a (bl.kref - 1)) (nextReference cfg c a bl s) := by
  have hstep : 1 ≤ uval (s.prof cfg).tmgrefStep := Int.ofNat_le.2 (BitVec.le_def.1 (s.prof cfg).tmgref_step)
  exact (timingReference_within h ha).mono (blindSteps_mono (by simp only; omega))

theorem sweepNext_within (h : Under c r ts s) (ha : a.firstOrWarm = true) (k : Nat) (minA : Int) :
    FlowWithin cfg c r ts (sweepSteps a k) (sweepNext cfg c a k minA s) := by
  have hblind : blindSteps a 255 ≤ sweepSteps a k := Nat.le_add_left _ _
  unfold sweepNext
  split_ifs with hgrid
  · have hstep : 1 ≤ uval cfg.agc2SweepStep := Int.ofNat_le.2 (BitVec.le_def.1 cfg.agc2_sweep_step_pos)
    have hk : ((k + 1 : Nat) : Int) ≤ 2 * halfRange a :=
      (le_mul_of_one_le_right (Int.natCast_nonneg _) hstep).trans hgrid
    refine flowWithin_go h ?_
    simp only [sweepRest, List.length_cons, List.length_nil, SearchPoint.steps, sweepSteps]
    omega
  · exact (endAttempt_within h ha _).mono
      (((retrySteps_le_lockSteps _).trans (lockSteps_le_blindSteps 255)).trans hblind)
  · have hmax : uval (s.prof cfg).tmgrefMax ≤ 255 := Int.ofNat_le.2 (Nat.le_of_lt_succ (s.prof cfg).tmgrefMax.isLt)
    exact (timingReference_within h ha).mono ((blindSteps_mono hmax).trans hblind)

theorem coarseStep_within (h : Under c r ts s) (k : Nat) :
    FlowWithin cfg c r ts (12 * (10 - k) + 19 + 2 * pollsMax + blindSteps a (bl.kref - 1))
      (coarseStep cfg c a bl k s) :=
  flowWithin_go h (by simp only [coarseRest, List.length_cons, List.length_nil, SearchPoint.steps]; omega)

theorem coarseNext_within (h : Under c r ts s) (ha : a.firstOrWarm = true) (k : Nat) (got : List Int) :
    FlowWithin cfg c r ts (SearchPoint.steps cfg r (.coarseStep a bl k)) (coarseNext cfg c a bl k got s) := by
  have hend := (retrySteps_le_lockSteps a.stage).trans (lockSteps_le_blindSteps (a := a) (bl.kref - 1))
  simp only [coarseNext, SearchPoint.steps]
  split_ifs with _ _ hk
  · exact (endAttempt_within h ha _).mono (by omega)
  · exact flowWithin_go h (by simp only [List.length_nil, SearchPoint.steps]; omega)
  · exact (coarseStep_within h _).mono (by simp only; omega)
  · exact (nextReference_within h ha).mono (by simp only; omega)

theorem beginFine_within (h : Under c r ts s) (srC fC : Int) :
    FlowWithin cfg c r ts (6 + 2 * pollsMax + blindSteps a (bl.kref - 1)) (beginFine c a bl srC fC s) := by
  have hpolls := pollCount_demodTimeout_le cfg srC .blind
  refine flowWithin_go (h.enterPhase _) ?_
  simp only [List.length_cons, List.length_nil, SearchPoint.steps, WaitSite.timeout, WaitSite.steps]
  omega

/-! ## The zig-zag sweep -/

theorem zzTrial_within (h : Under c r ts s) (ha : a.firstOrWarm = true) :
    FlowWithin cfg c r ts (zzSteps cfg a z) (zzTrial cfg c a z s) := by
  have hend := (retrySteps_le_lockSteps a.stage).trans (lockSteps_le_zzSteps (cfg := cfg) (z := z))
  unfold zzTrial
  split_ifs with hk
  · exact (endAttempt_within h ha _).mono hend
  · exact (endAttempt_within h ha _).mono hend
  · refine flowWithin_go h ?_
    rw [zzSteps_of_lt (not_le.1 hk)]
    simp only [List.length_cons, List.length_nil, SearchPoint.steps, WaitSite.timeout, WaitSite.steps, zzTrialSteps]
    omega

theorem zzFalseLock_within (h : Under c r ts s) (ha : a.firstOrWarm = true) (hz : z.falseLocks ≤ 2) :
    FlowWithin cfg c r ts (zzSteps cfg a z.next) (zzFalseLock cfg c a z s) := by
  unfold zzFalseLock
  split
  · exact (endAttempt_within h ha _).mono ((retrySteps_le_lockSteps _).trans lockSteps_le_zzSteps)
  · exact (zzTrial_within h ha).mono (zzSteps_restart_le (by omega))

theorem zzAbsentNext_within (h : Under c r ts s) (ha : a.firstOrWarm = true) (got : List Int) :
    FlowWithin cfg c r ts (zzSteps cfg a z.next) (zzAbsentNext cfg c a z got s) := by
  unfold zzAbsentNext
  split
  · exact (endAttempt_within h ha _).mono ((retrySteps_le_lockSteps _).trans lockSteps_le_zzSteps)
  · exact zzTrial_within h ha

theorem zzLock_within (h : Under c r ts s) : FlowWithin cfg c r ts (lockSteps a.stage) (zzLock cfg c a s) :=
  beginReadback_fecTimeout_within h _ _

theorem zzDone_within (h : Under c r ts s) (ok : Bool) :
    FlowWithin cfg c r ts (zzSteps cfg a z.next + 4) (zzDone c a z ok s) := by
  unfold zzDone
  split
  · exact flowWithin_go h (by simp only [List.length_nil, SearchPoint.steps]; omega)
  · exact flowWithin_go h (by simp only [List.length_cons, List.length_nil, SearchPoint.steps]; omega)

/-! ## FEC, relock, readback, direct lock -/

theorem fecDone_within (h : Under c r ts s) (ha : a.firstOrWarm = true) (ok : Bool) :
    FlowWithin cfg c r ts (1 + retrySteps a.stage) (fecDone cfg c a res ok s) := by
  unfold fecDone
  split
  · exact flowWithin_go (h.enter _) (by simp only [List.length_nil, SearchPoint.steps]; omega)
  split
  · rename_i hstage
    split
    · refine (beginAttempt_within h).mono ?_
      rw [attemptSteps_of_warm rfl, hstage, retryRequest, retrySteps, retrySteps]
      omega
    · exact finish_within h _
  all_goals exact (endAttempt_within h ha _).mono (Nat.le_add_left _ _)

theorem beginFec_within (h : Under c r ts s) (ha : a.firstOrWarm = true) :
    FlowWithin cfg c r ts (fecSteps a.stage fTmo) (beginFec cfg c a res fTmo s) := by
  rw [fecSteps, Nat.add_assoc]
  exact waitFor_within h (fecDone_within h ha _)

theorem relockDone_within (h : Under c r ts s) (ha : a.firstOrWarm = true) (tries : Nat) (ok : Bool) :
    FlowWithin cfg c r ts (WaitSite.steps cfg (.relock a res fTmo tries))
      (relockDone cfg c a res fTmo tries ok s) := by
  unfold relockDone
  split_ifs with _ htries
  · exact (beginFec_within h ha).mono (Nat.le_add_left _ _)
  · have hpolls := pollCount_demodTimeout_le cfg res.sr .warm
    have hleft : (2 - tries) * (2 * pollsMax + 2) = (2 - (tries + 1)) * (2 * pollsMax + 2) + (2 * pollsMax + 2) := by
      rw [← Nat.succ_mul, show 2 - tries = (2 - (tries + 1)).succ by omega]
    refine flowWithin_go h ?_
    simp only [List.length_cons, List.length_nil, SearchPoint.steps, WaitSite.timeout, WaitSite.steps]
    omega
  · refine (endAttempt_within h ha _).mono ?_
    simp only [WaitSite.steps, fecSteps]
    omega

theorem optimize_within (h : Under c r ts s) :
    FlowWithin cfg c r ts (6 * pollsMax + 6 + fecSteps a.stage fTmo) (optimize cfg c a res fTmo s) := by
  have hpolls := pollCount_demodTimeout_le cfg res.sr .warm
  refine flowWithin_go (h.enter _) ?_
  simp only [List.length_cons, List.length_nil, SearchPoint.steps, WaitSite.timeout, WaitSite.steps]
  omega

theorem readbackDone_within (h : Under c r ts s) (ha : a.firstOrWarm = true) :
    FlowWithin cfg c r ts (6 * pollsMax + 6 + fecSteps a.stage fTmo) (readbackDone cfg c a fTmo res s) := by
  have hwritten : Under c r ts (s.updChan c (resultWritten res)) := h.updChan fun _ => rfl
  unfold readbackDone
  split
  · exact (endAttempt_within hwritten ha _).mono (by unfold fecSteps; omega)
  · exact optimize_within hwritten

theorem directDone_within (h : Under c r ts s) (ha : a.firstOrWarm = true) (ok : Bool) :
    FlowWithin cfg c r ts (directSteps cfg a) (directDone cfg c a ok s) := by
  have hlock : lockSteps a.stage ≤ directSteps cfg a := by
    unfold directSteps
    split
    · exact Nat.le_succ_of_le lockSteps_le_zzSteps
    · exact le_rfl
  have hend := (retrySteps_le_lockSteps a.stage).trans hlock
  unfold directDone
  split_ifs with _ halgo
  · exact (beginReadback_fecTimeout_within h _ _).mono hlock
  · exact (endAttempt_within h ha _).mono hend
  · refine flowWithin_go h ?_
    rw [directSteps, if_pos halgo]
    simp only [List.length_nil, SearchPoint.steps]
    omega
  · exact (endAttempt_within h ha _).mono hend

theorem branchByAlgo_within (h : Under c r ts s) :
    FlowWithin cfg c r ts (attemptSteps cfg a) (branchByAlgo cfg c a s) := by
  have hdirect : a.algo ≠ .blind → FlowWithin cfg c r ts (attemptSteps cfg a) (beginDirect c a s) := by
    intro hblind
    have hpolls := pollCount_demodTimeout_le cfg a.sr a.algo
    refine flowWithin_go (h.enter _) ?_
    rw [attemptSteps, if_neg hblind]
    simp only [List.length_nil, SearchPoint.steps, WaitSite.timeout, WaitSite.steps]
    omega
  unfold branchByAlgo
  split
  · rename_i hblind
    refine flowWithin_go ((h.enter _).enterPhase _) ?_
    rw [attemptSteps, if_pos hblind]
    simp only [sweepRest, List.length_cons, List.length_nil, SearchPoint.steps]
    omega
  · rename_i hcold
    exact hdirect (by simp [hcold])
  · rename_i hwarm
    exact hdirect (by simp [hwarm])

/-- The end of a lock wait at a site whose locals fit. -/
theorem waitDone_within (h : Under c r ts s) {site : WaitSite} (hf : site.fits = true) (ok : Bool) :
    FlowWithin cfg c r ts (site.steps cfg) (waitDone cfg c site ok s) := by
  cases site with
  | direct a =>
    simp only [WaitSite.fits, Bool.and_eq_true] at hf
    exact directDone_within h hf.1 ok
  | zigzag a z => exact zzDone_within h ok
  | fine a bl srC =>
    simp only [waitDone, fineDone]
    split
    · exact (beginReadback_fecTimeout_within h _ _).mono (lockSteps_le_blindSteps _)
    · exact nextReference_within h (firstOf_firstOrWarm hf)
  | relock a res fTmo tries => exact relockDone_within h hf tries ok
  | fec a res fTmo => exact fecDone_within h hf ok

/-! ## The body -/

theorem firstAttempt_within (h : Under c r ts s) (halgo : (algoOf r.algo).isSome) :
    FlowWithin cfg c r ts (firstSteps cfg r) (firstAttempt cfg c s) := by
  obtain ⟨algo, halgo⟩ := Option.isSome_iff_exists.1 halgo
  simp only [firstAttempt, firstSteps, h.req, halgo]
  exact beginAttempt_within h

theorem precheck_within (h : Under c r ts s) : FlowWithin cfg c r ts (3 + firstSteps cfg r) (precheck c s) :=
  flowWithin_go h (by simp only [List.length_nil, SearchPoint.steps]; omega)

theorem searchEntry_within (h : Under c r ts s) :
    FlowWithin cfg c r ts (4 + firstSteps cfg r) (searchEntry cfg c s) := by
  unfold searchEntry
  split_ifs
  · exact finish_within h _
  · exact flowWithin_go h (by simp only [List.length_nil, SearchPoint.steps]; omega)
  · exact (precheck_within h).mono (by omega)

theorem paramRest_length_le (c : Chan) (std : BitVec 2) : (paramRest c std).length ≤ 4 := by
  unfold paramRest
  split <;> simp

/-- Every pure computation of a SEARCH, from a program point whose locals fit. -/
theorem searchResume_within (h : Under c r ts s) (halgo : (algoOf r.algo).isSome) {p : SearchPoint}
    (hf : p.fits = true) (got : List Int) :
    FlowWithin cfg c r ts (p.steps cfg r) (searchResume cfg c p got s) := by
  cases p with
  | reenabled => exact precheck_within (h.updChan fun _ => rfl)
  | agc1 =>
    simp only [searchResume, agc1Next, SearchPoint.steps]
    split
    · exact flowWithin_go h (by simp only [List.length_cons, List.length_nil, SearchPoint.steps]; omega)
    · exact (firstAttempt_within h halgo).mono (Nat.le_add_left _ _)
  | power =>
    simp only [searchResume, powerNext]
    split
    · exact finish_within h _
    · exact firstAttempt_within h halgo
  | coarseDone a => exact branchByAlgo_within h
  | armed site => exact waitFor_within h (waitDone_within h hf false)
  | wait site left =>
    simp only [searchResume, waitNext, SearchPoint.steps]
    split
    · exact (waitDone_within h hf true).mono (Nat.le_add_left _ _)
    · cases left with
      | zero => exact (waitDone_within h hf false).mono (Nat.le_add_left _ _)
      | succ n => exact pollOnce_within h
  | tmgLock a =>
    have ha := firstOf_firstOrWarm hf
    simp only [searchResume, SearchPoint.steps]
    split
    · exact (endAttempt_within h ha _).mono ((retrySteps_le_lockSteps _).trans lockSteps_le_zzSteps)
    · exact zzTrial_within (h.enter _) ha
  | zzStd a z =>
    simp only [searchResume, SearchPoint.steps]
    split
    · exact flowWithin_go h (by simp only [List.length_nil, SearchPoint.steps]; omega)
    · exact (zzLock_within h).mono (Nat.le_add_right_of_le lockSteps_le_zzSteps)
  | zzFly a z =>
    simp only [searchResume, SearchPoint.steps]
    split
    · exact (zzLock_within h).mono (Nat.le_add_right_of_le lockSteps_le_zzSteps)
    · exact flowWithin_go h (by simp only [List.length_cons, List.length_nil, SearchPoint.steps]; omega)
  | zzFlyAgain a z =>
    simp only [SearchPoint.fits, Bool.and_eq_true, decide_eq_true_eq] at hf
    obtain ⟨ha, hz⟩ := hf
    simp only [searchResume]
    split
    · exact (zzLock_within h).mono lockSteps_le_zzSteps
    · exact zzFalseLock_within h (firstOf_firstOrWarm ha) hz
  | zzAbsent a z =>
    simp only [SearchPoint.fits, Bool.and_eq_true] at hf
    exact zzAbsentNext_within h (firstOf_firstOrWarm hf.1) got
  | sweep a k minA => exact sweepNext_within h (firstOf_firstOrWarm hf) k _
  | tmgRef a bl => exact (coarseStep_within (h.enterPhase _) 0).mono (by simp only [SearchPoint.steps]; omega)
  | coarseStep a bl k => exact coarseNext_within h (firstOf_firstOrWarm hf) k got
  | coarseCar a bl srC fAct => exact beginFine_within h srC _
  | readStd a fTmo =>
    have hlen := paramRest_length_le c (bitsOf 2 (nth got 0))
    refine flowWithin_go h ?_
    simp only [List.length_append, List.length_cons, List.length_nil, SearchPoint.steps]
    omega
  | readRest a fTmo std cRaw sRaw tRaw => exact readbackDone_within h hf
  | fecCleared => exact finish_within h _

end

/-! ## Steps -/

/-- The steps a SEARCH for the request `r` can still take, from where it stands. -/
def Point.searchSteps (cfg : Cfg) (r : Request) : Point → Nat
  | .start => 4 + firstSteps cfg r
  | .before _ rest _ (.search p) => 1 + rest.length + p.steps cfg r
  | .before _ _ _ _ => 1

theorem Point.searchSteps_pos (cfg : Cfg) (r : Request) (p : Point) : 0 < p.searchSteps cfg r := by
  unfold Point.searchSteps
  split <;> omega

/-- The SEARCH of channel `c` has ended, or stands where it can take at most `n` steps more. -/
def EndsWithin (cfg : Cfg) (c : Chan) (n : Nat) (s : State) : Prop :=
  s.running (.chan c) = none ∨
    ∃ p, s.running (.chan c) = some ⟨.search c, p⟩ ∧ p.searchSteps cfg (s.chan c).req ≤ n

section
variable {cfg : Cfg} {c : Chan} {n : Nat} {ts : List Turn} {s : State}

theorem endsWithin_complete (code : CmdResult) : EndsWithin cfg c n (complete (.search c) code s) :=
  .inl (congrArg Engine.run (complete_eng (.search c) code s))

theorem complete_search_turns (code : CmdResult) : (complete (.search c) code s).turns = s.turns :=
  State.updEng_turns _ _ _

theorem endsWithin_atPoint {p : Point} (hp : p.searchSteps cfg (s.chan c).req ≤ n) :
    EndsWithin cfg c n (atPoint (.search c) p s) := by
  refine .inr ⟨p, congrArg Engine.run (atPoint_eng (.search c) p s), ?_⟩
  rw [atPoint_search_chan]
  exact hp

theorem atPoint_search_turns (p : Point) : (atPoint (.search c) p s).turns = s.turns := State.updEng_turns _ _ _

theorem settle_within {fl : Flow} (h : FlowWithin cfg c (s.chan c).req ts n fl) :
    ∃ t, settle cfg (.search c) fl = some t ∧ EndsWithin cfg c n t ∧ t.turns = ts := by
  cases fl with
  | go u first rest k =>
    obtain ⟨hu, p, rfl, hp⟩ := h
    refine ⟨_, rfl, endsWithin_atPoint ?_, (atPoint_search_turns _).trans hu.turns⟩
    rw [hu.req]
    exact hp
  | done u code => exact ⟨_, rfl, endsWithin_complete code, (complete_search_turns code).trans h⟩
  | stray => exact h.elim

theorem under_moved {u : State} (h : Moved (.search c) s u) : Under c (s.chan c).req s.turns u := by
  refine ⟨h.ran.req, ?_⟩
  rcases h with ⟨q, v, ok, rfl⟩ | ⟨ms, rfl⟩
  · rfl
  · exact State.updEng_turns _ _ _

/-- After a primitive: one step less to come. -/
theorem proceed_within {rest : List Op} {got : List Int} {p : SearchPoint} {u : State}
    (halgo : (algoOf (s.chan c).req.algo).isSome) (hf : p.fits = true) (hu : Moved (.search c) s u) :
    ∃ t, proceed cfg (searchProgram cfg c) (.search c) rest got (.search p) u = some t ∧
      EndsWithin cfg c (rest.length + p.steps cfg (s.chan c).req) t ∧ t.turns = s.turns := by
  have hunder := under_moved hu
  cases rest with
  | nil =>
    rw [List.length_nil, Nat.zero_add]
    exact settle_within (searchResume_within hunder halgo hf got)
  | cons op ops =>
    refine ⟨_, rfl, endsWithin_atPoint ?_, (atPoint_search_turns _).trans hunder.turns⟩
    rw [hunder.req, Point.searchSteps, List.length_cons]
    omega

/-- One primitive of a SEARCH: it ends the SEARCH, or leaves one step less to come. -/
theorem perform_within {ans : Answer} {now : Prim} {rest : List Op} {got : List Int} {p : SearchPoint}
    (halgo : (algoOf (s.chan c).req.algo).isSome) (hf : p.fits = true) :
    ∃ t, perform cfg (searchProgram cfg c) (.search c) ans now rest got (.search p) s = some t ∧
      EndsWithin cfg c (rest.length + p.steps cfg (s.chan c).req) t ∧ t.turns = s.turns := by
  have htransact : ∃ t, transact cfg (searchProgram cfg c) (.search c) ans now rest got (.search p) s = some t ∧
      EndsWithin cfg c (rest.length + p.steps cfg (s.chan c).req) t ∧ t.turns = s.turns := by
    unfold transact
    split
    · exact ⟨_, rfl, endsWithin_complete _, (complete_search_turns _).trans (State.updChan_turns _ _ _)⟩
    split
    · exact proceed_within halgo hf (.inl ⟨_, _, _, rfl⟩)
    · exact proceed_within halgo hf (.inl ⟨_, _, _, rfl⟩)
  unfold perform
  split
  · split
    · exact ⟨_, rfl, endsWithin_complete _, (complete_search_turns _).trans (State.updChan_turns _ _ _)⟩
    · exact proceed_within halgo hf (.inr ⟨_, rfl⟩)
  · exact htransact

/-- One engine step of a SEARCH, from a program point that the invariant allows. -/
theorem engineStep_within {ans : Answer} {p : Point} (h : SearchInv (s.chan c) p)
    (hn : p.searchSteps cfg (s.chan c).req ≤ n + 1) :
    ∃ t, engineStep cfg (searchProgram cfg c) (.search c) ans p s = some t ∧ EndsWithin cfg c n t ∧
      t.turns = s.turns := by
  have weaken : ∀ {m : Nat} {t : State}, m ≤ n → EndsWithin cfg c m t → EndsWithin cfg c n t :=
    fun hm => Or.imp_right fun ⟨q, hr, hq⟩ => ⟨q, hr, hq.trans hm⟩
  cases p with
  | start =>
    have hentry : FlowWithin cfg c (s.chan c).req s.turns _ (searchEntry cfg c s) := searchEntry_within ⟨rfl, rfl⟩
    rcases searchEntry_cases cfg c s with hb | ⟨first, q, hg, -, hf, halgo⟩
    · refine ⟨complete (.search c) .ok (s.updChan c (Channel.finished .badParameter)), ?_, endsWithin_complete _,
        (complete_search_turns _).trans (State.updChan_turns _ _ _)⟩
      simp only [engineStep, searchProgram, hb, finish]
    · rw [hg] at hentry
      obtain ⟨-, q', hq', hsteps⟩ := hentry
      obtain rfl : q = q' := Kont.search.inj hq'
      obtain ⟨t, ht, hends, hturns⟩ := perform_within (cfg := cfg) (ans := ans) (now := resolve cfg s first)
        (rest := []) (got := []) halgo hf
      refine ⟨t, (engineStep_start_go hg).trans ht, weaken ?_ hends, hturns⟩
      rw [Point.searchSteps] at hn
      omega
  | before now rest got k =>
    cases k with
    | search q =>
      obtain ⟨-, halgo, hf⟩ := h
      obtain ⟨t, ht, hends, hturns⟩ := perform_within (cfg := cfg) (ans := ans) (now := now) (rest := rest)
        (got := got) halgo hf
      refine ⟨t, ht, weaken ?_ hends, hturns⟩
      rw [Point.searchSteps] at hn
      omega
    | _ => exact h.elim

/-- A turn of the engine: an idle one stays idle, and a SEARCH takes one step of those it can still take. -/
theorem step_within {ans : Answer} (h : Inv s) (hs : s.turns = .engine (.chan c) ans :: ts)
    (hends : EndsWithin Config.cfg c (n + 1) s) :
    ∃ t, step s = .next t ∧ EndsWithin Config.cfg c n t ∧ t.turns = ts := by
  have hnow := State.now_cons s hs
  rcases hends with hidle | ⟨p, hrun, hp⟩
  · refine ⟨_, step_of_takeTurn (takeTurn_engine_idle hnow hidle), .inl ?_, ?_⟩
    · exact (congrArg Engine.run (State.advance_eng s _)).trans hidle
    · rw [State.advance_turns, hs, List.tail_cons]
  · obtain ⟨-, -, hinv⟩ := (channelInv_search hrun).1 (h.chan c)
    obtain ⟨t, ht, hends, hturns⟩ := engineStep_within (ans := ans) hinv hp
    refine ⟨_, step_of_engine (i := .search c) rfl hs hrun ht, ?_, ?_⟩
    · simpa [EndsWithin, State.running] using hends
    · rw [State.advance_turns, hturns, hs, List.tail_cons]

/-- As many turns of the engine as the SEARCH can take steps end it, for every answer. -/
theorem steps_within (anss : List Answer) (h : Inv s) (hs : s.turns = anss.map (.engine (.chan c)))
    (hends : EndsWithin Config.cfg c anss.length s) :
    ∃ t, steps anss.length s = .next t ∧ t.running (.chan c) = none := by
  induction anss generalizing s with
  | nil =>
    refine ⟨s, rfl, hends.resolve_right fun ⟨p, _, hp⟩ => ?_⟩
    exact absurd (p.searchSteps_pos Config.cfg (s.chan c).req) (not_lt.2 hp)
  | cons ans anss ih =>
    obtain ⟨t, ht, hends', hturns⟩ := step_within h hs hends
    rw [List.length_cons, steps_succ ht]
    exact ih (stepKeepsInvariant s t h ht) hturns hends'

end

/-- Settles O43: the steps that the point can still take at most, as counted above. -/
theorem searchTerminates : Obligations.SearchTerminates := by
  intro s c p h hrun
  refine ⟨p.searchSteps Config.cfg (s.chan c).req, fun anss hlen => ?_⟩
  have hends : EndsWithin Config.cfg c anss.length { s with turns := anss.map (.engine (.chan c)) } := by
    rw [hlen]
    cases c <;> exact .inr ⟨p, hrun, le_rfl⟩
  obtain ⟨t, ht, hended⟩ := steps_within (s := { s with turns := anss.map (.engine (.chan c)) }) anss h rfl hends
  rw [hlen] at ht
  exact ⟨t, ht, hended⟩

end Sys2Proof.Machine
end

section
/-! SUPPORT. The end of GET_SIGNAL_INFO without lock, GET_PER and LDPC_MONITOR (45_tracking.md R291, R293, R294). -/

namespace Sys2Proof.Machine

/-! ## GET_SIGNAL_INFO without lock -/

/-- The sentinels of R291 as register words. -/
theorem infoSentinels_eq : infoSentinels = fun ch =>
    { ch with tmFreq := 0, tmSr := 0, tmParams := 0, tmErr := 0x00800000, tmTotal := 0x01000000, tmRf := 0
              tmCn := 0 } := rfl

/-- Settles O45: without lock the entry is the end, with the sentinels. -/
theorem signalInfoUnlocked : Obligations.SignalInfoUnlocked := by
  intro s c ans hl h
  have hentry : (ruleOf Config.cfg (.getSignalInfo c)).entry s = .done (s.updChan c infoSentinels) .ok :=
    if_neg (by rw [hl]; decide)
  rw [← infoSentinels_eq]
  exact exec_of_runs h rfl (engineStep_start_done rfl (fun _ _ => rfl) hentry)

/-! ## GET_PER -/

/-- The registers of GET_PER from the values of its two reads (R293, R296 (a)). -/
def perClamped (e t : Int) : Channel → Channel := perWritten (min e (2 ^ 23)) (min t (2 ^ 24))

/-- The sentinels of R293 as register words. -/
theorem perWritten_ceilings : perWritten perErrCeil perTotCeil = fun ch =>
    { ch with res0 := 0x00800000, res1 := 0x01000000, tmErr := 0x00800000, tmTotal := 0x01000000 } := rfl

/-- Without lock the entry is the end, with the sentinels (R293). -/
theorem exec_getPer_unlocked {s : State} {c : Chan} {ans : Answer} (hl : (s.chan c).locked = false)
    (h : Runs s (.getPer c) .start ans) :
    exec (.getPer c) s = .next (chanAfter c (perWritten perErrCeil perTotCeil) (ended 0x51 .ok) [] s) := by
  refine exec_of_runs h rfl (engineStep_start_done rfl (fun _ _ => rfl) ?_)
  exact if_neg (by rw [hl]; decide)

/-- On a locked channel the first step reads PER_ERR, with the read of PER_TOTAL next (R293). -/
theorem engineStep_getPer_start {s : State} {c : Chan} {v : Int} (hl : (s.chan c).locked = true) :
    engineStep Config.cfg (ruleOf Config.cfg (.getPer c)) (.getPer c) ⟨false, v⟩ .start s =
      some (chanAfter c id
        (standing (.getPer c) (.before (.devRead c .perTotal) [] [v % 2 ^ 32] .perRead))
        [chanDid c (.devRead c .perErr) (v % 2 ^ 32)] s) := by
  have hentry : (ruleOf Config.cfg (.getPer c)).entry s =
      .go s (.prim (.devRead c .perErr)) [.prim (.devRead c .perTotal)] .perRead := if_pos hl
  exact (engineStep_start_go hentry).trans (engineStep_read_next rfl rfl)

/-- The read of PER_TOTAL ends GET_PER, with both counters clamped (R293). -/
theorem engineStep_getPer_total {s : State} {c : Chan} {e v : Int} :
    engineStep Config.cfg (ruleOf Config.cfg (.getPer c)) (.getPer c) ⟨false, v⟩
        (.before (.devRead c .perTotal) [] [e] .perRead) s =
      some (chanAfter c (perClamped e (v % 2 ^ 32)) (ended 0x51 .ok)
        [chanDid c (.devRead c .perTotal) (v % 2 ^ 32)] s) :=
  engineStep_read_done rfl rfl (fun _ _ => rfl) rfl

/-- A whole GET_PER on a locked channel: a step for each of the two reads (R293). -/
theorem steps_getPer {s : State} {c : Chan} {v w : Int} {rest : List Turn} (hl : (s.chan c).locked = true)
    (hr : s.running (.chan c) = some ⟨.getPer c, .start⟩)
    (hs : s.turns = .engine (.chan c) ⟨false, v⟩ :: .engine (.chan c) ⟨false, w⟩ :: rest) :
    steps 2 s = .next (passed rest 2 (chanAfter c (perClamped (v % 2 ^ 32) (w % 2 ^ 32)) (ended 0x51 .ok)
      [chanDid c (.devRead c .perTotal) (w % 2 ^ 32), chanDid c (.devRead c .perErr) (v % 2 ^ 32)] s)) := by
  refine (steps_succ (step_chanAfter rfl rfl hs hr (engineStep_getPer_start hl))).trans ?_
  refine (steps_succ (step_chanAfter rfl rfl (passed_turns _ _ _) (passed_chanAfter_running _ _ _ _ _ _ _)
    engineStep_getPer_total)).trans ?_
  rw [steps_zero, chanAfter_passed, passed_passed, chanAfter_chanAfter fun _ _ => rfl]
  rfl

/-- Settles O47: the sentinels, the last step, and the two steps of a locked channel. -/
theorem getPerCompletes : Obligations.GetPerCompletes := by
  intro s c
  refine ⟨fun ans hl h => ?_, fun e v h => exec_of_runs h rfl engineStep_getPer_total, fun v w rest hl hr hs => ?_⟩
  · rw [← perWritten_ceilings]
    exact exec_getPer_unlocked hl h
  · intro e t
    rw [steps_getPer hl hr hs]
    cases c <;> rfl

/-! ## LDPC_MONITOR -/

/-- A last primitive that returns nothing, registers written that are not the engine's, and another straight line. -/
theorem engineStep_write_go {cfg : Cfg} {p : Program} {i : Instr} {c : Chan} {s : State} {q : Prim} {v : Int}
    {got : List Int} {k k' : Kont} {first : Op} {rest : List Op} {f : Channel → Channel} (hb : i.bank = .chan c)
    (hq : ∀ ms, q ≠ .sleep ms) (hv : q.value v = none) (hf : SparesEngine f)
    (hr : p.resume k got (logged (.chan c) q 0 true s) =
      .go ((logged (.chan c) q 0 true s).updChan c f) first rest k') :
    engineStep cfg p i ⟨false, v⟩ (.before q [] got k) s =
      some (chanAfter c f (standing i (.before (resolve cfg s first) rest [] k'))
        [⟨.chan c, q.delivered, 0, true⟩] s) := by
  simp only [engineStep, perform_write hq hv, proceed, hb, hr, settle, resolve_updChan, resolve_logged]
  rw [atPoint_eq_chanAfter hb, updChan_eq_chanAfter hf, chanAfter_chanAfter .id, Function.id_comp, logged_eq_chanAfter,
    chanAfter_chanAfter hf]
  rfl

/-- The thresholds of R294, on counters as their fields hold them. -/
theorem ldpcBad_iff (pe fe : BitVec 16) :
    ldpcBad pe.toNat fe.toNat = true ↔ 200 < pe.toNat ∨ 5 < fe.toNat := by
  simp only [ldpcBad, Bool.or_eq_true, decide_eq_true_eq]
  omega

/-- LDPC_STAT from counters as their fields hold them (R294). -/
theorem ldpcStatWord_toNat (pe fe : BitVec 16) : ldpcStatWord pe.toNat fe.toNat = fe ++ pe := by
  rw [ldpcStatWord, bitsOf_toNat, bitsOf_toNat]

/-- LDPC_STAT as the computation after the counter reset writes it (R294). -/
def ldpcStatWritten (pe fe : BitVec 16) (ch : Channel) : Channel := { ch with ldpcStat := fe ++ pe }

/-- The computation after the counter reset: LDPC_STAT and the window's verdict (R294, R296 (c)). -/
theorem ldpcMonitor_resume_read (cfg : Cfg) (c : Chan) (pe fe : BitVec 16) (s : State) :
    (ldpcMonitorProgram cfg c).resume .ldpcRead [pe.toNat, fe.toNat] s =
      if 200 < pe.toNat ∨ 5 < fe.toNat then
        .go (s.updChan c (ldpcStatWritten pe fe)) (.prim (.devWrite c .modcodeEn 0)) [] .ldpcDisabled
      else if (s.chan c).stoppedMirror = true then
        .go (s.updChan c (ldpcStatWritten pe fe)) (.prim (.devWrite c .modcodeEn 0x1FFFFFFE)) [] .ldpcEnabled
      else .done ((s.updChan c (ldpcStatWritten pe fe)).updChan c fun ch => { ch with res0 := 0 }) .ok := by
  simp only [ldpcMonitorProgram, plainProgram, nth, List.getD_cons_zero, List.getD_cons_succ, ldpcBad_iff,
    ldpcStatWord_toNat, allModcodes_eq]
  rfl

section
variable {s : State} {c : Chan} {v : Int}

/-- The first step reads LDPC_PKT_ERR, with the read of LDPC_FRAME_ERR next (R294). -/
theorem exec_ldpcMonitor_start (h : Runs s (.ldpcMonitor c) .start ⟨false, v⟩) :
    exec (.ldpcMonitor c) s = .next (chanAfter c id
      (standing (.ldpcMonitor c)
        (.before (.devRead c .ldpcFrameErr) [.prim (.devWrite c .ldpcCntReset 1)] [v % 2 ^ 16] .ldpcRead))
      [chanDid c (.devRead c .ldpcPktErr) (v % 2 ^ 16)] s) :=
  exec_of_runs h rfl ((engineStep_start_go rfl).trans (engineStep_read_next rfl rfl))

/-- The step of the counter reset, when the computation after it goes on with a write of MODCODE_EN (R294). -/
theorem exec_ldpcMonitor_goesOn {got : List Int} {q : Prim} {f : Channel → Channel} {k : Kont} (hf : SparesEngine f)
    (h : Runs s (.ldpcMonitor c) (.before (.devWrite c .ldpcCntReset 1) [] got .ldpcRead) ⟨false, v⟩)
    (hr : (ldpcMonitorProgram Config.cfg c).resume .ldpcRead got
        (logged (.chan c) (.devWrite c .ldpcCntReset 1) 0 true s) =
      .go ((logged (.chan c) (.devWrite c .ldpcCntReset 1) 0 true s).updChan c f) (.prim q) [] k) :
    exec (.ldpcMonitor c) s = .next (chanAfter c f (standing (.ldpcMonitor c) (.before q [] [] k))
      [chanDid c (.devWrite c .ldpcCntReset 1) 0] s) :=
  exec_of_runs h rfl (engineStep_write_go rfl (by nofun) rfl hf hr)

/-- The last step of LDPC_MONITOR, whichever write it makes (R294). -/
theorem exec_ldpcMonitor_ends {got : List Int} {field : WriteField} {x : Int} {f : Channel → Channel} {k : Kont}
    (hf : SparesEngine f)
    (h : Runs s (.ldpcMonitor c) (.before (.devWrite c field x) [] got k) ⟨false, v⟩)
    (hr : (ldpcMonitorProgram Config.cfg c).resume k got (logged (.chan c) (.devWrite c field x) 0 true s) =
      .done ((logged (.chan c) (.devWrite c field x) 0 true s).updChan c f) .ok) :
    exec (.ldpcMonitor c) s = .next (chanAfter c f (ended 0x52 .ok)
      [chanDid c (.devWrite c field (zext field.width x)) 0] s) :=
  exec_of_runs h rfl (engineStep_write_done rfl (by nofun) rfl hf hr)

/-- The write of ALL_MODCODES clears LDPC_STOPPED and completes (R294). -/
theorem exec_ldpcEnabled
    (h : Runs s (.ldpcMonitor c) (.before (.devWrite c .modcodeEn 0x1FFFFFFE) [] [] .ldpcEnabled) ⟨false, v⟩) :
    exec (.ldpcMonitor c) s = .next (chanAfter c
      (fun ch => { ch with ldpcStopped := false, stoppedMirror := false, modcodeMask := 0x1FFFFFFE, res0 := 0 })
      (ended 0x52 .ok) [chanDid c (.devWrite c .modcodeEn 0x1FFFFFFE) 0] s) := by
  have hmask : wrap32 (allModcodes Config.cfg) = 0x1FFFFFFE := by rw [allModcodes_eq]; rfl
  rw [← hmask]
  exact exec_ldpcMonitor_ends (fun _ _ => rfl) h rfl

end

/-- Settles O48: the first step, the three verdicts at the counter reset, and the two writes of MODCODE_EN. -/
theorem ldpcMonitorCompletes : Obligations.LdpcMonitorCompletes := by
  intro s c v pe fe all bad stat reset
  have hstat : SparesEngine (ldpcStatWritten pe fe) := fun _ _ => rfl
  refine ⟨exec_ldpcMonitor_start, fun h => ⟨fun hbad => ?bad, fun hgood hstopped => ?stopped,
    fun hgood hrunning => ?running⟩, fun h => ?disabled, exec_ldpcEnabled⟩
  case bad =>
    exact exec_ldpcMonitor_goesOn hstat h ((ldpcMonitor_resume_read _ _ _ _ _).trans (if_pos hbad))
  case stopped =>
    refine exec_ldpcMonitor_goesOn hstat h ((ldpcMonitor_resume_read _ _ _ _ _).trans ?_)
    rw [if_neg hgood, logged_chan, if_pos hstopped]
    rfl
  case running =>
    refine exec_ldpcMonitor_ends (fun _ _ => rfl) h ((ldpcMonitor_resume_read _ _ _ _ _).trans ?_)
    rw [if_neg hgood, logged_chan, if_neg (by rw [hrunning]; decide), State.updChan_updChan]
    rfl
  case disabled => exact exec_ldpcMonitor_ends (fun _ _ => rfl) h rfl

end Sys2Proof.Machine
end

section
/-! SUPPORT. The acceptance of the lifecycle commands and of UNLOCK, and ABORT in the host step that writes it
(30_encoding.md R105; 46_lifecycle.md R320 to R322, R324, R325). -/

namespace Sys2Proof.Machine

/-- The converse of `rejection_none`: a command that passes lines (4) to (8) of R105 is not rejected. -/
theorem rejection_eq_none {i : Instr} {s : State} (hown : (s.eng i.bank).busy = false)
    (hgate : gatedByChannels i = true → s.a.eng.busy = false ∧ s.b.eng.busy = false)
    (hinit : s.glob.initialized = true ∨ i = .init) (hstandby : ¬(isSearch i = true ∧ s.glob.standby = true))
    (hoperand : badOperand i s = false) : rejection i s = none := by
  rw [rejection_eq, if_neg, if_neg, if_neg, if_neg]
  · rw [hoperand]
    exact Bool.false_ne_true
  · exact fun h => hstandby h.symm
  · rintro ⟨hu, hne⟩
    exact hinit.elim (fun h => Bool.false_ne_true (hu.symm.trans h)) hne
  · rintro (hb | ⟨hg, hb⟩)
    · exact Bool.false_ne_true (hown.symm.trans hb)
    · obtain ⟨ha, hb'⟩ := hgate hg
      rw [ha, hb'] at hb
      exact hb.elim nofun nofun

/-- Settles O12: none of the four is rejected, and their acceptance actions park the channels they name. -/
theorem lifecycleAccepted : Obligations.LifecycleAccepted := by
  intro s acc hn park
  refine ⟨fun hg ha hb => ⟨fun hmclk => ?init, fun hinit => ⟨?term, ?standby⟩⟩, fun c hbusy hinit => ?unlock⟩
  case init =>
    have hoperand : badOperand .init s = false := by
      rw [Bool.eq_false_iff, Ne, badOperand_iff]
      exact fun h => h.elim nofun fun h => Nat.not_lt.2 hmclk h.2
    exact exec_host_accepted rfl hn (rejection_eq_none hg (fun _ => ⟨ha, hb⟩) (.inr rfl) nofun hoperand)
  case term => exact exec_host_accepted rfl hn (rejection_eq_none hg (fun _ => ⟨ha, hb⟩) (.inl hinit) nofun rfl)
  case standby => exact exec_host_accepted rfl hn (rejection_eq_none hg (fun _ => ⟨ha, hb⟩) (.inl hinit) nofun rfl)
  case unlock =>
    rw [exec_host_accepted rfl hn (rejection_eq_none (i := .unlock c) hbusy nofun (.inl hinit) nofun rfl)]
    cases c <;> rfl

/-- Settles O13: `abortRequested` looks at BUSY alone. -/
theorem abortSetsFlag : Obligations.AbortSetsFlag := by
  intro s c acc hn
  rw [exec_abort_host c hn, abortRequested]
  exact ⟨fun hbusy => by rw [if_pos hbusy], fun hidle => by rw [if_neg (by rw [hidle]; exact Bool.false_ne_true)]⟩

end Sys2Proof.Machine
end

section
/-! SUPPORT. One step of a global command as `globAfter`, and a run of a straight line of primitives on the global
engine's turns (00_scope.md R12, R13). -/

namespace Sys2Proof.Machine

section
variable {cfg : Cfg} {p : Program} {i : Instr} {s : State} {q : Prim} {got : List Int} {k : Kont} {v : Int}
  {ans : Answer} {ts : List Turn}

/-! ## One step -/

/-- The primitive is a transaction, and with the environment's answer it goes through (20_memory.md R78, R79). -/
def GoesThrough (q : Prim) (ans : Answer) : Prop := (∀ ms, q ≠ .sleep ms) ∧ raises q ans = false

theorem goesThrough_of_not_fails (hq : ∀ ms, q ≠ .sleep ms) : GoesThrough q ⟨false, v⟩ := ⟨hq, rfl⟩

/-- Lna.Probe raises nothing (60_exceptions.md R351). -/
theorem goesThrough_lnaProbe (ans : Answer) : GoesThrough .lnaProbe ans := ⟨nofun, Bool.and_false _⟩

/-- The record of a transaction of the global engine that goes through. -/
def globEvent (q : Prim) (ans : Answer) : BusEvent := globDid q.delivered ((q.value ans.value).getD 0)

theorem perform_goesThrough {rest : List Op} (h : GoesThrough q ans) :
    perform cfg p i ans q rest got k s =
      proceed cfg p i rest (got ++ (q.value ans.value).toList) k
        (logged i.bank q ((q.value ans.value).getD 0) true s) := by
  obtain ⟨hq, hr⟩ := h
  cases hv : q.value ans.value with
  | some w => simp [perform, transact, hr, hv]
  | none => simp [perform, transact, hr, hv]

/-- Inside a straight line the next primitive comes. -/
theorem engineStep_global_next {op : Op} {ops : List Op} (hb : i.bank = .global) (h : GoesThrough q ans) :
    engineStep cfg p i ans (.before q (op :: ops) got k) s =
      some (globAfter id (standing i (.before (resolve cfg s op) ops (got ++ (q.value ans.value).toList) k))
        [globEvent q ans] s) := by
  simp only [engineStep, perform_goesThrough h, proceed, resolve_logged, atPoint_logged, hb]
  rfl

/-- At the end of a straight line the computation there may start another one. -/
theorem engineStep_global_go {first : Op} {rest : List Op} {k' : Kont} (hb : i.bank = .global)
    (h : GoesThrough q ans)
    (hr : ∀ t, p.resume k (got ++ (q.value ans.value).toList) t = .go t first rest k') :
    engineStep cfg p i ans (.before q [] got k) s =
      some (globAfter id (standing i (.before (resolve cfg s first) rest [] k')) [globEvent q ans] s) := by
  simp only [engineStep, perform_goesThrough h, proceed, hr, settle, resolve_logged, atPoint_logged, hb]
  rfl

/-- At the end of a straight line the computation there may complete the command, with global registers written that are
not the engine's. -/
theorem engineStep_global_done {f : Global → Global} {code : CmdResult} (hb : i.bank = .global)
    (h : GoesThrough q ans) (hf : ∀ g, (f g).eng = g.eng)
    (hr : ∀ t, p.resume k (got ++ (q.value ans.value).toList) t = .done (t.updGlob f) code) :
    engineStep cfg p i ans (.before q [] got k) s =
      some (globAfter f (ended i.opcode code) [globEvent q ans] s) := by
  simp only [engineStep, perform_goesThrough h, proceed, hr, settle, complete, hb, State.updEng, State.updGlob, logged,
    hf]
  rfl

/-! ## The machine's steps on the turns of the global engine -/

theorem globAfter_passed (f : Global → Global) (g : Engine → Engine) (evs : List BusEvent) (n : Nat) :
    globAfter f g evs (passed ts n s) = passed ts n (globAfter f g evs s) := rfl

/-- To put a running command where it stands changes nothing. -/
theorem globAfter_standing_self {pt : Point} (hr : s.running .global = some ⟨i, pt⟩) :
    globAfter id (standing i pt) [] s = s := by
  have heng : standing i pt s.glob.eng = s.glob.eng := by
    rw [standing, ← hr]
    rfl
  rw [globAfter, State.updGlob, heng]
  rfl

/-- One turn of the global engine, in which the running command does `globAfter`. -/
theorem step_globAfter {pt : Point} {f : Global → Global} {g : Engine → Engine} {evs : List BusEvent}
    (hb : i.bank = .global) (hi : isAbort i = false) (hs : s.turns = .engine .global ans :: ts)
    (hr : s.running .global = some ⟨i, pt⟩)
    (ht : engineStep Config.cfg (ruleOf Config.cfg i) i ans pt s = some (globAfter f g evs s)) :
    step s = .next (passed ts 1 (globAfter f g evs s)) := by
  have htail : s.turns.tail = ts := by rw [hs, List.tail_cons]
  rw [← hb] at hs hr
  rw [step_of_engine hi hs hr ht, ← htail]
  rfl

/-! ## A run of a straight line -/

/-- The values a straight line returns, with the environment's answer to each primitive. -/
def lineValues (line : List (Prim × Answer)) : List Int := line.flatMap fun x => (x.1.value x.2.value).toList

/-- The transactions of a straight line, newest first. -/
def lineEvents (line : List (Prim × Answer)) : List BusEvent := (line.map fun x => globEvent x.1 x.2).reverse

/-- One turn for each primitive of a straight line, up to the primitive `q`. -/
theorem steps_line (hb : i.bank = .global) (hi : isAbort i = false) {first : Prim} {ops qs : List Prim}
    (line : List (Prim × Answer)) (hline : first :: ops = line.map Prod.fst ++ q :: qs)
    (hgo : ∀ x ∈ line, GoesThrough x.1 x.2)
    (hs : s.turns = line.map (fun x => .engine .global x.2) ++ ts)
    (hr : s.running .global = some ⟨i, .before first (ops.map .prim) got k⟩) :
    steps line.length s = .next (passed ts line.length (globAfter id
      (standing i (.before q (qs.map .prim) (got ++ lineValues line) k)) (lineEvents line) s)) := by
  induction line generalizing s first ops got with
  | nil =>
    obtain ⟨rfl, rfl⟩ := List.cons.inj hline
    have hself : passed ts 0 s = s := by
      rw [passed, ← show s.turns = ts from hs]
      rfl
    rw [show got ++ lineValues [] = got from List.append_nil got, show lineEvents [] = [] from rfl,
      globAfter_standing_self hr, List.length_nil, hself]
    rfl
  | cons x line ih =>
    obtain ⟨hfirst, hops⟩ := List.cons.inj hline
    subst hfirst
    obtain ⟨second, rest, hrest⟩ := List.exists_cons_of_ne_nil
      (show List.map Prod.fst line ++ q :: qs ≠ [] from List.append_ne_nil_of_right_ne_nil _ (List.cons_ne_nil _ _))
    rw [show ops = second :: rest from hops.trans hrest, List.map_cons] at hr
    have hstep := step_globAfter hb hi hs hr (engineStep_global_next hb (hgo x List.mem_cons_self))
    refine (steps_succ hstep).trans ?_
    refine (ih hrest.symm (fun y hy => hgo y (List.mem_cons_of_mem x hy)) rfl rfl).trans ?_
    have hevents : lineEvents (x :: line) = lineEvents line ++ [globEvent x.1 x.2] := by
      simp only [lineEvents, List.map_cons, List.reverse_cons]
    have hvalues : got ++ lineValues (x :: line) = got ++ (x.1.value x.2.value).toList ++ lineValues line := by
      simp only [lineValues, List.flatMap_cons, List.append_assoc]
    rw [globAfter_passed, passed_passed, hevents, hvalues, List.length_cons, Nat.add_comm 1]
    simp only [globAfter, passed, State.updGlob, List.append_assoc]
    rfl

end

end Sys2Proof.Machine
end

section
/-! SUPPORT. The steps of the lifecycle commands and of UNLOCK (46_lifecycle.md R320 to R323, R325) and a whole INIT. -/

namespace Sys2Proof.Machine

/-! ## The writes as they go over the bus (20_memory.md R74) -/

theorem zext_allModcodes (cfg : Cfg) : zext 32 (allModcodes cfg) = 0x1FFFFFFE := by
  rw [allModcodes_eq]
  rfl

theorem zext_bit (b : Bool) : zext 1 (bit b) = if b then 1 else 0 := by cases b <;> rfl

/-! ## The last step of INIT (R320) -/

/-- `s` after the last transaction of INIT: the GID fields, and both channels with every modcode enabled. -/
def initEnded (chipId : BitVec 8) (lna : Bool) (s : State) : State :=
  { s with
    glob := { s.glob with
      eng := ended 0x01 .ok s.glob.eng, chipId := chipId, profile := Config.cfg.profileOf chipId, lnaPresent := lna
      ldpcDual := Config.cfg.ldpcModeInitDual, standby := false, initialized := true }
    a := s.a.modcodesWritten false 0x1FFFFFFE, b := s.b.modcodesWritten false 0x1FFFFFFE
    bus := globDid (.devWrite .b .modcodeEn 0x1FFFFFFE) 0 :: s.bus }

theorem engineStep_initDone {s : State} {v lna : Int} {got : List Int} {chipId : BitVec 8} :
    engineStep Config.cfg (ruleOf Config.cfg .init) .init ⟨false, v⟩
        (.before (.devWrite .b .modcodeEn 0x1FFFFFFE) [] (lna :: got) (.initDone chipId)) s =
      some (initEnded chipId (decide (lna = 1)) s) := by
  have hmask : wrap32 (allModcodes Config.cfg) = 0x1FFFFFFE := by rw [allModcodes_eq]; rfl
  simp only [engineStep, perform_write (q := .devWrite .b .modcodeEn 0x1FFFFFFE) nofun rfl, proceed, ruleOf,
    initProgram, plainProgram, settle, initWritten, hmask]
  rfl

/-! ## The steps of the other commands -/

/-- The one step of UNLOCK writes no register of the channel: its acceptance did (R325). -/
theorem exec_unlock {s : State} {c : Chan} {v : Int} (h : Runs s (.unlock c) .start ⟨false, v⟩) :
    exec (.unlock c) s = .next (chanAfter c id (ended 0x42 .ok) [chanDid c (.devWrite c .dmdState 0) 0] s) := by
  refine exec_of_runs h rfl ((engineStep_start_go rfl).trans (engineStep_write_done rfl (by nofun) rfl .id ?_))
  rw [State.updChan_id]
  rfl

/-- Settles O50: each clause is one engine step, at a command's start or at the end of its straight line. -/
theorem lifecycleCompletes : Obligations.LifecycleCompletes := by
  intro s v c dual id lna all cleared
  refine ⟨fun got h => ?init, fun h => ?term, fun h => ?standbyEnter, fun h => ?standbyLeave, fun h => ?ldpcMode,
    exec_unlock, fun h => ?termStart, fun h => ?standbyStart⟩
  case init => exact exec_of_runs h rfl engineStep_initDone
  case term | standbyEnter =>
    refine exec_of_runs h rfl ?_
    exact engineStep_global_done rfl (goesThrough_of_not_fails nofun) (fun _ => rfl) fun _ => rfl
  case standbyLeave =>
    refine exec_of_runs h rfl ((engineStep_start_go rfl).trans ?_)
    exact engineStep_global_done rfl (goesThrough_of_not_fails nofun) (fun _ => rfl) fun _ => rfl
  case ldpcMode =>
    rw [← zext_bit]
    refine exec_of_runs h rfl ((engineStep_start_go rfl).trans ?_)
    exact engineStep_global_done rfl (goesThrough_of_not_fails nofun) (fun _ => rfl) fun _ => rfl
  case termStart | standbyStart =>
    refine exec_of_runs h rfl ((engineStep_start_go rfl).trans ?_)
    exact engineStep_global_next rfl (goesThrough_of_not_fails nofun)

/-! ## A whole INIT (R320) -/

/-- The straight line of INIT up to its last write, with the environment's answers. -/
def initLine (mclk : Word) (v1 v2 v3 v4 v5 v6 : Int) (probe : Answer) : List (Prim × Answer) :=
  [(.globalWrite .mclkCfg (uval mclk), ⟨false, v1⟩), (.globalWrite .devStandby 0, ⟨false, v2⟩),
    (.globalWrite .ldpcMode (bit Config.cfg.ldpcModeInitDual), ⟨false, v3⟩), (.lnaProbe, probe),
    (.devWrite .a .dmdState 0, ⟨false, v4⟩), (.devWrite .a .modcodeEn (allModcodes Config.cfg), ⟨false, v5⟩),
    (.devWrite .b .dmdState 0, ⟨false, v6⟩)]

theorem initLine_goesThrough (mclk : Word) (v1 v2 v3 v4 v5 v6 : Int) (probe : Answer) :
    ∀ x ∈ initLine mclk v1 v2 v3 v4 v5 v6 probe, GoesThrough x.1 x.2 := by
  simp only [initLine, List.forall_mem_cons, List.not_mem_nil, false_imp_iff, implies_true, and_true]
  refine ⟨?_, ?_, ?_, goesThrough_lnaProbe probe, ?_, ?_, ?_⟩ <;> exact goesThrough_of_not_fails nofun

/-- The transactions of `initLine`, as R320 writes them. -/
theorem initLine_events (mclk : Word) (v1 v2 v3 v4 v5 v6 : Int) (fails lna : Bool) :
    lineEvents (initLine mclk v1 v2 v3 v4 v5 v6 ⟨fails, if lna then 1 else 0⟩) =
      [globDid (.devWrite .b .dmdState 0) 0, globDid (.devWrite .a .modcodeEn 0x1FFFFFFE) 0,
        globDid (.devWrite .a .dmdState 0) 0, globDid .lnaProbe (if lna then 1 else 0),
        globDid (.globalWrite .ldpcMode (if Config.cfg.ldpcModeInitDual then 1 else 0)) 0,
        globDid (.globalWrite .devStandby 0) 0, globDid (.globalWrite .mclkCfg mclk.toNat) 0] := by
  have hmclk : zext 32 (uval mclk) = mclk.toNat := zext_uval mclk
  rw [← zext_bit Config.cfg.ldpcModeInitDual, ← zext_allModcodes Config.cfg, ← hmclk]
  cases lna <;> rfl

/-- The first step of INIT: the chip id, with the straight line next. -/
theorem engineStep_init_start {s : State} {chipId : BitVec 8} :
    engineStep Config.cfg (ruleOf Config.cfg .init) .init ⟨false, chipId.toNat⟩ .start s =
      some (globAfter id
        (standing .init (.before (.globalWrite .mclkCfg s.mclk) (initOps Config.cfg) [] (.initDone chipId)))
        [globDid .readChipId chipId.toNat] s) := by
  have hvalue : zext 8 chipId.toNat = chipId.toNat := zext_uval chipId
  refine (engineStep_start_go rfl).trans ((engineStep_global_go (first := .mclkCfg) rfl
    (goesThrough_of_not_fails (by nofun)) fun _ => rfl).trans ?_)
  simp only [resolve, globEvent, Prim.value, Prim.delivered, hvalue, Option.toList_some, Option.getD_some, nth,
    List.nil_append, List.getD_cons_zero, bitsOf_toNat]

/-- The seven turns of `initLine`: a write of MODCODE_EN on channel B is next, and the presence of the LNA is known. -/
theorem steps_initLine {s : State} {chipId : BitVec 8} {v1 v2 v3 v4 v5 v6 : Int} {fails lna : Bool} {ts : List Turn}
    (hs : s.turns = (initLine s.glob.mclk v1 v2 v3 v4 v5 v6 ⟨fails, if lna then 1 else 0⟩).map
      (fun x => .engine .global x.2) ++ ts)
    (hr : s.running .global =
      some ⟨.init, .before (.globalWrite .mclkCfg s.mclk) (initOps Config.cfg) [] (.initDone chipId)⟩) :
    steps 7 s = .next (passed ts 7 (globAfter id
      (standing .init (.before (.devWrite .b .modcodeEn 0x1FFFFFFE) [] [if lna then 1 else 0] (.initDone chipId)))
      (lineEvents (initLine s.glob.mclk v1 v2 v3 v4 v5 v6 ⟨fails, if lna then 1 else 0⟩)) s)) := by
  have hvalues : lineValues (initLine s.glob.mclk v1 v2 v3 v4 v5 v6 ⟨fails, if lna then 1 else 0⟩) =
      [if lna then 1 else 0] := by cases lna <;> rfl
  rw [← allModcodes_eq Config.cfg, ← hvalues]
  exact steps_line (qs := []) rfl rfl _ rfl (initLine_goesThrough _ _ _ _ _ _ _ _) hs hr

/-- The turn of the last transaction of INIT. -/
theorem step_init_last {s : State} {chipId : BitVec 8} {v lna : Int} {got : List Int} {ts : List Turn}
    (hs : s.turns = .engine .global ⟨false, v⟩ :: ts)
    (hr : s.running .global =
      some ⟨.init, .before (.devWrite .b .modcodeEn 0x1FFFFFFE) [] (lna :: got) (.initDone chipId)⟩) :
    step s = .next (passed ts 1 (initEnded chipId (decide (lna = 1)) s)) := by
  have htail : s.turns.tail = ts := by rw [hs, List.tail_cons]
  rw [step_of_engine rfl hs hr engineStep_initDone, ← htail]
  rfl

/-- Settles O49: the read of the chip id, the seven transactions of `initLine`, and the last write. -/
theorem initRuns : Obligations.InitRuns := by
  intro s chipId v1 v2 v3 v4 v5 v6 v7 lna rest fails turn all cleared hr hs
  have hlna : decide ((if lna then 1 else 0 : Int) = 1) = lna := by cases lna <;> rfl
  have hstart := step_globAfter rfl rfl hs hr engineStep_init_start
  refine (steps_succ hstart).trans ?_
  refine (steps_add (m := 7) (n := 1) (steps_initLine (v1 := v1) (v2 := v2) (v3 := v3) (v4 := v4) (v5 := v5) (v6 := v6)
    (fails := fails) (lna := lna) (ts := turn v7 :: rest) rfl rfl)).trans ?_
  refine (steps_succ (step_init_last rfl rfl)).trans ?_
  rw [initLine_events, hlna]
  rfl

end Sys2Proof.Machine
end

section
/-! SUPPORT. A bus transaction that fails (20_memory.md R79; 60_exceptions.md R341): the command ends in BUS_ERROR in that
step, at its first transaction or at a later one, and a SEARCH ends in STATE = BUS_ERROR too (43_search_fsm.md R223). -/

namespace Sys2Proof.Machine

/-- `s` after the failure of the transaction `q`, which ends the command `i` in BUS_ERROR. -/
def busFailed (i : Instr) (q : Prim) (s : State) : State :=
  { s.updEng i.bank (ended i.opcode .busError) with bus := ⟨i.bank, q.delivered, 0, false⟩ :: s.bus }

/-- `s` after the failure of the transaction `q`, which ends channel `c`'s SEARCH in STATE = BUS_ERROR. -/
def searchFailed (c : Chan) (q : Prim) (s : State) : State :=
  chanAfter c (fun ch => { ch with state := .busError, blindPhase := .none }) (ended 0x40 .busError)
    [⟨.chan c, q.delivered, 0, false⟩] s

/-- To record a transaction and then complete writes the history and the engine, and nothing else. -/
theorem complete_logged (i : Instr) (code : CmdResult) (e : Bank) (q : Prim) (v : Int) (ok : Bool) (s : State) :
    complete i code (logged e q v ok s) =
      { s.updEng i.bank (ended i.opcode code) with bus := ⟨e, q.delivered, v, ok⟩ :: s.bus } := by
  unfold complete
  cases i.bank with
  | global => rfl
  | chan c => cases c <;> rfl

theorem complete_busError {i : Instr} (hs : isSearch i = false) (q : Prim) (s : State) :
    complete i .busError ((ruleOf Config.cfg i).onBusError (logged i.bank q 0 false s)) = busFailed i q s := by
  obtain ⟨-, hplain, -⟩ := ruleOf_plain Config.cfg hs (logged i.bank q 0 false s)
  rw [hplain, complete_logged]
  rfl

theorem complete_search_busError (c : Chan) (q : Prim) (s : State) :
    complete (.search c) .busError ((logged (.chan c) q 0 false s).updChan c (Channel.finished .busError)) =
      searchFailed c q s := by
  rw [finished_of_ne_tracking (by decide), complete_updChan rfl fun _ _ => rfl]
  cases c <;> rfl

theorem isSearch_eq_false {i : Instr} (h : ∀ c, i ≠ .search c) : isSearch i = false := by
  rw [← Bool.not_eq_true, isSearch_iff]
  exact not_exists.mpr h

section
variable {i : Instr} {c : Chan} {q : Prim} {rest : List Op} {got : List Int} {k : Kont} {s : State} {v : Int}

/-! ## Inside a straight line -/

theorem exec_busError (hi : isAbort i = false) (hs : isSearch i = false) (hq : ∀ ms, q ≠ .sleep ms) (hl : q ≠ .lnaProbe)
    (h : Runs s i (.before q rest got k) ⟨true, v⟩) : exec i s = .next (busFailed i q s) :=
  exec_of_runs h hi ((perform_fails hq hl).trans (congrArg some (complete_busError hs q s)))

theorem exec_search_busError (hq : ∀ ms, q ≠ .sleep ms) (hl : q ≠ .lnaProbe)
    (h : Runs s (.search c) (.before q rest got k) ⟨true, v⟩) :
    exec (.search c) s = .next (searchFailed c q s) :=
  exec_of_runs h rfl ((perform_fails hq hl).trans (congrArg some (complete_search_busError c q s)))

/-! ## At the first transaction -/

/-- The rule of `i` starts from `s` with the transaction `q`, one that can fail. -/
def StartsWith (i : Instr) (q : Prim) (s : State) : Prop :=
  (∀ ms, q ≠ .sleep ms) ∧ q ≠ .lnaProbe ∧
    ∃ first rest k, (ruleOf Config.cfg i).entry s = .go s first rest k ∧ resolve Config.cfg s first = q

theorem startsWith_of_entry (hq : ∀ ms, q ≠ .sleep ms) (hl : q ≠ .lnaProbe)
    (h : (ruleOf Config.cfg i).entry s = .go s (.prim q) rest k) : StartsWith i q s := ⟨hq, hl, _, _, _, h, rfl⟩

theorem engineStep_startsWith (h : StartsWith i q s) :
    engineStep Config.cfg (ruleOf Config.cfg i) i ⟨true, v⟩ .start s =
      some (complete i .busError ((ruleOf Config.cfg i).onBusError (logged i.bank q 0 false s))) := by
  obtain ⟨hq, hl, first, rest, k, hentry, rfl⟩ := h
  exact (engineStep_start_go hentry).trans (perform_fails hq hl)

theorem exec_start_busError (hi : isAbort i = false) (hs : isSearch i = false) (hq : StartsWith i q s)
    (h : Runs s i .start ⟨true, v⟩) : exec i s = .next (busFailed i q s) :=
  exec_of_runs h hi ((engineStep_startsWith hq).trans (congrArg some (complete_busError hs q s)))

theorem exec_search_start_busError (hq : StartsWith (.search c) q s) (h : Runs s (.search c) .start ⟨true, v⟩) :
    exec (.search c) s = .next (searchFailed c q s) :=
  exec_of_runs h rfl ((engineStep_startsWith hq).trans (congrArg some (complete_search_busError c q s)))

end

/-- With WR and a puncture rate other than 7, SELECT_STANDARD starts with the write of STD_EN_S1 (R181, R182). -/
theorem startsWith_selectStandard {c : Chan} {s : State} (hpr : modePr (s.chan c).arg0 ≠ 7) :
    StartsWith (.selectStandard c true) (.devWrite c .stdEnS1 (if modeStd (s.chan c).arg0 = 3 then 0 else 1)) s := by
  refine ⟨nofun, nofun, _, _, _, if_neg hpr, ?_⟩
  rcases eq_of_two_bits (modeStd (s.chan c).arg0) with hstd | hstd | hstd | hstd <;> rw [hstd] <;> rfl

/-- The first step of a SEARCH whose first transaction would fail: BAD_PARAMETER with none (R204), or the failure of the
write of MODCODE_EN (R201) or of the read of AGC1_INTEG (R205). -/
theorem exec_search_start_fails {s : State} {c : Chan} {v : Int} (h : Runs s (.search c) .start ⟨true, v⟩) :
    exec (.search c) s = .next
      (if validRequest Config.cfg (s.chan c).req = false then
        chanAfter c (fun ch => { ch with state := .badParameter, blindPhase := .none }) (ended 0x40 .ok) [] s
      else if Config.cfg.searchReenablesModcodes = true ∧ (s.chan c).stoppedMirror = true then
        searchFailed c (.devWrite c .modcodeEn 0x1FFFFFFE) s
      else searchFailed c (.devRead c .agc1Integ) s) := by
  split
  · exact exec_search_badParameter h ‹_›
  rename_i hvalid
  have hentry : (ruleOf Config.cfg (.search c)).entry s =
      if Config.cfg.searchReenablesModcodes && (s.chan c).stoppedMirror then
        .go s (wr c .modcodeEn (allModcodes Config.cfg)) [] (.search .reenabled)
      else precheck c s := if_neg (by simpa using hvalid)
  split
  · rename_i hre
    refine exec_search_start_busError ⟨nofun, nofun, _, _, _, hentry.trans (if_pos (by simpa using hre)), ?_⟩ h
    rw [allModcodes_eq]
    rfl
  · rename_i hre
    exact exec_search_start_busError ⟨nofun, nofun, _, _, _, hentry.trans (if_neg (by simpa using hre)), rfl⟩ h

/-- Settles O44: inside a straight line `perform_fails` is the step; at the start it is the same step after the entry,
which is read off the rule of each command listed. -/
theorem busErrorEndsCommand : Obligations.BusErrorEndsCommand := by
  intro s v failed searchFailed
  refine ⟨?inside, ?first, fun c h => exec_search_start_fails h⟩
  case inside =>
    intro i q rest got k hi hq hl h
    refine ⟨fun hs => exec_busError (isAbort_eq_false hi) (isSearch_eq_false hs) hq hl h, ?_⟩
    rintro c rfl
    exact exec_search_busError hq hl h
  case first =>
    intro i c dual q made h ch gain hmem hmade
    simp only [List.mem_cons, Prod.mk.injEq, List.not_mem_nil, or_false] at hmem
    -- one case for each command of the list, in its order
    rcases hmem with ⟨rfl, rfl, rfl⟩ | ⟨rfl, rfl, rfl⟩ | ⟨rfl, rfl, rfl⟩ | ⟨rfl, rfl, rfl⟩ | ⟨rfl, rfl, rfl⟩ |
      ⟨rfl, rfl, rfl⟩ | ⟨rfl, rfl, rfl⟩ | ⟨rfl, rfl, rfl⟩ | ⟨rfl, rfl, rfl⟩ | ⟨rfl, rfl, rfl⟩ | ⟨rfl, rfl, rfl⟩ |
      ⟨rfl, rfl, rfl⟩ | ⟨rfl, rfl, rfl⟩ | ⟨rfl, rfl, rfl⟩ | ⟨rfl, rfl, rfl⟩ | ⟨rfl, rfl, rfl⟩
    all_goals refine exec_start_busError rfl rfl ?_ h
    -- INIT to GET_RF_LEVEL
    iterate 6 exact startsWith_of_entry nofun nofun rfl
    -- GET_CN, locked
    · exact startsWith_of_entry nofun nofun (if_pos hmade)
    -- the estimators
    iterate 3 exact startsWith_of_entry nofun nofun rfl
    -- SELECT_STANDARD
    · exact startsWith_selectStandard (bne_iff_ne.mp hmade)
    -- SELECT_CLG and UNLOCK
    iterate 2 exact startsWith_of_entry nofun nofun rfl
    -- GET_SIGNAL_INFO and GET_PER, locked
    iterate 2 exact startsWith_of_entry nofun nofun (if_pos hmade)
    -- LDPC_MONITOR
    · exact startsWith_of_entry nofun nofun rfl

end Sys2Proof.Machine
end

section
/-! SUPPORT. A command of one channel and the rest of the machine (60_exceptions.md R352; 10_state.md R20): two runs of it
that agree on its own bank and on the global bank go on agreeing, and neither changes anything else but the bus history.
The states of two such runs, and the rules of the commands other than SEARCH. -/

namespace Sys2Proof.Machine

/-! ## Mirrored states -/

/-- `t` has channel `c` and the global bank of `s`, and all else but the bus history of `u`, whose global bank is the
same one. -/
structure Mirrors (c : Chan) (u s t : State) : Prop where
  chan : t.chan c = s.chan c
  glob : t.glob = s.glob
  same_glob : t.glob = u.glob
  others : ∀ d, d ≠ c → t.chan d = u.chan d
  hostData : t.hostData = u.hostData
  turns : t.turns = u.turns
  tick : t.tick = u.tick

/-- Flows to the same program point or the same end, in mirrored states. -/
inductive FlowMirrors (c : Chan) (u : State) : Flow → Flow → Prop
  | go {s t : State} {first : Op} {rest : List Op} {k : Kont} (h : Mirrors c u s t) :
      FlowMirrors c u (.go s first rest k) (.go t first rest k)
  | done {s t : State} {code : CmdResult} (h : Mirrors c u s t) : FlowMirrors c u (.done s code) (.done t code)
  | stray : FlowMirrors c u .stray .stray

section
variable {cfg : Cfg} {c : Chan} {u s t : State}

theorem mirrors_of_agree (hchan : t.chan c = s.chan c) (hglob : t.glob = s.glob) : Mirrors c t s t :=
  ⟨hchan, hglob, rfl, fun _ _ => rfl, rfl, rfl, rfl⟩

theorem Mirrors.mclk (h : Mirrors c u s t) : t.mclk = s.mclk := by rw [State.mclk, h.glob, State.mclk]

theorem Mirrors.prof (h : Mirrors c u s t) : t.prof cfg = s.prof cfg := by rw [State.prof, h.glob, State.prof]

theorem Mirrors.updChan (h : Mirrors c u s t) (f : Channel → Channel) :
    Mirrors c u (s.updChan c f) (t.updChan c f) where
  chan := by rw [State.updChan_chan, State.updChan_chan, h.chan]
  glob := by rw [State.updChan_glob, State.updChan_glob, h.glob]
  same_glob := by rw [State.updChan_glob, h.same_glob]
  others d hd := by rw [State.updChan_chan_other t f hd, h.others d hd]
  hostData := by rw [State.updChan_hostData, h.hostData]
  turns := by rw [State.updChan_turns, h.turns]
  tick := by rw [State.updChan_tick, h.tick]

theorem Mirrors.updEng (h : Mirrors c u s t) {e : Bank} (he : e = .chan c) (f : Engine → Engine) :
    Mirrors c u (s.updEng e f) (t.updEng e f) := by
  subst he
  exact h.updChan fun ch => { ch with eng := f ch.eng }

theorem Mirrors.logged (h : Mirrors c u s t) (e : Bank) (q : Prim) (v : Int) (ok : Bool) :
    Mirrors c u (logged e q v ok s) (logged e q v ok t) where
  chan := by rw [logged_chan, logged_chan, h.chan]
  glob := h.glob
  same_glob := h.same_glob
  others d hd := by rw [logged_chan, h.others d hd]
  hostData := h.hostData
  turns := h.turns
  tick := h.tick

theorem Mirrors.resolve (h : Mirrors c u s t) (op : Op) : resolve cfg t op = resolve cfg s op := by
  cases op <;> simp only [Machine.resolve, h.mclk, h.prof]

end

/-! ## Rules of one channel -/

/-- Every computation of the rule `p` keeps states mirrored on channel `c`, and leads to the same point or end. -/
structure Program.LocalTo (c : Chan) (p : Program) : Prop where
  onAccept : ∀ {u s t}, Mirrors c u s t → Mirrors c u (p.onAccept s) (p.onAccept t)
  entry : ∀ {u s t}, Mirrors c u s t → FlowMirrors c u (p.entry s) (p.entry t)
  resume : ∀ {u s t}, Mirrors c u s t → ∀ k got, FlowMirrors c u (p.resume k got s) (p.resume k got t)
  onBusError : ∀ {u s t}, Mirrors c u s t → Mirrors c u (p.onBusError s) (p.onBusError t)
  aborting : ∀ {u s t}, Mirrors c u s t → p.aborting t = p.aborting s
  onAbort : ∀ {u s t}, Mirrors c u s t → Mirrors c u (p.onAbort s) (p.onAbort t)

theorem plainProgram_localTo {c : Chan} {entry : State → Flow} {resume : Kont → List Int → State → Flow}
    (he : ∀ {u s t}, Mirrors c u s t → FlowMirrors c u (entry s) (entry t))
    (hr : ∀ {u s t}, Mirrors c u s t → ∀ k got, FlowMirrors c u (resume k got s) (resume k got t)) :
    (plainProgram entry resume).LocalTo c := ⟨id, he, hr, id, fun _ => rfl, id⟩

/-- The rule of a command that completes in its first step has no later program point. -/
theorem plainProgram_localTo_entry {c : Chan} {entry : State → Flow}
    (he : ∀ {u s t}, Mirrors c u s t → FlowMirrors c u (entry s) (entry t)) :
    (plainProgram entry fun _ _ _ => .stray).LocalTo c := plainProgram_localTo he fun _ _ _ => .stray

section
variable (cfg : Cfg) (c : Chan)

/-! ### Lookup -/

theorem interpProgram_localTo (table : BitVec 3) : (interpProgram cfg c table).LocalTo c :=
  plainProgram_localTo_entry fun h => by
    split
    · exact .done (h.updChan _)
    · exact .stray

theorem interp2Program_localTo (coarse fine : BitVec 3) : (interp2Program cfg c coarse fine).LocalTo c :=
  plainProgram_localTo_entry fun h => by
    split
    · exact .done (h.updChan _)
    · exact .stray

theorem getRfLevelProgram_localTo : (getRfLevelProgram cfg c).LocalTo c :=
  plainProgram_localTo (fun h => .go h) fun h k got => by
    split
    · rw [h.glob]
      split
      · exact .go h
      · exact .done (h.updChan _)
    · exact .done (h.updChan _)
    · exact .stray

theorem getCnProgram_localTo : (getCnProgram cfg c).LocalTo c :=
  plainProgram_localTo
    (fun h => by
      rw [h.chan]
      split
      · exact .go h
      · exact .done (h.updChan _))
    fun h k got => by
      split
      · exact .go h
      · exact .done (h.updChan _)
      · exact .stray

/-! ### Estimators -/

/-- A decoding command whose result depends on its own bank and the global bank. -/
theorem decodeProgram_localTo (dev : Bool) (field : ReadField) (arg : Channel → Int) (k : Kont)
    {result : State → Int → Int} (hr : ∀ {u s t}, Mirrors c u s t → result t = result s) :
    (decodeProgram c dev field arg k result).LocalTo c :=
  plainProgram_localTo
    (fun h => by
      rw [hr h]
      split
      · exact .go h
      · exact .done (h.updChan _))
    fun h k got => by
      rw [hr h]
      split
      · exact .done (h.updChan _)
      · exact .stray

theorem carrierOffsetProgram_localTo (dev : Bool) : (carrierOffsetProgram c dev).LocalTo c :=
  decodeProgram_localTo _ _ _ _ _ fun h => by rw [h.mclk]

theorem symbolRateProgram_localTo (dev : Bool) : (symbolRateProgram c dev).LocalTo c :=
  decodeProgram_localTo _ _ _ _ _ fun h => by rw [h.mclk]

theorem timingOffsetProgram_localTo (dev : Bool) : (timingOffsetProgram cfg c dev).LocalTo c :=
  decodeProgram_localTo _ _ _ _ _ fun h => by rw [h.chan]

theorem encSymbolRateProgram_localTo : (encSymbolRateProgram c).LocalTo c :=
  plainProgram_localTo_entry fun h => by
    rw [h.mclk]
    exact .done (h.updChan _)

/-! ### Configuration -/

theorem selectStandardProgram_localTo (wr : Bool) : (selectStandardProgram cfg c wr).LocalTo c :=
  plainProgram_localTo
    (fun h => by
      simp only [h.chan]
      split
      · exact .done h
      split
      · exact .go h
      · exact .done (h.updChan _))
    fun h k got => by
      split
      · exact .done (h.updChan _)
      · exact .stray

theorem computeTimeoutsProgram_localTo (algo : BitVec 2) : (computeTimeoutsProgram cfg c algo).LocalTo c :=
  plainProgram_localTo_entry fun h => by
    split
    · exact .done (h.updChan _)
    · exact .stray

theorem selectClgProgram_localTo (wr : Bool) : (selectClgProgram cfg c wr).LocalTo c :=
  plainProgram_localTo
    (fun h => by
      simp only [h.chan, h.prof]
      split
      · exact .go h
      · exact .done (h.updChan _))
    fun h k got => by
      split
      · exact .done (h.updChan _)
      · exact .stray

theorem unlockProgram_localTo : (unlockProgram c).LocalTo c where
  onAccept h := h.updChan _
  entry h := .go h
  resume h k got := by
    simp only [unlockProgram, plainProgram]
    split
    · exact .done h
    · exact .stray
  onBusError := id
  aborting _ := rfl
  onAbort := id

end

/-! ### Telemetry -/

section
variable {cfg : Cfg} {c : Chan} {u s t : State}

theorem infoFinish_mirrors (p : InfoLocals) (cn : Int) (h : Mirrors c u s t) :
    FlowMirrors c u (infoFinish cfg c p cn s) (infoFinish cfg c p cn t) := by
  unfold infoFinish
  split
  · exact .go h
  · exact .done (h.updChan _)

theorem infoMeasure_mirrors (p : InfoLocals) (h : Mirrors c u s t) :
    FlowMirrors c u (infoMeasure cfg c p s) (infoMeasure cfg c p t) := by
  unfold infoMeasure
  rw [h.chan]
  split
  · exact .go h
  · exact infoFinish_mirrors p 0 h

/-- The computations of GET_SIGNAL_INFO between its straight lines. -/
theorem infoResume_mirrors (k : Kont) (got : List Int) (h : Mirrors c u s t) :
    FlowMirrors c u (infoResume cfg c k got s) (infoResume cfg c k got t) := by
  cases k with
  | infoCar | infoSfr freq =>
    simp only [infoResume, h.mclk]
    exact .go h
  | infoStd freq srN | infoCnStd p => exact .go h
  | infoAgc freq srT std =>
    simp only [infoResume, h.glob]
    split
    · exact .go h
    · exact infoMeasure_mirrors _ h
  | infoGain p => exact infoMeasure_mirrors _ h
  | infoCnSamples p std => exact infoFinish_mirrors _ _ h
  | infoReset p cn => exact .done (h.updChan _)
  | _ => exact .stray

end

section
variable (cfg : Cfg) (c : Chan)

theorem getSignalInfoProgram_localTo : (getSignalInfoProgram cfg c).LocalTo c :=
  plainProgram_localTo
    (fun h => by
      rw [h.chan]
      split
      · exact .go h
      · exact .done (h.updChan _))
    fun h k got => infoResume_mirrors k got h

theorem getPerProgram_localTo : (getPerProgram c).LocalTo c :=
  plainProgram_localTo
    (fun h => by
      rw [h.chan]
      split
      · exact .go h
      · exact .done (h.updChan _))
    fun h k got => by
      split
      · exact .done (h.updChan _)
      · exact .stray

theorem ldpcMonitorProgram_localTo : (ldpcMonitorProgram cfg c).LocalTo c :=
  plainProgram_localTo (fun h => .go h) fun h k got => by
    split
    · simp only [h.chan]
      split
      · exact .go (h.updChan _)
      split
      · exact .go (h.updChan _)
      · exact .done ((h.updChan _).updChan _)
    · exact .done (h.updChan _)
    · exact .done (h.updChan _)
    · exact .stray

end

end Sys2Proof.Machine
end

section
/-! SUPPORT. The computations of a SEARCH from mirrored states (60_exceptions.md R352; 43_search_fsm.md, 44_blind_zigzag.md):
they look only at the channel's own bank and at the global bank, and write only the former. -/

namespace Sys2Proof.Machine

section
variable {cfg : Cfg} {c : Chan} {a : Attempt} {u s t : State}

theorem finish_mirrors (st : SearchState) (h : Mirrors c u s t) : FlowMirrors c u (finish c st s) (finish c st t) :=
  .done (h.updChan _)

theorem beginAttempt_mirrors (h : Mirrors c u s t) :
    FlowMirrors c u (beginAttempt cfg c a s) (beginAttempt cfg c a t) := .go (h.updChan _)

theorem endAttempt_mirrors (out : SearchState) (h : Mirrors c u s t) :
    FlowMirrors c u (endAttempt cfg c a out s) (endAttempt cfg c a out t) := by
  unfold endAttempt
  split
  · exact finish_mirrors _ h
  · exact beginAttempt_mirrors h
  · exact finish_mirrors _ h

theorem waitFor_mirrors {f : ReadField} {n : Nat} {site : WaitSite} {timedOut : State → Flow}
    (h : Mirrors c u s t) (ho : FlowMirrors c u (timedOut s) (timedOut t)) :
    FlowMirrors c u (waitFor c f n site timedOut s) (waitFor c f n site timedOut t) := by
  unfold waitFor
  split
  · exact ho
  · exact .go h

theorem beginReadback_mirrors (fTmo : Nat) (h : Mirrors c u s t) :
    FlowMirrors c u (beginReadback c a fTmo s) (beginReadback c a fTmo t) := .go (h.updChan _)

theorem timingReference_mirrors (bl : BlindLocals) (h : Mirrors c u s t) :
    FlowMirrors c u (timingReference cfg c a bl s) (timingReference cfg c a bl t) := by
  unfold timingReference
  rw [h.prof]
  split
  · exact .go h
  · exact endAttempt_mirrors _ h

theorem nextReference_mirrors (bl : BlindLocals) (h : Mirrors c u s t) :
    FlowMirrors c u (nextReference cfg c a bl s) (nextReference cfg c a bl t) := by
  unfold nextReference
  rw [h.prof]
  exact timingReference_mirrors _ h

theorem sweepNext_mirrors (k : Nat) (minA : Int) (h : Mirrors c u s t) :
    FlowMirrors c u (sweepNext cfg c a k minA s) (sweepNext cfg c a k minA t) := by
  unfold sweepNext
  rw [h.prof]
  split
  · exact .go h
  split
  · exact endAttempt_mirrors _ h
  · exact timingReference_mirrors _ h

theorem beginBlind_mirrors (h : Mirrors c u s t) :
    FlowMirrors c u (beginBlind cfg c a s) (beginBlind cfg c a t) := .go ((h.updChan _).updChan _)

theorem beginCoarse_mirrors (bl : BlindLocals) (h : Mirrors c u s t) :
    FlowMirrors c u (beginCoarse cfg c a bl s) (beginCoarse cfg c a bl t) := by
  unfold beginCoarse
  rw [h.prof]
  exact .go (h.updChan _)

theorem coarseNext_mirrors (bl : BlindLocals) (k : Nat) (got : List Int) (h : Mirrors c u s t) :
    FlowMirrors c u (coarseNext cfg c a bl k got s) (coarseNext cfg c a bl k got t) := by
  simp only [coarseNext, h.mclk, h.prof]
  split
  · exact endAttempt_mirrors _ h
  split
  · exact .go h
  split
  · exact .go h
  · exact nextReference_mirrors _ h

theorem zzTrial_mirrors (z : ZigLocals) (h : Mirrors c u s t) :
    FlowMirrors c u (zzTrial cfg c a z s) (zzTrial cfg c a z t) := by
  unfold zzTrial
  split
  · exact endAttempt_mirrors _ h
  split
  · exact endAttempt_mirrors _ h
  · exact .go h

theorem zzFalseLock_mirrors (z : ZigLocals) (h : Mirrors c u s t) :
    FlowMirrors c u (zzFalseLock cfg c a z s) (zzFalseLock cfg c a z t) := by
  unfold zzFalseLock
  split
  · exact endAttempt_mirrors _ h
  · exact zzTrial_mirrors _ h

theorem zzAbsentNext_mirrors (z : ZigLocals) (got : List Int) (h : Mirrors c u s t) :
    FlowMirrors c u (zzAbsentNext cfg c a z got s) (zzAbsentNext cfg c a z got t) := by
  unfold zzAbsentNext
  rw [h.prof, h.mclk]
  split
  · exact endAttempt_mirrors _ h
  · exact zzTrial_mirrors _ h

theorem workaroundApplies_mirrors (res : Readback) (h : Mirrors c u s t) :
    workaroundApplies cfg c res t = workaroundApplies cfg c res s := by
  unfold workaroundApplies
  rw [h.prof, h.chan]

theorem fecDone_mirrors (res : Readback) (ok : Bool) (h : Mirrors c u s t) :
    FlowMirrors c u (fecDone cfg c a res ok s) (fecDone cfg c a res ok t) := by
  unfold fecDone
  rw [workaroundApplies_mirrors res h, h.chan]
  split
  · exact .go (h.updChan _)
  split
  · split
    · exact beginAttempt_mirrors h
    · exact finish_mirrors _ h
  · exact endAttempt_mirrors _ h
  · exact endAttempt_mirrors _ h

theorem relockDone_mirrors (res : Readback) (fTmo tries : Nat) (ok : Bool) (h : Mirrors c u s t) :
    FlowMirrors c u (relockDone cfg c a res fTmo tries ok s) (relockDone cfg c a res fTmo tries ok t) := by
  unfold relockDone
  split
  · exact waitFor_mirrors h (fecDone_mirrors res false h)
  split
  · exact .go h
  · exact endAttempt_mirrors _ h

theorem optimize_mirrors (res : Readback) (fTmo : Nat) (h : Mirrors c u s t) :
    FlowMirrors c u (optimize cfg c a res fTmo s) (optimize cfg c a res fTmo t) := by
  unfold optimize
  rw [h.prof]
  exact .go (h.updChan _)

theorem readbackDone_mirrors (fTmo : Nat) (res : Readback) (h : Mirrors c u s t) :
    FlowMirrors c u (readbackDone cfg c a fTmo res s) (readbackDone cfg c a fTmo res t) := by
  unfold readbackDone
  rw [h.chan]
  split
  · exact endAttempt_mirrors _ (h.updChan _)
  · exact optimize_mirrors _ _ (h.updChan _)

theorem branchByAlgo_mirrors (h : Mirrors c u s t) :
    FlowMirrors c u (branchByAlgo cfg c a s) (branchByAlgo cfg c a t) := by
  unfold branchByAlgo
  split
  · exact beginBlind_mirrors h
  · exact .go (h.updChan _)
  · exact .go (h.updChan _)

theorem directDone_mirrors (ok : Bool) (h : Mirrors c u s t) :
    FlowMirrors c u (directDone cfg c a ok s) (directDone cfg c a ok t) := by
  unfold directDone
  split
  · exact beginReadback_mirrors _ h
  split
  · split
    · exact endAttempt_mirrors _ h
    · exact .go h
  · exact endAttempt_mirrors _ h

theorem waitDone_mirrors (site : WaitSite) (ok : Bool) (h : Mirrors c u s t) :
    FlowMirrors c u (waitDone cfg c site ok s) (waitDone cfg c site ok t) := by
  cases site with
  | direct a => exact directDone_mirrors ok h
  | zigzag a z =>
    simp only [waitDone, zzDone]
    split <;> exact .go h
  | fine a bl srC =>
    simp only [waitDone, fineDone]
    split
    · exact beginReadback_mirrors _ h
    · exact nextReference_mirrors _ h
  | relock a res fTmo tries => exact relockDone_mirrors res fTmo tries ok h
  | fec a res fTmo => exact fecDone_mirrors res ok h

theorem firstAttempt_mirrors (h : Mirrors c u s t) :
    FlowMirrors c u (firstAttempt cfg c s) (firstAttempt cfg c t) := by
  unfold firstAttempt
  rw [h.chan]
  split
  · exact beginAttempt_mirrors h
  · exact .stray

theorem searchEntry_mirrors (h : Mirrors c u s t) :
    FlowMirrors c u (searchEntry cfg c s) (searchEntry cfg c t) := by
  unfold searchEntry
  rw [h.chan]
  split
  · exact finish_mirrors _ h
  split
  · exact .go h
  · exact .go h

/-- The computations of SEARCH between its straight lines. -/
theorem searchResume_mirrors (p : SearchPoint) (got : List Int) (h : Mirrors c u s t) :
    FlowMirrors c u (searchResume cfg c p got s) (searchResume cfg c p got t) := by
  cases p with
  | reenabled => exact .go (h.updChan _)
  | agc1 =>
    simp only [searchResume, agc1Next]
    split
    · exact .go h
    · exact firstAttempt_mirrors h
  | power =>
    simp only [searchResume, powerNext]
    split
    · exact finish_mirrors _ h
    · exact firstAttempt_mirrors h
  | coarseDone a => exact branchByAlgo_mirrors h
  | armed site => exact waitFor_mirrors h (waitDone_mirrors site false h)
  | wait site left =>
    simp only [searchResume, waitNext]
    split
    · exact waitDone_mirrors site true h
    split
    · exact waitDone_mirrors site false h
    · exact .go h
  | tmgLock a =>
    simp only [searchResume]
    split
    · exact endAttempt_mirrors _ h
    · exact zzTrial_mirrors _ (h.updChan _)
  | zzStd a z =>
    simp only [searchResume]
    split
    · exact .go h
    · exact beginReadback_mirrors _ h
  | zzFly a z =>
    simp only [searchResume]
    split
    · exact beginReadback_mirrors _ h
    · exact .go h
  | zzFlyAgain a z =>
    simp only [searchResume]
    split
    · exact beginReadback_mirrors _ h
    · exact zzFalseLock_mirrors z h
  | zzAbsent a z => exact zzAbsentNext_mirrors z got h
  | sweep a k minA => exact sweepNext_mirrors k _ h
  | tmgRef a bl => exact beginCoarse_mirrors bl h
  | coarseStep a bl k => exact coarseNext_mirrors bl k got h
  | coarseCar a bl srC fAct =>
    simp only [searchResume, h.mclk]
    exact .go (h.updChan _)
  | readStd a fTmo => exact .go h
  | readRest a fTmo std cRaw sRaw tRaw =>
    simp only [searchResume, h.mclk]
    exact readbackDone_mirrors fTmo _ h
  | fecCleared => exact finish_mirrors _ h

end

/-! ## The rule -/

theorem searchProgram_localTo (cfg : Cfg) (c : Chan) : (searchProgram cfg c).LocalTo c where
  onAccept h := h.updChan _
  entry := searchEntry_mirrors
  resume h k got := by
    simp only [searchProgram]
    split
    · exact searchResume_mirrors _ got h
    · exact .stray
  onBusError h := h.updChan _
  aborting h := by simp only [searchProgram, h.chan]
  onAbort h := h.updChan _

end Sys2Proof.Machine
end

section
/-! SUPPORT. One step of a channel command from mirrored states, and the two channels' independence (60_exceptions.md R352;
10_state.md R20). -/

namespace Sys2Proof.Machine

/-- The rule of every command of channel `c` (30_encoding.md R102). -/
theorem ruleOf_localTo (cfg : Cfg) {i : Instr} {c : Chan} (hb : i.bank = .chan c) : (ruleOf cfg i).LocalTo c := by
  cases i with
  | init | term | standby enter | setLdpcMode dual => cases hb
  | interp d table => cases hb; exact interpProgram_localTo cfg c table
  | interp2 d coarse fine => cases hb; exact interp2Program_localTo cfg c coarse fine
  | getRfLevel d => cases hb; exact getRfLevelProgram_localTo cfg c
  | getCn d => cases hb; exact getCnProgram_localTo cfg c
  | carrierOffset d dev => cases hb; exact carrierOffsetProgram_localTo c dev
  | symbolRate d dev => cases hb; exact symbolRateProgram_localTo c dev
  | timingOffset d dev => cases hb; exact timingOffsetProgram_localTo cfg c dev
  | encSymbolRate d => cases hb; exact encSymbolRateProgram_localTo c
  | selectStandard d wr => cases hb; exact selectStandardProgram_localTo cfg c wr
  | computeTimeouts d algo => cases hb; exact computeTimeoutsProgram_localTo cfg c algo
  | selectClg d wr => cases hb; exact selectClgProgram_localTo cfg c wr
  | search d => cases hb; exact searchProgram_localTo cfg c
  | abort d => exact plainProgram_localTo_entry fun _ => .stray
  | unlock d => cases hb; exact unlockProgram_localTo c
  | getSignalInfo d => cases hb; exact getSignalInfoProgram_localTo cfg c
  | getPer d => cases hb; exact getPerProgram_localTo c
  | ldpcMonitor d => cases hb; exact ldpcMonitorProgram_localTo cfg c

/-! ## Engine steps -/

section
variable {cfg : Cfg} {p : Program} {i : Instr} {c : Chan} {u s t : State} {ans : Answer}

theorem settle_mirrors (hb : i.bank = .chan c) {fl fl' : Flow} (h : FlowMirrors c u fl fl') :
    Option.Rel (Mirrors c u) (settle cfg i fl) (settle cfg i fl') := by
  cases h with
  | go h =>
    simp only [settle, h.resolve]
    exact .some (h.updEng hb _)
  | done h => exact .some (h.updEng hb _)
  | stray => exact .none

theorem proceed_mirrors (hb : i.bank = .chan c) (hp : p.LocalTo c) (rest : List Op) (got : List Int) (k : Kont)
    (h : Mirrors c u s t) :
    Option.Rel (Mirrors c u) (proceed cfg p i rest got k s) (proceed cfg p i rest got k t) := by
  cases rest with
  | nil => exact settle_mirrors hb (hp.resume h k got)
  | cons op ops =>
    simp only [proceed, h.resolve]
    exact .some (h.updEng hb _)

theorem perform_mirrors (hb : i.bank = .chan c) (hp : p.LocalTo c) (now : Prim) (rest : List Op) (got : List Int)
    (k : Kont) (h : Mirrors c u s t) :
    Option.Rel (Mirrors c u) (perform cfg p i ans now rest got k s) (perform cfg p i ans now rest got k t) := by
  unfold perform
  split
  · rw [hp.aborting h]
    split
    · exact .some ((hp.onAbort h).updEng hb _)
    · exact proceed_mirrors hb hp _ _ _ (h.updEng hb _)
  · unfold transact
    split
    · exact .some ((hp.onBusError (h.logged _ _ _ _)).updEng hb _)
    split
    · exact proceed_mirrors hb hp _ _ _ (h.logged _ _ _ _)
    · exact proceed_mirrors hb hp _ _ _ (h.logged _ _ _ _)

theorem engineStep_mirrors (hb : i.bank = .chan c) (hp : p.LocalTo c) (point : Point) (h : Mirrors c u s t) :
    Option.Rel (Mirrors c u) (engineStep cfg p i ans point s) (engineStep cfg p i ans point t) := by
  cases point with
  | before now rest got k => exact perform_mirrors hb hp now rest got k h
  | start =>
    have he := hp.entry h
    simp only [engineStep]
    generalize p.entry s = fl at he
    generalize p.entry t = fl' at he
    cases he with
    | go h' =>
      simp only [h'.resolve]
      exact perform_mirrors hb hp _ _ _ _ h'
    | done h' => exact .some (h'.updEng hb _)
    | stray => exact .none

theorem getD_of_rel {r : State → State → Prop} {o o' : Option State} (h : Option.Rel r o o') (hst : r s t) :
    r (o.getD s) (o'.getD t) := by
  cases h with
  | some h => exact h
  | none => exact hst

/-- The turn of an engine that is not the command's moves nothing. -/
theorem engineTurn_other {e : Bank} (he : e ≠ i.bank) : engineTurn cfg i p e ans s = s := by
  rcases engineTurn_cases (rfl : engineTurn cfg i p e ans s = _) with h | ⟨_, _, h, _⟩
  · exact h
  · exact absurd h he

theorem engineTurn_mirrors (hb : i.bank = .chan c) (hp : p.LocalTo c) (e : Bank) (h : Mirrors c u s t) :
    Mirrors c u (engineTurn cfg i p e ans s) (engineTurn cfg i p e ans t) := by
  by_cases he : e = i.bank
  · have hrun : t.running e = s.running e := by
      rw [he, hb, State.running, State.eng_chan, h.chan, State.running, State.eng_chan]
    unfold engineTurn
    rw [hrun]
    split
    · split
      · exact getD_of_rel (engineStep_mirrors hb hp _ h) h
      · exact h
    · exact h
  · rw [engineTurn_other he, engineTurn_other he]
    exact h

/-! ## Host turns and commands -/

/-- R105 lines (4) to (8) look only at the channel's own engine and the global bank. -/
theorem rejection_mirrors (hb : i.bank = .chan c) (h : Mirrors c u s t) : rejection i t = rejection i s := by
  have hg : gatedByChannels i = false := by
    cases i with
    | init | term | standby enter | setLdpcMode dual => cases hb
    | _ => rfl
  unfold rejection badOperand
  rw [hb, State.eng_chan, State.eng_chan, h.chan, h.glob, hg, Bool.false_and, Bool.false_and]

theorem hostTurn_mirrors (hb : i.bank = .chan c) (hp : p.LocalTo c) (h : Mirrors c u s t) :
    Mirrors c u (hostTurn i p s) (hostTurn i p t) := by
  unfold hostTurn
  rw [rejection_mirrors hb h]
  split
  · exact h.updEng hb _
  · exact hp.onAccept (h.updEng hb _)

theorem abortRequested_mirrors (h : Mirrors c u s t) : Mirrors c u (abortRequested c s) (abortRequested c t) := by
  unfold abortRequested
  rw [h.chan]
  split
  · exact h.updChan _
  · exact h

/-- A command of channel `c`, in the same turn from mirrored states. -/
theorem exec_mirrors (hb : i.bank = .chan c) (h : Mirrors c u s t) (hnow : t.now = s.now) :
    ∃ s' t', exec i s = .next s' ∧ exec i t = .next t' ∧ Mirrors c u s' t' := by
  cases hi : isAbort i with
  | true =>
    cases i with
    | abort d =>
      cases hb
      cases hn : s.now with
      | host acc => exact ⟨_, _, exec_abort_host c hn, exec_abort_host c (hnow.trans hn), abortRequested_mirrors h⟩
      | engine e ans => exact ⟨s, t, exec_abort_engine c hn, exec_abort_engine c (hnow.trans hn), h⟩
    | _ => cases hi
  | false =>
    have hp := ruleOf_localTo Config.cfg hb
    rw [exec_eq_runCommand hi, exec_eq_runCommand hi]
    cases hn : s.now with
    | host acc =>
      exact ⟨_, _, runCommand_host _ _ _ hn, runCommand_host _ _ _ (hnow.trans hn), hostTurn_mirrors hb hp h⟩
    | engine e ans =>
      exact ⟨_, _, runCommand_engine _ _ _ hn, runCommand_engine _ _ _ (hnow.trans hn), engineTurn_mirrors hb hp e h⟩

end

/-! ## The statements -/

/-- Settles O51: a state mirrors itself, and so does the state after the command. -/
theorem channelCommandFrame : Obligations.ChannelCommandFrame := by
  intro i s t c d hb hd ht
  obtain ⟨t₁, t₂, h₁, h₂, h⟩ := exec_mirrors hb (mirrors_of_agree (s := s) rfl rfl) rfl
  obtain rfl := Host.Outcome.next.inj (ht.symm.trans h₂)
  exact ⟨h.others d hd, h.same_glob, h.hostData, h.turns, h.tick⟩

/-- Settles O52: states that agree on the channel and on the global bank mirror each other, and so do the states after
the command. -/
theorem channelNoninterference : Obligations.ChannelNoninterference := by
  intro i s s' t t' c hb hchan hglob hnow ht ht'
  obtain ⟨t₁, t₂, h₁, h₂, h⟩ := exec_mirrors hb (mirrors_of_agree hchan.symm hglob.symm) hnow.symm
  obtain rfl := Host.Outcome.next.inj (ht.symm.trans h₁)
  obtain rfl := Host.Outcome.next.inj (ht'.symm.trans h₂)
  exact h.chan.symm

end Sys2Proof.Machine
end

section
/-! SUPPORT. The state after power-on reset (70_reset_and_hazards.md R370): what the registers read, bank by bank, and
that no engine runs a command. -/

namespace Sys2Proof.Machine

/-! ## Reset banks -/

/-- Power-on resets both channels alike. -/
@[simp] theorem State.reset_chan (c : Chan) : State.reset.chan c = {} := by cases c <;> rfl

@[simp] theorem State.reset_eng (e : Bank) : State.reset.eng e = {} := by
  cases e with
  | global => rfl
  | chan c => rw [State.eng_chan, State.reset_chan]

theorem gidWord_default : gidWord {} = 0 := by decide

theorem gstatusWord_default : gstatusWord {} = 0 := by decide

theorem statusWord_default : statusWord {} = 0 := by decide

/-- STATUS and the registers with reserved bits assemble the word they read; the others read the word they store, and
CMD reads 0 always. -/
theorem readChan_default (r : ChanReg) : readChan {} r = 0 := by
  cases r with
  | status => exact statusWord_default
  | chCfg | reqMode | rslParams | tmParams => decide
  | _ => rfl

/-! ## Command owners (10_state.md R32) -/

theorem State.cmdOwners_eq_nil {s : State} (h : ∀ e, s.running e = none) : s.cmdOwners = [] := by
  simp [State.cmdOwners, h]

theorem State.reset_running (e : Bank) : State.reset.running e = none := by
  rw [State.running, State.reset_eng]

/-! ## The statement -/

/-- Settles O58: the global bank and both channels hold their default values, and no engine runs a command. -/
theorem resetState : Obligations.ResetState := by
  refine ⟨gidWord_default, rfl, rfl, rfl, rfl, rfl, rfl, gstatusWord_default, rfl, rfl, rfl,
    State.cmdOwners_eq_nil State.reset_running, fun c => ?_⟩
  rw [State.reset_chan]
  exact ⟨statusWord_default, rfl, rfl, readChan_default, rfl, rfl, rfl, rfl, rfl⟩

end Sys2Proof.Machine
end
